-- ==== Sys2Proof/Word.lean ====
section
/-! DEFINITION. The bytes and words that the part's frames carry (R182). Every other quantity of the manual is a
number with a stated range and is held as a natural number. -/

namespace Sys2Proof

/-- One byte of a frame. -/
abbrev Byte := BitVec 8

/-- Two bytes: a frame check, or a field of a met frame. -/
abbrev Word := BitVec 16

end Sys2Proof
end

