-- ==== Sys2Proof/Config.lean ====
section
/-! DEFINITION. What the specification leaves open. Each constant has no body: no proof can see its value, and a claim
about the model holds whatever it is. -/

namespace Sys2Proof.Config

/-- FREE VALUE (log 8). Where several listeners, sources or patterns are to be served in one event and no rule orders
them (R127, R119), draw `n` serves item `i` before item `j` where this is true. -/
opaque before (n i j : Nat) : Bool

/-- FREE VALUE (log 11). The byte that Read Status gives for the start-up state (R180): R184 lists no code for it.
The argument is 0 for STARTING, 1 for READY and 2 for UNCONFIGURED. -/
opaque startUpCode (state : Nat) : Byte

/-- FREE VALUE (log 12). The serial byte of an "order kind and serial, or none" item of Read Fleet (R48) where there is
no order: R184 codes the kind as 0 and says nothing of the serial. -/
opaque noOrderSerial : Byte

/-- FREE VALUE (log 13). Whether the minutes remaining on the round timer (R102) are rounded up where the seconds
remaining are not a whole number of minutes. -/
opaque minutesRoundUp : Bool

/-- FREE VALUE (log 24). How a cold reset that stops a save leaves the target slot (R196: "may be left bad"), for draw
`n`: bad, as it was, or whole. -/
opaque tornSave (n : Nat) : Fin 3

end Sys2Proof.Config
end

