-- ==== Sys2Proof/Syntax.lean ====
section
/-! DEFINITION. The commands of the part: one constructor of `Instr` for each row of spec/opcode_table.json.
A request carries the port its frame came on and the bytes of its body (R183); its kind is the constructor. -/

namespace Sys2Proof

/-- The three serial links (R168). -/
inductive Port where
  | plant
  | tracker
  | fleet
  deriving DecidableEq, Repr

/-- The request kinds of the catalogue (R173), in its order. -/
inductive Kind where
  | readStatus | readNotices | raiseAlert
  | readOrders | postureReport | energyReport | readRows | setFence | clearFence | readFences
  | robotStatus | orderDone | carriagePosition | robotFault | enrollRobot | clearRobot | writeOffRobot
  | clearCarriage | readFleet
  | transfer | cancelTransfer | readTransfers
  | roundBuild | sweep | plantPass | cancelEntry | readRounds
  | setLane | setListener | testPulse | setPattern | readAlerts | readMet
  | stowNow | release | readStorm
  | closePeriod | readAccount | readRing
  | writeSetting | readSetting | commitSettings | saveSettings | fleetRestart
  deriving DecidableEq, Repr

/-- The two alert output lines (R111). -/
inductive OutLine where
  | a
  | b
  deriving DecidableEq, Repr

/-- The commands. A request `p body` is one complete request frame on port `p` whose check matches (log 1).
An expiry names the record whose timer expires. -/
inductive Instr where
  | readStatus (p : Port) (body : List Byte)
  | readNotices (p : Port) (body : List Byte)
  | raiseAlert (p : Port) (body : List Byte)
  | readOrders (p : Port) (body : List Byte)
  | postureReport (p : Port) (body : List Byte)
  | energyReport (p : Port) (body : List Byte)
  | readRows (p : Port) (body : List Byte)
  | setFence (p : Port) (body : List Byte)
  | clearFence (p : Port) (body : List Byte)
  | readFences (p : Port) (body : List Byte)
  | robotStatus (p : Port) (body : List Byte)
  | orderDone (p : Port) (body : List Byte)
  | carriagePosition (p : Port) (body : List Byte)
  | robotFault (p : Port) (body : List Byte)
  | enrollRobot (p : Port) (body : List Byte)
  | clearRobot (p : Port) (body : List Byte)
  | writeOffRobot (p : Port) (body : List Byte)
  | clearCarriage (p : Port) (body : List Byte)
  | readFleet (p : Port) (body : List Byte)
  | transfer (p : Port) (body : List Byte)
  | cancelTransfer (p : Port) (body : List Byte)
  | readTransfers (p : Port) (body : List Byte)
  | roundBuild (p : Port) (body : List Byte)
  | sweep (p : Port) (body : List Byte)
  | plantPass (p : Port) (body : List Byte)
  | cancelEntry (p : Port) (body : List Byte)
  | readRounds (p : Port) (body : List Byte)
  | setLane (p : Port) (body : List Byte)
  | setListener (p : Port) (body : List Byte)
  | testPulse (p : Port) (body : List Byte)
  | setPattern (p : Port) (body : List Byte)
  | readAlerts (p : Port) (body : List Byte)
  | readMet (p : Port) (body : List Byte)
  | stowNow (p : Port) (body : List Byte)
  | release (p : Port) (body : List Byte)
  | readStorm (p : Port) (body : List Byte)
  | closePeriod (p : Port) (body : List Byte)
  | readAccount (p : Port) (body : List Byte)
  | readRing (p : Port) (body : List Byte)
  | writeSetting (p : Port) (body : List Byte)
  | readSetting (p : Port) (body : List Byte)
  | commitSettings (p : Port) (body : List Byte)
  | saveSettings (p : Port) (body : List Byte)
  | fleetRestart (p : Port) (body : List Byte)
  /-- A complete frame with a good check whose kind byte is in no row of R173. -/
  | unknownKindRequest (p : Port) (kind : Byte) (body : List Byte)
  /-- A frame ended by its length byte, 0 or above 41. -/
  | badLengthFrame (p : Port) (length : Byte)
  /-- A byte received outside any frame. -/
  | strayByte (p : Port) (b : Byte)
  | frameGapTimeout (p : Port)
  | framingErrorByte (p : Port)
  /-- A frame whose sync byte was received while the transmitter was SENDING, at its end. -/
  | overrunFrame (p : Port)
  | answerSent (p : Port)
  /-- A complete met frame: sequence number, eight fields, check (R186). -/
  | metFrame (seq : Byte) (fields : List Word) (check : Word)
  | metStrayByte (b : Byte)
  | metFrameGap
  | metSilenceExpiry
  /-- The sampled levels of W and D. -/
  | alarmInputSample (w d : Bool)
  | coldReset
  | resetRelease
  /-- The load ends: the memory has been read, and W and D stand at these levels. -/
  | startUpLoadEnd (w d : Bool)
  /-- The write and read-back of a save have finished; `good` says whether the memory holds what was written. -/
  | saveComplete (good : Bool)
  | saveTimeout
  | flattenTimerExpiry (row : Nat)
  | holdTimerExpiry (row : Nat)
  | settleTimerExpiry (row : Nat)
  | stowTimerExpiry (row : Nat)
  | minuteEvent
  | robotSilenceExpiry (robot : Nat)
  /-- The phase timer of the transfer that holds this tag. -/
  | phaseTimerExpiry (tag : Nat)
  | nudgeTimerExpiry (carriage : Nat)
  | roundTimerExpiry
  | passTimerExpiry (robot : Nat)
  | stretchTimerExpiry (line : OutLine)
  | recallDeadlineExpiry
  | secondEvent
  | intervalExpiry
  | closeWalkStep
  /-- A complete frame whose two check bytes do not match its check. -/
  | failedCheckFrame (p : Port) (kind : Byte) (body : List Byte) (check : Word)
  deriving DecidableEq, Repr

end Sys2Proof
end

