-- ==== Sys2Proof/Decode.lean ====
section
/-! DEFINITION. The request catalogue (R173), the frame check (R182), the layout of a request frame (R183) and of a met
frame (R186), and the command that a whole frame stands for. No row of spec/opcode_table.json gives bits, so
`decodeTableWord` spells no command. -/

namespace Sys2Proof

/-- The number's low byte. -/
def byte (n : Nat) : Byte := BitVec.ofNat 8 n

/-- Two bytes, high byte first (R182). -/
def twoBytes (n : Nat) : List Byte := [byte (n / 256), byte n]

/-- Four bytes, high byte first (R182). -/
def fourBytes (n : Nat) : List Byte := [byte (n / 16777216), byte (n / 65536), byte (n / 256), byte n]

/-- Byte `i` of a body, 0 beyond its end. -/
def byteAt (body : List Byte) (i : Nat) : Nat := (body.getD i 0).toNat

/-- The two bytes at `i` and `i + 1`, high byte first (R182). -/
def wordAt (body : List Byte) (i : Nat) : Nat := byteAt body i * 256 + byteAt body (i + 1)

/-- The kind code of R173. -/
def Kind.code : Kind → Byte
  | .readStatus => 0x01 | .readNotices => 0x02 | .raiseAlert => 0x03
  | .readOrders => 0x10 | .postureReport => 0x11 | .energyReport => 0x12 | .readRows => 0x13
  | .setFence => 0x14 | .clearFence => 0x15 | .readFences => 0x16
  | .robotStatus => 0x20 | .orderDone => 0x21 | .carriagePosition => 0x22 | .robotFault => 0x23
  | .enrollRobot => 0x24 | .clearRobot => 0x25 | .writeOffRobot => 0x26 | .clearCarriage => 0x27
  | .readFleet => 0x28
  | .transfer => 0x30 | .cancelTransfer => 0x31 | .readTransfers => 0x32
  | .roundBuild => 0x40 | .sweep => 0x41 | .plantPass => 0x42 | .cancelEntry => 0x43 | .readRounds => 0x44
  | .setLane => 0x50 | .setListener => 0x51 | .testPulse => 0x52 | .setPattern => 0x53
  | .readAlerts => 0x54 | .readMet => 0x55
  | .stowNow => 0x60 | .release => 0x61 | .readStorm => 0x62
  | .closePeriod => 0x70 | .readAccount => 0x71 | .readRing => 0x72
  | .writeSetting => 0x80 | .readSetting => 0x81 | .commitSettings => 0x82 | .saveSettings => 0x83
  | .fleetRestart => 0x84

/-- The body length of R173. -/
def Kind.bodyLength : Kind → Nat
  | .readStatus => 0 | .readNotices => 1 | .raiseAlert => 0
  | .readOrders => 1 | .postureReport => 2 | .energyReport => 7 | .readRows => 1
  | .setFence => 3 | .clearFence => 1 | .readFences => 0
  | .robotStatus => 4 | .orderDone => 5 | .carriagePosition => 2 | .robotFault => 1
  | .enrollRobot => 1 | .clearRobot => 1 | .writeOffRobot => 1 | .clearCarriage => 2
  | .readFleet => 1
  | .transfer => 3 | .cancelTransfer => 1 | .readTransfers => 1
  | .roundBuild => 1 | .sweep => 0 | .plantPass => 2 | .cancelEntry => 1 | .readRounds => 1
  | .setLane => 2 | .setListener => 2 | .testPulse => 1 | .setPattern => 20
  | .readAlerts => 0 | .readMet => 1
  | .stowNow => 0 | .release => 0 | .readStorm => 0
  | .closePeriod => 0 | .readAccount => 2 | .readRing => 2
  | .writeSetting => 3 | .readSetting => 1 | .commitSettings => 0 | .saveSettings => 0
  | .fleetRestart => 0

/-- Whether the kind is permitted on the port: columns P, T and F of R173. -/
def Kind.permitted (k : Kind) : Port → Bool
  | .plant => match k with
    | .readOrders | .postureReport | .energyReport | .robotStatus | .orderDone | .carriagePosition
    | .robotFault => false
    | _ => true
  | .tracker => match k with
    | .readStatus | .readNotices | .raiseAlert | .readOrders | .postureReport | .energyReport | .readRows
    | .readFences | .readAlerts | .readMet | .readStorm | .readAccount | .readRing => true
    | _ => false
  | .fleet => match k with
    | .readStatus | .readNotices | .raiseAlert | .readOrders | .readRows | .robotStatus | .orderDone
    | .carriagePosition | .robotFault | .readFleet | .transfer | .cancelTransfer | .readTransfers
    | .readRounds | .readAlerts | .readStorm => true
    | _ => false

/-- Whether the kind is taken on the port while the part is UNCONFIGURED: column U of R173, read by R174. -/
def Kind.takenUnconfigured (k : Kind) : Port → Bool
  | .plant => match k with
    | .readStatus | .readNotices | .readRows | .setFence | .clearFence | .readFences | .enrollRobot
    | .readFleet | .readTransfers | .readRounds | .setLane | .setListener | .setPattern | .readAlerts
    | .readMet | .readStorm | .readAccount | .readRing | .writeSetting | .readSetting | .commitSettings
    | .saveSettings => true
    | _ => false
  | .tracker | .fleet => match k with
    | .readStatus | .readNotices => true
    | _ => false

/-- The command of a request of kind `k` with this body on port `p`. -/
def Kind.command (k : Kind) (p : Port) (body : List Byte) : Instr :=
  match k with
  | .readStatus => .readStatus p body | .readNotices => .readNotices p body
  | .raiseAlert => .raiseAlert p body | .readOrders => .readOrders p body
  | .postureReport => .postureReport p body | .energyReport => .energyReport p body
  | .readRows => .readRows p body | .setFence => .setFence p body | .clearFence => .clearFence p body
  | .readFences => .readFences p body | .robotStatus => .robotStatus p body
  | .orderDone => .orderDone p body | .carriagePosition => .carriagePosition p body
  | .robotFault => .robotFault p body | .enrollRobot => .enrollRobot p body
  | .clearRobot => .clearRobot p body | .writeOffRobot => .writeOffRobot p body
  | .clearCarriage => .clearCarriage p body | .readFleet => .readFleet p body
  | .transfer => .transfer p body | .cancelTransfer => .cancelTransfer p body
  | .readTransfers => .readTransfers p body | .roundBuild => .roundBuild p body
  | .sweep => .sweep p body | .plantPass => .plantPass p body | .cancelEntry => .cancelEntry p body
  | .readRounds => .readRounds p body | .setLane => .setLane p body
  | .setListener => .setListener p body | .testPulse => .testPulse p body
  | .setPattern => .setPattern p body | .readAlerts => .readAlerts p body | .readMet => .readMet p body
  | .stowNow => .stowNow p body | .release => .release p body | .readStorm => .readStorm p body
  | .closePeriod => .closePeriod p body | .readAccount => .readAccount p body
  | .readRing => .readRing p body | .writeSetting => .writeSetting p body
  | .readSetting => .readSetting p body | .commitSettings => .commitSettings p body
  | .saveSettings => .saveSettings p body | .fleetRestart => .fleetRestart p body

/-- Every kind of the catalogue. -/
def Kind.all : List Kind :=
  [.readStatus, .readNotices, .raiseAlert, .readOrders, .postureReport, .energyReport, .readRows, .setFence,
   .clearFence, .readFences, .robotStatus, .orderDone, .carriagePosition, .robotFault, .enrollRobot] ++
  [.clearRobot, .writeOffRobot, .clearCarriage, .readFleet, .transfer, .cancelTransfer, .readTransfers,
   .roundBuild, .sweep, .plantPass, .cancelEntry, .readRounds, .setLane, .setListener, .testPulse] ++
  [.setPattern, .readAlerts, .readMet, .stowNow, .release, .readStorm, .closePeriod, .readAccount,
   .readRing, .writeSetting, .readSetting, .commitSettings, .saveSettings, .fleetRestart]

/-- The kind that a kind byte names, if any (R170 case 3). -/
def Kind.ofCode (b : Byte) : Option Kind := Kind.all.find? (fun k => k.code == b)

/-- One bit of the check of R182: the register moves left, and the generator x^16 + x^12 + x^5 + 1 is taken off where a
bit falls out. -/
def checkShift (r : Word) : Word := if r.msb then (r <<< 1) ^^^ 0x1021 else r <<< 1

/-- One byte of the check, most significant bit first. -/
def checkByte (r : Word) (b : Byte) : Word :=
  Nat.repeat checkShift 8 (r ^^^ (b.setWidth 16 <<< 8))

/-- The check of R182 over the covered bytes: the register starts at FFFFh and is not inverted at the end. -/
def frameCheck (covered : List Byte) : Word := covered.foldl checkByte 0xFFFF

/-- The bytes of a request frame that its check covers: length, kind and body (R183). -/
def requestCovered (kind : Byte) (body : List Byte) : List Byte := byte (body.length + 1) :: kind :: body

/-- The whole request frame (R183). -/
def requestFrame (kind : Byte) (body : List Byte) : List Byte :=
  0xA5 :: requestCovered kind body ++ twoBytes (frameCheck (requestCovered kind body)).toNat

/-- The command that the bytes of one frame stand for, its sync byte first (R168, R170, R183): none where the first byte
is no sync byte, or where the bytes are not one whole frame. -/
def frameCommand (p : Port) : List Byte → Option Instr
  | 0xA5 :: l :: rest =>
    if l.toNat = 0 ∨ 41 < l.toNat then
      if rest = [] then some (.badLengthFrame p l) else none
    else match rest with
      | kind :: tail =>
        if tail.length = l.toNat - 1 + 2 then
          let body := tail.take (l.toNat - 1)
          let check := BitVec.ofNat 16 (wordAt tail (l.toNat - 1))
          if check = frameCheck (requestCovered kind body) then
            match Kind.ofCode kind with
            | some k => some (k.command p body)
            | none => some (.unknownKindRequest p kind body)
          else some (.failedCheckFrame p kind body check)
        else none
      | [] => none
  | _ => none

/-- The bytes of a met frame that its check covers (R186). -/
def metCovered (seq : Byte) (fields : List Word) : List Byte :=
  seq :: (fields.map fun f => twoBytes f.toNat).flatten

/-- The table gives no row any bits, so no word of it spells a command. -/
def decodeTableWord (_nbits _w : Nat) : Option Instr := none

end Sys2Proof
end

