-- ==== Sys2Proof/Machine/Types.lean ====
section
/-! DEFINITION. The records of the part, block by block, as plain data. Field names are the manual's. A timer is the
seconds remaining, or `none` while it is stopped. -/

namespace Sys2Proof.Machine

/-- One item for each port. -/
structure Trio (α : Type) where
  plant : α
  tracker : α
  fleet : α
  deriving DecidableEq, Repr

/-! ### Row Table (R1) -/

inductive Custody where
  | track | flattening | open | settle | stowPending | stowed | exposed
  deriving DecidableEq, Repr

/-- What a Posture Report reports (R5). -/
inductive Posture where
  | unknown | tracking | flat | stowed | fault
  deriving DecidableEq, Repr

inductive Wanted where
  | free | flat | stow | hold
  deriving DecidableEq, Repr

/-- The row record of R1; `soiling` is `none` while unknown. wanted_posture follows from `custody` (R3). -/
structure Row where
  custody : Custody
  holder : Option Nat
  reported : Posture
  garageOccupant : Option Nat
  garageReserved : Option Nat
  age : Nat
  soiling : Option Nat
  timer : Option Nat
  unconfirmed : Bool
  deriving DecidableEq, Repr

/-! ### Fleet Table (R29 to R34) -/

inductive Place where
  | unknown
  | dock (d : Nat)
  | garage (r : Nat)
  | midrow (r : Nat)
  | aboard (c : Nat)
  deriving DecidableEq, Repr

inductive PassKind where
  | clean | survey
  deriving DecidableEq, Repr

inductive RobotTask where
  | idle
  | charging
  | pass (row : Nat) (kind : PassKind)
  | toGarage
  | transfer (tag : Nat)
  deriving DecidableEq, Repr

inductive RobotOrder where
  | pass (row : Nat) (kind : PassKind)
  | toGarage (row : Nat)
  deriving DecidableEq, Repr

inductive CarriageOrder where
  | goto (position : Nat)
  | board (robot : Nat)
  | alight (robot : Nat) (place : Place)
  | stay
  deriving DecidableEq, Repr

/-- An order in force and the serial it was issued with (R35). -/
structure Order (α : Type) where
  kind : α
  serial : Nat
  deriving DecidableEq, Repr

/-- The robot record of R30, with its silence timer (R44). `chargeOverMin` and `chargeOverReady` are the comparisons of
`charge` with CHARGE_MIN and CHARGE_READY made at the last report (R32, R192; log 18). -/
structure Robot where
  enrolled : Bool
  place : Place
  task : RobotTask
  order : Option (Order RobotOrder)
  lastSerial : Nat
  charge : Nat
  chargeOverMin : Bool
  chargeOverReady : Bool
  silent : Bool
  fault : Bool
  roundLink : Option Nat
  silenceTimer : Option Nat
  deriving DecidableEq, Repr

inductive CarriageTask where
  | transfer (tag : Nat)
  | nudge
  deriving DecidableEq, Repr

/-- The carriage record of R33. `fault` is the state FAULT; outside it the state follows the order. -/
structure Carriage where
  position : Option Nat
  fault : Bool
  load : Option Nat
  order : Option (Order CarriageOrder)
  lastSerial : Nat
  task : Option CarriageTask
  deriving DecidableEq, Repr

/-- The carriage states of R33. -/
inductive CarriageState where
  | idle | moving | boarding | alighting | fault
  deriving DecidableEq, Repr

/-- The dock record of R34; its position is the live setting. -/
structure Dock where
  occupant : Option Nat
  reservedFor : Option Nat
  deriving DecidableEq, Repr

/-! ### Transfer Engine (R51, R58, R65, R74) -/

inductive TransferOrigin where
  | fleet | plant | round
  deriving DecidableEq, Repr

inductive Purpose where
  | move | round | recharge
  deriving DecidableEq, Repr

inductive Phase where
  | waiting | fetch | board | carry | alight
  deriving DecidableEq, Repr

inductive TransferResult where
  | done | cancelled | failedTimeout | failedOrder | abortedStorm | restarted
  deriving DecidableEq, Repr

/-- A range of segments, both ends included. -/
structure Span where
  first : Nat
  last : Nat
  deriving DecidableEq, Repr

/-- The queue entry of R51. -/
structure Transfer where
  tag : Nat
  origin : TransferOrigin
  purpose : Purpose
  robot : Nat
  source : Place
  destination : Place
  phase : Phase
  carriage : Option Nat
  span : Option Span
  phaseTimer : Option Nat
  roundLink : Option Nat
  deriving DecidableEq, Repr

inductive Cause where
  | transfer (tag : Nat)
  | nudge
  | fault
  deriving DecidableEq, Repr

/-- The reservation of a segment (R58). -/
structure Reservation where
  carriage : Nat
  cause : Cause
  deriving DecidableEq, Repr

/-- The nudge of a carriage: its target and its timer (R65). -/
structure Nudge where
  target : Nat
  timer : Nat
  deriving DecidableEq, Repr

/-- The Transfer Engine's state: 24 segments, one nudge place for each of 3 carriages. -/
structure Rail where
  queue : List Transfer
  tagCounter : Nat
  segments : List (Option Reservation)
  nudges : List (Option Nudge)
  holdoff : Bool
  deriving DecidableEq, Repr

/-! ### Round Scheduler (R79, R83, R84, R94, R102) -/

inductive EntryOrigin where
  | build | sweep | followup | plant
  deriving DecidableEq, Repr

inductive Stage where
  | waiting | moving | claiming | flattening | passing
  deriving DecidableEq, Repr

/-- The round-list entry of R79. -/
structure Entry where
  row : Nat
  kind : PassKind
  origin : EntryOrigin
  robot : Option Nat
  stage : Stage
  deriving DecidableEq, Repr

/-- The eight counters of R102. -/
structure RoundCounters where
  buildsTaken : Nat
  roundsMissed : Nat
  rowsSkipped : Nat
  insertsDropped : Nat
  passesDone : Nat
  passesAborted : Nat
  passTimeouts : Nat
  rechargesSent : Nat
  deriving DecidableEq, Repr

/-- The Round Scheduler's state: the list from head to tail, the round timer in seconds, the rotation group, a build
count for each of 4 groups, a pass timer for each of 12 robot slots. -/
structure Rounds where
  list : List Entry
  timer : Option Nat
  rotation : Nat
  buildCounts : List Nat
  passTimers : List (Option Nat)
  counters : RoundCounters
  deriving DecidableEq, Repr

/-! ### Alert Matrix (R105 to R111) -/

/-- The one-second filter of an alarm input (R106): the filtered level, the last sample, and whether the filter is
started. -/
structure Filter where
  level : Bool
  sample : Bool
  started : Bool
  deriving DecidableEq, Repr

/-- The Alert Matrix's state: the source id of each of 8 lanes, the selection of each of 10 listeners, the stretch timers
(one second long: running or stopped) and the filters. Lane levels, seen levels and output lines follow from these and
from the source levels (R107, R109, R111). -/
structure Alerts where
  lanes : List Nat
  listeners : List Nat
  stretchA : Bool
  stretchB : Bool
  lineW : Filter
  lineD : Filter
  deriving DecidableEq, Repr

/-- How a lane changes, as its listeners are told of it (R107, R113). -/
inductive Edge where
  | rise | fall | pulse | test
  deriving DecidableEq, Repr

/-! ### Stow Sequencer (R123, R140) -/

inductive StormState where
  | calm | warned | recall | stowing | parked
  deriving DecidableEq, Repr

inductive StormCause where
  | none | watchRise | watchFall | stowEdge | stowNow | tablesClear | deadline | allStowed | release
  deriving DecidableEq, Repr

/-- The lane of a STOW edge and whether the edge came from a Test Pulse. -/
structure CauseLane where
  lane : Nat
  test : Bool
  deriving DecidableEq, Repr

/-- The four counters of R140. -/
structure StormCounters where
  recalls : Nat
  deadlineExpiries : Nat
  rowsExposed : Nat
  releaseRefusals : Nat
  deriving DecidableEq, Repr

/-- The storm record of R123. The cause of the last recall is `recallCause` (STOW_EDGE, STOW_NOW or none) with
`recallLane`. -/
structure Storm where
  state : StormState
  enteredAt : Nat
  lastCause : StormCause
  causeLane : Option CauseLane
  recallCause : StormCause
  recallLane : Option CauseLane
  deadline : Option Nat
  counters : StormCounters
  deriving DecidableEq, Repr

/-! ### Met Receiver (R116 to R121) -/

/-- The stored last frame (R117). -/
structure MetRecord where
  seq : Nat
  fields : List Nat
  stamp : Nat
  deriving DecidableEq, Repr

/-- A pattern entry (R119): for each of the eight fields whether it is in the field set, its threshold, and whether it is
compared *at or below*. -/
structure Pattern where
  inSet : List Bool
  thresholds : List Nat
  below : List Bool
  runLength : Nat
  runCounter : Nat
  deriving DecidableEq, Repr

/-- The six counters of R121. -/
structure MetCounters where
  goodFrames : Nat
  dupFrames : Nat
  seqGaps : Nat
  badFrames : Nat
  shortFrames : Nat
  strayBytes : Nat
  deriving DecidableEq, Repr

/-- The Met Receiver's state but for the MET_SILENT level, which the Alert Matrix reads: whether the receiver is inside a
frame, the last frame, the silence timer, the four patterns, the counters. -/
structure Met where
  inFrame : Bool
  last : Option MetRecord
  timer : Option Nat
  patterns : List Pattern
  counters : MetCounters
  deriving DecidableEq, Repr

/-! ### Account Unit (R143 to R158) -/

/-- The classes of R143. -/
inductive Class where
  | soil | fence | hold | stow | exposed
  deriving DecidableEq, Repr

/-- One number for each class. -/
structure PerClass where
  soil : Nat
  fence : Nat
  hold : Nat
  stow : Nat
  exposed : Nat
  deriving DecidableEq, Repr

/-- An open or pending record (R144, R148): the interval's number and its seconds. -/
structure Gathered where
  seq : Nat
  secs : PerClass
  deriving DecidableEq, Repr

/-- A ring record (R156). -/
structure RingRecord where
  seq : Nat
  expected : Nat
  actual : Nat
  loss : Nat
  cls : Class
  missing : Bool
  deriving DecidableEq, Repr

/-- The period counters of R145. -/
structure Period where
  expectedWh : Nat
  actualWh : Nat
  loss : PerClass
  lossTotal : Nat
  intervals : Nat
  reported : Nat
  missing : Nat
  lateReports : Nat
  deriving DecidableEq, Repr

/-- The records of one row; the ring is newest first. -/
structure RowAccount where
  gathering : Gathered
  pending : Option Gathered
  ring : List RingRecord
  period : Period
  snapshot : Period
  snapshotOf : Option Nat
  deriving DecidableEq, Repr

/-- A close walk in flight (R158): the period it closes, the next row, and the number of rows it walks. -/
structure Walk where
  period : Nat
  next : Nat
  rows : Nat
  deriving DecidableEq, Repr

/-- The Account Unit's state. `intervalLength` is the INTERVAL the running timer was started with; `expiryTaken` says that
the last second event took the interval expiry within itself (R147; log 7). -/
structure Accounts where
  rows : List RowAccount
  seq : Nat
  timer : Option Nat
  intervalLength : Nat
  expiryTaken : Bool
  periodNumber : Nat
  walk : Option Walk
  deriving DecidableEq, Repr

/-! ### Port Interface (R168 to R172, R175, R176) -/

inductive Status where
  | ok | accepted | full | busy | refused | ignored | stale | early | late | notPermitted | malformed
  | starting | unconfigured
  deriving DecidableEq, Repr

inductive Reason where
  | none | barred | held | settling | state | robotBusy | place | range | alertActive | notOwner | order
  deriving DecidableEq, Repr

/-- What a request's rule gives for its answer. -/
structure Reply where
  status : Status
  reason : Reason
  body : List Byte
  deriving DecidableEq, Repr

/-- An answer: the kind byte it echoes and the reply (R183). -/
structure Answer where
  kind : Byte
  reply : Reply
  deriving DecidableEq, Repr

/-- The receiver of a port (R168); `marked` says that the frame being received is marked overrun (R169). -/
inductive Receiver where
  | hunting
  | receiving (marked : Bool)
  deriving DecidableEq, Repr

/-- The transmitter of a port (R169), with the answer it is sending. -/
inductive Transmitter where
  | idle
  | sending (a : Answer)
  deriving DecidableEq, Repr

/-- The link of a port: receiver, transmitter and the four link counters (R171). -/
structure Link where
  receiver : Receiver
  transmitter : Transmitter
  strayBytes : Nat
  truncated : Nat
  malformed : Nat
  overrun : Nat
  deriving DecidableEq, Repr

/-- The notice kinds of R177. -/
inductive NoticeKind where
  | flattenTimeout | stowUnconfirmed | exposed | rowAdopted | carriageFault | robotFault | robotSilent
  | transferEnd | holdoff | roundDue | passTimeout | alert | stowState | soilAlert | intervalEnd
  | periodClosed | settingsSaved
  deriving DecidableEq, Repr

/-- A notice record (R176): kind, three subject bytes, detail, stamp. -/
structure Notice where
  kind : NoticeKind
  subject : Nat × Nat × Nat
  detail : Nat
  stamp : Nat
  deriving DecidableEq, Repr

/-- A port's notice queue, oldest first, and its notices_lost (R175). -/
structure NoticeBox where
  queue : List Notice
  lost : Nat
  deriving DecidableEq, Repr

/-! ### Settings Loader (R189, R194, R196, R197) -/

inductive StartUp where
  | starting | ready | unconfigured
  deriving DecidableEq, Repr

inductive RowPolicy where
  | close | hold
  deriving DecidableEq, Repr

inductive RoundSource where
  | timer | request
  deriving DecidableEq, Repr

/-- The settings of R189; `dockPos` holds DOCK0_POS to DOCK3_POS. -/
structure Settings where
  rows : Nat
  groups : Nat
  carriages : Nat
  docks : Nat
  dockPos : List Nat
  rowPolicy : RowPolicy
  roundSource : RoundSource
  roundPeriod : Nat
  cleanInterval : Nat
  surveyEvery : Nat
  dirtyLimit : Nat
  sweepLimit : Nat
  residual : Nat
  chargeMin : Nat
  chargeReady : Nat
  settleTime : Nat
  flattenLimit : Nat
  holdLimit : Nat
  passLimit : Nat
  phaseLimit : Nat
  stowDeadline : Nat
  stowLimit : Nat
  robotSilence : Nat
  metSilence : Nat
  interval : Nat
  holdoffCount : Nat
  holdoffSegments : Nat
  deriving DecidableEq, Repr

/-- The contents of an image slot (R194). The byte layout of an image is not given, so its check and its format version
are held as whether they are good (log 25). -/
structure Image where
  checkMatches : Bool
  formatRecognised : Bool
  generation : Nat
  settings : Settings
  enrolled : List Bool
  fences : List (Option (Nat × Nat))
  lanes : List Nat
  listeners : List Nat
  patterns : List Pattern
  deriving DecidableEq, Repr

/-- A save in flight (R196): the image being written and its target slot. -/
structure Save where
  image : Image
  slot : Nat
  deriving DecidableEq, Repr

/-- The Settings Loader's state but for the live settings and the start-up state, which every block reads: the current
slot and generation, the save in flight, and the two slots of the external memory. -/
structure Loader where
  current : Option Nat
  generation : Nat
  save : Option Save
  slot0 : Image
  slot1 : Image
  deriving DecidableEq, Repr

/-- The blocks that act on one another within an event: the Row Table, the Fleet Table, the Transfer Engine, the Round
Scheduler, the Alert Matrix, the Stow Sequencer and the notice queues, with the settings, the start-up state and the
seconds stamp they read. `assign` is set while the event in progress has given an assignment event (R90);
`freeCount` counts the free orders drawn (log 8). -/
structure Yard where
  settings : Settings
  startUp : StartUp
  stamp : Nat
  rows : List Row
  fences : List (Option (Nat × Nat))
  robots : List Robot
  carriages : List Carriage
  docks : List Dock
  staleReports : Nat
  refusedReports : Nat
  rail : Rail
  rounds : Rounds
  alerts : Alerts
  metSilent : Bool
  storm : Storm
  boxes : Trio NoticeBox
  assign : Bool
  freeCount : Nat
  deriving DecidableEq, Repr

end Sys2Proof.Machine
end

