-- ==== Sys2Proof/Machine/Defaults.lean ====
section
/-! DEFINITION. The values that records take at cold reset, and the default settings (R189). -/

namespace Sys2Proof.Machine

/-- A counter of the manual: it saturates at 65535 (Conventions). -/
def bump (n : Nat) : Nat := min (n + 1) 65535

/-- The defaults of R189. -/
def defaultSettings : Settings where
  rows := 192
  groups := 2
  carriages := 2
  docks := 2
  dockPos := [0, 191, 64, 128]
  rowPolicy := .close
  roundSource := .timer
  roundPeriod := 60
  cleanInterval := 168
  surveyEvery := 4
  dirtyLimit := 30
  sweepLimit := 15
  residual := 5
  chargeMin := 35
  chargeReady := 90
  settleTime := 300
  flattenLimit := 240
  holdLimit := 600
  passLimit := 2400
  phaseLimit := 180
  stowDeadline := 300
  stowLimit := 180
  robotSilence := 60
  metSilence := 30
  interval := 900
  holdoffCount := 6
  holdoffSegments := 16

/-- The age a row takes at cold reset and at a structural change (R26). -/
def startAge (st : Settings) : Nat := min (st.cleanInterval * 60) 65535

/-- The row record at cold reset (R27). -/
def freshRow (age : Nat) : Row where
  custody := .track
  holder := none
  reported := .unknown
  garageOccupant := none
  garageReserved := none
  age := age
  soiling := none
  timer := none
  unconfirmed := false

/-- Every row record of the live ROWS at cold reset (R27). -/
def freshRows (st : Settings) : List Row := List.replicate st.rows (freshRow (startAge st))

/-- A robot record with no work and place UNKNOWN (R45, R46, R49). -/
def freshRobot (enrolled : Bool) (lastSerial : Nat) (silenceTimer : Option Nat) : Robot where
  enrolled := enrolled
  place := .unknown
  task := .idle
  order := none
  lastSerial := lastSerial
  charge := 0
  chargeOverMin := false
  chargeOverReady := false
  silent := false
  fault := false
  roundLink := none
  silenceTimer := silenceTimer

/-- A carriage record at cold reset (R49), with the serial that a structural change keeps. -/
def freshCarriage (lastSerial : Nat) : Carriage where
  position := none
  fault := false
  load := none
  order := none
  lastSerial := lastSerial
  task := none

/-- A dock record at cold reset (R49). -/
def freshDock : Dock where
  occupant := none
  reservedFor := none

/-- The Transfer Engine at cold reset (R77). -/
def freshRail : Rail where
  queue := []
  tagCounter := 0
  segments := List.replicate 24 none
  nudges := List.replicate 3 none
  holdoff := false

/-- The counters of R102 at 0. -/
def freshRoundCounters : RoundCounters := ⟨0, 0, 0, 0, 0, 0, 0, 0⟩

/-- The Round Scheduler at cold reset (R103), with its round timer. -/
def freshRounds (timer : Option Nat) : Rounds where
  list := []
  timer := timer
  rotation := 0
  buildCounts := List.replicate 4 0
  passTimers := List.replicate 12 none
  counters := freshRoundCounters

/-- An alarm filter before the settings are applied: stopped (R122), with both levels low (log 32). -/
def freshFilter : Filter := ⟨false, false, false⟩

/-- The Alert Matrix at cold reset (R122). -/
def freshAlerts : Alerts where
  lanes := List.replicate 8 0
  listeners := List.replicate 10 0
  stretchA := false
  stretchB := false
  lineW := freshFilter
  lineD := freshFilter

/-- The counters of R140 at 0. -/
def freshStormCounters : StormCounters := ⟨0, 0, 0, 0⟩

/-- The storm record at cold reset (R141). -/
def freshStorm : Storm where
  state := .calm
  enteredAt := 0
  lastCause := .none
  causeLane := none
  recallCause := .none
  recallLane := none
  deadline := none
  counters := freshStormCounters

/-- An empty pattern entry (R122). -/
def freshPattern : Pattern where
  inSet := List.replicate 8 false
  thresholds := List.replicate 8 0
  below := List.replicate 8 false
  runLength := 1
  runCounter := 0

/-- The counters of R121 at 0. -/
def freshMetCounters : MetCounters := ⟨0, 0, 0, 0, 0, 0⟩

/-- The Met Receiver at cold reset (R122). -/
def freshMet : Met where
  inFrame := false
  last := none
  timer := none
  patterns := List.replicate 4 freshPattern
  counters := freshMetCounters

/-- Nothing charged to any class. -/
def noneOfClass : PerClass := ⟨0, 0, 0, 0, 0⟩

/-- A record that has gathered no second (R148). -/
def freshGathered (seq : Nat) : Gathered := ⟨seq, noneOfClass⟩

/-- The period counters at 0 (R159, R165). -/
def freshPeriod : Period := ⟨0, 0, noneOfClass, 0, 0, 0, 0, 0⟩

/-- The records of one row at cold reset (R165); a row added later carries the current S (R166). -/
def freshRowAccount (seq : Nat) : RowAccount where
  gathering := freshGathered seq
  pending := none
  ring := []
  period := freshPeriod
  snapshot := freshPeriod
  snapshotOf := none

/-- The Account Unit at cold reset (R165). -/
def freshAccounts (st : Settings) : Accounts where
  rows := List.replicate st.rows (freshRowAccount 0)
  seq := 0
  timer := none
  intervalLength := 0
  expiryTaken := false
  periodNumber := 0
  walk := none

/-- A port's link at cold reset (R181). -/
def freshLink : Link where
  receiver := .hunting
  transmitter := .idle
  strayBytes := 0
  truncated := 0
  malformed := 0
  overrun := 0

/-- An empty notice queue (R181). -/
def freshBox : NoticeBox := ⟨[], 0⟩

/-- A slot that has never been written: its check fails (R194). -/
def blankImage : Image where
  checkMatches := false
  formatRecognised := false
  generation := 0
  settings := defaultSettings
  enrolled := []
  fences := []
  lanes := []
  listeners := []
  patterns := []

/-- The Settings Loader at cold reset (R202), with the memory's two slots, which a cold reset leaves as they are. -/
def freshLoader (slot0 slot1 : Image) : Loader where
  current := none
  generation := 0
  save := none
  slot0 := slot0
  slot1 := slot1

/-- Every block of the yard at cold reset: the live settings are the defaults, no robot is enrolled (R202). -/
def freshYard (freeCount : Nat) : Yard where
  settings := defaultSettings
  startUp := .starting
  stamp := 0
  rows := freshRows defaultSettings
  fences := List.replicate 8 none
  robots := List.replicate 12 (freshRobot false 0 none)
  carriages := List.replicate 3 (freshCarriage 0)
  docks := List.replicate 4 freshDock
  staleReports := 0
  refusedReports := 0
  rail := freshRail
  rounds := freshRounds none
  alerts := freshAlerts
  metSilent := false
  storm := freshStorm
  boxes := ⟨freshBox, freshBox, freshBox⟩
  assign := false
  freeCount := freeCount

end Sys2Proof.Machine
end

