-- ==== Sys2Proof/Machine/State.lean ====
section
/-! DEFINITION. The state of the part, the reasons a step can stop, and the state after reset. -/

namespace Sys2Proof.Machine

/-- The state of the part. `resetN` is the level of the RESET_N input (R188); `pending` is the queue of the commands that
wait, the first at its head. -/
structure State where
  yard : Yard
  links : Trio Link
  met : Met
  accounts : Accounts
  loader : Loader
  resetN : Bool
  pending : List Instr
  deriving DecidableEq, Repr

/-- Faults: none. The manual names no event that stops the part: it answers, counts or discards what it cannot take. -/
inductive Fault where
  deriving DecidableEq, Repr

/-- Refusals. -/
inductive Refusal where
  /-- Raised by `exec` for a command that has no meaning in the model yet: none. Safe. -/
  | notModelled (mnemonic : String)
  deriving DecidableEq, Repr

/-- The part right after reset: every block at its cold-reset values, RESET_N high again and the start-up load under way
(R197; log 4), the settings memory never written (log 24), no command waiting. -/
def State.reset : State where
  yard := freshYard 0
  links := ⟨freshLink, freshLink, freshLink⟩
  met := freshMet
  accounts := freshAccounts defaultSettings
  loader := freshLoader blankImage blankImage
  resetN := true
  pending := []

end Sys2Proof.Machine
end

