-- ==== Sys2Proof/Machine/Operands.lean ====
section
/-! DEFINITION. The codes of R177, R183 and R184: how values stand in request bodies, answer bodies and notices, and the
layout of an answer frame and a notice record. -/

namespace Sys2Proof.Machine

/-! ### Reading a body -/

/-- A place of two bytes (R184). A code above 4, or UNKNOWN with a low byte other than 0, is no place. -/
def placeOf (high low : Nat) : Option Place :=
  match high with
  | 0 => if low = 0 then some .unknown else none
  | 1 => some (.dock low)
  | 2 => some (.garage low)
  | 3 => some (.midrow low)
  | 4 => some (.aboard low)
  | _ => none

/-- The posture that a Posture Report's byte names; UNKNOWN and other values are refused (R5). -/
def postureOf : Nat → Option Posture
  | 1 => some .tracking
  | 2 => some .flat
  | 3 => some .stowed
  | 4 => some .fault
  | _ => none

/-- The pass kind that a byte names (R184). -/
def passKindOf : Nat → Option PassKind
  | 0 => some .clean
  | 1 => some .survey
  | _ => none

/-- Bit `i` of a byte, counted from the least significant. -/
def bitOf (b i : Nat) : Bool := b / 2 ^ i % 2 == 1

/-- The eight bits of a byte, bit 0 first. -/
def bitsOf (b : Nat) : List Bool := (List.range 8).map (bitOf b)

/-! ### Codes -/

def Posture.code : Posture → Nat
  | .unknown => 0 | .tracking => 1 | .flat => 2 | .stowed => 3 | .fault => 4

def Wanted.code : Wanted → Nat
  | .free => 0 | .flat => 1 | .stow => 2 | .hold => 3

def Custody.code : Custody → Nat
  | .track => 0 | .flattening => 1 | .open => 2 | .settle => 3 | .stowPending => 4 | .stowed => 5 | .exposed => 6

def PassKind.code : PassKind → Nat
  | .clean => 0 | .survey => 1

/-- The two bytes of a place as one number (R184). -/
def Place.code : Place → Nat
  | .unknown => 0
  | .dock d => 256 + d
  | .garage r => 512 + r
  | .midrow r => 768 + r
  | .aboard c => 1024 + c

def TransferResult.code : TransferResult → Nat
  | .done => 0 | .cancelled => 1 | .failedTimeout => 2 | .failedOrder => 3 | .abortedStorm => 4 | .restarted => 5

def StormState.code : StormState → Nat
  | .calm => 0 | .warned => 1 | .recall => 2 | .stowing => 3 | .parked => 4

def StormCause.code : StormCause → Nat
  | .none => 0 | .watchRise => 1 | .watchFall => 2 | .stowEdge => 3 | .stowNow => 4 | .tablesClear => 5
  | .deadline => 6 | .allStowed => 7 | .release => 8

def CarriageState.code : CarriageState → Nat
  | .idle => 0 | .moving => 1 | .boarding => 2 | .alighting => 3 | .fault => 4

def TransferOrigin.code : TransferOrigin → Nat
  | .fleet => 0 | .plant => 1 | .round => 2

def Purpose.code : Purpose → Nat
  | .move => 0 | .round => 1 | .recharge => 2

def Phase.code : Phase → Nat
  | .waiting => 0 | .fetch => 1 | .board => 2 | .carry => 3 | .alight => 4

def EntryOrigin.code : EntryOrigin → Nat
  | .build => 0 | .sweep => 1 | .followup => 2 | .plant => 3

def Stage.code : Stage → Nat
  | .waiting => 0 | .moving => 1 | .claiming => 2 | .flattening => 3 | .passing => 4

def Class.code : Class → Nat
  | .soil => 0 | .fence => 1 | .hold => 2 | .stow => 3 | .exposed => 4

def Status.code : Status → Nat
  | .ok => 0 | .accepted => 1 | .full => 2 | .busy => 3 | .refused => 4 | .ignored => 5 | .stale => 6 | .early => 7
  | .late => 8 | .notPermitted => 9 | .malformed => 10 | .starting => 11 | .unconfigured => 12

def Reason.code : Reason → Nat
  | .none => 0 | .barred => 1 | .held => 2 | .settling => 3 | .state => 4 | .robotBusy => 5 | .place => 6
  | .range => 7 | .alertActive => 8 | .notOwner => 9 | .order => 10

def NoticeKind.code : NoticeKind → Nat
  | .flattenTimeout => 1 | .stowUnconfirmed => 2 | .exposed => 3 | .rowAdopted => 4 | .carriageFault => 5
  | .robotFault => 6 | .robotSilent => 7 | .transferEnd => 8 | .holdoff => 9 | .roundDue => 10
  | .passTimeout => 11 | .alert => 12 | .stowState => 13 | .soilAlert => 14 | .intervalEnd => 15
  | .periodClosed => 16 | .settingsSaved => 17

def StartUp.index : StartUp → Nat
  | .starting => 0 | .ready => 1 | .unconfigured => 2

def RowPolicy.code : RowPolicy → Nat
  | .close => 0 | .hold => 1

def RoundSource.code : RoundSource → Nat
  | .timer => 0 | .request => 1

/-- The order kind codes, robots' and carriages' together (R184). -/
def RobotOrder.code : RobotOrder → Nat
  | .pass _ _ => 1 | .toGarage _ => 2

def CarriageOrder.code : CarriageOrder → Nat
  | .goto _ => 3 | .board _ => 4 | .alight _ _ => 5 | .stay => 6

/-! ### Writing a body -/

/-- A level, flag or mark (R184). -/
def flagByte (b : Bool) : Byte := if b then 1 else 0

/-- A row, robot, carriage or rail position that may be absent: FFh (R184). -/
def optByte : Option Nat → Byte
  | some n => byte n
  | none => 0xFF

/-- Seconds remaining, 0 while the timer is stopped (R184). -/
def timerBytes (t : Option Nat) : List Byte := twoBytes (t.getD 0)

/-- The one byte that stands for an item marked none or absent (R184 "mark not coded otherwise"; log 14). -/
def markBytes : List Byte := [1]

def placeBytes (p : Place) : List Byte := twoBytes p.code

/-- A tag that may be absent (R184). -/
def optTagBytes : Option Nat → List Byte
  | some t => twoBytes t
  | none => [0xFF, 0xFF]

/-- A span, or the first and last segment reserved (R184). -/
def spanBytes : Option Span → List Byte
  | some sp => [byte sp.first, byte sp.last]
  | none => [0xFF, 0xFF]

/-- A robot's task (R184). -/
def RobotTask.bytes : RobotTask → List Byte
  | .idle => [0, 0]
  | .charging => [1, 0]
  | .pass r .clean => [2, byte r]
  | .pass r .survey => [3, byte r]
  | .toGarage => [4, 0]
  | .transfer t => [5, byte t]

/-- A carriage's task (R184). -/
def carriageTaskBytes : Option CarriageTask → List Byte
  | none => [0, 0]
  | some (.transfer t) => [0x10, byte t]
  | some .nudge => [0x20, 0]

/-- A segment's reservation (R184). -/
def reservationBytes : Option Reservation → List Byte
  | none => [0, 0]
  | some ⟨c, .transfer t⟩ => [byte (16 + c), byte t]
  | some ⟨c, .nudge⟩ => [byte (32 + c), 0]
  | some ⟨c, .fault⟩ => [byte (48 + c), 0]

/-- The order kind and serial of a record, or none (R48; log 12). -/
def orderBytes {α : Type} (code : α → Nat) : Option (Order α) → List Byte
  | some o => [byte (code o.kind), byte o.serial]
  | none => [0, Config.noOrderSerial]

/-- The three parameter bytes of a robot order (R36, R184). -/
def RobotOrder.params : RobotOrder → List Byte
  | .pass r k => [byte r, byte k.code, 0]
  | .toGarage r => [byte r, 0, 0]

/-- The three parameter bytes of a carriage order (R36, R184). -/
def CarriageOrder.params : CarriageOrder → List Byte
  | .goto p => [byte p, 0, 0]
  | .board k => [byte k, 0, 0]
  | .alight k pl => byte k :: placeBytes pl
  | .stay => [0, 0, 0]

/-- A soiling value (R184). -/
def soilingBytes : Option Nat → List Byte
  | some n => twoBytes n
  | none => [0x03, 0xFF]

/-- The cause lane of Read Storm (R184). -/
def causeLaneByte : Option CauseLane → Byte
  | some cl => byte (cl.lane + if cl.test then 8 else 0)
  | none => 0xFF

/-- A notice record (R185). -/
def Notice.bytes (n : Notice) : List Byte :=
  [byte n.kind.code, byte n.subject.1, byte n.subject.2.1, byte n.subject.2.2] ++ twoBytes n.detail ++ fourBytes n.stamp

/-- The bytes of an answer frame that its check covers (R183). -/
def Answer.covered (a : Answer) : List Byte :=
  [byte (a.reply.body.length + 3), a.kind, byte a.reply.status.code, byte a.reply.reason.code] ++ a.reply.body

/-- The whole answer frame, as the transmitter sends it (R183). -/
def Answer.frame (a : Answer) : List Byte := 0x5A :: a.covered ++ twoBytes (frameCheck a.covered).toNat

/-! ### Replies -/

/-- An answer of a status that carries no reason and no body (R172). -/
def Reply.plain (st : Status) : Reply := ⟨st, .none, []⟩

/-- OK with a body. -/
def Reply.ok (body : List Byte) : Reply := ⟨.ok, .none, body⟩

/-- REFUSED with a reason. -/
def Reply.refuse (r : Reason) : Reply := ⟨.refused, r, []⟩

end Sys2Proof.Machine
end

