-- ==== Sys2Proof/Machine/Flags.lean ====
section
/-! DEFINITION. Reading the yard: the records by number, and every condition and level that follows from the state
rather than being stored in it (barring, held open, available, lane levels, output and attention lines, and so on). -/

namespace Sys2Proof.Machine

/-- The item of a port. -/
def Trio.get {α : Type} (t : Trio α) : Port → α
  | .plant => t.plant
  | .tracker => t.tracker
  | .fleet => t.fleet

namespace Yard

/-! ### Records by number -/

/-- Row `r`'s record. -/
def row (y : Yard) (r : Nat) : Row := y.rows.getD r (freshRow 0)

/-- Robot slot `k`'s record. -/
def robot (y : Yard) (k : Nat) : Robot := y.robots.getD k (freshRobot false 0 none)

/-- Carriage `c`'s record. -/
def carriage (y : Yard) (c : Nat) : Carriage := y.carriages.getD c (freshCarriage 0)

/-- Dock `d`'s record. -/
def dock (y : Yard) (d : Nat) : Dock := y.docks.getD d freshDock

/-- The rail position of dock `d`, from the settings (R34). -/
def dockPosition (y : Yard) (d : Nat) : Nat := y.settings.dockPos.getD d 0

/-- The rows 0..ROWS−1 (R1). -/
def rowList (y : Yard) : List Nat := List.range y.rows.length

/-- The robot slots 0..11 (R30). -/
def robotList (y : Yard) : List Nat := List.range y.robots.length

/-- The carriages 0..CARRIAGES−1 (R33). -/
def carriageList (y : Yard) : List Nat := List.range y.settings.carriages

/-- The docks 0..DOCKS−1 (R34). -/
def dockList (y : Yard) : List Nat := List.range y.settings.docks

/-- The slot number names an enrolled robot. -/
def enrolled (y : Yard) (k : Nat) : Bool := (y.robot k).enrolled

/-- The queue entry that holds a tag. -/
def transferOf (y : Yard) (tag : Nat) : Option Transfer := y.rail.queue.find? (fun t => t.tag == tag)

/-- The queue entry whose subject is robot `k` (R51). -/
def transferOfRobot (y : Yard) (k : Nat) : Option Transfer := y.rail.queue.find? (fun t => t.robot == k)

/-- The round-list entry of row `r` (R79). -/
def entryOf (y : Yard) (r : Nat) : Option Entry := y.rounds.list.find? (fun e => e.row == r)

/-- The round-list entry whose robot is `k` (R79). -/
def entryOfRobot (y : Yard) (k : Nat) : Option Entry := y.rounds.list.find? (fun e => e.robot == some k)

/-! ### Rows -/

end Yard

/-- The wanted posture follows from custody (R3). -/
def Custody.wanted : Custody → Wanted
  | .track | .settle => .free
  | .flattening | .open => .flat
  | .stowPending | .stowed => .stow
  | .exposed => .hold

/-- The matching pairs of R3. -/
def Posture.meets : Posture → Wanted → Bool
  | .tracking, .free => true
  | .flat, .flat => true
  | .stowed, .stow => true
  | .flat, .hold => true
  | _, _ => false

namespace Yard

/-- Row `r`'s wanted posture. -/
def wanted (y : Yard) (r : Nat) : Wanted := (y.row r).custody.wanted

/-- Row `r` has a pending order (R3). -/
def rowOrderPending (y : Yard) (r : Nat) : Bool := !(y.row r).reported.meets (y.wanted r)

/-- Row `r` lies inside a fence range (R16). -/
def fenced (y : Yard) (r : Nat) : Bool :=
  y.fences.any fun f => match f with
    | some (first, last) => decide (first ≤ r ∧ r ≤ last)
    | none => false

/-- Row `r` is barred: fenced, or its reported posture is FAULT (Conventions). -/
def barred (y : Yard) (r : Nat) : Bool := y.fenced r || (y.row r).reported == .fault

/-- Row `r` is held open: OPEN, with its holder in the row's garage (R2). -/
def heldOpen (y : Yard) (r : Nat) : Bool :=
  (y.row r).custody == .open &&
    match (y.row r).holder with
    | some k => (y.robot k).place == .garage r
    | none => false

/-- Row `r` is held open by robot `k`. -/
def heldOpenBy (y : Yard) (r k : Nat) : Bool := y.heldOpen r && (y.row r).holder == some k

/-- Row `r` is OPEN with its holder on its table (R2). -/
def onTable (y : Yard) (r : Nat) : Bool :=
  (y.row r).custody == .open &&
    match (y.row r).holder with
    | some k => (y.robot k).place == .midrow r
    | none => false

/-- The row that robot `k` is holder of (R2: at most one). -/
def rowHeldBy (y : Yard) (k : Nat) : Option Nat := y.rowList.find? (fun r => (y.row r).holder == some k)

/-- The garage of row `r` is free: no occupant, no reservation, and the row has no holder (R29). -/
def garageFree (y : Yard) (r : Nat) : Bool :=
  (y.row r).garageOccupant.isNone && (y.row r).garageReserved.isNone && (y.row r).holder.isNone

/-- Dock `d` is free: no occupant and no reservation (R29). -/
def dockFree (y : Yard) (d : Nat) : Bool := (y.dock d).occupant.isNone && (y.dock d).reservedFor.isNone

/-- A place names a row, dock or carriage that exists (R29). -/
def placeExists (y : Yard) : Place → Bool
  | .unknown => true
  | .dock d => decide (d < y.settings.docks)
  | .garage r | .midrow r => decide (r < y.rows.length)
  | .aboard c => decide (c < y.settings.carriages)

/-- The rail position of a place (R59), where it has one. -/
def placePosition (y : Yard) : Place → Option Nat
  | .garage r => some r
  | .dock d => some (y.dockPosition d)
  | .aboard c => (y.carriage c).position
  | .midrow _ | .unknown => none

/-- A row is due (R85), with the soiling limit of a build or of a sweep (R87). -/
def due (y : Yard) (limit r : Nat) : Bool :=
  match (y.row r).soiling with
  | none => true
  | some s => decide (limit ≤ s) || decide (y.settings.cleanInterval * 60 ≤ (y.row r).age)

/-! ### Robots -/

end Yard

/-- A robot is available (R31), its charge compared at its last report (R192; log 18). -/
def Robot.available (b : Robot) : Bool :=
  b.enrolled && !b.silent && !b.fault && b.order.isNone && b.task == .idle && b.roundLink.isNone &&
    match b.place with
    | .garage _ => b.chargeOverMin
    | .dock _ => b.chargeOverReady
    | _ => false

namespace Yard

/-- Robot `k` is available (R31). -/
def available (y : Yard) (k : Nat) : Bool := (y.robot k).available

/-- Robot `k` is in need of charge (R100). -/
def needsCharge (y : Yard) (k : Nat) : Bool :=
  let b := y.robot k
  b.enrolled && !b.silent && !b.fault && b.order.isNone && b.task == .idle && b.roundLink.isNone &&
    match b.place with
    | .garage _ => !b.chargeOverMin
    | _ => false

end Yard

/-- The task of a robot with no order and no transfer: CHARGING in a dock below CHARGE_READY, else IDLE (R32). -/
def Robot.restTask (b : Robot) : RobotTask :=
  match b.place with
  | .dock _ => if b.chargeOverReady then .idle else .charging
  | _ => .idle

/-! ### Carriages and the rail -/

/-- The carriage's state: FAULT, or as its order gives (R33). -/
def Carriage.state (c : Carriage) : CarriageState :=
  if c.fault then .fault
  else match c.order with
    | some ⟨.goto _, _⟩ => .moving
    | some ⟨.board _, _⟩ => .boarding
    | some ⟨.alight _ _, _⟩ => .alighting
    | some ⟨.stay, _⟩ | none => .idle

/-- IDLE with no order outstanding, not in FAULT (R33, R61). -/
def Carriage.restful (c : Carriage) : Bool := c.state == .idle && c.order.isNone

/-- Restful, with no load and no task: it may be chosen (R61), and it is movable (R64). -/
def Carriage.free (c : Carriage) : Bool := c.restful && c.load.isNone && c.task.isNone

/-- The segment of a rail position (03, section 3.4). -/
def segmentOf (position : Nat) : Nat := position / 8

/-- Segment `s` is one of the span's. -/
def Span.has (sp : Span) (s : Nat) : Bool := decide (sp.first ≤ s ∧ s ≤ sp.last)

/-- Two spans intersect (R59). -/
def Span.meets (a b : Span) : Bool := decide (a.first ≤ b.last ∧ b.first ≤ a.last)

/-- The span from the lowest to the highest segment of a position and further positions (R59). -/
def spanOver (p : Nat) (ps : List Nat) : Span :=
  ⟨ps.foldl (fun a q => min a (segmentOf q)) (segmentOf p), ps.foldl (fun a q => max a (segmentOf q)) (segmentOf p)⟩

namespace Yard

/-- The reservation of segment `s` (R58). -/
def reservation (y : Yard) (s : Nat) : Option Reservation := y.rail.segments.getD s none

/-- The count of reserved segments (R58). -/
def reservedCount (y : Yard) : Nat := y.rail.segments.countP Option.isSome

/-- The segments reserved to carriage `c`. -/
def segmentsOf (y : Yard) (c : Nat) : List Nat :=
  (List.range y.rail.segments.length).filter fun s => (y.reservation s).any (·.carriage == c)

/-- The first and last segment reserved to carriage `c`, or none (R48). -/
def reservedSpan (y : Yard) (c : Nat) : Option Span :=
  match y.segmentsOf c with
  | [] => none
  | s :: rest => some ⟨s, rest.getLastD s⟩

/-- Every segment of the span is free. -/
def spanFree (y : Yard) (sp : Span) : Bool :=
  (List.range y.rail.segments.length).all fun s => !sp.has s || (y.reservation s).isNone

/-- Carriage `c` lies inside the span (R59). -/
def inside (y : Yard) (sp : Span) (c : Nat) : Bool :=
  match (y.carriage c).position with
  | some p => sp.has (segmentOf p)
  | none => false

/-- The carriages other than `c` that lie inside the span. -/
def othersInside (y : Yard) (sp : Span) (c : Nat) : List Nat :=
  y.carriageList.filter fun i => i != c && y.inside sp i

/-- Position `p` keeps carriage order for carriage `c`: above the known positions of every lower-indexed carriage and below
those of every higher-indexed one (R33). -/
def keepsOrder (y : Yard) (c p : Nat) : Bool :=
  y.carriageList.all fun i =>
    match (y.carriage i).position with
    | some q => (decide (c ≤ i) || decide (q < p)) && (decide (i ≤ c) || decide (p < q))
    | none => true

/-- Position `p` lies in a segment reserved to a carriage other than `c` (R58). -/
def inOthersSegment (y : Yard) (c p : Nat) : Bool :=
  (y.reservation (segmentOf p)).any (·.carriage != c)

/-- Position `p` lies in a segment reserved to carriage `c`. -/
def inOwnSegment (y : Yard) (c p : Nat) : Bool :=
  (y.reservation (segmentOf p)).any (·.carriage == c)

/-- Every carriage has a known position (R60 condition 1). -/
def allPositionsKnown (y : Yard) : Bool := y.carriageList.all fun c => (y.carriage c).position.isSome

/-- The hold-off level as its rule gives it (R74). -/
def holdoffLevel (y : Yard) : Bool :=
  decide (y.settings.holdoffCount ≤ y.rail.queue.length) || decide (y.settings.holdoffSegments ≤ y.reservedCount)

/-! ### Alert levels -/

/-- Some row is EXPOSED (R22). -/
def anyExposed (y : Yard) : Bool := y.rows.any fun r => r.custody == .exposed

/-- The level of a source; a pulse source and source 0 read low (R105, R107). -/
def sourceLevel (y : Yard) : Nat → Bool
  | 1 => y.alerts.lineW.level
  | 2 => y.alerts.lineD.level
  | 7 => y.metSilent
  | 10 => y.rail.holdoff
  | 11 => y.storm.state == .parked
  | 13 => y.anyExposed
  | _ => false

/-- The source id that lane `l` carries (R107). -/
def laneSource (y : Yard) (l : Nat) : Nat := y.alerts.lanes.getD l 0

/-- The level of lane `l` (R107). -/
def laneLevel (y : Yard) (l : Nat) : Bool := y.sourceLevel (y.laneSource l)

/-- The selection of listener `i` (R109). -/
def selection (y : Yard) (i : Nat) : Nat := y.alerts.listeners.getD i 0

/-- The seen level of listener `i` (R109). -/
def seen (y : Yard) (i : Nat) : Bool :=
  match y.selection i with
  | 0 => false
  | n + 1 => y.laneLevel n

/-- The level of an output line (R111): listener 5 drives OUT_A and listener 6 OUT_B. -/
def outLevel (y : Yard) : OutLine → Bool
  | .a => y.seen 5 || y.alerts.stretchA
  | .b => y.seen 6 || y.alerts.stretchB

/-! ### Storm conditions -/

/-- The tables are clear: no enrolled robot is MIDROW and no carriage has a load (R131). -/
def tablesClear (y : Yard) : Bool :=
  (y.robots.all fun b => !b.enrolled || match b.place with | .midrow _ => false | _ => true) &&
    y.carriageList.all fun c => (y.carriage c).load.isNone

/-- Every row is STOWED or EXPOSED (R134). -/
def allStowed (y : Yard) : Bool := y.rows.all fun r => r.custody == .stowed || r.custody == .exposed

/-- The storm state is CALM or WARNED. -/
def mild (y : Yard) : Bool := y.storm.state == .calm || y.storm.state == .warned

/-! ### Orders pending for a port -/

/-- A robot or carriage has an order outstanding (R35). -/
def fleetOrderPending (y : Yard) : Bool :=
  (y.robots.any fun b => b.enrolled && b.order.isSome) || y.carriageList.any fun c => (y.carriage c).order.isSome

/-- The level of a port's attention line (R179). -/
def attention (y : Yard) (p : Port) : Bool :=
  !(y.boxes.get p).queue.isEmpty ||
    (y.startUp == .ready &&
      match p with
      | .plant => false
      | .tracker => y.rowList.any y.rowOrderPending
      | .fleet => y.fleetOrderPending)

/-! ### Classes -/

/-- The class of row `r` at this moment (R143). -/
def rowClass (y : Yard) (r : Nat) : Class :=
  match (y.row r).custody with
  | .track => if y.barred r then .fence else .soil
  | .settle => .soil
  | .flattening | .open => .hold
  | .stowPending | .stowed => .stow
  | .exposed => .exposed

end Yard

end Sys2Proof.Machine
end

