-- ==== Sys2Proof/Machine/Ops.lean ====
section
/-! DEFINITION. The named operations over the yard's records that the rules share: notices, row timers and custody,
places and occupancy, orders and serials, reservations, round entries. Each changes one thing; what a rule does in one
event is a sequence of them. -/

namespace Sys2Proof.Machine

/-- Replace the item of a port. -/
def Trio.set {α : Type} (t : Trio α) (p : Port) (a : α) : Trio α :=
  match p with
  | .plant => { t with plant := a }
  | .tracker => { t with tracker := a }
  | .fleet => { t with fleet := a }

/-- The next serial: plus one, wrapping from 255 to 0 (R35). -/
def nextSerial (n : Nat) : Nat := (n + 1) % 256

namespace Yard

/-! ### Changing a record -/

def setRow (y : Yard) (r : Nat) (f : Row → Row) : Yard := { y with rows := y.rows.modify r f }

/-- The change makes robot `k` pass from not available to available (R31). -/
def makesAvailable (y : Yard) (k : Nat) (f : Robot → Robot) : Bool :=
  (y.robots[k]?).any fun b => !b.available && (f b).available

/-- A change of robot `k`'s record. Each passing from not available to available is an assignment event of the event in
progress, whatever the robot does later in it (R31; log 23). -/
def setRobot (y : Yard) (k : Nat) (f : Robot → Robot) : Yard :=
  { y with robots := y.robots.modify k f, assign := y.assign || y.makesAvailable k f }

def setCarriage (y : Yard) (c : Nat) (f : Carriage → Carriage) : Yard :=
  { y with carriages := y.carriages.modify c f }

def setDock (y : Yard) (d : Nat) (f : Dock → Dock) : Yard := { y with docks := y.docks.modify d f }

def setTransfer (y : Yard) (tag : Nat) (f : Transfer → Transfer) : Yard :=
  { y with rail := { y.rail with queue := y.rail.queue.map fun t => if t.tag = tag then f t else t } }

def setEntry (y : Yard) (r : Nat) (f : Entry → Entry) : Yard :=
  { y with rounds := { y.rounds with list := y.rounds.list.map fun e => if e.row = r then f e else e } }

def setNudge (y : Yard) (c : Nat) (n : Option Nudge) : Yard :=
  { y with rail := { y.rail with nudges := y.rail.nudges.set c n } }

def setPassTimer (y : Yard) (k : Nat) (t : Option Nat) : Yard :=
  { y with rounds := { y.rounds with passTimers := y.rounds.passTimers.set k t } }

def countRounds (y : Yard) (f : RoundCounters → RoundCounters) : Yard :=
  { y with rounds := { y.rounds with counters := f y.rounds.counters } }

def countStorm (y : Yard) (f : StormCounters → StormCounters) : Yard :=
  { y with storm := { y.storm with counters := f y.storm.counters } }

/-- The event in progress gives an assignment event (R90). -/
def giveAssign (y : Yard) : Yard := { y with assign := true }

/-- Act on the rows 0..ROWS−1 in increasing index. -/
def overRows (y : Yard) (f : Nat → Yard → Yard) : Yard := y.rowList.foldl (fun z r => f r z) y

/-- Act on the robot slots in increasing id. -/
def overRobots (y : Yard) (f : Nat → Yard → Yard) : Yard := y.robotList.foldl (fun z k => f k z) y

/-- Act on the carriages in increasing index. -/
def overCarriages (y : Yard) (f : Nat → Yard → Yard) : Yard := y.carriageList.foldl (fun z c => f c z) y

/-! ### Notices (R175, R176) -/

end Yard

/-- A record given to a queue: appended while it holds fewer than 16, else lost and counted (R175). -/
def NoticeBox.give (b : NoticeBox) (n : Notice) : NoticeBox :=
  if b.queue.length < 16 then { b with queue := b.queue ++ [n] } else { b with lost := bump b.lost }

namespace Yard

/-- Give a notice for a port, stamped now (R175, R176). -/
def notify (y : Yard) (p : Port) (kind : NoticeKind) (subject : Nat × Nat × Nat) (detail : Nat) : Yard :=
  { y with boxes := y.boxes.set p ((y.boxes.get p).give ⟨kind, subject, detail, y.stamp⟩) }

/-! ### Rows (R3, R4) -/

/-- Row `r` goes to SETTLE: holder cleared, settle timer started. -/
def settleRow (y : Yard) (r : Nat) : Yard :=
  y.setRow r fun w => { w with custody := .settle, holder := none, timer := some y.settings.settleTime }

/-- Row `r` goes to STOW_PENDING: holder cleared, stow timer started. -/
def stowRow (y : Yard) (r : Nat) : Yard :=
  y.setRow r fun w => { w with custody := .stowPending, holder := none, timer := some y.settings.stowLimit }

/-! ### Places (R29) -/

/-- Clear the occupancy field of the place that robot `k` leaves. -/
def vacate (y : Yard) (k : Nat) : Yard :=
  match (y.robot k).place with
  | .dock d => y.setDock d fun w => { w with occupant := none }
  | .garage r => y.setRow r fun w => { w with garageOccupant := none }
  | .aboard c => y.setCarriage c fun w => { w with load := none }
  | .midrow _ | .unknown => y

/-- Write the occupancy field of the place that robot `k` takes. -/
def occupy (y : Yard) (k : Nat) (pl : Place) : Yard :=
  match pl with
  | .dock d => y.setDock d fun w => { w with occupant := some k }
  | .garage r => y.setRow r fun w => { w with garageOccupant := some k }
  | .aboard c => y.setCarriage c fun w => { w with load := some k }
  | .midrow _ | .unknown => y

/-- Robot `k`'s place changes: the old occupancy is cleared and the new one written in one event (R29). -/
def moveRobot (y : Yard) (k : Nat) (pl : Place) : Yard :=
  ((y.vacate k).occupy k pl).setRobot k fun b => { b with place := pl }

/-- Robot `k` takes the task of a robot with no order and no transfer (R32). -/
def restRobot (y : Yard) (k : Nat) : Yard := y.setRobot k fun b => { b with task := b.restTask }

/-! ### Round entries (R80) -/

/-- Clear the link of any transfer that names row `r`. -/
def dropLinks (y : Yard) (r : Nat) : Yard :=
  let drop := fun t : Transfer => if t.roundLink = some r then { t with roundLink := none } else t
  { y with rail := { y.rail with queue := y.rail.queue.map drop } }

/-- Clear the round_link of an entry's robot, if it has one. -/
def unlink (y : Yard) (robot : Option Nat) : Yard :=
  match robot with
  | some k => y.setRobot k fun b => { b with roundLink := none }
  | none => y

/-- Removal of the entry for row `r` (R80). -/
def removeEntry (y : Yard) (r : Nat) : Yard :=
  match y.entryOf r with
  | none => y
  | some e =>
    let z := { y with rounds := { y.rounds with list := y.rounds.list.filter fun x => x.row != r } }
    (z.unlink e.robot).dropLinks r

/-- Unassignment of the entry for row `r` (R80). -/
def unassign (y : Yard) (r : Nat) : Yard :=
  match y.entryOf r with
  | none => y
  | some e => ((y.setEntry r fun x => { x with robot := none, stage := .waiting }).unlink e.robot).dropLinks r

/-- Unassign the entry whose robot is `k`, if there is one. -/
def unassignRobot (y : Yard) (k : Nat) : Yard :=
  match y.entryOfRobot k with
  | some e => y.unassign e.row
  | none => y

/-- Remove every entry, in any stage (R101, R104). -/
def emptyList (y : Yard) : Yard :=
  y.rounds.list.foldl (fun z e => z.removeEntry e.row) y

/-! ### Orders and serials (R35) -/

/-- A new order to robot `k`, with the next serial. -/
def orderRobot (y : Yard) (k : Nat) (o : RobotOrder) : Yard :=
  y.setRobot k fun b =>
    { b with order := some ⟨o, nextSerial b.lastSerial⟩, lastSerial := nextSerial b.lastSerial }

/-- A new order to carriage `c`, with the next serial. -/
def orderCarriage (y : Yard) (c : Nat) (o : CarriageOrder) : Yard :=
  y.setCarriage c fun w =>
    { w with order := some ⟨o, nextSerial w.lastSerial⟩, lastSerial := nextSerial w.lastSerial }

/-- The PASS order of robot `k` ends without result (R98): its pass timer stops, passes_aborted is increased, and the
entry of the pass, if one remains, is removed (log 20). -/
def passEnds (y : Yard) (k : Nat) : Yard :=
  let z := (y.setPassTimer k none).countRounds fun n => { n with passesAborted := bump n.passesAborted }
  match z.entryOfRobot k with
  | some e => z.removeEntry e.row
  | none => z

/-- Robot `k` is ordered TO_GARAGE of the row it is on (R35): a TO_GARAGE in force stands, a PASS is superseded. -/
def sendHome (y : Yard) (k r : Nat) : Yard :=
  let give := fun z : Yard => (z.orderRobot k (.toGarage r)).setRobot k fun b => { b with task := .toGarage }
  match (y.robot k).order with
  | some ⟨.toGarage _, _⟩ => y
  | some ⟨.pass _ _, _⟩ => give (y.passEnds k)
  | none => give y

/-- Robot `k` is given PASS on row `r` (R35, R94): it moves from the garage to the table, and its pass timer starts. -/
def givePass (y : Yard) (k r : Nat) (kind : PassKind) : Yard :=
  (((y.orderRobot k (.pass r kind)).setRobot k fun b => { b with task := .pass r kind }).moveRobot k
    (.midrow r)).setPassTimer k (some y.settings.passLimit)

/-! ### Giving up a row -/

/-- A claim that ends in FLATTENING goes back to WAITING (R95): the entry for row `r` in FLATTENING is unassigned. -/
def claimUnassigned (y : Yard) (r : Nat) : Yard :=
  match y.entryOf r with
  | some e => if e.stage = .flattening then y.unassign r else y
  | none => y

/-- The row that robot `k` holds in its garage, if any, is given up: a held-open row takes its miss (R14), a FLATTENING
row goes to SETTLE and its ended claim is passed on (R38, R43, R55). -/
def giveUpRow (y : Yard) (k : Nat) : Yard :=
  match y.rowHeldBy k with
  | none => y
  | some q =>
    if y.heldOpen q then y.settleRow q
    else if (y.row q).custody = .flattening then (y.settleRow q).claimUnassigned q
    else y

/-! ### Reservations (R57, R58) -/

/-- Reserve a destination for a tag. -/
def reservePlace (y : Yard) (pl : Place) (tag : Option Nat) : Yard :=
  match pl with
  | .garage r => y.setRow r fun w => { w with garageReserved := tag }
  | .dock d => y.setDock d fun w => { w with reservedFor := tag }
  | .midrow _ | .aboard _ | .unknown => y

/-- Reserve every segment of a span to carriage `c`. -/
def reserveSpan (y : Yard) (sp : Span) (c : Nat) (cause : Cause) : Yard :=
  { y with rail := { y.rail with segments := y.rail.segments.mapIdx fun s v => if sp.has s then some ⟨c, cause⟩ else v } }

/-- Change every reservation of carriage `c`: `none` releases it. -/
def setReservations (y : Yard) (c : Nat) (v : Option Reservation) : Yard :=
  { y with rail := { y.rail with segments := y.rail.segments.map fun s => if s.any (·.carriage == c) then v else s } }

/-- Release every segment reserved to carriage `c`. -/
def releaseSegments (y : Yard) (c : Nat) : Yard := y.setReservations c none

/-- Carriage `c` keeps the segments it held, with cause FAULT (R58). -/
def keepSegmentsFaulted (y : Yard) (c : Nat) : Yard := y.setReservations c (some ⟨c, .fault⟩)

/-- Carriage `c` enters FAULT (R33): its order is removed, its task becomes absent, its position and load are kept, and
CARRIAGE_FAULT goes to the plant and fleet ports. -/
def carriageFaults (y : Yard) (c : Nat) : Yard :=
  let z := y.setCarriage c fun w => { w with fault := true, order := none, task := none }
  let position := (y.carriage c).position.getD 65535
  (z.notify .plant .carriageFault (c, 0, 0) position).notify .fleet .carriageFault (c, 0, 0) position

/-- Carriage `c` is told to stay (R50, R75, R76): STAY with a new serial, and no task. -/
def stayCarriage (y : Yard) (c : Nat) : Yard :=
  (y.orderCarriage c .stay).setCarriage c fun w => { w with task := none }

/-! ### Fleet report counters (R37) -/

def countStale (y : Yard) : Yard := { y with staleReports := bump y.staleReports }

def countRefused (y : Yard) : Yard := { y with refusedReports := bump y.refusedReports }

/-! ### Free orders (log 8) -/

end Yard

/-- Put item `i` among the items of draw `n`. -/
def insertFree (n i : Nat) : List Nat → List Nat
  | [] => [i]
  | j :: rest => if Config.before n i j then i :: j :: rest else j :: insertFree n i rest

/-- The items in the order of draw `n`: any order can come out, and one item alone draws nothing. -/
def freeOrder (n : Nat) : List Nat → List Nat
  | [] => []
  | i :: rest => insertFree n i (freeOrder n rest)

namespace Yard

/-- Act on items that no rule orders, in a free order. Two or more items draw a fresh order. -/
def inFreeOrder (y : Yard) (items : List Nat) (act : Nat → Yard → Yard) : Yard :=
  match items with
  | [] => y
  | [i] => act i y
  | _ => (freeOrder y.freeCount items).foldl (fun z i => act i z) { y with freeCount := y.freeCount + 1 }

end Yard

end Sys2Proof.Machine
end

