-- ==== Sys2Proof/Machine/Builds.lean ====
section
/-! DEFINITION. How rows join the round list: rank (R82), the tail and the head (R81), builds (R84, R85) and sweeps
(R87). -/

namespace Sys2Proof.Machine

/-- A counter increased by `k`, saturating. -/
def bumpBy (n k : Nat) : Nat := min (n + k) 65535

namespace Yard

/-- Row `a` ranks before row `b` (R82). -/
def ranksBefore (y : Yard) (a b : Nat) : Bool :=
  match (y.row a).soiling, (y.row b).soiling with
  | none, some _ => true
  | some _, none => false
  | sa, sb =>
    if sa.getD 0 ≠ sb.getD 0 then decide (sb.getD 0 < sa.getD 0)
    else if (y.row a).age ≠ (y.row b).age then decide ((y.row b).age < (y.row a).age)
    else decide (a < b)

/-- Put a row among rows in rank order. -/
def insertRanked (y : Yard) (a : Nat) : List Nat → List Nat
  | [] => [a]
  | b :: rest => if y.ranksBefore a b then a :: b :: rest else b :: y.insertRanked a rest

/-- The rows in rank order (R82). -/
def ranked (y : Yard) : List Nat → List Nat
  | [] => []
  | a :: rest => y.insertRanked a (y.ranked rest)

/-- The custody that lets a build or sweep list the row, and the other conditions they share (R85, R87). -/
def listable (y : Yard) (r : Nat) : Bool :=
  ((y.row r).custody == .track || (y.row r).custody == .settle) && !y.barred r && (y.entryOf r).isNone

/-- Append candidates in rank order up to the free capacity; the rest are counted in rows_skipped (R81). Gives the number
added and the number skipped. -/
def appendCandidates (y : Yard) (origin : EntryOrigin) (kindOf : Nat → PassKind) (rows : List Nat) :
    Yard × Nat × Nat :=
  let free := 16 - y.rounds.list.length
  let fits := (y.ranked rows).take free
  let skipped := rows.length - fits.length
  let entries := fits.map fun r => (⟨r, kindOf r, origin, none, .waiting⟩ : Entry)
  let z := { y with rounds := { y.rounds with list := y.rounds.list ++ entries } }
  let w := z.countRounds fun n => { n with rowsSkipped := bumpBy n.rowsSkipped skipped }
  (if fits.isEmpty then w else w.giveAssign, fits.length, skipped)

/-- Put an entry at the head (R81). -/
def putHead (y : Yard) (e : Entry) : Yard :=
  ({ y with rounds := { y.rounds with list := e :: y.rounds.list } }).giveAssign

/-- Insert an entry at the head, making room where the list holds 16 (R81). `false` says that the insertion failed. -/
def insertHead (y : Yard) (e : Entry) : Yard × Bool :=
  if y.rounds.list.length < 16 then (y.putHead e, true)
  else match y.rounds.list.reverse.find? (fun x => x.stage == .waiting) with
    | some x =>
      (((y.removeEntry x.row).countRounds fun n => { n with rowsSkipped := bump n.rowsSkipped }).putHead e, true)
    | none => (y.countRounds fun n => { n with insertsDropped := bump n.insertsDropped }, false)

/-- A build or sweep is not taken (R85, R87). -/
def missRound (y : Yard) : Yard := y.countRounds fun n => { n with roundsMissed := bump n.roundsMissed }

/-- Builds and sweeps are taken only in CALM while READY (R85, R87). -/
def roundsTaken (y : Yard) : Bool := y.storm.state == .calm && y.startUp == .ready

/-- The survey decision of a taken build of group `g` (R84): whether it is a survey build, and the new build count. -/
def surveyDecision (y : Yard) (g : Nat) : Bool × Nat :=
  let n := min (y.rounds.buildCounts.getD g 0 + 1) 15
  if 0 < y.settings.surveyEvery ∧ y.settings.surveyEvery ≤ n then (true, 0) else (false, n)

/-- The kind of a build candidate (R85). -/
def buildKind (y : Yard) (survey : Bool) (r : Nat) : PassKind :=
  match (y.row r).soiling with
  | none => .survey
  | some s => if survey && decide (s < y.settings.dirtyLimit) then .survey else .clean

/-- The candidates of a build of group `g` (R85). -/
def buildCandidates (y : Yard) (g : Nat) (survey : Bool) : List Nat :=
  y.rowList.filter fun r =>
    r % y.settings.groups == g && y.listable r && (survey || y.due y.settings.dirtyLimit r)

/-- A build of group `g` (R85): `some (added, skipped)` where it is taken, `none` where it is missed. -/
def build (y : Yard) (g : Nat) : Yard × Option (Nat × Nat) :=
  if y.roundsTaken then
    let survey := (y.surveyDecision g).1
    let z := { y with rounds := { y.rounds with buildCounts := y.rounds.buildCounts.set g (y.surveyDecision g).2 } }
    let w := z.countRounds fun n => { n with buildsTaken := bump n.buildsTaken }
    let done := w.appendCandidates .build (y.buildKind survey) (y.buildCandidates g survey)
    (done.1, some done.2)
  else (y.missRound, none)

/-- The kind of a sweep candidate (R87). -/
def sweepKind (y : Yard) (r : Nat) : PassKind := if (y.row r).soiling.isNone then .survey else .clean

/-- The candidates of a sweep (R87). -/
def sweepCandidates (y : Yard) : List Nat :=
  y.rowList.filter fun r => y.listable r && y.due y.settings.sweepLimit r

/-- A sweep (R87): `some (added, skipped)` where it is taken, `none` where it is missed. -/
def makeSweep (y : Yard) : Yard × Option (Nat × Nat) :=
  if y.roundsTaken then
    let done := y.appendCandidates .sweep y.sweepKind y.sweepCandidates
    (done.1, some done.2)
  else (y.missRound, none)

end Yard

end Sys2Proof.Machine
end

