-- ==== Sys2Proof/Machine/Listeners.lean ====
section
/-! DEFINITION. A change of the storm state (R123), the watch (R124, R125), and the handing of a lane's rise, fall, pulse
or test edge to the listeners that select it (R107, R109). Two effects of a listener lie in blocks that are themselves
moved by levels, and are given as arguments: the onset of RECALL and the arbiter pass. -/

namespace Sys2Proof.Machine

namespace Yard

/-! ### The storm record (R123) -/

/-- The detail of STOW_STATE (R177). -/
def stowDetail (old : StormState) (cause : StormCause) (lane : Option CauseLane) : Nat :=
  old.code * 8192 + cause.code * 512 +
    match lane with
    | some cl => 16 + cl.lane * 2 + if cl.test then 1 else 0
    | none => 0

/-- The state changes: the record is written and STOW_STATE goes to each port (R123, steps 1 and 2). `lane` is given for
STOW_EDGE alone. -/
def changeStorm (y : Yard) (new : StormState) (cause : StormCause) (lane : Option CauseLane) : Yard :=
  let detail := stowDetail y.storm.state cause lane
  let z := { y with storm := { y.storm with
    state := new, enteredAt := y.stamp, lastCause := cause, causeLane := lane } }
  ((z.notify .plant .stowState (new.code, 0, 0) detail).notify .tracker .stowState (new.code, 0, 0) detail).notify
    .fleet .stowState (new.code, 0, 0) detail

/-! ### The watch -/

/-- At the change to WARNED a FLATTENING row settles, and its entry goes back to CLAIMING with its robot (R19, R95). -/
def endFlatten (r : Nat) (y : Yard) : Yard :=
  if (y.row r).custody = .flattening then
    (y.settleRow r).setEntry r fun e => if e.stage = .flattening then { e with stage := .claiming } else e
  else y

/-- The seen level of WATCH rises: in CALM the state becomes WARNED (R124). -/
def watchRises (y : Yard) : Yard :=
  if y.storm.state = .calm then (y.changeStorm .warned .watchRise none).overRows endFlatten else y

/-- The seen level of WATCH falls: in WARNED the state becomes CALM (R125). -/
def watchFalls (y : Yard) : Yard :=
  if y.storm.state = .warned then (y.changeStorm .calm .watchFall none).giveAssign else y

/-- The watch is judged by its seen level, where WATCH is moved to another lane or the settings are applied (R124, R110). -/
def judgeWatch (y : Yard) : Yard := if y.seen 0 then y.watchRises else y.watchFalls

/-! ### Listeners -/

/-- The lane that listener `i` selects. -/
def laneOf (y : Yard) (i : Nat) : Nat := y.selection i - 1

/-- The listeners that select lane `l`. -/
def listenersOf (y : Yard) (l : Nat) : List Nat := (List.range 10).filter fun i => y.selection i == l + 1

/-- The listeners whose selected lane carries source `src`. -/
def listenersOfSource (y : Yard) (src : Nat) : List Nat :=
  (List.range 10).filter fun i => 0 < y.selection i && y.laneSource (y.laneOf i) == src

/-- The notice of a NOTE listener (R112, R177). -/
def noteAlert (y : Yard) (p : Port) (lane : Nat) (test : Bool) : Yard :=
  y.notify p .alert (lane, 0, 0) (y.laneSource lane + if test then 256 else 0)

/-- Start or start again the stretch timers of the output listeners among `ls` (R111). -/
def stretch (y : Yard) (ls : List Nat) : Yard :=
  { y with alerts := { y.alerts with
    stretchA := y.alerts.stretchA || ls.contains 5, stretchB := y.alerts.stretchB || ls.contains 6 } }

end Yard

/-- The listeners that act on an edge on state that others share: WATCH on rise and fall, FREEZE on fall, the edge listeners on
each rise, pulse and test edge (R109). SUSPEND, OUT_A and OUT_B act on state of their own. -/
def Edge.actsOn : Edge → Nat → Bool
  | .rise, i => i == 0 || i == 1 || i == 3 || i == 7 || i == 8 || i == 9
  | .pulse, i | .test, i => i == 1 || i == 3 || i == 7 || i == 8 || i == 9
  | .fall, i => i == 0 || i == 4

namespace Yard

/-- What one such listener does (R109). WATCH acts on the edge it is given, so that no change of its level is lost where a lane
changes twice in one event (R105). -/
def listenerActs (onset : CauseLane → Yard → Yard) (pass : Yard → Yard) (e : Edge) (i : Nat) (y : Yard) : Yard :=
  match i with
  | 0 => if e = .fall then y.watchFalls else y.watchRises
  | 1 => onset ⟨y.laneOf 1, e == .test⟩ y
  | 3 => y.makeSweep.1
  | 4 => pass y
  | 7 => y.noteAlert .plant (y.laneOf 7) (e == .test)
  | 8 => y.noteAlert .tracker (y.laneOf 8) (e == .test)
  | 9 => y.noteAlert .fleet (y.laneOf 9) (e == .test)
  | _ => y

/-- FREEZE is on a lane that carries HOLDOFF, the one source that its own pass can change. At a Set Lane this reads the lane's new
source, so that a lane moved from another high source to HOLDOFF, while HOLDOFF is low, counts too (the model's choice, log 45). -/
def freezeLast (y : Yard) : Bool := y.laneSource (y.laneOf 4) == 10

/-- Hand an edge to listeners. A pulse stretches the output lines, a fall of SUSPEND is an assignment event (R90), and the
other listeners act in an order that no rule fixes (R127; log 8). One order is fixed: where HOLDOFF itself falls, the arbiter pass
of FREEZE comes last, since its grants may raise HOLDOFF, and the fall then reaches every listener before that rise (R105; log
9). The same order is given to the fall of a lane that a Set Lane moves from another high source to HOLDOFF, while HOLDOFF is
low: that fall is not HOLDOFF's own, and R107 and R108 do not order its listeners (the model's choice, log 45). -/
def handWith (onset : CauseLane → Yard → Yard) (pass : Yard → Yard) (e : Edge) (ls : List Nat) (y : Yard) : Yard :=
  let y₁ := if e = .pulse then y.stretch ls else y
  let y₂ := if e = .fall ∧ ls.contains 2 then y₁.giveAssign else y₁
  let y₃ := y₂.inFreeOrder (ls.filter fun i => e.actsOn i && !(i == 4 && y.freezeLast)) (listenerActs onset pass e)
  if e = .fall ∧ ls.contains 4 ∧ y.freezeLast then pass y₃ else y₃

/-- A pulse of source `src` (R105, R107). -/
def pulseWith (hand : Edge → List Nat → Yard → Yard) (src : Nat) (y : Yard) : Yard :=
  hand .pulse (y.listenersOfSource src) y

/-- Where source `src` has another level in `z` than in `y`, each lane that carries it rises or falls (R105, R107). -/
def followWith (hand : Edge → List Nat → Yard → Yard) (src : Nat) (y z : Yard) : Yard :=
  if y.sourceLevel src = z.sourceLevel src then z
  else hand (if z.sourceLevel src then .rise else .fall) (z.listenersOfSource src) z

/-- Handing in RECALL, STOWING or PARKED, where a STOW edge has no effect (R126) and the arbiter grants nothing (R47;
log 10). -/
def handStorm : Edge → List Nat → Yard → Yard := handWith (fun _ y => y) (fun y => y)

end Yard

end Sys2Proof.Machine
end

