-- ==== Sys2Proof/Machine/Ends.lean ====
section
/-! DEFINITION. The ends of transfers and the hold-off level (R56, R74), and the onsets that the Stow Sequencer makes:
STOWING and PARKED (R76, R134, R135), exposure (R22), and RECALL (R128). -/

namespace Sys2Proof.Machine

namespace Yard

/-! ### Hold-off (R74) -/

/-- The hold-off level is judged again: at a change, HOLDOFF goes to the fleet port, source 10 follows, and a fall is an
assignment event. R74 lists the notice and the source and does not number them: they are taken as listed (log 43). -/
def judgeHoldoff (hand : Edge → List Nat → Yard → Yard) (y : Yard) : Yard :=
  if y.holdoffLevel = y.rail.holdoff then y
  else
    let z := { y with rail := { y.rail with holdoff := y.holdoffLevel } }
    let w := z.notify .fleet .holdoff (0, 0, 0) (if y.holdoffLevel then 1 else 0)
    let v := followWith hand 10 y w
    if y.holdoffLevel then v else v.giveAssign

/-! ### Ends of transfers (R56) -/

/-- The port that a transfer's end is notified to. -/
def endPort : TransferOrigin → Port
  | .fleet => .fleet
  | .plant | .round => .plant

/-- The end of a linked transfer, as the Round Scheduler takes it (R92). -/
def linkedEnd (y : Yard) (link : Option Nat) (result : TransferResult) : Yard :=
  match link with
  | none => y
  | some r => match result with
    | .done => y.setEntry r fun e => { e with stage := .claiming }
    | _ => y.unassign r

/-- The common effects of an end (R56): the destination reservation is released, the entry leaves the queue, the robot
takes its task, TRANSFER_END goes out, and the end is passed to the Round Scheduler, for which it is an assignment
event (R90). -/
def closeTransfer (t : Transfer) (result : TransferResult) (y : Yard) : Yard :=
  let y₁ := y.reservePlace t.destination none
  let y₂ := { y₁ with rail := { y₁.rail with queue := y₁.rail.queue.filter fun x => x.tag != t.tag } }
  let y₃ := (y₂.restRobot t.robot).notify (endPort t.origin) .transferEnd (t.tag, t.robot, 0) result.code
  (y₃.linkedEnd t.roundLink result).giveAssign

/-- A storm or a restart ends a transfer: its carriage, if it has one, is told to stay, and its span is released (R75,
R76). A WAITING entry has no carriage. -/
def abortTransfer (t : Transfer) (y : Yard) : Yard :=
  let z := match t.carriage with
    | some c => (y.stayCarriage c).releaseSegments c
    | none => y
  closeTransfer t .abortedStorm z

/-- A nudge in flight is ended by the onset of RECALL (R75). -/
def abortNudge (c : Nat) (y : Yard) : Yard :=
  if (y.rail.nudges.getD c none).isSome then
    judgeHoldoff handStorm (((y.stayCarriage c).setNudge c none).releaseSegments c)
  else y

/-! ### Exposure (R22) -/

/-- A change to row `r`'s record, with source 13 following (R22). -/
def exposedFollows (y z : Yard) : Yard := followWith handStorm 13 y z

/-- Row `r` goes to EXPOSED at the recall deadline, where it is OPEN on the table (R22, R132). Its EXPOSED notice and its count
come first, and source 13 rises after them where it is the first row, so that the notice stands before an ALERT of that
rise; R22, R107 and R132 do not order the two (the model's choice, log 36). -/
def exposeRow (r : Nat) (y : Yard) : Yard :=
  if y.onTable r then
    let z := y.setRow r fun w => { w with custody := .exposed }
    let w := z.notify .plant .exposed (r, 0, 0) ((y.row r).holder.getD 255)
    y.exposedFollows (w.countStorm fun n => { n with rowsExposed := bump n.rowsExposed })
  else y

/-! ### Stowing and parked (R134, R135) -/

/-- The all-stowed condition is judged in STOWING (R134): where it holds the state becomes PARKED, and source 11
rises (R135). Each event that R134 names judges it after its own effects (log 37). -/
def judgeAllStowed (y : Yard) : Yard :=
  if y.storm.state = .stowing ∧ y.allStowed then
    followWith handStorm 11 y (y.changeStorm .parked .allStowed none)
  else y

/-- Every entry still in the queue ends ABORTED_STORM (R76). -/
def endQueue (y : Yard) : Yard :=
  y.rail.queue.foldl (fun z t => judgeHoldoff handStorm (abortTransfer t z)) y

/-- The deadline timer stops (R131, R132). -/
def stopDeadline (y : Yard) : Yard := { y with storm := { y.storm with deadline := none } }

/-- The tables-clear condition is judged in RECALL (R131, R134). Each event that R131 names judges it after its own effects
(log 41). -/
def judgeTablesClear (y : Yard) : Yard :=
  if y.storm.state = .recall ∧ y.tablesClear then
    (y.stopDeadline.changeStorm .stowing .tablesClear none).endQueue.judgeAllStowed
  else y

/-- The recall deadline expires (R132). Where several rows are on the table, R22 and R132 do not order their exposures: the
rows are taken in increasing index, and so are their EXPOSED notices, of which a queue that fills keeps the first (the
model's choice, log 36). -/
def deadlineExpires (y : Yard) : Yard :=
  let z := y.stopDeadline.countStorm fun n => { n with deadlineExpiries := bump n.deadlineExpiries }
  ((((z.changeStorm .stowing .deadline none).overRows exposeRow).endQueue).judgeAllStowed)

/-! ### The onset of RECALL (R128) -/

/-- What the onset does to an entry of the queue (R75): WAITING and FETCH entries end. -/
def recallTransfer (t : Transfer) (y : Yard) : Yard :=
  if t.phase = .waiting ∨ t.phase = .fetch then judgeHoldoff handStorm (abortTransfer t y) else y

/-- What the onset does to row `r` (R20). -/
def recallRow (r : Nat) (y : Yard) : Yard :=
  match (y.row r).custody with
  | .track | .settle | .flattening => y.stowRow r
  | .open => if y.heldOpen r then y.stowRow r else y
  | .stowPending | .stowed | .exposed => y

/-- What the onset does to robot `k` (R129). -/
def recallRobot (k : Nat) (y : Yard) : Yard :=
  match (y.robot k).place with
  | .midrow r => if y.enrolled k then y.sendHome k r else y
  | _ => y

/-- The counting and the record of a recall (R126). -/
def recordRecall (y : Yard) (cause : StormCause) (lane : Option CauseLane) : Yard :=
  let z := { y with storm := { y.storm with recallCause := cause, recallLane := lane } }
  z.countStorm fun n => { n with recalls := bump n.recalls }

/-- A cause of recall (R126): in CALM or WARNED it begins RECALL by the steps of R128, in the other states it has no
effect. Step 3 ends the entries in the order of the queue (R176) and then the nudges by carriage index; R75 lists the two
and does not number them (log 43). -/
def beginRecall (cause : StormCause) (lane : Option CauseLane) (y : Yard) : Yard :=
  if y.mild then
    let y₁ := (y.changeStorm .recall cause lane).recordRecall cause lane
    let y₂ := y₁.emptyList
    let y₃ := y₂.rail.queue.foldl (fun z t => recallTransfer t z) y₂
    let y₄ := y₃.overCarriages abortNudge
    let y₅ := (y₄.overRows recallRow).overRobots recallRobot
    if y₅.tablesClear then y₅.judgeTablesClear
    else { y₅ with storm := { y₅.storm with deadline := some y₅.settings.stowDeadline } }
  else y

/-- An edge at the STOW listener (R126). -/
def stowEdge (lane : CauseLane) (y : Yard) : Yard := y.beginRecall .stowEdge (some lane)

/-- Handing where an arbiter pass of the same event follows, or where none may run: a fall of FREEZE runs none of its
own, since several causes in one event run one pass (R62; log 10). -/
def handQuiet : Edge → List Nat → Yard → Yard := handWith stowEdge (fun y => y)

end Yard

end Sys2Proof.Machine
end

