-- ==== Sys2Proof/Machine/Arbiter.lean ====
section
/-! DEFINITION. The rail arbiter (R59 to R65), transfer requests (R53 to R55) and the phases of a granted transfer (R67
to R71). -/

namespace Sys2Proof.Machine

/-- Rail distance (Conventions). -/
def railDistance (p q : Nat) : Nat := (p - q) + (q - p)

/-- Of two numbered things with their distances, the nearer; the earlier on a tie. -/
def nearerOf (best : Option (Nat × Nat)) (i d : Nat) : Option (Nat × Nat) :=
  match best with
  | none => some (i, d)
  | some (j, e) => if d < e then some (i, d) else some (j, e)

/-- The first nearest item of a list, by a distance that some items lack. -/
def nearest (dist : Nat → Option Nat) (items : List Nat) : Option Nat :=
  (items.foldl (fun best i => match dist i with
    | some d => nearerOf best i d
    | none => best) none).map Prod.fst

namespace Yard

/-! ### Choice of a carriage (R61) -/

/-- Carriage `i` bars the way between positions `p` and `q` (R61). -/
def barsWay (y : Yard) (p q i : Nat) : Bool :=
  match (y.carriage i).position with
  | some x => decide (min p q < x ∧ x < max p q) && (!(y.carriage i).restful || (y.carriage i).load.isSome)
  | none => false

/-- The distance of carriage `c` from a source position, where it is a candidate and not set aside (R61). -/
def candidateDistance (y : Yard) (source c : Nat) : Option Nat :=
  match (y.carriage c).position with
  | some p =>
    if (y.carriage c).free && !(y.carriageList.any (y.barsWay p source)) then some (railDistance p source) else none
  | none => none

/-- The carriage chosen for an entry in an arbiter pass, or none (R61). -/
def chooseCarriage (y : Yard) (t : Transfer) : Option Nat :=
  match t.source with
  | .aboard c =>
    if (y.carriage c).restful && (y.carriage c).task.isNone && (y.carriage c).position.isSome then some c else none
  | _ =>
    match y.placePosition t.source with
    | some s => nearest (y.candidateDistance s) y.carriageList
    | none => none

/-- The rail position of an entry's destination. -/
def destinationPosition (y : Yard) (t : Transfer) : Nat := (y.placePosition t.destination).getD 0

/-- The candidate span of an entry with its chosen carriage, or without one (R59). -/
def candidateSpan (y : Yard) (t : Transfer) (chosen : Option Nat) : Option Span :=
  match y.placePosition t.source with
  | none => none
  | some s =>
    match chosen with
    | some c => match (y.carriage c).position with
      | some p => some (spanOver p [s, y.destinationPosition t])
      | none => none
    | none => some (spanOver s [y.destinationPosition t])

/-! ### Phases -/

/-- A phase starts: the phase timer starts and the carriage is given its order (R63 to R70). -/
def startPhase (y : Yard) (tag c : Nat) (phase : Phase) (o : CarriageOrder) : Yard :=
  (y.setTransfer tag fun t => { t with phase := phase, phaseTimer := some y.settings.phaseLimit }).orderCarriage c o

/-- From the source on: ALIGHT where carriage `c` stands at the destination, else CARRY (R63, R68). -/
def carryOn (y : Yard) (t : Transfer) (c : Nat) : Yard :=
  if (y.carriage c).position = some (y.destinationPosition t) then
    y.startPhase t.tag c .alight (.alight t.robot t.destination)
  else y.startPhase t.tag c .carry (.goto (y.destinationPosition t))

/-- The first phase of a granted entry (R63). -/
def firstPhase (y : Yard) (t : Transfer) (c : Nat) : Yard :=
  match t.source with
  | .aboard _ => y.carryOn t c
  | _ =>
    let source := (y.placePosition t.source).getD 0
    if (y.carriage c).position = some source then y.startPhase t.tag c .board (.board t.robot)
    else y.startPhase t.tag c .fetch (.goto source)

/-- A grant (R63). -/
def grant (y : Yard) (t : Transfer) (c : Nat) (sp : Span) : Yard :=
  let y₁ := y.setTransfer t.tag fun x => { x with carriage := some c, span := some sp }
  let y₂ := y₁.reserveSpan sp c (.transfer t.tag)
  let y₃ := y₂.setCarriage c fun w => { w with task := some (.transfer t.tag) }
  judgeHoldoff handQuiet (y₃.firstPhase t c)

/-! ### Nudges (R64, R65) -/

/-- Where carriage `i`, inside the span of an entry with chosen carriage `c`, is nudged to (R65). -/
def nudgeTarget (y : Yard) (sp : Span) (c i : Nat) : Option Nat :=
  if i < c then if sp.first = 0 then none else some (8 * sp.first - 1)
  else if 8 * (sp.last + 1) < y.rows.length then some (8 * (sp.last + 1)) else none

/-- The move of carriage `i` out of a span, where it passes its checks: the target and the path (R65). -/
def nudgeMove (y : Yard) (sp : Span) (c i : Nat) : Option (Nat × Span) :=
  match (y.carriage i).position, y.nudgeTarget sp c i with
  | some p, some target =>
    let path := spanOver p [target]
    if y.keepsOrder i target && y.spanFree path && (y.othersInside path i).isEmpty then some (target, path) else none
  | _, _ => none

/-- A nudge is ordered (R65). -/
def orderNudge (y : Yard) (i target : Nat) (path : Span) : Yard :=
  let y₁ := y.reserveSpan path i .nudge
  let y₂ := (y₁.setCarriage i fun w => { w with task := some .nudge }).orderCarriage i (.goto target)
  judgeHoldoff handQuiet (y₂.setNudge i (some ⟨target, y.settings.phaseLimit⟩))

/-- The first carriage of a list whose move passes is nudged; none where no move passes (R64). -/
def nudgeFirst (y : Yard) (sp : Span) (c : Nat) : List Nat → Yard
  | [] => y
  | i :: rest => match y.nudgeMove sp c i with
    | some (target, path) => y.orderNudge i target path
    | none => y.nudgeFirst sp c rest

/-- A nudge may be ordered for a blocked entry (R64): only where other carriages inside its span are all that keep it
from its grant, and all of them are movable. -/
def blockedNudge (y : Yard) (c : Nat) (sp : Span) : Yard :=
  let inWay := y.othersInside sp c
  if y.spanFree sp && !y.seen 4 && inWay.all (fun i => (y.carriage i).free) then y.nudgeFirst sp c inWay else y

/-! ### The arbiter pass (R62) -/

/-- One WAITING entry is judged; `held` are the spans of the older entries still WAITING. -/
def judgeTransfer (y : Yard) (held : List Span) (t : Transfer) : Yard × List Span :=
  let chosen := y.chooseCarriage t
  match chosen, y.candidateSpan t chosen with
  | none, none => (y, held)
  | none, some sp => (y, sp :: held)
  | some _, none => (y, held)
  | some c, some sp =>
    if held.any sp.meets then (y, sp :: held)
    else if y.spanFree sp && (y.othersInside sp c).isEmpty && !y.seen 4 then (y.grant t c sp, held)
    else (y.blockedNudge c sp, sp :: held)

/-- The entries that hold the tags are judged in turn, those that are WAITING. -/
def walkTransfers (y : Yard) (held : List Span) : List Nat → Yard
  | [] => y
  | tag :: rest =>
    match y.transferOf tag with
    | some t =>
      if t.phase = .waiting then
        let judged := y.judgeTransfer held t
        walkTransfers judged.1 judged.2 rest
      else y.walkTransfers held rest
    | none => y.walkTransfers held rest

/-- An arbiter pass (R62). It makes no grant and orders no nudge while the FREEZE lane is high, while a carriage has an
unknown position, or in RECALL, STOWING and PARKED (R47). -/
def arbiterPass (y : Yard) : Yard :=
  if y.mild && y.allPositionsKnown && !y.seen 4 then y.walkTransfers [] (y.rail.queue.map (·.tag)) else y

/-- Handing an edge at any other point: a STOW edge begins recall, a fall of FREEZE runs an arbiter pass. -/
def hand : Edge → List Nat → Yard → Yard := handWith stowEdge arbiterPass

/-- A pulse of a source. -/
def pulse (src : Nat) (y : Yard) : Yard := pulseWith hand src y

/-- The pass of an event that gave its cause by a rule, or whose events since `y` made the FREEZE lane fall (R62). -/
def passAfter (caused : Bool) (y z : Yard) : Yard :=
  if caused || (y.seen 4 && !z.seen 4) then z.arbiterPass else z

/-! ### Requests (R53 to R55) -/

/-- The next tag, from the counter on, that no entry holds (R51). -/
def freshTag (y : Yard) : Nat → Nat → Nat
  | 0, n => n
  | fuel + 1, n => if (y.transferOf n).isSome then y.freshTag fuel ((n + 1) % 256) else n

/-- The destination is free (R29): check 7 of R54. -/
def destinationFree (y : Yard) : Place → Bool
  | .garage r => y.garageFree r
  | .dock d => y.dockFree d
  | .midrow _ | .aboard _ | .unknown => false

/-- The storm check of R54, check 9. -/
def stormReply (y : Yard) (destination : Place) : Option Reply :=
  match y.storm.state, destination with
  | .calm, _ => none
  | .warned, .dock _ => none
  | .warned, _ => some (.refuse .alertActive)
  | .recall, _ | .stowing, _ => some (.refuse .state)
  | .parked, _ => some (.plain .ignored)

/-- The destination is the garage of a barred row: check 6 of R54. -/
def destinationBarred (y : Yard) : Place → Bool
  | .garage r => y.barred r
  | _ => false

/-- The answer of the checks of R54: `none` where every check passes. -/
def transferRefusal (y : Yard) (origin : TransferOrigin) (k : Nat) (destination : Place) : Option Reply :=
  let b := y.robot k
  if !b.enrolled then some (.refuse .range)
  else if (match b.place with | .unknown | .midrow _ => true | _ => false) then some (.refuse .robotBusy)
  else if (y.transferOfRobot k).isSome || (match b.task with | .pass _ _ => true | _ => false) || b.fault then
    some (.refuse .robotBusy)
  else if origin ≠ .round ∧ b.roundLink.isSome then some (.refuse .robotBusy)
  else if !y.placeExists destination || destination == b.place then some (.refuse .range)
  else if y.destinationBarred destination then some (.refuse .barred)
  else if !y.destinationFree destination then some (.refuse .place)
  else if 8 ≤ y.rail.queue.length ∨ (origin = .round ∧ y.rail.holdoff) then some (.plain .full)
  else y.stormReply destination

/-- The acceptance of a request, up to the appending of its entry (R55, steps 1 to 3). -/
def appendTransfer (y : Yard) (origin : TransferOrigin) (purpose : Purpose) (k : Nat) (destination : Place)
    (link : Option Nat) (tag : Nat) : Yard :=
  let y₁ := (y.giveUpRow k).reservePlace destination (some tag)
  let t : Transfer := ⟨tag, origin, purpose, k, (y.robot k).place, destination, .waiting, none, none, none, link⟩
  let y₂ := { y₁ with rail := { y₁.rail with queue := y₁.rail.queue ++ [t], tagCounter := (tag + 1) % 256 } }
  y₂.setRobot k fun b => { b with task := .transfer tag }

/-- A transfer request (R53): the refusal of R54, or the acceptance of R55 with its arbiter pass. -/
def requestTransfer (pass : Yard → Yard) (y : Yard) (origin : TransferOrigin) (purpose : Purpose) (k : Nat)
    (destination : Place) (link : Option Nat) : Yard × Reply :=
  match y.transferRefusal origin k destination with
  | some reply => (y, reply)
  | none =>
    let tag := y.freshTag 256 y.rail.tagCounter
    let z := y.appendTransfer origin purpose k destination link tag
    (pass (judgeHoldoff handQuiet z), ⟨.accepted, .none, [byte tag]⟩)

/-! ### Failure and completion (R66, R67 to R71) -/

/-- The work of carriage `c` fails: the carriage goes to FAULT, its segments stay with cause FAULT, and its transfer or
nudge is ended (R66, R71). -/
def failCarriage (y : Yard) (c : Nat) (result : TransferResult) : Yard :=
  let z := (y.carriageFaults c).keepSegmentsFaulted c
  match (y.carriage c).task with
  | some (.transfer tag) =>
    match z.transferOf tag with
    | some t => judgeHoldoff hand (closeTransfer t result z)
    | none => z
  | some .nudge => judgeHoldoff hand (z.setNudge c none)
  | none => z

/-- A nudge completes (R66). -/
def completeNudge (y : Yard) (c : Nat) : Yard :=
  let z := ((y.setNudge c none).releaseSegments c).setCarriage c fun w => { w with task := none }
  (judgeHoldoff handQuiet z).arbiterPass

/-- A transfer completes at its Alighted (R70). -/
def completeTransfer (y : Yard) (t : Transfer) (c : Nat) : Yard :=
  let z := (y.releaseSegments c).setCarriage c fun w => { w with task := none }
  (judgeHoldoff handQuiet (closeTransfer t .done z)).arbiterPass

/-- A completion of carriage `c`'s order, passed on with its task (R41, R67 to R70). -/
def carriageCompleted (y : Yard) (c : Nat) : Yard :=
  match (y.carriage c).task with
  | some (.transfer tag) =>
    match y.transferOf tag with
    | some t => match t.phase with
      | .fetch => y.startPhase tag c .board (.board t.robot)
      | .board => y.carryOn t c
      | .carry => y.startPhase tag c .alight (.alight t.robot t.destination)
      | .alight => y.completeTransfer t c
      | .waiting => y
    | none => y
  | some .nudge => y.completeNudge c
  | none => y.arbiterPass

end Yard

end Sys2Proof.Machine
end

