-- ==== Sys2Proof/Machine/Assign.lean ====
section
/-! DEFINITION. Claims (R8), the assignment attempt (R90 to R93), recharge sends (R100), and the end of an event, at
which the two run. The arbiter pass that an acceptance runs (R55) is an argument, so that what an attempt does is said
once for any pass. -/

namespace Sys2Proof.Machine

namespace Yard

/-! ### Claims (R8) -/

/-- The answer of the checks of R8: `none` where the claim passes. -/
def claimRefusal (y : Yard) (r k : Nat) : Option Reply :=
  let w := y.row r
  if y.storm.state = .parked then some (.plain .ignored)
  else if y.storm.state ≠ .calm then some (.refuse .state)
  else if y.barred r then some (.refuse .barred)
  else if w.custody = .settle then some (.refuse .settling)
  else if w.custody = .flattening ∨ w.custody = .exposed ∨ (w.custody = .open ∧ y.heldOpenBy r k = false) then
    some (.refuse .held)
  else if w.custody = .stowPending ∨ w.custody = .stowed then some (.refuse .state)
  else if w.garageOccupant ≠ some k then some (.refuse .place)
  else none

/-- A claim that passes is taken (R8): a row in TRACK goes to FLATTENING, a held-open row stops its hold timer. -/
def takeClaim (y : Yard) (r k : Nat) : Yard :=
  if (y.row r).custody = .track then
    y.setRow r fun w => { w with custody := .flattening, holder := some k, timer := some y.settings.flattenLimit }
  else y.setRow r fun w => { w with timer := none }

/-- The claim of a CLAIMING entry for row `r` with robot `k` and the handling of its answer (R93). -/
def claimEntry (y : Yard) (e : Entry) (k : Nat) : Yard :=
  match y.claimRefusal e.row k with
  | some ⟨.refused, .place, _⟩ | some ⟨.refused, .barred, _⟩ => y.unassign e.row
  | some _ => y
  | none =>
    let z := y.takeClaim e.row k
    if (y.row e.row).custody = .track then z.setEntry e.row fun x => { x with stage := .flattening }
    else (z.givePass k e.row e.kind).setEntry e.row fun x => { x with stage := .passing }

/-- A CLAIMING entry is checked and, where the row allows it, claimed (R93). -/
def judgeClaiming (y : Yard) (e : Entry) (k : Nat) : Yard :=
  let b := y.robot k
  let w := y.row e.row
  if b.place ≠ .garage e.row ∨ b.fault ∨ b.silent ∨ (w.holder.isSome ∧ w.holder ≠ some k) then y.unassign e.row
  else if w.custody = .track ∨ y.heldOpenBy e.row k then y.claimEntry e k
  else y

/-! ### Assignment (R90 to R92) -/

/-- Robot `k` is written into the entry for row `r`, with its stage (R79, R91, R92). -/
def assignEntry (y : Yard) (r k : Nat) (stage : Stage) : Yard :=
  if (y.entryOf r).isSome then
    (y.setEntry r fun e => { e with robot := some k, stage := stage }).setRobot k fun b => { b with roundLink := some r }
  else y

/-- A WAITING entry for row `r` is takeable (R91). -/
def takeable (y : Yard) (r : Nat) : Bool :=
  let w := y.row r
  (w.custody == .track || w.custody == .settle ||
      (y.heldOpen r && match w.holder with
        | some k => y.available k
        | none => false)) &&
    w.garageReserved.isNone &&
    match w.garageOccupant with
    | some k => y.available k
    | none => true

/-- The distance of robot `k` from position `p`, where it is available (R91). -/
def robotDistance (y : Yard) (p k : Nat) : Option Nat :=
  if y.available k then (y.placePosition (y.robot k).place).map (railDistance p) else none

/-- The robot chosen for a takeable entry (R91). -/
def chooseRobot (y : Yard) (r : Nat) : Option Nat :=
  match (y.row r).garageOccupant with
  | some k => some k
  | none => nearest (y.robotDistance r) y.robotList

/-- A WAITING entry is judged (R91, R92). `full` says that a ROUND request of this attempt was answered FULL. -/
def judgeWaiting (pass : Yard → Yard) (y : Yard) (full : Bool) (e : Entry) : Yard × Bool :=
  if y.takeable e.row then
    match y.chooseRobot e.row with
    | none => (y, full)
    | some k =>
      if (y.robot k).place = .garage e.row then ((y.assignEntry e.row k .claiming).judgeClaiming e k, full)
      else if full || y.rail.holdoff then (y, full)
      else
        let asked := y.requestTransfer pass .round .round k (.garage e.row) (some e.row)
        match asked.2.status with
        | .accepted => (asked.1.assignEntry e.row k .moving, full)
        | .full => (asked.1, true)
        | _ => (asked.1, full)
  else (y, full)

/-- An entry is judged by its stage (R90). -/
def judgeEntry (pass : Yard → Yard) (y : Yard) (full : Bool) (e : Entry) : Yard × Bool :=
  match e.stage, e.robot with
  | .waiting, _ => y.judgeWaiting pass full e
  | .claiming, some k => (y.judgeClaiming e k, full)
  | _, _ => (y, full)

/-- The walk of the round list from head to tail, each entry judged once. Entries are only added behind it while it
runs, so that the first entry not yet judged is the next one. -/
def walkList (pass : Yard → Yard) : Nat → Bool → List Nat → Yard → Yard
  | 0, _, _, y => y
  | fuel + 1, full, judged, y =>
    match y.rounds.list.find? (fun e => !judged.contains e.row) with
    | none => y
    | some e =>
      let next := y.judgeEntry pass full e
      walkList pass fuel next.2 (e.row :: judged) next.1

/-- The assignment attempt: only in CALM, with the SUSPEND lane low (R90; log 22). -/
def assignAttempt (pass : Yard → Yard) (y : Yard) : Yard :=
  if y.storm.state = .calm ∧ y.seen 2 = false then walkList pass 48 false [] y else y

/-! ### Recharge sends (R100) -/

/-- The distance of a free dock from position `p`. -/
def dockDistance (y : Yard) (p d : Nat) : Option Nat :=
  if y.dockFree d then some (railDistance p (y.dockPosition d)) else none

/-- One robot of a try; the second component says that the try has ended. -/
def rechargeRobot (pass : Yard → Yard) (y : Yard) (k : Nat) : Yard × Bool :=
  if y.needsCharge k then
    match y.placePosition (y.robot k).place with
    | none => (y, false)
    | some p =>
      match nearest (y.dockDistance p) y.dockList with
      | none => (y, false)
      | some d =>
        let asked := y.requestTransfer pass .round .recharge k (.dock d) none
        match asked.2.status with
        | .accepted => (asked.1.countRounds fun n => { n with rechargesSent := bump n.rechargesSent }, false)
        | .full => (asked.1, true)
        | _ => (asked.1, false)
  else (y, false)

/-- The robots of a try, in increasing id, until an answer of FULL. -/
def rechargeWalk (pass : Yard → Yard) (y : Yard) : List Nat → Yard
  | [] => y
  | k :: rest =>
    let sent := y.rechargeRobot pass k
    if sent.2 then sent.1 else rechargeWalk pass sent.1 rest

/-- A try of recharge sends: only in CALM or WARNED with the hold-off level low (R100). -/
def rechargeTry (pass : Yard → Yard) (y : Yard) : Yard :=
  if y.mild && !y.rail.holdoff then y.rechargeWalk pass y.robotList else y

/-! ### The end of an event -/

/-- The end of an event: where it gave an assignment event, one attempt runs, followed by the recharge sends (R90, R100). What
the two give themselves starts no further attempt (R90). -/
def finishWith (pass : Yard → Yard) (y : Yard) : Yard :=
  if y.assign then { (y.assignAttempt pass).rechargeTry pass with assign := false } else y

/-- The end of an event, its acceptances each running an arbiter pass (R55). A Fleet Restart ends without it (log 35). -/
def finish (y : Yard) : Yard := finishWith arbiterPass y

end Yard

end Sys2Proof.Machine
end

