-- ==== Sys2Proof/Machine/Ports.lean ====
section
/-! DEFINITION. The Port Interface: how a complete frame is judged and answered (R168 to R174), the requests that it owns
(Read Status, Read Notices, Raise Alert), and the events of a link. -/

namespace Sys2Proof.Machine

/-! ### Links -/

/-- The receiver is HUNTING. -/
def Receiver.isHunting : Receiver → Bool
  | .hunting => true
  | .receiving _ => false

/-- The transmitter is SENDING. -/
def Transmitter.isSending : Transmitter → Bool
  | .idle => false
  | .sending _ => true

/-- The frame now being received, or one whose sync byte comes now, is marked overrun (R169). -/
def Link.frameMarked (l : Link) : Bool :=
  match l.receiver with
  | .receiving marked => marked
  | .hunting => l.transmitter.isSending

/-- A frame marked overrun is discarded (R169). -/
def Link.overrunEnds (l : Link) : Link := { l with receiver := .hunting, overrun := bump l.overrun }

/-- A frame is discarded for a gap or a framing error (R168): counted in truncated, or in overrun where it is marked
(R169). -/
def Link.discard (l : Link) : Link :=
  if l.frameMarked then l.overrunEnds else { l with receiver := .hunting, truncated := bump l.truncated }

/-- An answer is given (R169): the receiver hunts again and the transmitter goes to SENDING. MALFORMED is counted
(R171). -/
def Link.answer (l : Link) (kind : Byte) (reply : Reply) : Link :=
  { l with
    receiver := .hunting
    transmitter := .sending ⟨kind, reply⟩
    malformed := if reply.status = .malformed then bump l.malformed else l.malformed }

/-- A byte outside a frame (R168): A5h begins a frame, any other byte is counted as stray. -/
def Link.hunt (l : Link) (b : Byte) : Link :=
  if b = 0xA5 then { l with receiver := .receiving l.transmitter.isSending }
  else { l with strayBytes := bump l.strayBytes }

namespace State

/-- Change the link of a port. -/
def setLink (s : State) (p : Port) (f : Link → Link) : State := { s with links := s.links.set p (f (s.links.get p)) }

/-- A complete frame on port `p`: discarded where it is marked overrun, else judged by `judge`, which gives the state after
it and the answer (R169, R170). While RESET_N is low nothing is received (R188). -/
def frame (s : State) (p : Port) (kind : Byte) (judge : State → State × Reply) : State :=
  if !s.resetN then s
  else if (s.links.get p).frameMarked then s.setLink p Link.overrunEnds
  else
    let judged := judge s
    judged.1.setLink p fun l => l.answer kind judged.2

end State

/-- Case 6 of R170: the start-up state refuses the kind on this port (R174). -/
def startUpRefusal (st : StartUp) (k : Kind) (p : Port) : Option Reply :=
  match st with
  | .starting => if k = .readStatus then none else some (.plain .starting)
  | .unconfigured => if k.takenUnconfigured p then none else some (.plain .unconfigured)
  | .ready => none

/-- Cases 4 to 6 of R170: `none` where the request is taken. -/
def requestRefusal (st : StartUp) (k : Kind) (p : Port) (body : List Byte) : Option Reply :=
  if body.length ≠ k.bodyLength then some (.plain .malformed)
  else if k.permitted p = false then some (.plain .notPermitted)
  else startUpRefusal st k p

namespace State

/-- A request frame with a good check and a kind of the catalogue (R170, cases 4 to 7). -/
def serve (k : Kind) (p : Port) (body : List Byte) (take : State → State × Reply) (s : State) : State :=
  s.frame p k.code fun s =>
    match requestRefusal s.yard.startUp k p body with
    | some reply => (s, reply)
    | none => take s

/-- A request that acts on the yard: its effects, and the end of its event. -/
def onYard (f : Yard → Yard × Reply) (s : State) : State × Reply :=
  ({ s with yard := (f s.yard).1.finish }, (f s.yard).2)

/-- A request that reads the yard and may clear counters that it has read. -/
def readingYard (f : Yard → Yard × Reply) (s : State) : State × Reply :=
  ({ s with yard := (f s.yard).1 }, (f s.yard).2)

/-- A request that only reads. -/
def reading (f : State → Reply) (s : State) : State × Reply := (s, f s)

/-- The blocks run: RESET_N is high and the settings have been applied (R188, R197). -/
def running (s : State) : Bool := s.resetN && s.yard.startUp != .starting

/-- An event of a timer or an input that acts on the yard. -/
def event (f : Yard → Yard) (s : State) : State :=
  if s.running then { s with yard := (f s.yard).finish } else s

/-! ### Read Status (R180) -/

/-- The body of a Read Status answer (R180; log 15). -/
def statusBody (s : State) (p : Port) : List Byte :=
  let box := s.yard.boxes.get p
  let l := s.links.get p
  [Config.startUpCode s.yard.startUp.index, byte s.yard.storm.state.code] ++ fourBytes s.yard.stamp ++
    [flagByte s.loader.save.isSome, flagByte s.accounts.walk.isSome, byte box.queue.length] ++ twoBytes box.lost ++
    [flagByte (s.yard.attention p)] ++ twoBytes l.strayBytes ++ twoBytes l.truncated ++ twoBytes l.malformed ++
    twoBytes l.overrun

/-- The port's notices_lost and its four link counters are set to 0 (R171, R175, R180). -/
def clearPort (s : State) (p : Port) : State :=
  let z := { s with yard := { s.yard with boxes := s.yard.boxes.set p { s.yard.boxes.get p with lost := 0 } } }
  z.setLink p fun l => { l with strayBytes := 0, truncated := 0, malformed := 0, overrun := 0 }

/-- Read Status taken (R180). -/
def takeReadStatus (p : Port) (s : State) : State × Reply := (s.clearPort p, .ok (s.statusBody p))

/-! ### Read Notices (R178) -/

/-- Read Notices taken (R178). -/
def takeReadNotices (p : Port) (body : List Byte) (s : State) : State × Reply :=
  let most := byteAt body 0
  if most = 0 ∨ 4 < most then (s, .refuse .range)
  else
    let box := s.yard.boxes.get p
    let out := box.queue.take most
    let left := box.queue.drop most
    ({ s with yard := { s.yard with boxes := s.yard.boxes.set p { box with queue := left } } },
      .ok ([byte out.length, byte left.length] ++ (out.map Notice.bytes).flatten))

end State

/-! ### Raise Alert (R114) -/

/-- The soft source of a port (R105, R114). -/
def softSource : Port → Nat
  | .plant => 15
  | .tracker => 16
  | .fleet => 17

/-- Raise Alert taken (R114). -/
def Yard.takeRaiseAlert (p : Port) (y : Yard) : Yard × Reply := (y.pulse (softSource p), .ok [])

/-! ### Meanings: requests of the Port Interface -/

/-- READ_STATUS (R180). -/
def execReadStatus (p : Port) (body : List Byte) (s : State) : Host.Outcome State Fault Refusal :=
  .next (s.serve .readStatus p body (State.takeReadStatus p))

/-- READ_NOTICES (R178). -/
def execReadNotices (p : Port) (body : List Byte) (s : State) : Host.Outcome State Fault Refusal :=
  .next (s.serve .readNotices p body (State.takeReadNotices p body))

/-- RAISE_ALERT (R114). -/
def execRaiseAlert (p : Port) (body : List Byte) (s : State) : Host.Outcome State Fault Refusal :=
  .next (s.serve .raiseAlert p body (State.onYard (Yard.takeRaiseAlert p)))

/-! ### Meanings: frames that are no request -/

/-- UNKNOWN_KIND_REQUEST (R170, case 3): NOT_PERMITTED, with the kind byte as received. -/
def execUnknownKindRequest (p : Port) (kind : Byte) (_body : List Byte) (s : State) : Host.Outcome State Fault Refusal :=
  .next (s.frame p kind fun s => (s, .plain .notPermitted))

/-- FAILED_CHECK_FRAME (R170, case 2): MALFORMED, with the kind byte as received. -/
def execFailedCheckFrame (p : Port) (kind : Byte) (_body : List Byte) (_check : Word) (s : State) :
    Host.Outcome State Fault Refusal :=
  .next (s.frame p kind fun s => (s, .plain .malformed))

/-- BAD_LENGTH_FRAME (R170, case 1): MALFORMED, with kind 0. -/
def execBadLengthFrame (p : Port) (_length : Byte) (s : State) : Host.Outcome State Fault Refusal :=
  .next (s.frame p 0 fun s => (s, .plain .malformed))

/-! ### Meanings: the other events of a link -/

/-- STRAY_BYTE (R168): a byte received while the receiver hunts; a byte inside a frame is part of that frame and changes
nothing by itself (log 3). -/
def execStrayByte (p : Port) (b : Byte) (s : State) : Host.Outcome State Fault Refusal :=
  .next (if s.resetN && (s.links.get p).receiver.isHunting then s.setLink p fun l => l.hunt b else s)

/-- FRAME_GAP_TIMEOUT (R168): the frame cut by the gap is discarded. -/
def execFrameGapTimeout (p : Port) (s : State) : Host.Outcome State Fault Refusal :=
  .next (if s.resetN then s.setLink p Link.discard else s)

/-- FRAMING_ERROR_BYTE (R168): the frame in which the byte arrives is discarded. -/
def execFramingErrorByte (p : Port) (s : State) : Host.Outcome State Fault Refusal :=
  .next (if s.resetN then s.setLink p fun l => l.discard else s)

/-- OVERRUN_FRAME (R169): a frame whose sync byte was received while the transmitter was SENDING ends. -/
def execOverrunFrame (p : Port) (s : State) : Host.Outcome State Fault Refusal :=
  .next (if s.resetN then s.setLink p Link.overrunEnds else s)

/-- ANSWER_SENT (R169): the transmitter returns to IDLE. -/
def execAnswerSent (p : Port) (s : State) : Host.Outcome State Fault Refusal :=
  .next (if s.resetN then s.setLink p fun l => { l with transmitter := .idle } else s)

end Sys2Proof.Machine
end

