-- ==== Sys2Proof/Machine/Rows.lean ====
section
/-! DEFINITION. The Row Table's requests and timers: posture reports (R5, R9, R18, R21), row summaries (R7, R187), fences
(R16, R17), row timer expiries (R10, R13, R15, R21) and the minute event (R26). -/

namespace Sys2Proof.Machine

namespace Yard

/-! ### Posture Report -/

/-- FLAT for a FLATTENING row (R9): the row goes to OPEN, and the entry's robot is given its PASS order (R94). -/
def endFlattenFlat (y : Yard) (r : Nat) : Yard :=
  let z := y.setRow r fun w => { w with custody := .open, timer := none }
  match y.entryOf r with
  | some ⟨_, kind, _, some k, _⟩ => (z.givePass k r kind).setEntry r fun e => { e with stage := .passing }
  | _ => z

/-- Row `r` is given up where it is FLATTENING or held open (R17, R18, R28). -/
def settleClaimed (y : Yard) (r : Nat) : Yard :=
  if (y.row r).custody = .flattening ∨ y.heldOpen r then y.settleRow r else y

/-- FAULT for row `r` (R18). -/
def barByFault (y : Yard) (r : Nat) : Yard :=
  let z := y.settleClaimed r
  let w := match (y.row r).holder with
    | some k =>
      if y.onTable r then match (y.robot k).order with
        | some ⟨.pass _ _, _⟩ => z.sendHome k r
        | _ => z
      else z
    | none => z
  w.removeEntry r

/-- STOWED for row `r` (R21): the stow completes, or unconfirmed is cleared. -/
def completeStow (y : Yard) (r : Nat) : Yard :=
  match (y.row r).custody with
  | .stowPending => (y.setRow r fun w => { w with custody := .stowed, timer := none, unconfirmed := false }).judgeAllStowed
  | .stowed => y.setRow r fun w => { w with unconfirmed := false }
  | _ => y

/-- The effects of a posture report beyond the update (R5). -/
def postureEffect (y : Yard) (r : Nat) (p : Posture) : Yard :=
  match p with
  | .flat => if (y.row r).custody = .flattening then y.endFlattenFlat r else y
  | .fault => y.barByFault r
  | .stowed => y.completeStow r
  | .unknown | .tracking => y

/-- Posture Report taken (R5). -/
def takePostureReport (body : List Byte) (y : Yard) : Yard × Reply :=
  let r := byteAt body 0
  match postureOf (byteAt body 1) with
  | some p =>
    if r < y.rows.length then ((y.setRow r fun w => { w with reported := p }).postureEffect r p, .ok [])
    else (y, .refuse .range)
  | none => (y, .refuse .range)

/-! ### Read Orders on the tracker port (R6) -/

/-- The numbers below `n` after a cursor, then from 0 up to the cursor itself, each once. -/
def searchAfter (cursor n : Nat) : List Nat :=
  (List.range n).filter (fun i => cursor < i) ++ (List.range n).filter (fun i => i ≤ cursor)

/-- The rows that Read Orders returns (R6). -/
def rowOrders (y : Yard) (cursor : Nat) : List Nat :=
  ((searchAfter cursor y.rows.length).filter y.rowOrderPending).take 8

/-- Read Orders on the tracker port (R6). -/
def readRowOrders (y : Yard) (cursor : Nat) : Reply :=
  if cursor < y.rows.length then
    let found := y.rowOrders cursor
    .ok (byte found.length :: (found.map fun r => [byte r, byte (y.wanted r).code]).flatten)
  else .refuse .range

/-! ### Read Rows (R7, R187) -/

/-- Custody and holder in one number (R187). -/
def custodyCode (y : Yard) (r : Nat) : Nat :=
  let k := (y.row r).holder.getD 0
  match (y.row r).custody with
  | .track => 0
  | .settle => 1
  | .stowPending => 2
  | .stowed => 3
  | .flattening => 4 + k
  | .open => if y.heldOpen r then 28 + k else 16 + k
  | .exposed => 40 + k

/-- The garage field (R187). -/
def garageCode (w : Row) : Nat :=
  match w.garageReserved, w.garageOccupant with
  | some tag, _ => tag
  | none, some k => 256 + k
  | none, none => 511

/-- A row summary: a word of 56 bits, high byte first (R187). -/
def rowSummary (y : Yard) (r : Nat) : List Byte :=
  let w := y.row r
  let word := y.custodyCode r % 64 * 2 ^ 50 + w.reported.code * 2 ^ 47 + garageCode w % 512 * 2 ^ 38 +
    w.age % 65536 * 2 ^ 22 + w.soiling.getD 1023 % 1024 * 2 ^ 12 + w.timer.getD 0 % 4096
  [6, 5, 4, 3, 2, 1, 0].map fun i => byte (word / 256 ^ i)

/-- Flag bits of rows: bit `i` for row first+i. -/
def rowFlags (first n : Nat) (flag : Nat → Bool) : Byte :=
  byte ((List.range n).foldl (fun acc i => acc + if flag (first + i) then 2 ^ i else 0) 0)

/-- Read Rows (R7, R187). -/
def readRows (y : Yard) (first : Nat) : Reply :=
  if first < y.rows.length then
    let n := min 8 (y.rows.length - first)
    .ok ([byte n, byte first, rowFlags first n y.fenced, rowFlags first n fun r => (y.row r).unconfirmed] ++
      ((List.range n).map fun i => y.rowSummary (first + i)).flatten)
  else .refuse .range

/-! ### Fences (R16, R17) -/

/-- What a row newly barred by a fence takes (R17): its claim or hold ends, and its round-list entry is removed. -/
def barByFence (before : Yard) (r : Nat) (y : Yard) : Yard :=
  if y.barred r && !before.barred r then (y.settleClaimed r).removeEntry r else y

/-- Set Fence taken (R16). -/
def takeSetFence (body : List Byte) (y : Yard) : Yard × Reply :=
  let i := byteAt body 0
  let first := byteAt body 1
  let last := byteAt body 2
  if 7 < i ∨ last < first ∨ y.rows.length ≤ last then (y, .refuse .range)
  else
    let z := { y with fences := y.fences.set i (some (first, last)) }
    (z.overRows (barByFence y), .ok [])

/-- Clear Fence taken (R16). -/
def takeClearFence (body : List Byte) (y : Yard) : Yard × Reply :=
  let i := byteAt body 0
  if 7 < i then (y, .refuse .range) else ({ y with fences := y.fences.set i none }, .ok [])

/-- One range of Read Fences (R184; log 14). -/
def fenceBytes : Option (Nat × Nat) → List Byte
  | some (first, last) => [byte first, byte last]
  | none => [0xFF, 0xFF]

/-! ### Row timers -/

/-- The flatten timer of row `r` expires (R10). -/
def flattenExpires (r : Nat) (y : Yard) : Yard :=
  if (y.row r).custody = .flattening ∧ (y.row r).timer.isSome then
    ((y.settleRow r).notify .plant .flattenTimeout (r, 0, 0) ((y.row r).holder.getD 255)).removeEntry r
  else y

/-- The hold timer of row `r` expires (R13). -/
def holdExpires (r : Nat) (y : Yard) : Yard :=
  if y.heldOpen r ∧ (y.row r).timer.isSome then y.settleRow r else y

/-- The settle timer of row `r` expires (R15). -/
def settleExpires (r : Nat) (y : Yard) : Yard :=
  if (y.row r).custody = .settle ∧ (y.row r).timer.isSome then
    (y.setRow r fun w => { w with custody := .track, timer := none }).giveAssign
  else y

/-- The stow timer of row `r` expires (R21). STOW_UNCONFIRMED is given before the all-stowed condition is judged, so that it
stands before the STOW_STATE notice of PARKED; R21 and R134 do not order the two (the model's choice, log 37). -/
def stowExpires (r : Nat) (y : Yard) : Yard :=
  if (y.row r).custody = .stowPending ∧ (y.row r).timer.isSome then
    let z := y.setRow r fun w => { w with custody := .stowed, timer := none, unconfirmed := true }
    (z.notify .plant .stowUnconfirmed (r, 0, 0) (y.row r).reported.code).judgeAllStowed
  else y

/-- The minute event (R26). -/
def minutePasses (y : Yard) : Yard := { y with rows := y.rows.map fun w => { w with age := bump w.age } }

end Yard

/-! ### Meanings -/

/-- POSTURE_REPORT (R5). -/
def execPostureReport (p : Port) (body : List Byte) (s : State) : Host.Outcome State Fault Refusal :=
  .next (s.serve .postureReport p body (State.onYard (Yard.takePostureReport body)))

/-- READ_ROWS (R7). -/
def execReadRows (p : Port) (body : List Byte) (s : State) : Host.Outcome State Fault Refusal :=
  .next (s.serve .readRows p body (State.reading fun s => s.yard.readRows (byteAt body 0)))

/-- SET_FENCE (R16). -/
def execSetFence (p : Port) (body : List Byte) (s : State) : Host.Outcome State Fault Refusal :=
  .next (s.serve .setFence p body (State.onYard (Yard.takeSetFence body)))

/-- CLEAR_FENCE (R16). -/
def execClearFence (p : Port) (body : List Byte) (s : State) : Host.Outcome State Fault Refusal :=
  .next (s.serve .clearFence p body (State.onYard (Yard.takeClearFence body)))

/-- READ_FENCES (R16). -/
def execReadFences (p : Port) (body : List Byte) (s : State) : Host.Outcome State Fault Refusal :=
  .next (s.serve .readFences p body (State.reading fun s => .ok (s.yard.fences.map Yard.fenceBytes).flatten))

/-- FLATTEN_TIMER_EXPIRY (R10). -/
def execFlattenTimerExpiry (row : Nat) (s : State) : Host.Outcome State Fault Refusal :=
  .next (s.event (Yard.flattenExpires row))

/-- HOLD_TIMER_EXPIRY (R13). -/
def execHoldTimerExpiry (row : Nat) (s : State) : Host.Outcome State Fault Refusal :=
  .next (s.event (Yard.holdExpires row))

/-- SETTLE_TIMER_EXPIRY (R15). -/
def execSettleTimerExpiry (row : Nat) (s : State) : Host.Outcome State Fault Refusal :=
  .next (s.event (Yard.settleExpires row))

/-- STOW_TIMER_EXPIRY (R21). -/
def execStowTimerExpiry (row : Nat) (s : State) : Host.Outcome State Fault Refusal :=
  .next (s.event (Yard.stowExpires row))

/-- MINUTE_EVENT (R26). -/
def execMinuteEvent (s : State) : Host.Outcome State Fault Refusal := .next (s.event Yard.minutePasses)

end Sys2Proof.Machine
end

