-- ==== Sys2Proof/Machine/Fleet.lean ====
section
/-! DEFINITION. The Fleet Table: fleet reports (R37 to R43), silence (R44), the plant's requests on the fleet (R45 to R47),
reading it (R36, R48), and the ends of passes that a report or a timer brings (R96 to R99). -/

namespace Sys2Proof.Machine

namespace Yard

/-! ### What fleet reports share (R37) -/

/-- A report naming an enrolled robot restarts its silence timer and clears its silent flag (R37, R44). -/
def touchRobot (y : Yard) (k : Nat) : Yard :=
  y.setRobot k fun b => { b with silent := false, silenceTimer := some y.settings.robotSilence }

/-- A fleet report is answered REFUSED (R37). -/
def refuseReport (y : Yard) (reason : Reason) : Yard × Reply := (y.countRefused, .refuse reason)

/-- Carriage `c` exists (R33). -/
def carriageExists (y : Yard) (c : Nat) : Bool := decide (c < y.settings.carriages)

/-- Carriage `c` is IDLE with no order, not in FAULT, with a known position: the event of R33. -/
def carriageRests (y : Yard) (c : Nat) : Bool := (y.carriage c).restful && (y.carriage c).position.isSome

/-! ### Passes (R11, R12, R96, R97) -/

/-- The pass result on row `r` (R11). -/
def passResult (y : Yard) (r : Nat) (kind : PassKind) (measured : Nat) : Yard :=
  match kind with
  | .clean => y.setRow r fun w => { w with age := 0, soiling := some y.settings.residual }
  | .survey => y.setRow r fun w => { w with soiling := some (min measured 1000) }

/-- The conditions under which a returning holder keeps its row (R12). -/
def holdsOpen (y : Yard) (r k : Nat) : Bool :=
  y.settings.rowPolicy == .hold && decide (0 < y.settings.holdLimit) && !y.barred r && !(y.robot k).fault

/-- Holder arrival: robot `k`, holder of row `r`, is in GARAGE r (R12). -/
def holderArrives (y : Yard) (r k : Nat) : Yard :=
  if (y.row r).holder = some k then
    match (y.row r).custody with
    | .open =>
      if y.mild then
        if y.holdsOpen r k then y.setRow r fun w => { w with timer := some y.settings.holdLimit } else y.settleRow r
      else y.stowRow r
    | .exposed => y.exposedFollows (y.stowRow r)
    | _ => y
  else y

/-- The follow-up decision after a survey of row `r` (R97). -/
def followUp (y : Yard) (r measured : Nat) : Yard :=
  if y.settings.dirtyLimit ≤ min measured 1000 ∧ y.storm.state = .calm ∧ y.barred r = false ∧ (y.entryOf r).isNone then
    (y.insertHead ⟨r, .clean, .followup, none, .waiting⟩).1
  else y

/-- A Pass Done as the Round Scheduler takes it (R96). -/
def passDone (y : Yard) (r k : Nat) (kind : PassKind) (measured : Nat) : Yard :=
  let y₁ := (y.setPassTimer k none).countRounds fun n => { n with passesDone := bump n.passesDone }
  let y₂ := match y₁.entryOfRobot k with
    | some e => y₁.removeEntry e.row
    | none => y₁
  let y₃ := match kind with
    | .survey => y₂.followUp r measured
    | .clean => y₂
  y₃.giveAssign

/-- The pass timer of robot `k` expires (R99). -/
def passExpires (k : Nat) (y : Yard) : Yard :=
  match y.rounds.passTimers.getD k none, (y.robot k).order with
  | some _, some ⟨.pass r _, _⟩ =>
    let z := (y.notify .plant .passTimeout (r, 0, 0) k).countRounds fun n => { n with passTimeouts := bump n.passTimeouts }
    (z.setRobot k fun b => { b with fault := true }).sendHome k r
  | _, _ => y

/-! ### Robot Status (R38, R24) -/

/-- The charge of a taken report (R32): written, compared with the live limits, and the robot's task in a dock follows. -/
def writeCharge (y : Yard) (k charge : Nat) : Yard :=
  let z := y.setRobot k fun b => { b with
    charge := charge
    chargeOverMin := decide (y.settings.chargeMin ≤ charge)
    chargeOverReady := decide (y.settings.chargeReady ≤ charge) }
  match (z.robot k).task with
  | .idle | .charging => z.restRobot k
  | _ => z

/-- A pulse of ROBOT_LOW (R32), with the recharge try that it gives for a robot in a garage (R100). The listeners of the pulse
act first, and the try is made of what they leave; R32, R100 and R107 do not order the two (the model's choice, log 19). -/
def robotLow (y : Yard) (k : Nat) : Yard :=
  let z := y.pulse 14
  match (z.robot k).place with
  | .garage _ => z.rechargeTry arbiterPass
  | _ => z

/-- The charge is taken, with its ROBOT_LOW pulse where it falls below CHARGE_MIN (R32). -/
def takeCharge (y : Yard) (k charge : Nat) : Yard :=
  let z := y.writeCharge k charge
  if charge < y.settings.chargeMin ∧ y.settings.chargeMin ≤ (y.robot k).charge then z.robotLow k else z

/-- The custody that an adoption gives (R24), or none where another robot holds the row. -/
def adoptionCustody (y : Yard) (r k : Nat) : Option Custody :=
  let held := match (y.row r).custody with
    | .flattening | .open | .exposed => (y.row r).holder != some k
    | _ => false
  if held then none
  else if y.storm.state = .stowing ∨ y.storm.state = .parked then some .exposed
  else some .open

/-- A row that robot `k` holds, other than row `keep`, is given up (R38; R24, step 1). -/
def leaveRow (y : Yard) (k : Nat) (keep : Option Nat) : Yard :=
  if (y.rowHeldBy k).isSome ∧ y.rowHeldBy k = keep then y else y.giveUpRow k

/-- The entry of robot `k` for a row other than `r`, which `k` is about to be adopted on, is unassigned (R95). R24, R38 and R95
do not say whether this comes before or after the robot's place changes; it comes before, at the robot's old place, where the
robot may be available for a moment and so give an assignment event (R31) (the model's choice, log 44). -/
def leaveEntry (y : Yard) (k r : Nat) : Yard :=
  match y.entryOfRobot k with
  | some e => if e.row = r then y else y.unassign e.row
  | none => y

/-- The claim of robot `k` on the row `r` that it is adopted on is over: its entry is removed (R24, step 3; R95, log 20). -/
def endOwnClaim (y : Yard) (k r : Nat) : Yard :=
  match y.entryOfRobot k with
  | some e => if e.row = r then y.removeEntry r else y
  | none => y

/-- Row `r` is taken into custody for robot `k` on its table (R24, steps 1 to 5). The ended claim on row `r` comes after the
robot's place (steps 2 and 3), so that its robot is not available in between. The all-stowed condition (R134) is judged
after step 5, so that ROW_ADOPTED stands before the STOW_STATE notice of PARKED; the manual does not order the two (the
model's choice, log 37). -/
def adopt (y : Yard) (r k : Nat) (custody : Custody) : Yard :=
  let y₁ := (y.leaveRow k (some r)).leaveEntry k r
  let y₂ := y₁.setRow r fun w => { w with custody := custody, holder := some k, timer := none, unconfirmed := false }
  let y₃ := y₂.moveRobot k (.midrow r)
  let y₄ := if custody = .exposed then y₃.countStorm fun n => { n with rowsExposed := bump n.rowsExposed } else y₃
  let y₅ := (y₁.exposedFollows y₄).endOwnClaim k r
  let y₆ := (y₅.orderRobot k (.toGarage r)).setRobot k fun b => { b with task := .toGarage }
  (y₆.notify .plant .rowAdopted (r, 0, 0) (k * 256 + custody.code)).judgeAllStowed

/-- The check of a reported place for its kind (R38); MIDROW is judged by the adoption. -/
def placeTaken (y : Yard) (k : Nat) : Place → Bool
  | .dock d => y.dockFree d
  | .garage r =>
    (y.row r).garageOccupant.isNone && (y.row r).garageReserved.isNone &&
      ((y.row r).holder.isNone || (y.row r).holder == some k)
  | .aboard c => (y.carriage c).load.isNone && (y.carriage c).task.isNone && !(y.carriage c).fault
  | .midrow r => (y.adoptionCustody r k).isSome
  | .unknown => true

/-- The reason with which a failed check is refused (R38). -/
def placeReason : Place → Reason
  | .midrow _ => .held
  | _ => .place

/-- The row that a robot's new place lets it keep (R38). -/
def keptRow : Place → Option Nat
  | .garage r | .midrow r => some r
  | _ => none

/-- A place that is no row's table is taken (R38): a row held is given up before the move. R38 does not say whether the
robot's entry is unassigned before or after its place changes; it is before, at the robot's old place, where a CLAIMING robot
may be available for a moment and so give an assignment event (R31) (the model's choice, log 44). -/
def putRobot (y : Yard) (k : Nat) (pl : Place) : Yard :=
  (((y.leaveRow k (keptRow pl)).unassignRobot k).moveRobot k pl).restRobot k

/-- The move of a taken place. -/
def takeMove (y : Yard) (k : Nat) (pl : Place) : Yard :=
  match pl with
  | .midrow r => match y.adoptionCustody r k with
    | some custody => y.adopt r k custody
    | none => y
  | _ => y.putRobot k pl

/-- What a taken move gives other blocks: the event of R33 for a carriage it left, and the tables-clear judgment
(R131), the judgment last (log 41). -/
def afterMove (y : Yard) (old : Place) (z : Yard) : Yard :=
  let w := match old with
    | .aboard c => passAfter (z.carriageRests c) y z
    | _ => z
  w.judgeTablesClear

/-- The place of a Robot Status is judged against the recorded place (R38). -/
def judgePlace (y : Yard) (k : Nat) (place : Option Place) : Yard × Reply :=
  match place with
  | none => y.refuseReport .range
  | some pl =>
    let b := y.robot k
    if !y.placeExists pl then y.refuseReport .range
    else if pl = b.place then (y, .ok [])
    else if b.order.isSome || (y.transferOfRobot k).isSome then y.refuseReport .place
    else if !y.placeTaken k pl then y.refuseReport (placeReason pl)
    else (y.afterMove b.place (y.takeMove k pl), .ok [])

/-- Robot Status taken (R38). -/
def takeRobotStatus (body : List Byte) (y : Yard) : Yard × Reply :=
  let k := byteAt body 0
  let charge := byteAt body 3
  if !y.enrolled k then y.refuseReport .range
  else
    let z := y.touchRobot k
    if 100 < charge then z.refuseReport .range
    else (z.takeCharge k charge).judgePlace k (placeOf (byteAt body 1) (byteAt body 2))

/-! ### Order Done (R39 to R41) -/

/-- A robot completion on row `r` is taken (R40). The tables-clear condition of R131 is judged after step 4 (log 41). -/
def robotHome (y : Yard) (k r : Nat) (result : Option (PassKind × Nat)) : Yard :=
  let y₁ := (y.setRobot k fun b => { b with order := none, task := .idle }).moveRobot k (.garage r)
  let y₂ := match result with
    | some (kind, measured) => y₁.passResult r kind measured
    | none => y₁
  let y₃ := y₂.holderArrives r k
  let y₄ := match result with
    | some (kind, measured) => y₃.passDone r k kind measured
    | none => y₃
  y₄.judgeTablesClear

/-- A robot completion carrying the current serial (R40). -/
def robotCompletes (y : Yard) (k r : Nat) (result : Option (PassKind × Nat)) : Yard × Reply :=
  let w := y.row r
  if (w.garageOccupant.isSome ∧ w.garageOccupant ≠ some k) ∨ w.garageReserved.isSome then y.refuseReport .place
  else (y.robotHome k r result, .ok [])

/-- An Order Done of robot `k` with the serial of its order in force (R39, steps 2 to 4). The data field of a Garage Reached
is not judged, whatever its value: R184 codes it 0, and no step of R39 refuses another (the model's choice, log 39). -/
def robotOutcome (y : Yard) (k : Nat) (o : RobotOrder) (outcome data : Nat) : Yard × Reply :=
  if 4 < outcome ∨ (outcome = 2 ∧ y.rows.length ≤ data) then y.refuseReport .range
  else match o, outcome with
    | .pass r kind, 0 => y.robotCompletes k r (some (kind, data))
    | .toGarage r, 1 => y.robotCompletes k r none
    | _, _ => y.refuseReport .order

/-- The order of carriage `c` ends, at a position where it gave one. -/
def endCarriageOrder (y : Yard) (c : Nat) (position : Option Nat) : Yard :=
  y.setCarriage c fun w => { w with order := none, position := position.or w.position }

/-- An arrival that is refused sends the carriage to FAULT (R41). -/
def refuseArrival (y : Yard) (c : Nat) : Yard × Reply := (y.failCarriage c .failedOrder).refuseReport .order

/-- An Order Done of carriage `c` with the serial of its order in force (R39, steps 2 to 4, and R41). The data field of a
Boarded or an Alighted is not judged, whatever its value (the model's choice, log 39). At an Alighted the tables-clear
condition of R131 is judged after all the steps of R70, so that TRANSFER_END DONE and HOLDOFF stand before STOW_STATE; the
manual does not place the judgment among those steps (the model's choice, log 41). -/
def carriageOutcome (y : Yard) (c : Nat) (o : CarriageOrder) (outcome data : Nat) : Yard × Reply :=
  if 4 < outcome ∨ (outcome = 2 ∧ y.rows.length ≤ data) then y.refuseReport .range
  else match o, outcome with
    | .goto p, 2 =>
      if data = p then ((y.endCarriageOrder c (some p)).carriageCompleted c, .ok []) else y.refuseArrival c
    | .stay, 2 =>
      if y.keepsOrder c data && !y.inOthersSegment c data then
        ((y.endCarriageOrder c (some data)).arbiterPass, .ok [])
      else y.refuseArrival c
    | .board k, 3 => (((y.endCarriageOrder c none).moveRobot k (.aboard c)).carriageCompleted c, .ok [])
    | .alight k pl, 4 =>
      (((y.endCarriageOrder c none).moveRobot k pl).carriageCompleted c |>.judgeTablesClear, .ok [])
    | _, _ => y.refuseReport .order

/-- A completion of no order in force (R39, step 1). -/
def staleReport (y : Yard) : Yard × Reply := (y.countStale, .plain .stale)

/-- An Order Done of robot `k` (R39). -/
def robotDone (y : Yard) (k serial outcome data : Nat) : Yard × Reply :=
  if !y.enrolled k then y.refuseReport .range
  else
    let z := y.touchRobot k
    match (z.robot k).order with
    | some o => if o.serial = serial then z.robotOutcome k o.kind outcome data else z.staleReport
    | none => z.staleReport

/-- An Order Done of carriage `c` (R39). -/
def carriageDone (y : Yard) (c serial outcome data : Nat) : Yard × Reply :=
  if !y.carriageExists c then y.refuseReport .range
  else match (y.carriage c).order with
    | some o => if o.serial = serial then y.carriageOutcome c o.kind outcome data else y.staleReport
    | none => y.staleReport

/-- Order Done taken (R39). -/
def takeOrderDone (body : List Byte) (y : Yard) : Yard × Reply :=
  let subject := byteAt body 0
  let serial := byteAt body 1
  let outcome := byteAt body 2
  let data := wordAt body 3
  if subject < 12 then y.robotDone subject serial outcome data
  else if subject ≤ 14 then y.carriageDone (subject - 12) serial outcome data
  else y.refuseReport .range

/-! ### Carriage Position (R42) and Robot Fault (R43) -/

/-- The cases in which a Carriage Position is refused with reason ORDER (R42). -/
def positionRefused (y : Yard) (c p : Nat) : Bool :=
  let w := y.carriage c
  (match w.order with
    | some ⟨.stay, _⟩ | none => false
    | some _ => true) ||
    w.fault || !y.keepsOrder c p || y.inOthersSegment c p

/-- Carriage Position taken (R42). A position of ROWS or more is refused RANGE before the cases of ORDER are judged; R42 gives no
order of judging (the model's choice, log 42). -/
def takeCarriagePosition (body : List Byte) (y : Yard) : Yard × Reply :=
  let c := byteAt body 0
  let p := byteAt body 1
  if !y.carriageExists c || decide (y.rows.length ≤ p) then y.refuseReport .range
  else if y.positionRefused c p then y.refuseReport .order
  else
    let w := y.carriage c
    let z := y.endCarriageOrder c (some p)
    (if w.order.isSome ∨ w.position.isNone then z.arbiterPass else z, .ok [])

/-- Robot Fault taken (R43). -/
def takeRobotFault (body : List Byte) (y : Yard) : Yard × Reply :=
  let k := byteAt body 0
  if !y.enrolled k then y.refuseReport .range
  else
    let z := (y.touchRobot k).setRobot k fun b => { b with fault := true }
    let w := z.notify .plant .robotFault (k, 0, 0) (z.robot k).place.code
    match (w.robot k).order with
    | some ⟨.pass r _, _⟩ => (w.sendHome k r, .ok [])
    | _ => (w.giveUpRow k, .ok [])

/-! ### Silence (R44) -/

/-- The silence timer of robot `k` expires (R44). -/
def silenceExpires (k : Nat) (y : Yard) : Yard :=
  if y.enrolled k ∧ (y.robot k).silenceTimer.isSome then
    let z := y.setRobot k fun b => { b with silent := true, silenceTimer := none }
    let place := (y.robot k).place.code
    (z.notify .plant .robotSilent (k, 0, 0) place).notify .fleet .robotSilent (k, 0, 0) place
  else y

/-! ### The plant's requests (R45 to R47) -/

/-- Enroll Robot taken (R45). The place that the slot's record still names is vacated, so that no table names a robot whose
place is UNKNOWN (R29): a slot that is not enrolled is at UNKNOWN in every run, where nothing is vacated. -/
def takeEnrollRobot (body : List Byte) (y : Yard) : Yard × Reply :=
  let k := byteAt body 0
  if 11 < k then (y, .refuse .range)
  else if y.enrolled k then (y, .ok [])
  else ((y.vacate k).setRobot k fun b => freshRobot true b.lastSerial (some y.settings.robotSilence), .ok [])

/-- Clear Robot taken (R45). -/
def takeClearRobot (body : List Byte) (y : Yard) : Yard × Reply :=
  let k := byteAt body 0
  if !y.enrolled k then (y, .refuse .range)
  else (y.setRobot k fun b => { b with fault := false }, .ok [])

/-- A row held by a robot that is written off is given up (R25). -/
def writeOffRow (y : Yard) (k : Nat) : Yard :=
  match y.rowHeldBy k with
  | none => y
  | some r => (y.exposedFollows (if y.mild then y.settleRow r else y.stowRow r)).claimUnassigned r

/-- A PASS order in force ends without result, and a round_link is unassigned (R46, step 2). -/
def writeOffWork (y : Yard) (k : Nat) : Yard :=
  let z := match (y.robot k).order with
    | some ⟨.pass _ _, _⟩ => y.passEnds k
    | _ => y
  z.unassignRobot k

/-- A WAITING transfer of the robot is cancelled (R46, step 3). -/
def writeOffTransfer (y : Yard) (k : Nat) : Yard :=
  match y.transferOfRobot k with
  | some t => judgeHoldoff handQuiet (closeTransfer t .cancelled y)
  | none => y

/-- The carriage that robot `k` is aboard comes to rest by the robot's leaving it (R33, R46). -/
def leavesCarriageIdle (y : Yard) (k : Nat) : Bool :=
  match (y.robot k).place with
  | .aboard c => y.carriageRests c
  | _ => false

/-- The effects of a taken Write Off Robot (R46). The tables-clear condition of R131 is judged after step 6 (log 41). -/
def writeOff (y : Yard) (k : Nat) : Yard :=
  let y₃ := ((y.writeOffRow k).writeOffWork k).writeOffTransfer k
  let y₆ := (y₃.vacate k).setRobot k fun b => freshRobot false b.lastSerial none
  (passAfter (y₃.leavesCarriageIdle k) y y₆).judgeTablesClear

/-- Write Off Robot taken (R46). -/
def takeWriteOffRobot (body : List Byte) (y : Yard) : Yard × Reply :=
  let k := byteAt body 0
  if !y.enrolled k then (y, .refuse .range)
  else if (y.transferOfRobot k).any (fun t => t.phase != .waiting) then (y, .refuse .robotBusy)
  else (y.writeOff k, .ok [])

/-- The position given to Clear Carriage fails its checks (R47). -/
def clearRefused (y : Yard) (c p : Nat) : Bool :=
  !y.keepsOrder c p || if (y.segmentsOf c).isEmpty then y.inOthersSegment c p else !y.inOwnSegment c p

/-- The effects of Clear Carriage (R47). -/
def clearCarriage (y : Yard) (c p : Nat) : Yard :=
  let z := (y.setCarriage c fun w =>
    { w with position := some p, fault := false, order := none, task := none }).releaseSegments c
  (judgeHoldoff handQuiet z).arbiterPass

/-- Clear Carriage taken (R47). A carriage that does not exist is refused RANGE (log 17). For one that is not in FAULT the state
is judged before the position, so that it is refused STATE whatever its position; R47 gives both refusals and no order of
judging (the model's choice, log 42). -/
def takeClearCarriage (body : List Byte) (y : Yard) : Yard × Reply :=
  let c := byteAt body 0
  let p := byteAt body 1
  if !y.carriageExists c then (y, .refuse .range)
  else if (y.carriage c).fault = false then (y, .refuse .state)
  else if y.rows.length ≤ p then (y, .refuse .range)
  else if y.clearRefused c p then (y, .refuse .order)
  else (y.clearCarriage c p, .ok [])

/-! ### Reading the fleet (R36, R48) -/

/-- The order item of a fleet subject: subject, kind, serial and three parameter bytes (R36, R184). -/
def subjectOrder (y : Yard) (subject : Nat) : Option (List Byte) :=
  if subject < 12 then
    if y.enrolled subject then (y.robot subject).order.map fun o =>
      [byte subject, byte o.kind.code, byte o.serial] ++ o.kind.params
    else none
  else if y.carriageExists (subject - 12) then (y.carriage (subject - 12)).order.map fun o =>
    [byte subject, byte o.kind.code, byte o.serial] ++ o.kind.params
  else none

/-- Read Orders on the fleet port (R36). -/
def readFleetOrders (y : Yard) (cursor : Nat) : Reply :=
  if cursor ≤ 14 then
    let found := ((searchAfter cursor 15).filterMap y.subjectOrder).take 8
    .ok (byte found.length :: found.flatten)
  else .refuse .range

/-- One robot slot of Read Fleet (R48, R184). -/
def robotBytes (b : Robot) : List Byte :=
  [byte ((if b.enrolled then 1 else 0) + (if b.silent then 2 else 0) + if b.fault then 4 else 0)] ++
    placeBytes b.place ++ b.task.bytes ++ orderBytes RobotOrder.code b.order ++
    [byte b.lastSerial, byte b.charge, optByte b.roundLink]

/-- One carriage of Read Fleet (R48, R184). -/
def carriageBytes (y : Yard) (c : Nat) : List Byte :=
  let w := y.carriage c
  [optByte w.position, byte w.state.code, optByte w.load] ++ orderBytes CarriageOrder.code w.order ++
    carriageTaskBytes w.task ++ spanBytes (y.reservedSpan c)

/-- One dock of Read Fleet (R48, R184). -/
def dockBytes (y : Yard) (d : Nat) : List Byte :=
  [byte (y.dockPosition d), optByte (y.dock d).occupant] ++ optTagBytes (y.dock d).reservedFor

/-- Read Fleet (R48): its reading of part 2 on the plant port clears the two counters. -/
def takeReadFleet (p : Port) (body : List Byte) (y : Yard) : Yard × Reply :=
  match byteAt body 0 with
  | 0 => (y, .ok ((List.range 6).map fun k => robotBytes (y.robot k)).flatten)
  | 1 => (y, .ok ((List.range 6).map fun k => robotBytes (y.robot (k + 6))).flatten)
  | 2 =>
    (if p = .plant then { y with staleReports := 0, refusedReports := 0 } else y,
      .ok ((y.carriageList.map y.carriageBytes).flatten ++ (y.dockList.map y.dockBytes).flatten ++
        twoBytes y.staleReports ++ twoBytes y.refusedReports))
  | _ => (y, .refuse .range)

/-- Read Orders: rows on the tracker port, the fleet on the fleet port (R173). -/
def readOrders (y : Yard) (p : Port) (cursor : Nat) : Reply :=
  match p with
  | .tracker => y.readRowOrders cursor
  | .plant | .fleet => y.readFleetOrders cursor

end Yard

/-! ### Meanings -/

/-- READ_ORDERS (R6, R36). -/
def execReadOrders (p : Port) (body : List Byte) (s : State) : Host.Outcome State Fault Refusal :=
  .next (s.serve .readOrders p body (State.reading fun s => s.yard.readOrders p (byteAt body 0)))

/-- ROBOT_STATUS (R38). -/
def execRobotStatus (p : Port) (body : List Byte) (s : State) : Host.Outcome State Fault Refusal :=
  .next (s.serve .robotStatus p body (State.onYard (Yard.takeRobotStatus body)))

/-- ORDER_DONE (R39). -/
def execOrderDone (p : Port) (body : List Byte) (s : State) : Host.Outcome State Fault Refusal :=
  .next (s.serve .orderDone p body (State.onYard (Yard.takeOrderDone body)))

/-- CARRIAGE_POSITION (R42). -/
def execCarriagePosition (p : Port) (body : List Byte) (s : State) : Host.Outcome State Fault Refusal :=
  .next (s.serve .carriagePosition p body (State.onYard (Yard.takeCarriagePosition body)))

/-- ROBOT_FAULT (R43). -/
def execRobotFault (p : Port) (body : List Byte) (s : State) : Host.Outcome State Fault Refusal :=
  .next (s.serve .robotFault p body (State.onYard (Yard.takeRobotFault body)))

/-- ENROLL_ROBOT (R45). -/
def execEnrollRobot (p : Port) (body : List Byte) (s : State) : Host.Outcome State Fault Refusal :=
  .next (s.serve .enrollRobot p body (State.onYard (Yard.takeEnrollRobot body)))

/-- CLEAR_ROBOT (R45). -/
def execClearRobot (p : Port) (body : List Byte) (s : State) : Host.Outcome State Fault Refusal :=
  .next (s.serve .clearRobot p body (State.onYard (Yard.takeClearRobot body)))

/-- WRITE_OFF_ROBOT (R46). -/
def execWriteOffRobot (p : Port) (body : List Byte) (s : State) : Host.Outcome State Fault Refusal :=
  .next (s.serve .writeOffRobot p body (State.onYard (Yard.takeWriteOffRobot body)))

/-- CLEAR_CARRIAGE (R47). -/
def execClearCarriage (p : Port) (body : List Byte) (s : State) : Host.Outcome State Fault Refusal :=
  .next (s.serve .clearCarriage p body (State.onYard (Yard.takeClearCarriage body)))

/-- READ_FLEET (R48). -/
def execReadFleet (p : Port) (body : List Byte) (s : State) : Host.Outcome State Fault Refusal :=
  .next (s.serve .readFleet p body (State.readingYard (Yard.takeReadFleet p body)))

/-- ROBOT_SILENCE_EXPIRY (R44). -/
def execRobotSilenceExpiry (robot : Nat) (s : State) : Host.Outcome State Fault Refusal :=
  .next (s.event (Yard.silenceExpires robot))

/-- PASS_TIMER_EXPIRY (R99). -/
def execPassTimerExpiry (robot : Nat) (s : State) : Host.Outcome State Fault Refusal :=
  .next (s.event (Yard.passExpires robot))

end Sys2Proof.Machine
end

