-- ==== Sys2Proof/Machine/Rail.lean ====
section
/-! DEFINITION. The Transfer Engine's requests (R52, R53, R73) and timers (R66, R71). -/

namespace Sys2Proof.Machine

namespace Yard

/-- The origin that a request's port fixes (R53). -/
def portOrigin : Port → TransferOrigin
  | .fleet => .fleet
  | .plant | .tracker => .plant

/-- A Transfer request is taken (R53): the slot and the kind of destination are judged before the checks of R54 (log 42). -/
def takeTransfer (p : Port) (body : List Byte) (y : Yard) : Yard × Reply :=
  let k := byteAt body 0
  if 11 < k then (y, .refuse .range)
  else match placeOf (byteAt body 1) (byteAt body 2) with
    | some (.garage r) => y.requestTransfer arbiterPass (portOrigin p) .move k (.garage r) none
    | some (.dock d) => y.requestTransfer arbiterPass (portOrigin p) .move k (.dock d) none
    | _ => (y, .refuse .range)

/-- Cancel Transfer taken (R73). -/
def takeCancelTransfer (p : Port) (body : List Byte) (y : Yard) : Yard × Reply :=
  match y.transferOf (byteAt body 0) with
  | none => (y, .refuse .range)
  | some t =>
    if t.origin = .round ∨ t.origin ≠ portOrigin p then (y, .refuse .notOwner)
    else if t.phase ≠ .waiting then (y, .refuse .state)
    else (judgeHoldoff hand (closeTransfer t .cancelled y), .ok [])

/-- The phase timer of the entry that holds the tag expires (R71). -/
def phaseExpires (tag : Nat) (y : Yard) : Yard :=
  match y.transferOf tag with
  | some t =>
    match t.phaseTimer, t.carriage with
    | some _, some c => y.failCarriage c .failedTimeout
    | _, _ => y
  | none => y

/-- The nudge timer of carriage `c` expires (R66). -/
def nudgeExpires (c : Nat) (y : Yard) : Yard :=
  if (y.rail.nudges.getD c none).isSome then y.failCarriage c .failedTimeout else y

/-! ### Read Transfers (R52) -/

/-- One entry of Read Transfers: every field of R51 (R184). -/
def transferBytes (t : Transfer) : List Byte :=
  [byte t.tag, byte (t.origin.code * 16 + t.purpose.code), byte t.robot] ++ placeBytes t.source ++
    placeBytes t.destination ++ [byte t.phase.code, optByte t.carriage] ++ spanBytes t.span ++
    timerBytes t.phaseTimer ++ [optByte t.roundLink]

/-- The queue position `i` of Read Transfers; beyond the length every byte is FFh (R184). -/
def queueItem (y : Yard) (i : Nat) : List Byte :=
  match y.rail.queue[i]? with
  | some t => transferBytes t
  | none => List.replicate 14 0xFF

/-- The nudge of a carriage in Read Transfers (R52; log 15). -/
def nudgeBytes : Option Nudge → List Byte
  | some n => byte n.target :: twoBytes n.timer
  | none => [0xFF, 0, 0]

/-- Read Transfers (R52). -/
def readTransfers (y : Yard) (part : Nat) : Reply :=
  match part with
  | 0 => .ok (byte y.rail.queue.length :: ((List.range 4).map y.queueItem).flatten)
  | 1 => .ok (byte y.rail.queue.length :: ((List.range 4).map fun i => y.queueItem (i + 4)).flatten)
  | 2 => .ok ((y.rail.segments.map reservationBytes).flatten ++
      (y.carriageList.map fun c => nudgeBytes (y.rail.nudges.getD c none)).flatten ++
      [flagByte y.rail.holdoff, byte y.rail.tagCounter])
  | _ => .refuse .range

end Yard

/-! ### Meanings -/

/-- TRANSFER (R53). -/
def execTransfer (p : Port) (body : List Byte) (s : State) : Host.Outcome State Fault Refusal :=
  .next (s.serve .transfer p body (State.onYard (Yard.takeTransfer p body)))

/-- CANCEL_TRANSFER (R73). -/
def execCancelTransfer (p : Port) (body : List Byte) (s : State) : Host.Outcome State Fault Refusal :=
  .next (s.serve .cancelTransfer p body (State.onYard (Yard.takeCancelTransfer p body)))

/-- READ_TRANSFERS (R52). -/
def execReadTransfers (p : Port) (body : List Byte) (s : State) : Host.Outcome State Fault Refusal :=
  .next (s.serve .readTransfers p body (State.reading fun s => s.yard.readTransfers (byteAt body 0)))

/-- PHASE_TIMER_EXPIRY (R71). -/
def execPhaseTimerExpiry (tag : Nat) (s : State) : Host.Outcome State Fault Refusal :=
  .next (s.event (Yard.phaseExpires tag))

/-- NUDGE_TIMER_EXPIRY (R66). -/
def execNudgeTimerExpiry (carriage : Nat) (s : State) : Host.Outcome State Fault Refusal :=
  .next (s.event (Yard.nudgeExpires carriage))

end Sys2Proof.Machine
end

