-- ==== Sys2Proof/Machine/Rounds.lean ====
section
/-! DEFINITION. The Round Scheduler's requests (R86 to R89), its timer (R83) and Read Rounds (R102). -/

namespace Sys2Proof.Machine

/-- The eight counters in their order (R102). -/
def RoundCounters.bytes (n : RoundCounters) : List Byte :=
  twoBytes n.buildsTaken ++ twoBytes n.roundsMissed ++ twoBytes n.rowsSkipped ++ twoBytes n.insertsDropped ++
    twoBytes n.passesDone ++ twoBytes n.passesAborted ++ twoBytes n.passTimeouts ++ twoBytes n.rechargesSent

namespace Yard

/-! ### The round timer (R83) -/

/-- The detail of ROUND_DUE (R177): 0 taken with the number added, 1 missed, 2 not built. -/
def roundDueDetail : Option (Nat × Nat) → Nat
  | some (added, _) => added % 256
  | none => 256

/-- The build that the expiry makes, with the detail of its notice (R83, step 2). -/
def timerBuild (y : Yard) (g : Nat) : Yard × Nat :=
  match y.settings.roundSource with
  | .timer => ((y.build g).1, roundDueDetail (y.build g).2)
  | .request => (y, 512)

/-- The round timer expires (R83). -/
def roundExpires (y : Yard) : Yard :=
  if y.rounds.timer.isSome then
    let g := y.rounds.rotation
    let y₁ := { y with rounds := { y.rounds with timer := some (y.settings.roundPeriod * 60) } }
    let built := (y₁.pulse 9).timerBuild g
    let y₂ := built.1.notify .plant .roundDue (g, 0, 0) built.2
    { y₂ with rounds := { y₂.rounds with rotation := (g + 1) % y.settings.groups } }
  else y

/-! ### Requests -/

/-- The answer to a Round Build or a Sweep (R86, R87). -/
def builtReply : Option (Nat × Nat) → Reply
  | some (added, skipped) => .ok [byte added, byte skipped]
  | none => .refuse .state

/-- Round Build taken (R86): the group is judged before the storm state, as R86 lists them (log 42). -/
def takeRoundBuild (body : List Byte) (y : Yard) : Yard × Reply :=
  let g := byteAt body 0
  if y.settings.groups ≤ g then (y, .refuse .range) else ((y.build g).1, builtReply (y.build g).2)

/-- Sweep taken (R87). -/
def takeSweep (y : Yard) : Yard × Reply := (y.makeSweep.1, builtReply y.makeSweep.2)

/-- The entry for row `r` is moved to the head as a PLANT entry (R88, step 5). -/
def promoteEntry (y : Yard) (e : Entry) (kind : PassKind) : Yard :=
  let rest := y.rounds.list.filter fun x => x.row != e.row
  { y with rounds := { y.rounds with list := { e with kind := kind, origin := .plant } :: rest } }

/-- Plant Pass taken (R88). -/
def takePlantPass (body : List Byte) (y : Yard) : Yard × Reply :=
  let r := byteAt body 0
  match passKindOf (byteAt body 1) with
  | none => (y, .refuse .range)
  | some kind =>
    if y.rows.length ≤ r then (y, .refuse .range)
    else if y.storm.state = .parked then (y, .plain .ignored)
    else if y.storm.state ≠ .calm then (y, .refuse .state)
    else if y.barred r then (y, .refuse .barred)
    else match y.entryOf r with
      | some e =>
        if e.stage ≠ .waiting then (y, .refuse .state) else ((y.promoteEntry e kind).giveAssign, .ok [])
      | none =>
        let put := y.insertHead ⟨r, kind, .plant, none, .waiting⟩
        (put.1, if put.2 then .ok [] else .plain .full)

/-- Cancel Entry taken (R89). -/
def takeCancelEntry (body : List Byte) (y : Yard) : Yard × Reply :=
  let r := byteAt body 0
  if y.rows.length ≤ r then (y, .refuse .range)
  else match y.entryOf r with
    | none => (y, .refuse .range)
    | some e => if e.stage ≠ .waiting then (y, .refuse .state) else (y.removeEntry r, .ok [])

/-! ### Read Rounds (R102) -/

/-- The list position `i` of Read Rounds; beyond the length every byte is FFh (R184). -/
def entryItem (y : Yard) (i : Nat) : List Byte :=
  match y.rounds.list[i]? with
  | some e => [byte e.row, byte e.kind.code, byte e.origin.code, optByte e.robot, byte e.stage.code]
  | none => List.replicate 5 0xFF

/-- The minutes remaining on the round timer (R102; log 13). -/
def roundMinutes (y : Yard) : Nat :=
  let t := y.rounds.timer.getD 0
  if Config.minutesRoundUp then (t + 59) / 60 else t / 60

/-- Part 2 of Read Rounds (R102; log 15). -/
def schedulerBytes (y : Yard) : List Byte :=
  [byte y.rounds.rotation] ++ twoBytes y.roundMinutes ++ [byte y.settings.roundSource.code] ++
    ((List.range y.settings.groups).map fun g => byte (y.rounds.buildCounts.getD g 0)) ++
    (y.rounds.passTimers.map timerBytes).flatten ++ RoundCounters.bytes y.rounds.counters

/-- Read Rounds (R102): its reading of part 2 on the plant port clears the counters. -/
def takeReadRounds (p : Port) (body : List Byte) (y : Yard) : Yard × Reply :=
  match byteAt body 0 with
  | 0 => (y, .ok (byte y.rounds.list.length :: ((List.range 8).map y.entryItem).flatten))
  | 1 => (y, .ok (byte y.rounds.list.length :: ((List.range 8).map fun i => y.entryItem (i + 8)).flatten))
  | 2 => (if p = .plant then y.countRounds fun _ => freshRoundCounters else y, .ok y.schedulerBytes)
  | _ => (y, .refuse .range)

end Yard

/-! ### Meanings -/

/-- ROUND_BUILD (R86). -/
def execRoundBuild (p : Port) (body : List Byte) (s : State) : Host.Outcome State Fault Refusal :=
  .next (s.serve .roundBuild p body (State.onYard (Yard.takeRoundBuild body)))

/-- SWEEP (R87). -/
def execSweep (p : Port) (body : List Byte) (s : State) : Host.Outcome State Fault Refusal :=
  .next (s.serve .sweep p body (State.onYard Yard.takeSweep))

/-- PLANT_PASS (R88). -/
def execPlantPass (p : Port) (body : List Byte) (s : State) : Host.Outcome State Fault Refusal :=
  .next (s.serve .plantPass p body (State.onYard (Yard.takePlantPass body)))

/-- CANCEL_ENTRY (R89). -/
def execCancelEntry (p : Port) (body : List Byte) (s : State) : Host.Outcome State Fault Refusal :=
  .next (s.serve .cancelEntry p body (State.onYard (Yard.takeCancelEntry body)))

/-- READ_ROUNDS (R102). -/
def execReadRounds (p : Port) (body : List Byte) (s : State) : Host.Outcome State Fault Refusal :=
  .next (s.serve .readRounds p body (State.readingYard (Yard.takeReadRounds p body)))

/-- ROUND_TIMER_EXPIRY (R83). -/
def execRoundTimerExpiry (s : State) : Host.Outcome State Fault Refusal := .next (s.event Yard.roundExpires)

end Sys2Proof.Machine
end

