-- ==== Sys2Proof/Machine/Alerts.lean ====
section
/-! DEFINITION. The Alert Matrix: Set Lane (R108), Set Listener (R110), Test Pulse (R113), Read Alerts (R115), the alarm
inputs (R106) and the stretch timers (R111). -/

namespace Sys2Proof.Machine

/-- A sample of an alarm input through its filter (R106): two samples in a row that differ from the filtered level change
it. -/
def Filter.take (f : Filter) (x : Bool) : Filter :=
  if x = f.level then ⟨f.level, x, false⟩
  else if f.started then ⟨x, x, false⟩
  else ⟨f.level, x, true⟩

namespace Yard

/-- Set Lane taken (R108): the new level may be a rise or a fall. Where the fall comes of a move from another high source to
HOLDOFF, while HOLDOFF is low, the pass of a FREEZE listener on the lane comes last (`handWith`; the model's choice, log 45). -/
def takeSetLane (body : List Byte) (y : Yard) : Yard × Reply :=
  let l := byteAt body 0
  let src := byteAt body 1
  if 7 < l ∨ 17 < src then (y, .refuse .range)
  else if 3 < l ∧ 1 ≤ src ∧ src ≤ 7 then (y, .refuse .range)
  else
    let z := { y with alerts := { y.alerts with lanes := y.alerts.lanes.set l src } }
    (if y.laneLevel l = z.laneLevel l then z
      else hand (if z.laneLevel l then .rise else .fall) (z.listenersOf l) z, .ok [])

/-- What a changed selection does at once, by the listener's kind (R110): `y` is the yard before it, `z` after. -/
def selectionActs (y : Yard) (i : Nat) (z : Yard) : Yard :=
  match i with
  | 0 => if y.seen 0 = z.seen 0 then z else z.judgeWatch
  | 2 => if y.seen 2 && !z.seen 2 then z.giveAssign else z
  | 4 => passAfter false y z
  | 5 => { z with alerts := { z.alerts with stretchA := false } }
  | 6 => { z with alerts := { z.alerts with stretchB := false } }
  | _ => z

/-- Set Listener taken (R110). -/
def takeSetListener (body : List Byte) (y : Yard) : Yard × Reply :=
  let i := byteAt body 0
  let n := byteAt body 1
  if 9 < i ∨ 8 < n then (y, .refuse .range)
  else if y.selection i = n then (y, .ok [])
  else
    let z := { y with alerts := { y.alerts with listeners := y.alerts.listeners.set i n } }
    (y.selectionActs i z, .ok [])

/-- Test Pulse taken (R113). -/
def takeTestPulse (body : List Byte) (y : Yard) : Yard × Reply :=
  let l := byteAt body 0
  if 7 < l then (y, .refuse .range) else (hand .test (y.listenersOf l) y, .ok [])

/-- Read Alerts (R115). -/
def readAlerts (y : Yard) : Reply :=
  .ok (((List.range 8).map fun l => [byte (y.laneSource l), flagByte (y.laneLevel l)]).flatten ++
    ((List.range 10).map fun i => [byte (y.selection i), flagByte (y.seen i)]).flatten ++
    [flagByte (y.outLevel .a), flagByte y.alerts.stretchA, flagByte (y.outLevel .b), flagByte y.alerts.stretchB,
      flagByte y.alerts.lineW.level, flagByte y.alerts.lineD.level,
      flagByte y.alerts.lineW.sample, flagByte y.alerts.lineD.sample])

/-! ### Alarm inputs (R106) -/

/-- The filtered level of an input takes its new value, and its source follows: item 1 is LINE_W, item 2 LINE_D. -/
def lineTakes (w d : Filter) (i : Nat) (y : Yard) : Yard :=
  match i with
  | 1 => followWith hand 1 y { y with alerts := { y.alerts with lineW := w } }
  | _ => followWith hand 2 y { y with alerts := { y.alerts with lineD := d } }

/-- A sample of W and D (R106). Where both filtered levels change, the order is free (log 8). -/
def sampleInputs (w d : Bool) (y : Yard) : Yard :=
  let fw := y.alerts.lineW.take w
  let fd := y.alerts.lineD.take d
  let changed := (if fw.level = y.alerts.lineW.level then [] else [1]) ++
    if fd.level = y.alerts.lineD.level then [] else [2]
  let z := { y with alerts := { y.alerts with
    lineW := if fw.level = y.alerts.lineW.level then fw else y.alerts.lineW
    lineD := if fd.level = y.alerts.lineD.level then fd else y.alerts.lineD } }
  z.inFreeOrder changed (lineTakes fw fd)

/-- The stretch timer of a line expires (R111). -/
def stretchExpires (line : OutLine) (y : Yard) : Yard :=
  match line with
  | .a => { y with alerts := { y.alerts with stretchA := false } }
  | .b => { y with alerts := { y.alerts with stretchB := false } }

end Yard

/-! ### Meanings -/

/-- SET_LANE (R108). -/
def execSetLane (p : Port) (body : List Byte) (s : State) : Host.Outcome State Fault Refusal :=
  .next (s.serve .setLane p body (State.onYard (Yard.takeSetLane body)))

/-- SET_LISTENER (R110). -/
def execSetListener (p : Port) (body : List Byte) (s : State) : Host.Outcome State Fault Refusal :=
  .next (s.serve .setListener p body (State.onYard (Yard.takeSetListener body)))

/-- TEST_PULSE (R113). -/
def execTestPulse (p : Port) (body : List Byte) (s : State) : Host.Outcome State Fault Refusal :=
  .next (s.serve .testPulse p body (State.onYard (Yard.takeTestPulse body)))

/-- READ_ALERTS (R115). -/
def execReadAlerts (p : Port) (body : List Byte) (s : State) : Host.Outcome State Fault Refusal :=
  .next (s.serve .readAlerts p body (State.reading fun s => s.yard.readAlerts))

/-- ALARM_INPUT_SAMPLE (R106). -/
def execAlarmInputSample (w d : Bool) (s : State) : Host.Outcome State Fault Refusal :=
  .next (s.event (Yard.sampleInputs w d))

/-- STRETCH_TIMER_EXPIRY (R111). -/
def execStretchTimerExpiry (line : OutLine) (s : State) : Host.Outcome State Fault Refusal :=
  .next (s.event (Yard.stretchExpires line))

end Sys2Proof.Machine
end

