-- ==== Sys2Proof/Machine/Met.lean ====
section
/-! DEFINITION. The Met Receiver: met frames (R116, R117), silence (R118), patterns (R119, R120) and Read Met (R121). -/

namespace Sys2Proof.Machine

/-! ### Patterns (R119) -/

/-- Field `i` of a frame meets its comparison. -/
def Pattern.fieldMeets (pt : Pattern) (fields : List Nat) (i : Nat) : Bool :=
  let v := fields.getD i 0
  let limit := pt.thresholds.getD i 0
  if pt.below.getD i false then decide (v ≤ limit) else decide (limit ≤ v)

/-- A frame meets an entry. -/
def Pattern.meets (pt : Pattern) (fields : List Nat) : Bool :=
  (List.range 8).any (fun i => pt.inSet.getD i false) &&
    (List.range 8).all fun i => !pt.inSet.getD i false || pt.fieldMeets fields i

/-- The run counter after a new good frame. -/
def Pattern.judge (pt : Pattern) (fields : List Nat) : Pattern :=
  if pt.meets fields then
    if pt.runCounter < pt.runLength then { pt with runCounter := pt.runCounter + 1 } else pt
  else { pt with runCounter := 0 }

/-- The entry pulses at a frame: its run is completed by it. -/
def Pattern.pulses (pt : Pattern) (fields : List Nat) : Bool :=
  pt.meets fields && decide (pt.runCounter + 1 = pt.runLength)

/-- Every run counter becomes 0 (R118). -/
def Met.breakRuns (m : Met) : Met := { m with patterns := m.patterns.map fun pt => { pt with runCounter := 0 } }

/-- The patterns that pulse at a frame. -/
def Met.pulsing (m : Met) (fields : List Nat) : List Nat :=
  (List.range 4).filter fun i => (m.patterns.getD i freshPattern).pulses fields

/-! ### Frames (R117) -/

/-- The frame carries the last good frame's sequence number (R117). -/
def Met.duplicate (m : Met) (seq : Nat) : Bool := m.last.any fun r => r.seq == seq

/-- The frame comes after a gap in sequence (R117). -/
def Met.afterGap (m : Met) (seq : Nat) : Bool := m.last.any fun r => (r.seq + 1) % 256 != seq

namespace Yard

/-- MET_SILENT takes a level, and source 7 follows (R118). -/
def metSilence (level : Bool) (y : Yard) : Yard := followWith hand 7 y { y with metSilent := level }

/-- What a new good frame does to the other blocks: MET_SILENT goes low, then each pattern that pulses drives its source, in
a free order (R117, R119; log 8). -/
def newFrame (pulsing : List Nat) (y : Yard) : Yard :=
  (y.metSilence false).inFreeOrder pulsing fun i z => z.pulse (i + 3)

end Yard

namespace State

/-- The silence timer starts again with the live MET_SILENCE (R118), once the settings are applied (log 33). -/
def metTimer (s : State) : Option Nat := if s.running then some s.yard.settings.metSilence else s.met.timer

/-- A duplicate good frame (R117, R118). -/
def metDuplicate (s : State) : State :=
  { s with
    met := { s.met with
      inFrame := false
      timer := s.metTimer
      counters := { s.met.counters with dupFrames := bump s.met.counters.dupFrames } }
    yard := (s.yard.metSilence false).finish }

/-- A new good frame (R117). -/
def metNew (s : State) (seq : Nat) (fields : List Nat) : State :=
  let m := s.met
  let n := m.counters
  { s with
    met := { m with
      inFrame := false
      last := some ⟨seq, fields, s.yard.stamp⟩
      timer := s.metTimer
      patterns := m.patterns.map fun pt => pt.judge fields
      counters := { n with
        goodFrames := bump n.goodFrames
        seqGaps := if m.afterGap seq then bump n.seqGaps else n.seqGaps } }
    yard := (s.yard.newFrame (m.pulsing fields)).finish }

/-- A complete frame whose check fails (R116). -/
def metBad (s : State) : State :=
  { s with met := { s.met with
    inFrame := false, counters := { s.met.counters with badFrames := bump s.met.counters.badFrames } } }

/-- A complete met frame is judged (R116, R117). -/
def metJudge (s : State) (seq : Byte) (fields : List Word) (check : Word) : State :=
  if check ≠ frameCheck (metCovered seq fields) then s.metBad
  else if s.met.duplicate seq.toNat then s.metDuplicate
  else s.metNew seq.toNat (fields.map BitVec.toNat)

/-- A byte received outside a met frame (R116): 3Ch begins a frame, any other byte is counted. Inside a frame it is data
(R186). -/
def metByte (s : State) (b : Byte) : State :=
  if s.met.inFrame then s
  else if b = 0x3C then { s with met := { s.met with inFrame := true } }
  else { s with met := { s.met with
    counters := { s.met.counters with strayBytes := bump s.met.counters.strayBytes } } }

/-- A gap or a framing error inside a met frame (R116). -/
def metGap (s : State) : State :=
  { s with met := { s.met with
    inFrame := false, counters := { s.met.counters with shortFrames := bump s.met.counters.shortFrames } } }

/-- The met silence timer expires (R118). -/
def metSilenceExpires (s : State) : State :=
  if s.running && s.met.timer.isSome then
    { s with
      met := { s.met with timer := none }.breakRuns
      yard := (s.yard.metSilence true).finish }
  else s

/-! ### Set Pattern (R120) -/

/-- The entry that a Set Pattern body carries (R184). -/
def bodyPattern (body : List Byte) : Pattern where
  inSet := bitsOf (byteAt body 1)
  thresholds := (List.range 8).map fun i => wordAt body (2 + 2 * i)
  below := bitsOf (byteAt body 18)
  runLength := byteAt body 19
  runCounter := 0

/-- Set Pattern taken (R120). -/
def takeSetPattern (body : List Byte) (s : State) : State × Reply :=
  let i := byteAt body 0
  let n := byteAt body 19
  if 3 < i ∨ n < 1 ∨ 15 < n then (s, .refuse .range)
  else ({ s with met := { s.met with patterns := s.met.patterns.set i (bodyPattern body) } }, .ok [])

/-! ### Read Met (R121) -/

/-- The bits of a byte, bit 0 first, as one byte. -/
def bitsByte (bits : List Bool) : Byte :=
  byte ((List.range 8).foldl (fun acc i => acc + if bits.getD i false then 2 ^ i else 0) 0)

/-- One pattern entry of Read Met (R121): the set byte, the eight thresholds, one byte of comparisons, run_length, run_counter.
R184 packs the set and the comparisons so in Set Pattern alone; the same packing in the answer is the model's (log 15). -/
def patternBytes (pt : Pattern) : List Byte :=
  [bitsByte pt.inSet] ++ ((List.range 8).map fun i => twoBytes (pt.thresholds.getD i 0)).flatten ++
    [bitsByte pt.below, byte pt.runLength, byte pt.runCounter]

/-- The last frame, its sequence number in two bytes as R184 codes one, or the mark none (R121; log 14). -/
def lastFrameBytes : Option MetRecord → List Byte
  | some r => twoBytes r.seq ++ ((List.range 8).map fun i => twoBytes (r.fields.getD i 0)).flatten ++ fourBytes r.stamp
  | none => markBytes

/-- Part 0 of Read Met (R121). -/
def metBytes (s : State) : List Byte :=
  let n := s.met.counters
  lastFrameBytes s.met.last ++ [flagByte s.yard.metSilent] ++ timerBytes s.met.timer ++
    twoBytes n.goodFrames ++ twoBytes n.dupFrames ++ twoBytes n.seqGaps ++ twoBytes n.badFrames ++
    twoBytes n.shortFrames ++ twoBytes n.strayBytes

/-- Two pattern entries, from entry `i` on. -/
def patternPair (s : State) (i : Nat) : List Byte :=
  patternBytes (s.met.patterns.getD i freshPattern) ++ patternBytes (s.met.patterns.getD (i + 1) freshPattern)

/-- Read Met (R121): its reading of part 0 on the plant port clears the counters. -/
def takeReadMet (p : Port) (body : List Byte) (s : State) : State × Reply :=
  match byteAt body 0 with
  | 0 =>
    (if p = .plant then { s with met := { s.met with counters := freshMetCounters } } else s, .ok s.metBytes)
  | 1 => (s, .ok (s.patternPair 0))
  | 2 => (s, .ok (s.patternPair 2))
  | _ => (s, .refuse .range)

end State

/-! ### Meanings -/

/-- SET_PATTERN (R120). -/
def execSetPattern (p : Port) (body : List Byte) (s : State) : Host.Outcome State Fault Refusal :=
  .next (s.serve .setPattern p body (State.takeSetPattern body))

/-- READ_MET (R121). -/
def execReadMet (p : Port) (body : List Byte) (s : State) : Host.Outcome State Fault Refusal :=
  .next (s.serve .readMet p body (State.takeReadMet p body))

/-- MET_FRAME (R117). -/
def execMetFrame (seq : Byte) (fields : List Word) (check : Word) (s : State) : Host.Outcome State Fault Refusal :=
  .next (if s.resetN then s.metJudge seq fields check else s)

/-- MET_STRAY_BYTE (R116). -/
def execMetStrayByte (b : Byte) (s : State) : Host.Outcome State Fault Refusal :=
  .next (if s.resetN then s.metByte b else s)

/-- MET_FRAME_GAP (R116). -/
def execMetFrameGap (s : State) : Host.Outcome State Fault Refusal := .next (if s.resetN then s.metGap else s)

/-- MET_SILENCE_EXPIRY (R118). -/
def execMetSilenceExpiry (s : State) : Host.Outcome State Fault Refusal := .next s.metSilenceExpires

end Sys2Proof.Machine
end

