-- ==== Sys2Proof/Machine/Storm.lean ====
section
/-! DEFINITION. The Stow Sequencer's requests: Stow Now (R126), Release (R137), Read Storm (R140); and the recall deadline's
expiry (R132). -/

namespace Sys2Proof.Machine

namespace Yard

/-- Stow Now taken (R126): the answer carries the storm state as it stands after it. -/
def takeStowNow (y : Yard) : Yard × Reply :=
  let z := y.beginRecall .stowNow none
  (z, .ok [byte z.storm.state.code])

/-! ### Release (R137, R23) -/

/-- What Release does to row `r` (R23). -/
def releaseRow (r : Nat) (y : Yard) : Yard :=
  match (y.row r).custody with
  | .stowed | .stowPending => (y.settleRow r).setRow r fun w => { w with unconfirmed := false }
  | .exposed => y.setRow r fun w => { w with custody := .open, timer := none }
  | _ => y

/-- The effects of a taken Release (R137). -/
def releaseBlock (y : Yard) : Yard :=
  let y₁ := y.exposedFollows (y.overRows releaseRow)
  let y₂ := followWith hand 11 y₁ (y₁.changeStorm .calm .release none)
  (y₂.pulse 12).giveAssign

/-- Release taken (R137). -/
def takeRelease (y : Yard) : Yard × Reply :=
  if y.storm.state ≠ .parked then (y, .refuse .state)
  else if y.seen 0 || y.seen 1 then
    (y.countStorm fun n => { n with releaseRefusals := bump n.releaseRefusals }, .refuse .alertActive)
  else (y.releaseBlock, .ok [])

/-- The recall deadline's expiry, where the timer runs (R132). -/
def deadlinePasses (y : Yard) : Yard :=
  if y.storm.state = .recall ∧ y.storm.deadline.isSome then y.deadlineExpires else y

/-! ### Read Storm (R140) -/

/-- The number of rows in a custody state. -/
def custodyCount (y : Yard) (c : Custody) : Nat := y.rows.countP fun r => r.custody == c

/-- The number of STOWED rows with unconfirmed set. -/
def unconfirmedCount (y : Yard) : Nat := y.rows.countP fun r => r.custody == .stowed && r.unconfirmed

/-- The number of enrolled robots whose place is MIDROW. -/
def midrowCount (y : Yard) : Nat :=
  y.robots.countP fun b => b.enrolled && match b.place with
    | .midrow _ => true
    | _ => false

/-- The number of carriages with a load. -/
def loadCount (y : Yard) : Nat := y.carriageList.countP fun c => (y.carriage c).load.isSome

/-- The body of a Read Storm answer (R140; widths, log 15). R140 asks for the number of rows in each of the seven custody states
and names no order of the seven: they are sent in the order of the custody codes of R184 (the model's choice, log 46). -/
def stormBytes (y : Yard) : List Byte :=
  let t := y.storm
  [byte t.state.code] ++ fourBytes t.enteredAt ++
    [byte t.lastCause.code, causeLaneByte t.causeLane, byte t.recallCause.code, causeLaneByte t.recallLane] ++
    timerBytes t.deadline ++ [flagByte (y.seen 0), flagByte (y.seen 1)] ++
    ([Custody.track, .flattening, .open, .settle, .stowPending, .stowed, .exposed].map fun c => byte (y.custodyCount c)) ++
    [byte y.unconfirmedCount, byte y.midrowCount, byte y.loadCount] ++
    twoBytes t.counters.recalls ++ twoBytes t.counters.deadlineExpiries ++ twoBytes t.counters.rowsExposed ++
    twoBytes t.counters.releaseRefusals

/-- Read Storm (R140): its reading on the plant port clears the counters. -/
def takeReadStorm (p : Port) (y : Yard) : Yard × Reply :=
  (if p = .plant then y.countStorm fun _ => freshStormCounters else y, .ok y.stormBytes)

end Yard

/-! ### Meanings -/

/-- STOW_NOW (R126). -/
def execStowNow (p : Port) (body : List Byte) (s : State) : Host.Outcome State Fault Refusal :=
  .next (s.serve .stowNow p body (State.onYard Yard.takeStowNow))

/-- RELEASE (R137). -/
def execRelease (p : Port) (body : List Byte) (s : State) : Host.Outcome State Fault Refusal :=
  .next (s.serve .release p body (State.onYard Yard.takeRelease))

/-- READ_STORM (R140). -/
def execReadStorm (p : Port) (body : List Byte) (s : State) : Host.Outcome State Fault Refusal :=
  .next (s.serve .readStorm p body (State.readingYard (Yard.takeReadStorm p)))

/-- RECALL_DEADLINE_EXPIRY (R132). -/
def execRecallDeadlineExpiry (s : State) : Host.Outcome State Fault Refusal := .next (s.event Yard.deadlinePasses)

end Sys2Proof.Machine
end

