-- ==== Sys2Proof/Machine/Accounts.lean ====
section
/-! DEFINITION. The Account Unit: energy reports (R150 to R155), intervals (R148, R149), the close walk (R158 to R160),
reading (R157, R164), and the second event with the timers that it moves (R144, R147). -/

namespace Sys2Proof.Machine

/-! ### Classes (R143, R144, R152) -/

/-- The number of a class. -/
def PerClass.of (n : PerClass) : Class → Nat
  | .soil => n.soil
  | .fence => n.fence
  | .hold => n.hold
  | .stow => n.stow
  | .exposed => n.exposed

/-- `k` more for one class. -/
def PerClass.plus (n : PerClass) (c : Class) (k : Nat) : PerClass :=
  match c with
  | .soil => { n with soil := n.soil + k }
  | .fence => { n with fence := n.fence + k }
  | .hold => { n with hold := n.hold + k }
  | .stow => { n with stow := n.stow + k }
  | .exposed => { n with exposed := n.exposed + k }

/-- The sum over the classes. -/
def PerClass.total (n : PerClass) : Nat := n.soil + n.fence + n.hold + n.stow + n.exposed

/-- The class of a closed interval: the most seconds, ties in the order STOW, EXPOSED, HOLD, FENCE, SOIL (R152). -/
def PerClass.chosen (n : PerClass) : Class :=
  [Class.exposed, .hold, .fence, .soil].foldl (fun best c => if n.of best < n.of c then c else best) .stow

/-! ### Period counters (R146) -/

/-- The top of an energy total. -/
def energyTop : Nat := 4294967295

/-- A loss charged to a class (R146). -/
def Period.addLoss (p : Period) (c : Class) (loss : Nat) : Period :=
  let amount := min loss (energyTop - p.lossTotal)
  { p with loss := p.loss.plus c amount, lossTotal := p.lossTotal + amount }

/-- The energies of a reported interval (R151, R146). -/
def Period.addEnergy (p : Period) (expected actual : Nat) : Period :=
  { p with expectedWh := min (p.expectedWh + expected) energyTop, actualWh := min (p.actualWh + actual) energyTop }

/-- An interval closed as reported (R146). -/
def Period.countReported (p : Period) : Period :=
  if p.intervals < 65535 then { p with intervals := p.intervals + 1, reported := p.reported + 1 } else p

/-- An interval closed as MISSING (R146). -/
def Period.countMissing (p : Period) : Period :=
  if p.intervals < 65535 then { p with intervals := p.intervals + 1, missing := p.missing + 1 } else p

/-! ### Rows of the account -/

namespace RowAccount

/-- A ring record is written (R156). -/
def record (a : RowAccount) (x : RingRecord) : RowAccount := { a with ring := (x :: a.ring).take 16 }

/-- A MISSING close of a pending record (R149). -/
def closeMissing (a : RowAccount) (g : Gathered) : RowAccount :=
  { a.record ⟨g.seq, 0, 0, 0, g.secs.chosen, true⟩ with period := a.period.countMissing, pending := none }

/-- What an interval expiry does to a row (R148); `next` is the sequence number of the new open record. -/
def expire (next : Nat) (a : RowAccount) : RowAccount :=
  let b := match a.pending with
    | some g => a.closeMissing g
    | none => a
  { b with pending := some a.gathering, gathering := freshGathered next }

/-- A reported close of a pending record, but for the soiling estimate (R151). -/
def closeReported (a : RowAccount) (g : Gathered) (expected actual : Nat) : RowAccount :=
  let loss := expected - actual
  let c := g.secs.chosen
  { a.record ⟨g.seq, expected, actual, loss, c, false⟩ with
    period := ((a.period.addLoss c loss).addEnergy expected actual).countReported, pending := none }

/-- A row is walked (R159). -/
def close (period : Nat) (a : RowAccount) : RowAccount :=
  { a with snapshot := a.period, snapshotOf := some period, period := freshPeriod }

/-- One second charged to a class in the open record (R144). -/
def second (a : RowAccount) (c : Class) : RowAccount :=
  { a with gathering := { a.gathering with secs := a.gathering.secs.plus c 1 } }

end RowAccount

/-- The account of row `r`. -/
def Accounts.row (a : Accounts) (r : Nat) : RowAccount := a.rows.getD r (freshRowAccount 0)

/-- Change the account of row `r`. -/
def Accounts.setRow (a : Accounts) (r : Nat) (f : RowAccount → RowAccount) : Accounts :=
  { a with rows := a.rows.modify r f }

/-! ### The soiling estimate (R154, R155) -/

/-- The soiling after a sample (R154). -/
def estimate (old : Option Nat) (loss expected : Nat) : Nat :=
  let sample := min (loss * 1000 / expected) 1000
  match old with
  | none => sample
  | some v => (3 * v + sample) / 4

/-- The estimate is written; where it reaches DIRTY_LIMIT from below or from unknown, SOIL pulses and SOIL_ALERT goes to the
plant port (R155). R155 lists the two and does not number them: they are taken as listed (log 43). -/
def Yard.writeEstimate (y : Yard) (r loss expected : Nat) : Yard :=
  let old := (y.row r).soiling
  let new := estimate old loss expected
  let z := y.setRow r fun w => { w with soiling := some new }
  if y.settings.dirtyLimit ≤ new ∧ old.all (fun v => decide (v < y.settings.dirtyLimit)) then
    (z.pulse 8).notify .plant .soilAlert (r, 0, 0) new
  else z

namespace State

/-! ### Energy Report (R150, R151) -/

/-- A report that closes row `r`'s pending record (R151). -/
def closeInterval (s : State) (r : Nat) (g : Gathered) (expected actual : Nat) : State :=
  let y := if g.secs.chosen = .soil ∧ 0 < expected then s.yard.writeEstimate r (expected - actual) expected else s.yard
  { s with
    accounts := s.accounts.setRow r fun a => a.closeReported g expected actual
    yard := y.finish }

/-- A report of any other interval (R150): EARLY for the one now running, else LATE and counted. -/
def otherInterval (s : State) (r seq : Nat) : State × Reply :=
  if seq = s.accounts.seq then (s, .plain .early)
  else
    let late := fun a : RowAccount => { a with period := { a.period with lateReports := bump a.period.lateReports } }
    ({ s with accounts := s.accounts.setRow r late }, .plain .late)

/-- Energy Report taken (R150). -/
def takeEnergyReport (body : List Byte) (s : State) : State × Reply :=
  let r := byteAt body 0
  let seq := wordAt body 1
  if s.yard.rows.length ≤ r then (s, .refuse .range)
  else match (s.accounts.row r).pending with
    | some g =>
      if g.seq = seq then (s.closeInterval r g (wordAt body 3) (wordAt body 5), .ok []) else s.otherInterval r seq
    | none => s.otherInterval r seq

/-! ### Intervals (R148) -/

/-- A number of 16 bits as a notice subject (R177). -/
def wordSubject (n : Nat) : Nat × Nat × Nat := (n / 256, n % 256, 0)

/-- An interval expiry (R148), with the timer's next start (R147). -/
def expireInterval (s : State) : State :=
  let a := s.accounts
  let next := (a.seq + 1) % 65536
  { s with
    accounts := { a with
      rows := a.rows.map fun x => x.expire next
      seq := next
      timer := some s.yard.settings.interval
      intervalLength := s.yard.settings.interval }
    yard := s.yard.notify .tracker .intervalEnd (wordSubject a.seq) a.intervalLength }

/-! ### Closing a period (R158 to R160) -/

/-- Close Period taken (R158). -/
def takeClosePeriod (s : State) : State × Reply :=
  if s.accounts.walk.isSome then (s, .plain .busy)
  else
    let p := s.accounts.periodNumber
    ({ s with accounts := { s.accounts with
        periodNumber := (p + 1) % 65536, walk := some ⟨p, 0, s.yard.rows.length⟩ } }, ⟨.accepted, .none, []⟩)

/-- The rows of a walk step are closed (R159). -/
def walkRows (a : Accounts) (w : Walk) : List RowAccount :=
  a.rows.mapIdx fun r x => if w.next ≤ r ∧ r < w.next + 8 ∧ r < w.rows then x.close w.period else x

/-- A walk step (R159, R160). -/
def walkStep (s : State) : State :=
  match s.running, s.accounts.walk with
  | true, some w =>
    let rows := walkRows s.accounts w
    if w.rows ≤ w.next + 8 then
      { s with
        accounts := { s.accounts with rows := rows, walk := none }
        yard := s.yard.notify .plant .periodClosed (wordSubject w.period) w.rows }
    else { s with accounts := { s.accounts with rows := rows, walk := some { w with next := w.next + 8 } } }
  | _, _ => s

/-! ### The second event (R144, R147) -/

/-- A running timer has one second less; at 0 its expiry is due (log 6). -/
def tick (t : Option Nat) : Option Nat := t.map (· - 1)

/-- The timers of the yard (log 6). -/
def tickYard (y : Yard) : Yard :=
  { y with
    rows := y.rows.map fun w => { w with timer := tick w.timer }
    robots := y.robots.map fun b => { b with silenceTimer := tick b.silenceTimer }
    rail := { y.rail with
      queue := y.rail.queue.map fun t => { t with phaseTimer := tick t.phaseTimer }
      nudges := y.rail.nudges.map fun n => n.map fun x => { x with timer := x.timer - 1 } }
    rounds := { y.rounds with timer := tick y.rounds.timer, passTimers := y.rounds.passTimers.map tick }
    storm := { y.storm with deadline := tick y.storm.deadline } }

/-- The stamp counts one second more (R176). -/
def tickStamp (y : Yard) : Yard := { y with stamp := (y.stamp + 1) % 4294967296 }

/-- Each row's class is read and charged one second (R144). -/
def chargeRows (y : Yard) (a : Accounts) : Accounts :=
  { a with rows := a.rows.mapIdx fun r x => x.second (y.rowClass r) }

/-- The second is counted by the interval timer, and the expiry is taken where it was the last of the interval (R147). -/
def countInterval (s : State) : State :=
  match s.accounts.timer with
  | some n =>
    if n ≤ 1 then
      let z := s.expireInterval
      { z with accounts := { z.accounts with expiryTaken := true } }
    else { s with accounts := { s.accounts with timer := some (n - 1) } }
  | none => s

/-- The second event. The stamp runs from the moment the part leaves cold reset; the rest begins when the settings are
applied (R144, R176, R197). The stamp counts the second first, so that an INTERVAL_END given within the event carries
the new stamp; R147, R148 and R176 give no order of the two (the model's choice, log 38). -/
def secondPasses (s : State) : State :=
  if s.running then
    countInterval { s with
      yard := tickYard (tickStamp s.yard)
      met := { s.met with timer := tick s.met.timer }
      accounts := { chargeRows s.yard s.accounts with expiryTaken := false } }
  else if s.resetN then { s with yard := tickStamp s.yard }
  else s

/-- The interval timer's expiry by its own name (R147, R148; log 7). The expiry is taken within the second event that counts
the last second of the interval: where that second is still to be counted, the command is that second event. Where the
last second event has taken the expiry already, or more seconds are still to be counted, the command has nothing to
take. -/
def intervalExpires (s : State) : State :=
  match s.running, s.accounts.timer with
  | true, some n =>
    if n ≤ 1 ∧ s.accounts.expiryTaken = false then
      let z := s.secondPasses
      { z with accounts := { z.accounts with expiryTaken := false } }
    else { s with accounts := { s.accounts with expiryTaken := false } }
  | _, _ => s

/-! ### Reading accounts (R157, R164) -/

/-- Five numbers, one for each class, of two bytes each. -/
def secondsBytes (n : PerClass) : List Byte :=
  twoBytes n.soil ++ twoBytes n.fence ++ twoBytes n.hold ++ twoBytes n.stow ++ twoBytes n.exposed

/-- The fields of R145. -/
def periodBytes (p : Period) : List Byte :=
  fourBytes p.expectedWh ++ fourBytes p.actualWh ++ fourBytes p.loss.soil ++ fourBytes p.loss.fence ++
    fourBytes p.loss.hold ++ fourBytes p.loss.stow ++ fourBytes p.loss.exposed ++ fourBytes p.lossTotal ++
    twoBytes p.intervals ++ twoBytes p.reported ++ twoBytes p.missing ++ twoBytes p.lateReports

/-- An open or pending record. -/
def gatheredBytes (g : Gathered) : List Byte := twoBytes g.seq ++ secondsBytes g.secs

/-- A mark none or absent, or the item (log 14). -/
def orMark {α : Type} (bytes : α → List Byte) : Option α → List Byte
  | some a => bytes a
  | none => markBytes

/-- A part of Read Account (R164; log 15). -/
def accountBytes (s : State) (r part : Nat) : List Byte :=
  let a := s.accounts.row r
  match part with
  | 0 => twoBytes s.accounts.periodNumber ++ periodBytes a.period
  | 1 => orMark twoBytes a.snapshotOf ++ periodBytes a.snapshot
  | _ =>
    twoBytes s.accounts.seq ++ timerBytes s.accounts.timer ++ gatheredBytes a.gathering ++
      orMark gatheredBytes a.pending ++ [byte (s.yard.rowClass r).code]

/-- Read Account (R164): the row and the part are judged before the walk in flight, as R164 lists them (log 42). -/
def readAccount (body : List Byte) (s : State) : Reply :=
  let r := byteAt body 0
  let part := byteAt body 1
  if s.yard.rows.length ≤ r ∨ 2 < part then .refuse .range
  else if s.accounts.walk.isSome then .plain .busy
  else .ok (s.accountBytes r part)

/-- A ring record (R157, R184). -/
def ringBytes (x : RingRecord) : List Byte :=
  twoBytes x.seq ++ twoBytes x.expected ++ twoBytes x.actual ++ twoBytes x.loss ++
    [byte (x.cls.code + if x.missing then 128 else 0)]

/-- Read Ring (R157): the row and the start are judged before the walk in flight, as R157 lists them (log 42). -/
def readRing (body : List Byte) (s : State) : Reply :=
  let r := byteAt body 0
  let start := byteAt body 1
  if s.yard.rows.length ≤ r ∨ 15 < start then .refuse .range
  else if s.accounts.walk.isSome then .plain .busy
  else
    let ring := (s.accounts.row r).ring
    .ok (byte ring.length :: (((ring.drop start).take 6).map ringBytes).flatten)

end State

/-! ### Meanings -/

/-- ENERGY_REPORT (R150). -/
def execEnergyReport (p : Port) (body : List Byte) (s : State) : Host.Outcome State Fault Refusal :=
  .next (s.serve .energyReport p body (State.takeEnergyReport body))

/-- CLOSE_PERIOD (R158). -/
def execClosePeriod (p : Port) (body : List Byte) (s : State) : Host.Outcome State Fault Refusal :=
  .next (s.serve .closePeriod p body State.takeClosePeriod)

/-- READ_ACCOUNT (R164). -/
def execReadAccount (p : Port) (body : List Byte) (s : State) : Host.Outcome State Fault Refusal :=
  .next (s.serve .readAccount p body (State.reading (State.readAccount body)))

/-- READ_RING (R157). -/
def execReadRing (p : Port) (body : List Byte) (s : State) : Host.Outcome State Fault Refusal :=
  .next (s.serve .readRing p body (State.reading (State.readRing body)))

/-- SECOND_EVENT (R144). -/
def execSecondEvent (s : State) : Host.Outcome State Fault Refusal := .next s.secondPasses

/-- INTERVAL_EXPIRY (R147, R148). -/
def execIntervalExpiry (s : State) : Host.Outcome State Fault Refusal := .next s.intervalExpires

/-- CLOSE_WALK_STEP (R159). -/
def execCloseWalkStep (s : State) : Host.Outcome State Fault Refusal := .next s.walkStep

end Sys2Proof.Machine
end

