-- ==== Sys2Proof/Machine/Settings.lean ====
section
/-! DEFINITION. The Settings Loader: settings (R189 to R193), images and saves (R194 to R196), cold reset, start-up and
commit (R188, R197 to R199), and Fleet Restart (R200). -/

namespace Sys2Proof.Machine

/-! ### The settings by code (R189) -/

/-- The codes of R189. -/
def settingCodes : List Nat :=
  [0x01, 0x02, 0x03, 0x04, 0x05, 0x06, 0x07, 0x08] ++
  [0x10, 0x11, 0x12, 0x13, 0x14, 0x15, 0x16, 0x17, 0x18, 0x19] ++
  [0x20, 0x21, 0x22, 0x23, 0x24, 0x25, 0x26, 0x27, 0x28, 0x29, 0x2A, 0x2B]

/-- The structural settings (R189). -/
def structuralCode (code : Nat) : Bool := decide (1 ≤ code ∧ code ≤ 8)

/-- The value of a setting (R189). -/
def Settings.value (st : Settings) : Nat → Nat
  | 0x01 => st.rows | 0x02 => st.groups | 0x03 => st.carriages | 0x04 => st.docks
  | 0x05 => st.dockPos.getD 0 0 | 0x06 => st.dockPos.getD 1 0 | 0x07 => st.dockPos.getD 2 0
  | 0x08 => st.dockPos.getD 3 0
  | 0x10 => st.rowPolicy.code | 0x11 => st.roundSource.code | 0x12 => st.roundPeriod
  | 0x13 => st.cleanInterval | 0x14 => st.surveyEvery | 0x15 => st.dirtyLimit | 0x16 => st.sweepLimit
  | 0x17 => st.residual | 0x18 => st.chargeMin | 0x19 => st.chargeReady
  | 0x20 => st.settleTime | 0x21 => st.flattenLimit | 0x22 => st.holdLimit | 0x23 => st.passLimit
  | 0x24 => st.phaseLimit | 0x25 => st.stowDeadline | 0x26 => st.stowLimit | 0x27 => st.robotSilence
  | 0x28 => st.metSilence | 0x29 => st.interval | 0x2A => st.holdoffCount | 0x2B => st.holdoffSegments
  | _ => 0

/-- A setting takes a value (R190, case 6). -/
def Settings.put (st : Settings) (code v : Nat) : Settings :=
  match code with
  | 0x01 => { st with rows := v } | 0x02 => { st with groups := v }
  | 0x03 => { st with carriages := v } | 0x04 => { st with docks := v }
  | 0x05 => { st with dockPos := st.dockPos.set 0 v } | 0x06 => { st with dockPos := st.dockPos.set 1 v }
  | 0x07 => { st with dockPos := st.dockPos.set 2 v } | 0x08 => { st with dockPos := st.dockPos.set 3 v }
  | 0x10 => { st with rowPolicy := if v = 1 then .hold else .close }
  | 0x11 => { st with roundSource := if v = 1 then .request else .timer }
  | 0x12 => { st with roundPeriod := v } | 0x13 => { st with cleanInterval := v }
  | 0x14 => { st with surveyEvery := v } | 0x15 => { st with dirtyLimit := v }
  | 0x16 => { st with sweepLimit := v } | 0x17 => { st with residual := v }
  | 0x18 => { st with chargeMin := v } | 0x19 => { st with chargeReady := v }
  | 0x20 => { st with settleTime := v } | 0x21 => { st with flattenLimit := v }
  | 0x22 => { st with holdLimit := v } | 0x23 => { st with passLimit := v }
  | 0x24 => { st with phaseLimit := v } | 0x25 => { st with stowDeadline := v }
  | 0x26 => { st with stowLimit := v } | 0x27 => { st with robotSilence := v }
  | 0x28 => { st with metSilence := v } | 0x29 => { st with interval := v }
  | 0x2A => { st with holdoffCount := v } | 0x2B => { st with holdoffSegments := v }
  | _ => st

/-- A value lies between two limits. -/
def between (low v high : Nat) : Bool := decide (low ≤ v ∧ v ≤ high)

/-- A value lies in the range of its setting (R189); ranges that name other settings read `st`, and the position of a dock
not in use is judged against 0..191 alone. -/
def Settings.inRange (st : Settings) (code v : Nat) : Bool :=
  match code with
  | 0x01 => between 8 v 192
  | 0x02 => v == 1 || v == 2 || v == 4
  | 0x03 => between 1 v 3
  | 0x04 => between 1 v 4
  | 0x05 | 0x06 | 0x07 | 0x08 => if code - 5 < st.docks then decide (v < st.rows) else decide (v ≤ 191)
  | 0x10 | 0x11 => decide (v ≤ 1)
  | 0x12 => between 10 v 1440
  | 0x13 => between 1 v 720
  | 0x14 => decide (v ≤ 15)
  | 0x15 => between 1 v 500
  | 0x16 => decide (1 ≤ v ∧ v < st.dirtyLimit)
  | 0x17 => decide (v < st.sweepLimit)
  | 0x18 => between 10 v 90
  | 0x19 => decide (st.chargeMin < v ∧ v ≤ 100)
  | 0x20 => between 30 v 1800
  | 0x21 => between 30 v 900
  | 0x22 => decide (v ≤ 3600)
  | 0x23 => between 300 v 7200
  | 0x24 => between 20 v 900
  | 0x25 | 0x26 => between 30 v 900
  | 0x27 => between 10 v 600
  | 0x28 => between 5 v 300
  | 0x29 => v == 300 || v == 600 || v == 900
  | 0x2A => between 1 v 8
  | 0x2B => between 1 v 24
  | _ => false

/-- The dock positions in use (R189). -/
def Settings.docksInUse (st : Settings) : List Nat := st.dockPos.take st.docks

/-- The cross-limits of R190, case 4. -/
def Settings.crossLimits (st : Settings) : Bool :=
  decide (st.residual < st.sweepLimit ∧ st.sweepLimit < st.dirtyLimit ∧ st.chargeMin < st.chargeReady) &&
    st.docksInUse.all (fun p => decide (p < st.rows)) && decide st.docksInUse.Nodup

/-! ### Structural change (R191) -/

namespace State

/-- The block is idle for a structural change (R191). -/
def idle (s : State) : Bool :=
  s.yard.storm.state == .calm && s.yard.rail.queue.isEmpty && s.yard.rail.nudges.all Option.isNone &&
    s.yard.rounds.list.isEmpty &&
    (s.yard.rows.all fun w => w.custody != .flattening && w.custody != .open && w.custody != .exposed) &&
    s.accounts.walk.isNone

end State

/-- A robot record at a structural change (R49): work is dropped, enrolment and last_serial are kept. -/
def Robot.remade (b : Robot) (silence : Nat) : Robot :=
  freshRobot b.enrolled b.lastSerial (if b.enrolled then some silence else none)

/-- The fence ranges that lie within the rows (R27). -/
def fencesWithin (fences : List (Option (Nat × Nat))) (rows : Nat) : List (Option (Nat × Nat)) :=
  fences.map fun f => match f with
    | some (first, last) => if last < rows then some (first, last) else none
    | none => none

/-- The Row Table, Fleet Table, Transfer Engine and Round Scheduler take their cold-reset values for the live settings
(R191, steps 2 to 5). The hold-off level is low with the rest of R77. The steps hand nothing to one another and give no notice, so
a level that was high falls with no HOLDOFF, and no listener is handed the fall (log 28). -/
def Yard.remade (y : Yard) : Yard :=
  let st := y.settings
  { y with
    rows := freshRows st
    fences := fencesWithin y.fences st.rows
    robots := y.robots.map fun b => b.remade st.robotSilence
    carriages := y.carriages.map fun c => freshCarriage c.lastSerial
    docks := List.replicate 4 freshDock
    staleReports := 0
    refusedReports := 0
    rail := freshRail
    rounds := freshRounds (some (st.roundPeriod * 60)) }

/-- The row records of the account, kept, added or dropped by index (R166). -/
def Accounts.resize (a : Accounts) (rows : Nat) : Accounts :=
  { a with rows := a.rows.take rows ++ List.replicate (rows - a.rows.length) (freshRowAccount a.seq) }

namespace State

/-- A structural setting changes its value (R191). -/
def changeStructure (s : State) (st : Settings) : State :=
  { s with
    yard := Yard.remade { s.yard with settings := st }
    accounts := s.accounts.resize st.rows }

/-- The hold-off limits (R189). -/
def holdoffCode (code : Nat) : Bool := code == 0x2A || code == 0x2B

/-- A free setting takes its value: it becomes live, and a hold-off limit has the level judged again at once (R192). -/
def changeFree (s : State) (code : Nat) (st : Settings) : State :=
  let y := { s.yard with settings := st }
  { s with yard := (if holdoffCode code then Yard.judgeHoldoff Yard.hand y else y).finish }

/-- Write Setting taken (R190). -/
def takeWriteSetting (body : List Byte) (s : State) : State × Reply :=
  let code := byteAt body 0
  let v := wordAt body 1
  let st := s.yard.settings
  if s.loader.save.isSome then (s, .plain .busy)
  else if st.inRange code v = false ∨ (st.put code v).crossLimits = false then (s, .refuse .range)
  else if structuralCode code then
    if s.idle = false then (s, .refuse .state)
    else if st.value code = v then (s, .ok [])
    else (s.changeStructure (st.put code v), .ok [])
  else (s.changeFree code (st.put code v), .ok [])

/-! ### Read Setting (R193) -/

/-- The enrolment mask (R189). -/
def enrolmentMask (s : State) : Nat :=
  s.yard.robotList.foldl (fun acc k => acc + if s.yard.enrolled k then 2 ^ k else 0) 0

/-- The value of a code, read-only codes included (R189). -/
def codeValue (s : State) (code : Nat) : Option Nat :=
  if settingCodes.contains code then some (s.yard.settings.value code)
  else match code with
    | 0x30 => some s.enrolmentMask
    | 0x31 => some s.loader.generation
    | 0x32 => some (s.loader.current.getD 65535)
    | _ => none

/-- Read Setting (R193). -/
def readSetting (body : List Byte) (s : State) : Reply :=
  let code := byteAt body 0
  match s.codeValue code with
  | some v => .ok ([byte code] ++ twoBytes v ++ [flagByte (structuralCode code)])
  | none => .refuse .range

end State

/-! ### Images (R194, R195) -/

/-- A fence range of an image is empty or lies within its rows. -/
def fenceGood (rows : Nat) : Option (Nat × Nat) → Bool
  | some (first, last) => decide (first ≤ last ∧ last < rows)
  | none => true

/-- A lane source of an image: 0..17, and no met source on lanes 4..7. -/
def laneGood (lane src : Nat) : Bool := decide (src ≤ 17) && !(decide (4 ≤ lane) && decide (1 ≤ src ∧ src ≤ 7))

/-- A slot holds a good image (R194). -/
def Image.good (im : Image) : Bool :=
  im.checkMatches && im.formatRecognised &&
    (settingCodes.all fun code => im.settings.inRange code (im.settings.value code)) && im.settings.crossLimits &&
    im.fences.all (fenceGood im.settings.rows) && (im.lanes.mapIdx laneGood).all id &&
    im.listeners.all (fun n => decide (n ≤ 8)) &&
    im.patterns.all fun pt => decide (1 ≤ pt.runLength ∧ pt.runLength ≤ 15)

/-- Of two good images, whether slot 1 is the newer (R195). -/
def newerIsOne (g0 g1 : Nat) : Bool :=
  if g1 = (g0 + 1) % 65536 then true
  else if g0 = (g1 + 1) % 65536 then false
  else decide (g0 < g1)

/-- The slot that the start-up load chooses (R195). -/
def Loader.chooseSlot (l : Loader) : Option Nat :=
  match l.slot0.good, l.slot1.good with
  | true, true => if newerIsOne l.slot0.generation l.slot1.generation then some 1 else some 0
  | true, false => some 0
  | false, true => some 1
  | false, false => none

/-- The contents of a slot. -/
def Loader.slot (l : Loader) (n : Nat) : Image := if n = 0 then l.slot0 else l.slot1

/-- A slot is written. -/
def Loader.writeSlot (l : Loader) (n : Nat) (im : Image) : Loader :=
  if n = 0 then { l with slot0 := im } else { l with slot1 := im }

/-- An image whose write did not succeed (R196). -/
def Image.spoiled (im : Image) : Image := { im with checkMatches := false }

/-! ### Saving (R196) -/

namespace State

/-- The image of the live state (R196, step 1). -/
def liveImage (s : State) (generation : Nat) : Image where
  checkMatches := true
  formatRecognised := true
  generation := generation
  settings := s.yard.settings
  enrolled := s.yard.robots.map (·.enrolled)
  fences := s.yard.fences
  lanes := s.yard.alerts.lanes
  listeners := s.yard.alerts.listeners
  patterns := s.met.patterns.map fun pt => { pt with runCounter := 0 }

/-- The target slot of a save (R196, step 2). -/
def targetSlot (s : State) : Nat := if s.loader.current = some 0 then 1 else 0

/-- The target generation of a save (R196, step 2). -/
def targetGeneration (s : State) : Nat :=
  if s.loader.current.isSome then (s.loader.generation + 1) % 65536 else 1

/-- Save Settings taken (R196). -/
def takeSaveSettings (s : State) : State × Reply :=
  if s.loader.save.isSome then (s, .plain .busy)
  else
    ({ s with loader := { s.loader with save := some ⟨s.liveImage s.targetGeneration, s.targetSlot⟩ } },
      ⟨.accepted, .none, []⟩)

/-- The save in flight ends (R196): saved where the read-back image is good, else failed, with the slot left bad. -/
def endSave (s : State) (good : Bool) : State :=
  match s.loader.save with
  | none => s
  | some v =>
    let l := { s.loader with save := none }
    if good && v.image.good then
      { s with
        loader := { l.writeSlot v.slot v.image with current := some v.slot, generation := v.image.generation }
        yard := s.yard.notify .plant .settingsSaved (0, 0, 0) 0 }
    else
      { s with
        loader := l.writeSlot v.slot v.image.spoiled
        yard := s.yard.notify .plant .settingsSaved (0, 0, 0) 1 }

/-! ### Cold reset and start-up (R188, R197, R198) -/

/-- The memory as a cold reset leaves it: a save in flight is stopped, and its target slot is left bad, as it was, or
whole (R196; log 24). -/
def memoryAtReset (s : State) : Loader :=
  match s.loader.save with
  | none => s.loader
  | some v =>
    match Config.tornSave s.yard.freeCount with
    | 0 => s.loader.writeSlot v.slot v.image.spoiled
    | 1 => s.loader
    | _ => s.loader.writeSlot v.slot v.image

/-- The level of SPI_CS (R188): high while RESET_N is low. Out of reset the memory is selected, at low level, while an access
is under way: the start-up load, or a save in flight (the model's choice, log 40). -/
def spiCsHigh (s : State) : Bool := !s.resetN || !(s.yard.startUp == .starting || s.loader.save.isSome)

/-- A port's transmit line rests at its idle level, high, while its transmitter is IDLE (R168, R188). -/
def transmitLineIdle (s : State) (p : Port) : Bool := !s.resetN || !(s.links.get p).transmitter.isSending

/-- Every block takes its cold-reset values, and RESET_N is low (R188, R202). -/
def coldReset (s : State) : State where
  yard := freshYard (s.yard.freeCount + if s.loader.save.isSome then 1 else 0)
  links := ⟨freshLink, freshLink, freshLink⟩
  met := freshMet
  accounts := freshAccounts defaultSettings
  loader := freshLoader s.memoryAtReset.slot0 s.memoryAtReset.slot1
  resetN := false
  pending := s.pending

/-- The image whose contents become live: the chosen slot's, or the defaults with nothing enrolled, fenced, wired or
matched (R197). -/
def startImage (l : Loader) : Image :=
  match l.chooseSlot with
  | some n => l.slot n
  | none =>
    { blankImage with
      enrolled := List.replicate 12 false
      fences := List.replicate 8 none
      lanes := List.replicate 8 0
      listeners := List.replicate 10 0
      patterns := List.replicate 4 freshPattern }

/-- The yard as the application of the settings writes it (R198). The stamp and the notice queues run on. -/
def startYard (y : Yard) (im : Image) (st : StartUp) (w d : Bool) : Yard :=
  { freshYard y.freeCount with
    settings := im.settings
    startUp := st
    stamp := y.stamp
    boxes := y.boxes
    rows := freshRows im.settings
    fences := im.fences
    robots := im.enrolled.map fun e => freshRobot e 0 (if e then some im.settings.robotSilence else none)
    rounds := freshRounds (some (im.settings.roundPeriod * 60))
    alerts := { freshAlerts with
      lanes := im.lanes, listeners := im.listeners, lineW := ⟨w, w, false⟩, lineD := ⟨d, d, false⟩ } }

/-- The application of the settings (R198): the watch is judged by the levels as they are found. -/
def applyYard (y : Yard) (im : Image) (st : StartUp) (w d : Bool) : Yard := (startYard y im st w d).judgeWatch

/-- The end of the start-up load: the image is chosen and the settings are applied (R197, R198). -/
def loadEnds (w d : Bool) (s : State) : State :=
  let im := startImage s.loader
  let chosen := s.loader.chooseSlot
  { s with
    yard := applyYard s.yard im (if chosen.isSome then .ready else .unconfigured) w d
    met := { s.met with timer := some im.settings.metSilence, patterns := im.patterns.map fun pt => { pt with runCounter := 0 } }
    accounts := { freshAccounts im.settings with
      timer := some im.settings.interval, intervalLength := im.settings.interval }
    loader := { s.loader with current := chosen, generation := if chosen.isSome then im.generation else 0 } }

/-- Commit Settings taken (R199). -/
def takeCommitSettings (s : State) : State × Reply :=
  (if s.yard.startUp = .unconfigured then { s with yard := { s.yard with startUp := .ready } } else s, .ok [])

end State

/-! ### Fleet Restart (R200, R28, R50, R78, R104) -/

/-- A robot has a PASS order. -/
def Robot.onPass (b : Robot) : Bool :=
  match b.order with
  | some ⟨.pass _ _, _⟩ => true
  | _ => false

namespace Yard

/-- A transfer ends RESTARTED (R78, step 1). -/
def restartTransfer (y : Yard) (t : Transfer) : Yard := judgeHoldoff handQuiet (closeTransfer t .restarted y)

/-- A carriage at a Fleet Restart (R50): STAY where it has an order outstanding, and no task. -/
def restartCarriage (c : Nat) (y : Yard) : Yard :=
  let z := if (y.carriage c).order.isSome then y.orderCarriage c .stay else y
  z.setCarriage c fun w => { w with task := none }

/-- Segments reserved with a tag or NUDGE are released, and every nudge is ended (R78, steps 2 and 3). -/
def restartRail (y : Yard) : Yard :=
  { y with rail := { y.rail with
    nudges := y.rail.nudges.map fun _ => none
    segments := y.rail.segments.map fun v => v.filter fun x => x.cause == .fault } }

/-- A robot at a Fleet Restart (R50). -/
def restartRobot (k : Nat) (y : Yard) : Yard :=
  let z := match (y.robot k).place with
    | .midrow r => if (y.robot k).order.isSome then y.sendHome k r else y
    | _ => if y.enrolled k then y.restRobot k else y
  z.setRobot k fun b => { b with roundLink := none }

/-- The effects of a taken Fleet Restart on the four blocks (R200). -/
def restartFleet (y : Yard) : Yard :=
  let y₁ := (y.overRows fun r z => z.settleClaimed r).emptyList
  let y₂ := y₁.rail.queue.foldl restartTransfer y₁
  let y₃ := judgeHoldoff handQuiet (y₂.overCarriages restartCarriage).restartRail
  y₃.overRobots restartRobot

/-- The three counts of the answer (R200). -/
def restartCounts (y : Yard) : List Byte :=
  [byte y.rail.queue.length, byte (y.carriageList.countP fun c => (y.carriage c).order.isSome),
    byte (y.robots.countP fun b => b.enrolled && Robot.onPass b)]

end Yard

/-- Fleet Restart taken (R200): its effects are those of `restartFleet` alone. No arbiter pass runs in the event (R78), and
no recharge send is tried at its end, since of the eight counters only passes_aborted changes (R104; log 35). An
assignment attempt would find the list empty. -/
def State.takeFleetRestart (s : State) : State × Reply :=
  if s.yard.mild then ({ s with yard := { s.yard.restartFleet with assign := false } }, .ok s.yard.restartCounts)
  else (s, .refuse .state)

/-! ### Meanings -/

/-- WRITE_SETTING (R190). -/
def execWriteSetting (p : Port) (body : List Byte) (s : State) : Host.Outcome State Fault Refusal :=
  .next (s.serve .writeSetting p body (State.takeWriteSetting body))

/-- READ_SETTING (R193). -/
def execReadSetting (p : Port) (body : List Byte) (s : State) : Host.Outcome State Fault Refusal :=
  .next (s.serve .readSetting p body (State.reading (State.readSetting body)))

/-- COMMIT_SETTINGS (R199). -/
def execCommitSettings (p : Port) (body : List Byte) (s : State) : Host.Outcome State Fault Refusal :=
  .next (s.serve .commitSettings p body State.takeCommitSettings)

/-- SAVE_SETTINGS (R196). -/
def execSaveSettings (p : Port) (body : List Byte) (s : State) : Host.Outcome State Fault Refusal :=
  .next (s.serve .saveSettings p body State.takeSaveSettings)

/-- FLEET_RESTART (R200). -/
def execFleetRestart (p : Port) (body : List Byte) (s : State) : Host.Outcome State Fault Refusal :=
  .next (s.serve .fleetRestart p body State.takeFleetRestart)

/-- COLD_RESET (R188). -/
def execColdReset (s : State) : Host.Outcome State Fault Refusal := .next s.coldReset

/-- RESET_RELEASE (R188, R197): RESET_N returns high and the part is in STARTING. -/
def execResetRelease (s : State) : Host.Outcome State Fault Refusal := .next { s with resetN := true }

/-- START_UP_LOAD_END (R197): the load under way ends. -/
def execStartUpLoadEnd (w d : Bool) (s : State) : Host.Outcome State Fault Refusal :=
  .next (if s.resetN && s.yard.startUp == .starting then s.loadEnds w d else s)

/-- SAVE_COMPLETE (R196). -/
def execSaveComplete (good : Bool) (s : State) : Host.Outcome State Fault Refusal := .next (s.endSave good)

/-- SAVE_TIMEOUT (R196): the memory has not completed the write. -/
def execSaveTimeout (s : State) : Host.Outcome State Fault Refusal := .next (s.endSave false)

end Sys2Proof.Machine
end

