-- ==== Sys2Proof/Machine/Dispatch.lean ====
section
/-! DEFINITION. The meaning of each command: one arm per row of spec/opcode_table.json. -/

namespace Sys2Proof.Machine

def exec (i : Instr) (s : State) : Host.Outcome State Fault Refusal :=
  match i with
  | .readStatus p body => Sys2Proof.Machine.execReadStatus p body s
  | .readNotices p body => Sys2Proof.Machine.execReadNotices p body s
  | .raiseAlert p body => Sys2Proof.Machine.execRaiseAlert p body s
  | .readOrders p body => Sys2Proof.Machine.execReadOrders p body s
  | .postureReport p body => Sys2Proof.Machine.execPostureReport p body s
  | .energyReport p body => Sys2Proof.Machine.execEnergyReport p body s
  | .readRows p body => Sys2Proof.Machine.execReadRows p body s
  | .setFence p body => Sys2Proof.Machine.execSetFence p body s
  | .clearFence p body => Sys2Proof.Machine.execClearFence p body s
  | .readFences p body => Sys2Proof.Machine.execReadFences p body s
  | .robotStatus p body => Sys2Proof.Machine.execRobotStatus p body s
  | .orderDone p body => Sys2Proof.Machine.execOrderDone p body s
  | .carriagePosition p body => Sys2Proof.Machine.execCarriagePosition p body s
  | .robotFault p body => Sys2Proof.Machine.execRobotFault p body s
  | .enrollRobot p body => Sys2Proof.Machine.execEnrollRobot p body s
  | .clearRobot p body => Sys2Proof.Machine.execClearRobot p body s
  | .writeOffRobot p body => Sys2Proof.Machine.execWriteOffRobot p body s
  | .clearCarriage p body => Sys2Proof.Machine.execClearCarriage p body s
  | .readFleet p body => Sys2Proof.Machine.execReadFleet p body s
  | .transfer p body => Sys2Proof.Machine.execTransfer p body s
  | .cancelTransfer p body => Sys2Proof.Machine.execCancelTransfer p body s
  | .readTransfers p body => Sys2Proof.Machine.execReadTransfers p body s
  | .roundBuild p body => Sys2Proof.Machine.execRoundBuild p body s
  | .sweep p body => Sys2Proof.Machine.execSweep p body s
  | .plantPass p body => Sys2Proof.Machine.execPlantPass p body s
  | .cancelEntry p body => Sys2Proof.Machine.execCancelEntry p body s
  | .readRounds p body => Sys2Proof.Machine.execReadRounds p body s
  | .setLane p body => Sys2Proof.Machine.execSetLane p body s
  | .setListener p body => Sys2Proof.Machine.execSetListener p body s
  | .testPulse p body => Sys2Proof.Machine.execTestPulse p body s
  | .setPattern p body => Sys2Proof.Machine.execSetPattern p body s
  | .readAlerts p body => Sys2Proof.Machine.execReadAlerts p body s
  | .readMet p body => Sys2Proof.Machine.execReadMet p body s
  | .stowNow p body => Sys2Proof.Machine.execStowNow p body s
  | .release p body => Sys2Proof.Machine.execRelease p body s
  | .readStorm p body => Sys2Proof.Machine.execReadStorm p body s
  | .closePeriod p body => Sys2Proof.Machine.execClosePeriod p body s
  | .readAccount p body => Sys2Proof.Machine.execReadAccount p body s
  | .readRing p body => Sys2Proof.Machine.execReadRing p body s
  | .writeSetting p body => Sys2Proof.Machine.execWriteSetting p body s
  | .readSetting p body => Sys2Proof.Machine.execReadSetting p body s
  | .commitSettings p body => Sys2Proof.Machine.execCommitSettings p body s
  | .saveSettings p body => Sys2Proof.Machine.execSaveSettings p body s
  | .fleetRestart p body => Sys2Proof.Machine.execFleetRestart p body s
  | .unknownKindRequest p kind body => Sys2Proof.Machine.execUnknownKindRequest p kind body s
  | .badLengthFrame p length => Sys2Proof.Machine.execBadLengthFrame p length s
  | .strayByte p b => Sys2Proof.Machine.execStrayByte p b s
  | .frameGapTimeout p => Sys2Proof.Machine.execFrameGapTimeout p s
  | .framingErrorByte p => Sys2Proof.Machine.execFramingErrorByte p s
  | .overrunFrame p => Sys2Proof.Machine.execOverrunFrame p s
  | .answerSent p => Sys2Proof.Machine.execAnswerSent p s
  | .metFrame seq fields check => Sys2Proof.Machine.execMetFrame seq fields check s
  | .metStrayByte b => Sys2Proof.Machine.execMetStrayByte b s
  | .metFrameGap => Sys2Proof.Machine.execMetFrameGap s
  | .metSilenceExpiry => Sys2Proof.Machine.execMetSilenceExpiry s
  | .alarmInputSample w d => Sys2Proof.Machine.execAlarmInputSample w d s
  | .coldReset => Sys2Proof.Machine.execColdReset s
  | .resetRelease => Sys2Proof.Machine.execResetRelease s
  | .startUpLoadEnd w d => Sys2Proof.Machine.execStartUpLoadEnd w d s
  | .saveComplete good => Sys2Proof.Machine.execSaveComplete good s
  | .saveTimeout => Sys2Proof.Machine.execSaveTimeout s
  | .flattenTimerExpiry row => Sys2Proof.Machine.execFlattenTimerExpiry row s
  | .holdTimerExpiry row => Sys2Proof.Machine.execHoldTimerExpiry row s
  | .settleTimerExpiry row => Sys2Proof.Machine.execSettleTimerExpiry row s
  | .stowTimerExpiry row => Sys2Proof.Machine.execStowTimerExpiry row s
  | .minuteEvent => Sys2Proof.Machine.execMinuteEvent s
  | .robotSilenceExpiry robot => Sys2Proof.Machine.execRobotSilenceExpiry robot s
  | .phaseTimerExpiry tag => Sys2Proof.Machine.execPhaseTimerExpiry tag s
  | .nudgeTimerExpiry carriage => Sys2Proof.Machine.execNudgeTimerExpiry carriage s
  | .roundTimerExpiry => Sys2Proof.Machine.execRoundTimerExpiry s
  | .passTimerExpiry robot => Sys2Proof.Machine.execPassTimerExpiry robot s
  | .stretchTimerExpiry line => Sys2Proof.Machine.execStretchTimerExpiry line s
  | .recallDeadlineExpiry => Sys2Proof.Machine.execRecallDeadlineExpiry s
  | .secondEvent => Sys2Proof.Machine.execSecondEvent s
  | .intervalExpiry => Sys2Proof.Machine.execIntervalExpiry s
  | .closeWalkStep => Sys2Proof.Machine.execCloseWalkStep s
  | .failedCheckFrame p kind body check => Sys2Proof.Machine.execFailedCheckFrame p kind body check s

end Sys2Proof.Machine
end

