-- ==== Sys2Proof/Safety.lean ====
section
/-! DEFINITION. The predicates that claims about the part are stated in: when a request is taken, the state after an
answer, and the laws of the manual that every step keeps. -/

namespace Sys2Proof.Machine

/-! ### Requests -/

/-- A request of kind `k` on port `p` is taken (R170, case 7): the part is out of cold reset, the frame is not marked
overrun, and no case of R170 refuses it. -/
def State.takes (s : State) (k : Kind) (p : Port) (body : List Byte) : Prop :=
  s.resetN = true ∧ (s.links.get p).frameMarked = false ∧ requestRefusal s.yard.startUp k p body = none

/-- The port judges frames: the part is out of cold reset and the frame is not marked overrun. -/
def State.judges (s : State) (p : Port) : Prop := s.resetN = true ∧ (s.links.get p).frameMarked = false

/-- The state after port `p` has given an answer (R169). -/
def State.answered (s : State) (p : Port) (kind : Byte) (reply : Reply) : State :=
  s.setLink p fun l => l.answer kind reply

/-- The state with another yard: every other field is as it was. -/
def State.withYard (s : State) (y : Yard) : State := { s with yard := y }

/-- The state after an event of the yard whose own effect leaves `y`: the end of the event follows (R90, R100). -/
def State.afterEvent (s : State) (y : Yard) : State := s.withYard y.finish

/-- No event is in progress: the mark of an assignment event is clear (R90; log 22). -/
def State.between (s : State) : Prop := s.yard.assign = false

/-! ### The limits of the queues -/

/-- The transfer queue holds at most 8 entries (R51). -/
def Yard.queueFits (y : Yard) : Prop := y.rail.queue.length ≤ 8

/-- The round list holds at most 16 entries (R79). -/
def Yard.listFits (y : Yard) : Prop := y.rounds.list.length ≤ 16

/-- No notice queue holds more than 16 notices (R175). -/
def Yard.noticesFit (y : Yard) : Prop := ∀ p, (y.boxes.get p).queue.length ≤ 16

/-! ### The laws of the tables -/

/-- The round list names no row twice (R79). -/
def Yard.listDistinct (y : Yard) : Prop := (y.rounds.list.map (·.row)).Nodup

/-- The custody states in which a row has a holder (R2). -/
def Custody.hasHolder : Custody → Bool
  | .flattening | .open | .exposed => true
  | .track | .settle | .stowPending | .stowed => false

/-- A row has a holder exactly in FLATTENING, OPEN and EXPOSED (R2). -/
def Row.holderFits (w : Row) : Prop := w.holder.isSome = w.custody.hasHolder

/-- Every row has a holder exactly in FLATTENING, OPEN and EXPOSED (R2). -/
def Yard.holdersFit (y : Yard) : Prop := ∀ w ∈ y.rows, w.holderFits

/-- A garage, a dock or a carriage records robot `k` as its occupant only where that is `k`'s place (R29). -/
def Yard.fieldsName (y : Yard) (k : Nat) (pl : Place) : Prop :=
  (∀ r, (y.row r).garageOccupant = some k → pl = .garage r) ∧ (∀ d, (y.dock d).occupant = some k → pl = .dock d) ∧
    ∀ c, (y.carriage c).load = some k → pl = .aboard c

/-- No occupancy field names a robot that is elsewhere, so that no robot appears in two places (R29). -/
def Yard.occupancyTrue (y : Yard) : Prop := ∀ k, k < y.robots.length → y.fieldsName k (y.robot k).place

/-- Among carriages whose position is known, recorded positions strictly increase with carriage index (R33). -/
def Yard.positionsRise (y : Yard) : Prop :=
  ∀ i j p q, i < j → j < y.settings.carriages → (y.carriage i).position = some p → (y.carriage j).position = some q →
    p < q

/-- No carriage's recorded position lies inside a segment reserved to another carriage (R58). -/
def Yard.positionsFree (y : Yard) : Prop :=
  ∀ i p, i < y.settings.carriages → (y.carriage i).position = some p → y.inOthersSegment i p = false

/-- Every segment from position `p` to position `q` is reserved to carriage `c` (R58, R59). -/
def Yard.holdsWay (y : Yard) (c p q : Nat) : Prop :=
  ∀ s, segmentOf (min p q) ≤ s → s ≤ segmentOf (max p q) → s < y.rail.segments.length →
    ∃ cause, y.reservation s = some ⟨c, cause⟩

/-- What carriage `c` is at work on (R33, R51, R63, R65): a GOTO in force goes from its recorded position over segments of
its own; a transfer that is its task is in the queue, is its own, has begun, and has its destination in reach over segments
of its own; and a task has an order, other than STAY. -/
def Yard.carriageFits (y : Yard) (c : Nat) : Prop :=
  (∀ x serial, (y.carriage c).order = some ⟨.goto x, serial⟩ →
    ∃ p, (y.carriage c).position = some p ∧ y.holdsWay c p x) ∧
  (∀ tag, (y.carriage c).task = some (.transfer tag) → ∃ t ∈ y.rail.queue, t.tag = tag ∧ t.carriage = some c ∧
    t.phase ≠ .waiting ∧ ∃ p, (y.carriage c).position = some p ∧ y.holdsWay c p (y.destinationPosition t)) ∧
  ((y.carriage c).task.isSome = true → ∃ o, (y.carriage c).order = some o ∧ o.kind ≠ .stay)

/-- The law of the rail: the rows and the recorded positions lie on it (R33, R58), a carriage that the settings do not give
has neither position nor task (R33), no two entries of the queue have one tag (R51), their destinations are garages or docks
(R53), and every carriage's work fits. -/
structure Yard.railFits (y : Yard) : Prop where
  rowsOnRail : y.settings.rows ≤ 192 ∧ y.rows.length ≤ 8 * y.rail.segments.length
  positionsOnRail : ∀ c p, (y.carriage c).position = some p → segmentOf p < y.rail.segments.length
  carriagesAbsent : ∀ c, y.settings.carriages ≤ c → (y.carriage c).position = none ∧ (y.carriage c).task = none
  tagsDistinct : (y.rail.queue.map (·.tag)).Nodup
  destinationsFixed : ∀ t ∈ y.rail.queue, ∀ c, t.destination ≠ .aboard c
  carriagesFit : ∀ c, y.carriageFits c

/-! ### The sums of an account (R145, R146) -/

/-- The class losses sum to the loss total, the interval count is the reported plus the missing, and no counter is above
its top. -/
def Period.whole (p : Period) : Prop :=
  p.loss.total = p.lossTotal ∧ p.lossTotal ≤ energyTop ∧ p.expectedWh ≤ energyTop ∧ p.actualWh ≤ energyTop ∧
    p.intervals = p.reported + p.missing ∧ p.intervals ≤ 65535 ∧ p.lateReports ≤ 65535

/-- The current period and the snapshot are whole, and the ring holds at most 16 records (R156). -/
def RowAccount.whole (a : RowAccount) : Prop := a.period.whole ∧ a.snapshot.whole ∧ a.ring.length ≤ 16

/-- Every row's account is whole. -/
def Accounts.whole (a : Accounts) : Prop := ∀ x ∈ a.rows, x.whole

/-! ### The settings (R189, R190) -/

/-- Every setting lies in its range and the cross-limits hold. -/
def Settings.legal (st : Settings) : Prop :=
  (∀ code ∈ settingCodes, st.inRange code (st.value code) = true) ∧ st.crossLimits = true

end Sys2Proof.Machine
end

