-- ==== Sys2Proof/Certificates/Slice0/Obligations.lean ====
section
/-! DEFINITION. The statements for the provers. A statement about a command's effect is an equation: `exec` of the command
answers exactly the state written out, so that whatever the equation does not name is unchanged. Where an effect is
followed by the assignment attempt of its event (R90, R100), the equation says `finish` of the yard it leaves. -/

open Sys2Proof Sys2Proof.Machine

/-! ### The queue, the ports, the answers -/

/-- A step takes the command at the front of the queue and runs it with the queue's rest. -/
def Obligations.StepRunsFront : Prop :=
  ∀ (c : Instr) (rest : List Instr) (s : State),
    step { s with pending := c :: rest } = exec c { s with pending := rest }

/-- Cases 4 to 6 of R170 answer a request frame and change no state beyond the link; a request that none of them refuses is
taken, in the start-up states that R174 gives. -/
def Obligations.RequestsRefused : Prop :=
  ∀ (k : Kind) (p : Port) (body : List Byte) (s : State), s.judges p →
    (body.length ≠ k.bodyLength → exec (k.command p body) s = .next (s.answered p k.code (.plain .malformed))) ∧
    (body.length = k.bodyLength → k.permitted p = false →
      exec (k.command p body) s = .next (s.answered p k.code (.plain .notPermitted))) ∧
    (body.length = k.bodyLength → k.permitted p = true → s.yard.startUp = .starting → k ≠ .readStatus →
      exec (k.command p body) s = .next (s.answered p k.code (.plain .starting))) ∧
    (body.length = k.bodyLength → k.permitted p = true → s.yard.startUp = .unconfigured →
      k.takenUnconfigured p = false →
      exec (k.command p body) s = .next (s.answered p k.code (.plain .unconfigured))) ∧
    (s.takes k p body ↔ body.length = k.bodyLength ∧ k.permitted p = true ∧
      (s.yard.startUp = .ready ∨ (s.yard.startUp = .starting ∧ k = .readStatus) ∨
        (s.yard.startUp = .unconfigured ∧ k.takenUnconfigured p = true)))

/-- Cases 1 to 3 of R170: a frame of bad length is answered MALFORMED with kind 0, a frame whose check fails is answered
MALFORMED, a kind that the catalogue does not name is answered NOT_PERMITTED; nothing else changes. -/
def Obligations.FramesWithoutRequest : Prop :=
  ∀ (p : Port) (kind : Byte) (body : List Byte) (check : Word) (length : Byte) (s : State), s.judges p →
    exec (.badLengthFrame p length) s = .next (s.answered p 0 (.plain .malformed)) ∧
    exec (.failedCheckFrame p kind body check) s = .next (s.answered p kind (.plain .malformed)) ∧
    exec (.unknownKindRequest p kind body) s = .next (s.answered p kind (.plain .notPermitted))

/-- An answer is given on its own port: the receiver hunts, the transmitter sends the answer, malformed is counted for a
MALFORMED answer alone, and no other counter changes (R169, R171). A request on one port changes no other port's link: neither
its receiver, nor its transmitter, nor its counters. -/
def Obligations.AnswersOnTheirPort : Prop :=
  (∀ (s : State) (p : Port) (kind : Byte) (reply : Reply),
    (s.answered p kind reply).links.get p =
      ⟨.hunting, .sending ⟨kind, reply⟩, (s.links.get p).strayBytes, (s.links.get p).truncated,
        if reply.status = .malformed then bump (s.links.get p).malformed else (s.links.get p).malformed,
        (s.links.get p).overrun⟩ ∧
    (s.answered p kind reply).yard = s.yard ∧ (s.answered p kind reply).met = s.met ∧
    (s.answered p kind reply).accounts = s.accounts ∧ (s.answered p kind reply).loader = s.loader ∧
    (s.answered p kind reply).pending = s.pending) ∧
  ∀ (k : Kind) (p q : Port) (body : List Byte) (s t : State), q ≠ p →
    exec (k.command p body) s = .next t → t.links.get q = s.links.get q

/-- A frame marked overrun is discarded however it ends: it is counted in overrun and in no other counter, it is given no
answer, and its request is not taken.
That the mark is kept with the receiver, and that a whole frame is one command, is the model's choice (logs 1 and 2). -/
def Obligations.OverrunDiscarded : Prop :=
  ∀ (p : Port) (s : State), s.resetN = true →
    let lost := s.setLink p fun l => { l with receiver := .hunting, overrun := bump l.overrun }
    exec (.overrunFrame p) s = .next lost ∧
    ((s.links.get p).frameMarked = true →
      (∀ (k : Kind) (body : List Byte), exec (k.command p body) s = .next lost) ∧
      (∀ (kind : Byte) (body : List Byte), exec (.unknownKindRequest p kind body) s = .next lost) ∧
      (∀ (kind : Byte) (body : List Byte) (check : Word), exec (.failedCheckFrame p kind body check) s = .next lost) ∧
      (∀ length : Byte, exec (.badLengthFrame p length) s = .next lost) ∧
      exec (.frameGapTimeout p) s = .next lost ∧ exec (.framingErrorByte p) s = .next lost)

/-- The other events of a link (R168, R169): a byte outside a frame is counted as stray unless it is A5h, which begins a
frame, marked where the transmitter is SENDING; a gap or a framing error discards the frame and counts it in truncated;
the transmitter returns to IDLE when its answer is sent.
That a byte A5h given to a hunting receiver begins a frame by itself is the model's choice (log 3). -/
def Obligations.LinkEvents : Prop :=
  ∀ (p : Port) (s : State), s.resetN = true →
    (∀ b : Byte, (s.links.get p).receiver = .hunting → b ≠ 0xA5 →
      exec (.strayByte p b) s = .next (s.setLink p fun l => { l with strayBytes := bump l.strayBytes })) ∧
    ((s.links.get p).receiver = .hunting →
      exec (.strayByte p 0xA5) s =
        .next (s.setLink p fun l => { l with receiver := .receiving l.transmitter.isSending })) ∧
    ((s.links.get p).frameMarked = false →
      exec (.frameGapTimeout p) s =
        .next (s.setLink p fun l => { l with receiver := .hunting, truncated := bump l.truncated }) ∧
      exec (.framingErrorByte p) s =
        .next (s.setLink p fun l => { l with receiver := .hunting, truncated := bump l.truncated })) ∧
    exec (.answerSent p) s = .next (s.setLink p fun l => { l with transmitter := .idle })

/-- The frame of every request, of every body a frame can carry, is read back as that request. -/
def Obligations.FrameReadBack : Prop :=
  ∀ (k : Kind) (p : Port) (body : List Byte), body.length ≤ 40 →
    frameCommand p (requestFrame k.code body) = some (k.command p body)

/-- Read Status taken: the answer carries the items of R180, and then the port's notices_lost and its four link counters are
0, its notices kept, and the other ports left as they are.
The bytes of the items are the model's where R184 lists no code (logs 11 and 15). -/
def Obligations.ReadStatusTaken : Prop :=
  ∀ (p : Port) (body : List Byte) (s : State), s.takes .readStatus p body →
    exec (.readStatus p body) s =
      .next ({ s with
        yard := { s.yard with boxes := s.yard.boxes.set p ⟨(s.yard.boxes.get p).queue, 0⟩ }
        links := s.links.set p ⟨(s.links.get p).receiver, (s.links.get p).transmitter, 0, 0, 0, 0⟩ }.answered p 0x01
          (.ok (s.statusBody p)))

/-- Read Notices (R178): a maximum count of 1 to 4 removes that many of the oldest records, or all of them where there are
fewer, and returns them, oldest first, with the number returned and the number left; another count is refused. -/
def Obligations.ReadNoticesTaken : Prop :=
  ∀ (p : Port) (body : List Byte) (s : State), s.takes .readNotices p body →
    let most := byteAt body 0
    let queue := (s.yard.boxes.get p).queue
    let n := min most queue.length
    (most = 0 ∨ 4 < most → exec (.readNotices p body) s = .next (s.answered p 0x02 (.refuse .range))) ∧
    (1 ≤ most → most ≤ 4 →
      exec (.readNotices p body) s =
        .next ((s.withYard ({ s.yard with
            boxes := s.yard.boxes.set p ⟨queue.drop n, (s.yard.boxes.get p).lost⟩ })).answered p 0x02
          (.ok ([byte n, byte (queue.length - n)] ++ ((queue.take n).map Notice.bytes).flatten))))

/-- A notice given to a port's queue is appended with the present stamp while the queue holds fewer than 16 records, else it is
lost and counted; no other port's queue changes (R175, R176). A port's attention line is high exactly while its queue is not
empty, or, while the part is READY, an order is pending for the port (R179). -/
def Obligations.NoticesAndAttention : Prop :=
  (∀ (y : Yard) (p : Port) (kind : NoticeKind) (subject : Nat × Nat × Nat) (detail : Nat),
    let box := y.boxes.get p
    (box.queue.length < 16 →
      (y.notify p kind subject detail).boxes.get p = ⟨box.queue ++ [⟨kind, subject, detail, y.stamp⟩], box.lost⟩) ∧
    (16 ≤ box.queue.length → (y.notify p kind subject detail).boxes.get p = ⟨box.queue, min (box.lost + 1) 65535⟩) ∧
    ∀ q, q ≠ p → (y.notify p kind subject detail).boxes.get q = y.boxes.get q) ∧
  ∀ y : Yard,
    (y.attention .plant = true ↔ y.boxes.plant.queue ≠ []) ∧
    (y.attention .tracker = true ↔ y.boxes.tracker.queue ≠ [] ∨
      (y.startUp = .ready ∧ ∃ r, r < y.rows.length ∧ y.rowOrderPending r = true)) ∧
    (y.attention .fleet = true ↔ y.boxes.fleet.queue ≠ [] ∨
      (y.startUp = .ready ∧ ((∃ b ∈ y.robots, b.enrolled = true ∧ b.order.isSome = true) ∨
        ∃ c, c < y.settings.carriages ∧ (y.carriage c).order.isSome = true)))

/-- No notice queue holds more than 16 notices, the transfer queue holds at most 8 entries, and the round list at most 16 and no
row twice: every step keeps these laws (R175, R51, R79). Every step keeps the law that a row has a holder exactly in
FLATTENING, OPEN and EXPOSED (R2), and that an occupancy field names a robot only at that robot's place, so that no robot
appears in two places (R29). Every step keeps the laws of the rail together: known positions rise with the carriage index
(R33), no carriage stands in a segment reserved to another (R58), tags are distinct (R51), and a GOTO in force goes, and a
transfer begun has its destination, over segments of the carriage's own (R59, R63, R65). -/
def Obligations.QueuesFitKept : Prop :=
  ∀ s t : State, step s = .next t →
    (s.yard.noticesFit → t.yard.noticesFit) ∧ (s.yard.queueFits → t.yard.queueFits) ∧
    (s.yard.listFits → t.yard.listFits) ∧ (s.yard.listDistinct → t.yard.listDistinct) ∧
    (s.yard.holdersFit → t.yard.holdersFit) ∧
    (s.yard.occupancyTrue → t.yard.occupancyTrue) ∧
    (s.yard.railFits → s.yard.positionsRise → s.yard.positionsFree →
      t.yard.railFits ∧ t.yard.positionsRise ∧ t.yard.positionsFree)

/-! ### Reading -/

/-- Eight reading requests change nothing but the link of their port. In range, and with no close walk in flight for Read
Account and Read Ring, the answer is OK with the items of the request's rule: Read Orders searches after the cursor to the
end, then from 0 up to the cursor, each once, and gives the first eight rows with a pending order and their wanted posture
(R6), or the first eight fleet subjects with an order, their kind, serial and parameters (R36); Read Rows gives up to eight
rows, the fenced and unconfirmed flags, and a word of 56 bits for each (R7, R187); Read Fences, Read Transfers, Read
Alerts, Read Account, Read Ring and Read Setting give theirs (R16, R52, R115, R164, R157, R193). A selector out of range is
refused RANGE; Read Account and Read Ring in range are BUSY while a close walk is in flight, RANGE judged first by the
model's choice (log 42). The bytes of Read Fences, Read Account, Read Transfers and Read Alerts are the model's layout
where R184 lists no code or no width: the mark of an empty item (log 14) and the widths of counts, sources and selections
(log 15). -/
def Obligations.ReadsChangeNothing : Prop :=
  (∀ (p : Port) (body : List Byte) (s : State),
    let a := byteAt body 0
    let b := byteAt body 1
    let y := s.yard
    let rows := y.rows.length
    let after := fun last : Nat => (List.range' (a + 1) (last - a)) ++ List.range (a + 1)
    let answer := fun (kind : Byte) (reply : Reply) => Host.Outcome.next (s.answered p kind reply)
    let flags := fun (n : Nat) (flag : Nat → Bool) => byte ((List.range n).map fun i => if flag (a + i) then 2 ^ i else 0).sum
    (s.takes .readOrders p body → p = .tracker →
      (a < rows →
        let found := ((after (rows - 1)).filter y.rowOrderPending).take 8
        exec (.readOrders p body) s = answer 0x10
          (.ok (byte found.length :: (found.map fun r => [byte r, byte (y.row r).custody.wanted.code]).flatten))) ∧
      (rows ≤ a → exec (.readOrders p body) s = answer 0x10 (.refuse .range))) ∧
    (s.takes .readOrders p body → p ≠ .tracker →
      (a ≤ 14 →
        let item := fun n : Nat =>
          if n < 12 then if y.enrolled n then (y.robot n).order.map fun o => match o.kind with
              | .pass r kind => [byte n, 1, byte o.serial, byte r, byte kind.code, 0]
              | .toGarage r => [byte n, 2, byte o.serial, byte r, 0, 0]
            else none
          else if n - 12 < y.settings.carriages then (y.carriage (n - 12)).order.map fun o => match o.kind with
              | .goto x => [byte n, 3, byte o.serial, byte x, 0, 0]
              | .board k => [byte n, 4, byte o.serial, byte k, 0, 0]
              | .alight k pl => [byte n, 5, byte o.serial, byte k] ++ placeBytes pl
              | .stay => [byte n, 6, byte o.serial, 0, 0, 0]
            else none
        let found := ((after 14).filterMap item).take 8
        exec (.readOrders p body) s = answer 0x10 (.ok (byte found.length :: found.flatten))) ∧
      (14 < a → exec (.readOrders p body) s = answer 0x10 (.refuse .range))) ∧
    (s.takes .readRows p body →
      (a < rows →
        let n := min 8 (rows - a)
        exec (.readRows p body) s = answer 0x13 (.ok ([byte n, byte a, flags n y.fenced,
          flags n fun r => (y.row r).unconfirmed] ++ ((List.range n).map fun i => y.rowSummary (a + i)).flatten))) ∧
      (rows ≤ a → exec (.readRows p body) s = answer 0x13 (.refuse .range))) ∧
    (s.takes .readFences p body → exec (.readFences p body) s = answer 0x16 (.ok (y.fences.map fun f => match f with
      | some (first, last) => [byte first, byte last]
      | none => [0xFF, 0xFF]).flatten)) ∧
    (s.takes .readTransfers p body →
      let entries := fun first : Nat => answer 0x32
        (.ok (byte y.rail.queue.length :: ((List.range 4).map fun i => y.queueItem (first + i)).flatten))
      (a = 0 → exec (.readTransfers p body) s = entries 0) ∧
      (a = 1 → exec (.readTransfers p body) s = entries 4) ∧
      (a = 2 → exec (.readTransfers p body) s = answer 0x32 (.ok ((y.rail.segments.map reservationBytes).flatten ++
        ((List.range y.settings.carriages).map fun c => match y.rail.nudges.getD c none with
          | some x => byte x.target :: twoBytes x.timer
          | none => [0xFF, 0, 0]).flatten ++ [flagByte y.rail.holdoff, byte y.rail.tagCounter]))) ∧
      (2 < a → exec (.readTransfers p body) s = answer 0x32 (.refuse .range))) ∧
    (s.takes .readAlerts p body → exec (.readAlerts p body) s = answer 0x54 (.ok (
      ((List.range 8).map fun l => [byte (y.laneSource l), flagByte (y.laneLevel l)]).flatten ++
      ((List.range 10).map fun i => [byte (y.selection i), flagByte (y.seen i)]).flatten ++
      [flagByte (y.outLevel .a), flagByte y.alerts.stretchA, flagByte (y.outLevel .b), flagByte y.alerts.stretchB,
        flagByte y.alerts.lineW.level, flagByte y.alerts.lineD.level,
        flagByte y.alerts.lineW.sample, flagByte y.alerts.lineD.sample]))) ∧
    (s.takes .readAccount p body →
      (a < rows → b ≤ 2 → s.accounts.walk = none →
        let x := s.accounts.row a
        let absent : List Byte := [1]
        exec (.readAccount p body) s = answer 0x71 (.ok (
          if b = 0 then twoBytes s.accounts.periodNumber ++ State.periodBytes x.period
          else if b = 1 then (match x.snapshotOf with | some n => twoBytes n | none => absent) ++ State.periodBytes x.snapshot
          else twoBytes s.accounts.seq ++ timerBytes s.accounts.timer ++ State.gatheredBytes x.gathering ++
            (match x.pending with | some g => State.gatheredBytes g | none => absent) ++ [byte (y.rowClass a).code]))) ∧
      (a < rows → b ≤ 2 → s.accounts.walk ≠ none → exec (.readAccount p body) s = answer 0x71 (.plain .busy)) ∧
      (rows ≤ a ∨ 2 < b → exec (.readAccount p body) s = answer 0x71 (.refuse .range))) ∧
    (s.takes .readRing p body →
      (a < rows → b ≤ 15 → s.accounts.walk = none →
        let ring := (s.accounts.row a).ring
        exec (.readRing p body) s = answer 0x72
          (.ok (byte ring.length :: (((ring.drop b).take 6).map State.ringBytes).flatten))) ∧
      (a < rows → b ≤ 15 → s.accounts.walk ≠ none → exec (.readRing p body) s = answer 0x72 (.plain .busy)) ∧
      (rows ≤ a ∨ 15 < b → exec (.readRing p body) s = answer 0x72 (.refuse .range))) ∧
    (s.takes .readSetting p body →
      (∀ v, s.codeValue a = some v → exec (.readSetting p body) s =
        answer 0x81 (.ok ([byte a] ++ twoBytes v ++ [if 1 ≤ a ∧ a ≤ 8 then 1 else 0]))) ∧
      (s.codeValue a = none → exec (.readSetting p body) s = answer 0x81 (.refuse .range)))) ∧
  (∀ s : State,
    (∀ code, s.codeValue code = none ↔ ¬((1 ≤ code ∧ code ≤ 0x08) ∨ (0x10 ≤ code ∧ code ≤ 0x19) ∨
      (0x20 ≤ code ∧ code ≤ 0x2B) ∨ (0x30 ≤ code ∧ code ≤ 0x32))) ∧
    s.codeValue 0x31 = some s.loader.generation ∧ s.codeValue 0x32 = some (s.loader.current.getD 65535)) ∧
  (∀ (y : Yard) (r : Nat),
    let w := y.row r
    let k := w.holder.getD 0
    let garage := match w.garageReserved, w.garageOccupant with
      | some tag, _ => tag
      | none, some j => 256 + j
      | none, none => 511
    let custody := match w.custody with
      | .track => 0
      | .settle => 1
      | .stowPending => 2
      | .stowed => 3
      | .flattening => 4 + k
      | .open => if y.heldOpen r then 28 + k else 16 + k
      | .exposed => 40 + k
    let word := custody % 64 * 2 ^ 50 + w.reported.code * 2 ^ 47 + garage % 512 * 2 ^ 38 + w.age % 65536 * 2 ^ 22 +
      w.soiling.getD 1023 % 1024 * 2 ^ 12 + w.timer.getD 0 % 4096
    y.rowSummary r = [6, 5, 4, 3, 2, 1, 0].map fun i => byte (word / 256 ^ i)) ∧
  ∀ (y : Yard) (i : Nat),
    (y.rail.queue.length ≤ i → y.queueItem i = List.replicate 14 0xFF) ∧
    ∀ t, y.rail.queue[i]? = some t → y.queueItem i = [byte t.tag, byte (t.origin.code * 16 + t.purpose.code), byte t.robot] ++
      placeBytes t.source ++ placeBytes t.destination ++ [byte t.phase.code, optByte t.carriage] ++ spanBytes t.span ++
      timerBytes t.phaseTimer ++ [optByte t.roundLink]

/-- Four reading requests answer OK with the items of their part as they stand, and clear the counters of the part that holds
them where it is read on the plant port, after the answer has been formed; read elsewhere, or in another part, they change
nothing but the link, and a part above 2 is refused (R48, R102, R121, R140).
The bytes are the model's layout where R184 lists no code or no width (logs 12, 13, 14 and 15), the packing of a pattern
entry in the answer among them (log 15), and so is the order of the seven custody counts of Read Storm (log 46). -/
def Obligations.ReadsThatClear : Prop :=
  ∀ (p : Port) (body : List Byte) (s : State),
    let a := byteAt body 0
    let y := s.yard
    let robots := fun first : Nat => ((List.range 6).map fun k => Yard.robotBytes (y.robot (k + first))).flatten
    let entries := fun first : Nat =>
      byte y.rounds.list.length :: ((List.range 8).map fun i => y.entryItem (i + first)).flatten
    (s.takes .readFleet p body →
      (a = 0 → exec (.readFleet p body) s = .next (s.answered p 0x28 (.ok (robots 0)))) ∧
      (a = 1 → exec (.readFleet p body) s = .next (s.answered p 0x28 (.ok (robots 6)))) ∧
      (a = 2 → exec (.readFleet p body) s =
        .next ((s.withYard (if p = Port.plant then { y with staleReports := 0, refusedReports := 0 } else y)).answered p 0x28
          (.ok (((List.range y.settings.carriages).map y.carriageBytes).flatten ++
            ((List.range y.settings.docks).map y.dockBytes).flatten ++
            twoBytes y.staleReports ++ twoBytes y.refusedReports)))) ∧
      (2 < a → exec (.readFleet p body) s = .next (s.answered p 0x28 (.refuse .range)))) ∧
    (s.takes .readRounds p body →
      (a = 0 → exec (.readRounds p body) s = .next (s.answered p 0x44 (.ok (entries 0)))) ∧
      (a = 1 → exec (.readRounds p body) s = .next (s.answered p 0x44 (.ok (entries 8)))) ∧
      (a = 2 → exec (.readRounds p body) s =
        .next ((s.withYard (if p = Port.plant then
            { y with rounds := { y.rounds with counters := ⟨0, 0, 0, 0, 0, 0, 0, 0⟩ } }
          else y)).answered p 0x44 (.ok y.schedulerBytes))) ∧
      (2 < a → exec (.readRounds p body) s = .next (s.answered p 0x44 (.refuse .range)))) ∧
    (s.takes .readMet p body →
      (a = 0 → exec (.readMet p body) s =
        .next ({ s with met := if p = Port.plant then { s.met with counters := ⟨0, 0, 0, 0, 0, 0⟩ }
          else s.met }.answered p 0x55 (.ok s.metBytes))) ∧
      (a = 1 → exec (.readMet p body) s = .next (s.answered p 0x55 (.ok (s.patternPair 0)))) ∧
      (a = 2 → exec (.readMet p body) s = .next (s.answered p 0x55 (.ok (s.patternPair 2)))) ∧
      (2 < a → exec (.readMet p body) s = .next (s.answered p 0x55 (.refuse .range)))) ∧
    (s.takes .readStorm p body → exec (.readStorm p body) s =
      .next ((s.withYard (if p = Port.plant then { y with storm := { y.storm with counters := ⟨0, 0, 0, 0⟩ } }
        else y)).answered p 0x62 (.ok y.stormBytes)))

/-! ### Rows -/

/-- The wanted posture follows from custody, the matching pairs are four, and a row's order is pending exactly while its
reported posture does not match (R3). -/
def Obligations.WantedPosture : Prop :=
  (Custody.track.wanted = .free ∧ Custody.settle.wanted = .free ∧ Custody.flattening.wanted = .flat ∧
    Custody.open.wanted = .flat ∧ Custody.stowPending.wanted = .stow ∧ Custody.stowed.wanted = .stow ∧
    Custody.exposed.wanted = .hold) ∧
  (∀ (p : Posture) (w : Wanted), p.meets w = true ↔
    (w = .free ∧ p = .tracking) ∨ (w = .flat ∧ p = .flat) ∨ (w = .stow ∧ p = .stowed) ∨ (w = .hold ∧ p = .flat)) ∧
  ∀ (y : Yard) (r : Nat), y.rowOrderPending r = true ↔
    (y.row r).reported.meets (y.row r).custody.wanted = false

/-- Posture Reports (R5, R9, R18, R21). A report of a row that exists updates its reported posture, and further: FLAT for a row
in FLATTENING opens it and gives its entry's robot the PASS order in the same event; STOWED for a row in STOW_PENDING
completes the stow, and the all-stowed condition is judged; STOWED for a row in STOWED clears unconfirmed; FAULT removes the
row's entry, and where the row is FLATTENING or held open it goes to SETTLE, and where its holder is on the table with a
PASS in force the robot is sent home; where the holder on the table has no PASS in force, and so where its order is
TO_GARAGE, the row stays OPEN with its holder and the order stands. UNKNOWN, another value, or a row of ROWS or more is
refused and changes nothing. -/
def Obligations.PostureReportTaken : Prop :=
  ∀ (p : Port) (body : List Byte) (s : State), s.takes .postureReport p body → s.between →
    let r := byteAt body 0
    let v := byteAt body 1
    let custody := (s.yard.row r).custody
    let told := fun x : Posture => s.yard.setRow r fun w => { w with reported := x }
    (r < s.yard.rows.length →
      (v = 1 → exec (.postureReport p body) s = .next ((s.withYard (told .tracking)).answered p 0x11 (.ok []))) ∧
      (v = 2 → custody ≠ .flattening →
        exec (.postureReport p body) s = .next ((s.withYard (told .flat)).answered p 0x11 (.ok []))) ∧
      (v = 2 → custody = .flattening →
        ∀ (k : Nat) (kind : PassKind) (o : EntryOrigin) (st : Stage), s.yard.entryOf r = some ⟨r, kind, o, some k, st⟩ →
        let opened := s.yard.setRow r fun w => { w with reported := .flat, custody := .open, timer := none }
        let given := (opened.givePass k r kind).setEntry r fun e => { e with stage := .passing }
        exec (.postureReport p body) s = .next ((s.afterEvent given).answered p 0x11 (.ok []))) ∧
      (v = 3 → custody = .stowPending →
        let stowed := s.yard.setRow r fun w =>
          { w with reported := .stowed, custody := .stowed, timer := none, unconfirmed := false }
        exec (.postureReport p body) s = .next ((s.afterEvent stowed.judgeAllStowed).answered p 0x11 (.ok []))) ∧
      (v = 3 → custody = .stowed → exec (.postureReport p body) s =
        .next ((s.withYard (s.yard.setRow r fun w => { w with reported := .stowed, unconfirmed := false })).answered
          p 0x11 (.ok []))) ∧
      (v = 3 → custody ≠ .stowPending → custody ≠ .stowed →
        exec (.postureReport p body) s = .next ((s.withYard (told .stowed)).answered p 0x11 (.ok []))) ∧
      (v = 4 → custody ≠ .flattening → custody ≠ .open → exec (.postureReport p body) s =
        .next ((s.afterEvent ((told .fault).removeEntry r)).answered p 0x11 (.ok []))) ∧
      (v = 4 → custody = .flattening ∨ s.yard.heldOpen r = true →
        let settled := (told .fault).setRow r fun w =>
          { w with custody := .settle, holder := none, timer := some s.yard.settings.settleTime }
        exec (.postureReport p body) s = .next ((s.afterEvent (settled.removeEntry r)).answered p 0x11 (.ok []))) ∧
      (v = 4 → s.yard.onTable r = true → ∀ (k q : Nat) (kind : PassKind) (serial : Nat),
        (s.yard.row r).holder = some k → (s.yard.robot k).order = some ⟨.pass q kind, serial⟩ →
        exec (.postureReport p body) s =
          .next ((s.afterEvent (((told .fault).sendHome k r).removeEntry r)).answered p 0x11 (.ok []))) ∧
      (v = 4 → s.yard.onTable r = true → ∀ k, (s.yard.row r).holder = some k →
        (∀ q kind serial, (s.yard.robot k).order ≠ some ⟨.pass q kind, serial⟩) →
        let left := (told .fault).removeEntry r
        exec (.postureReport p body) s = .next ((s.afterEvent left).answered p 0x11 (.ok [])) ∧
          left.row r = { s.yard.row r with reported := .fault } ∧ (left.row r).custody = .open ∧
          (left.robot k).order = (s.yard.robot k).order ∧ left.entryOf r = none)) ∧
    (v = 0 ∨ 4 < v ∨ s.yard.rows.length ≤ r →
      exec (.postureReport p body) s = .next (s.answered p 0x11 (.refuse .range)))

/-- Set Fence replaces the range and handles each row it newly bars; Clear Fence empties the range and changes nothing
else; an index above 7 or a range outside the rows is refused (R16). A row that a Set Fence newly bars loses its round-list
entry; where it is FLATTENING or held open it goes to SETTLE with its holder cleared and its settle timer started, and in
any other custody its record is unchanged (R17). A row is barred exactly where a fence range covers it or its reported
posture is FAULT (R16, R5); an OPEN row is held open while its holder is in its garage, and on the table while its holder
is on its table (R2). -/
def Obligations.FencesTaken : Prop :=
  (∀ (p : Port) (body : List Byte) (s : State), s.between →
    let i := byteAt body 0
    let first := byteAt body 1
    let last := byteAt body 2
    (s.takes .setFence p body → i ≤ 7 → first ≤ last → last < s.yard.rows.length →
      let fenced := { s.yard with fences := s.yard.fences.set i (some (first, last)) }
      exec (.setFence p body) s =
        .next ((s.afterEvent (fenced.overRows (Yard.barByFence s.yard))).answered p 0x14 (.ok []))) ∧
    (s.takes .setFence p body → 7 < i ∨ last < first ∨ s.yard.rows.length ≤ last →
      exec (.setFence p body) s = .next (s.answered p 0x14 (.refuse .range))) ∧
    (s.takes .clearFence p body → i ≤ 7 →
      exec (.clearFence p body) s =
        .next ((s.withYard { s.yard with fences := s.yard.fences.set i none }).answered p 0x15 (.ok []))) ∧
    (s.takes .clearFence p body → 7 < i →
      exec (.clearFence p body) s = .next (s.answered p 0x15 (.refuse .range)))) ∧
  (∀ (before y : Yard) (r : Nat), r < y.rows.length → y.barred r = true → before.barred r = false →
    ((y.row r).custody = .flattening ∨ y.heldOpen r = true →
      (Yard.barByFence before r y).row r =
        { y.row r with custody := .settle, holder := none, timer := some y.settings.settleTime }) ∧
    ((y.row r).custody ≠ .flattening → y.heldOpen r = false → (Yard.barByFence before r y).row r = y.row r) ∧
    (Yard.barByFence before r y).entryOf r = none ∧
    ∀ q, q ≠ r → (Yard.barByFence before r y).row q = y.row q) ∧
  ∀ (y : Yard) (r : Nat),
    (y.barred r = true ↔ (∃ first last, some (first, last) ∈ y.fences ∧ first ≤ r ∧ r ≤ last) ∨
      (y.row r).reported = .fault) ∧
    (y.heldOpen r = true ↔ (y.row r).custody = .open ∧ ∃ k, (y.row r).holder = some k ∧ (y.robot k).place = .garage r) ∧
    (y.onTable r = true ↔ (y.row r).custody = .open ∧ ∃ k, (y.row r).holder = some k ∧ (y.robot k).place = .midrow r)

/-- The five events of the rows' own time: the four expiries, each for a row whose timer runs (R10, R13, R15, R21), and the
minute event, which ages every row whether or not a timer runs (R26).
That STOW_UNCONFIRMED is given before the all-stowed condition is judged is the model's choice (log 37).
That an expiry is taken whenever its timer runs is the model's reading (log 6). -/
def Obligations.RowTimerExpiries : Prop :=
  ∀ (r : Nat) (s : State), s.running = true → s.between →
    let settled := s.yard.setRow r fun w =>
      { w with custody := .settle, holder := none, timer := some s.yard.settings.settleTime }
    ((s.yard.row r).timer.isSome = true → (s.yard.row r).custody = .flattening →
      let told := settled.notify .plant .flattenTimeout (r, 0, 0) ((s.yard.row r).holder.getD 255)
      exec (.flattenTimerExpiry r) s = .next (s.afterEvent (told.removeEntry r))) ∧
    ((s.yard.row r).timer.isSome = true → s.yard.heldOpen r = true →
      exec (.holdTimerExpiry r) s = .next (s.afterEvent settled)) ∧
    ((s.yard.row r).timer.isSome = true → (s.yard.row r).custody = .settle →
      let tracking := s.yard.setRow r fun w => { w with custody := .track, timer := none }
      exec (.settleTimerExpiry r) s = .next (s.afterEvent tracking.giveAssign)) ∧
    ((s.yard.row r).timer.isSome = true → (s.yard.row r).custody = .stowPending →
      let stowed := s.yard.setRow r fun w => { w with custody := .stowed, timer := none, unconfirmed := true }
      let told := stowed.notify .plant .stowUnconfirmed (r, 0, 0) (s.yard.row r).reported.code
      exec (.stowTimerExpiry r) s = .next (s.afterEvent told.judgeAllStowed)) ∧
    exec .minuteEvent s = .next { s with yard :=
      { s.yard with rows := s.yard.rows.map fun w => { w with age := min (w.age + 1) 65535 } } }

/-- A claim passes exactly in CALM, for a row that is not barred, that is in TRACK or held open by the robot, and whose
garage_occupant is the robot; in TRACK it starts the flatten, held open it stops the hold timer (R8). The end of an event
(R90): without an assignment event it changes nothing; with one, in CALM with SUSPEND low, the entries of the list are
judged from head to tail, each once, and a try of recharge sends follows. A robot's passing to available is such an event
(R31). An entry (R91 to R93): a takeable WAITING entry takes the occupant of its garage, or else the nearest available
robot, the lower id on a tie; in the garage it becomes CLAIMING and is judged so at once; elsewhere it asks for a ROUND
transfer, unless the hold-off level is high or this attempt was answered FULL, and becomes MOVING where that is ACCEPTED. A
CLAIMING entry whose checks fail is unassigned; whose claim passes, it becomes FLATTENING, or on a held-open row PASSING
with its PASS order; whose claim is refused PLACE or BARRED, it is unassigned; else it stays. Other stages are not judged.
A try of recharge sends (R100): only in CALM or WARNED with the hold-off level low, the robots in increasing id; one in
need of charge asks for a transfer to the nearest free dock, the lower id on a tie; ACCEPTED is counted, FULL ends the try.
Four things here are the model's: charge is compared at the last report (log 18); CALM and SUSPEND are judged once, and the
walk is of 48 steps and reaches entries appended within it (log 22); availability is compared at each change of a robot's
record (log 23). -/
def Obligations.ClaimChecks : Prop :=
  (∀ (y : Yard) (r k : Nat),
    (y.claimRefusal r k = none ↔ y.storm.state = .calm ∧ y.barred r = false ∧
      ((y.row r).custody = .track ∨ y.heldOpenBy r k = true) ∧ (y.row r).garageOccupant = some k) ∧
    ((y.row r).custody = .track → y.takeClaim r k = y.setRow r fun w =>
      { w with custody := .flattening, holder := some k, timer := some y.settings.flattenLimit }) ∧
    (y.heldOpenBy r k = true → y.takeClaim r k = y.setRow r fun w => { w with timer := none })) ∧
  (∀ y : Yard,
    let walked := if y.storm.state = .calm ∧ y.seen 2 = false then y.walkList Yard.arbiterPass 48 false [] else y
    (y.assign = false → y.finish = y) ∧
    (y.assign = true → y.finish = { walked.rechargeTry Yard.arbiterPass with assign := false })) ∧
  (∀ (y : Yard) (n : Nat) (full : Bool) (judged : List Nat),
    ((∀ e ∈ y.rounds.list, e.row ∈ judged) → y.walkList Yard.arbiterPass n full judged = y) ∧
    ∀ front e back, y.rounds.list = front ++ e :: back → (∀ x ∈ front, x.row ∈ judged) → e.row ∉ judged →
      let next := y.judgeEntry Yard.arbiterPass full e
      y.walkList Yard.arbiterPass (n + 1) full judged = next.1.walkList Yard.arbiterPass n next.2 (e.row :: judged)) ∧
  (∀ (y : Yard) (k : Nat) (f : Robot → Robot), k < y.robots.length →
    (y.available k = true ↔
      let b := y.robot k
      (b.enrolled = true ∧ b.silent = false ∧ b.fault = false) ∧ (b.order = none ∧ b.task = .idle ∧ b.roundLink = none) ∧
        (((∃ r, b.place = .garage r) ∧ b.chargeOverMin = true) ∨ ((∃ d, b.place = .dock d) ∧ b.chargeOverReady = true))) ∧
    ((y.setRobot k f).assign = true ↔
      y.assign = true ∨ (y.available k = false ∧ (y.setRobot k f).available k = true))) ∧
  (∀ (y : Yard) (full : Bool) (e : Entry),
    let judge := y.judgeEntry Yard.arbiterPass full e
    let r := e.row
    let w := y.row r
    let away := fun p : Nat => (r - p) + (p - r)
    (y.takeable r = true ↔
      (w.custody = .track ∨ w.custody = .settle ∨
        (y.heldOpen r = true ∧ ∃ k, w.holder = some k ∧ y.available k = true)) ∧
      w.garageReserved = none ∧ ∀ k, w.garageOccupant = some k → y.available k = true) ∧
    (∀ k, w.garageOccupant = some k → y.chooseRobot r = some k) ∧
    (w.garageOccupant = none → ∀ k, y.chooseRobot r = some k ↔ k < y.robots.length ∧ y.available k = true ∧
      ∃ p, y.placePosition (y.robot k).place = some p ∧ ∀ j q, j < y.robots.length → y.available j = true →
        y.placePosition (y.robot j).place = some q → away p < away q ∨ (away p = away q ∧ k ≤ j)) ∧
    (e.stage = .waiting →
      (y.takeable r = false ∨ y.chooseRobot r = none → judge = (y, full)) ∧
      ∀ k, y.takeable r = true → y.chooseRobot r = some k →
        ((y.robot k).place = .garage r → judge = ((y.assignEntry r k .claiming).judgeClaiming e k, full)) ∧
        ((y.robot k).place ≠ .garage r → full = true ∨ y.rail.holdoff = true → judge = (y, full)) ∧
        ((y.robot k).place ≠ .garage r → full = false → y.rail.holdoff = false →
          let asked := y.requestTransfer Yard.arbiterPass .round .round k (.garage r) (some r)
          (asked.2.status = .accepted → judge = (asked.1.assignEntry r k .moving, false)) ∧
          (asked.2.status = .full → judge = (asked.1, true)) ∧
          (asked.2.status ≠ .accepted → asked.2.status ≠ .full → judge = (asked.1, false)))) ∧
    (∀ k, e.stage = .claiming → e.robot = some k → judge = (y.judgeClaiming e k, full)) ∧
    (e.stage ≠ .waiting → e.stage ≠ .claiming → judge = (y, full))) ∧
  (∀ (y : Yard) (e : Entry) (k : Nat),
    let r := e.row
    let fails := (y.robot k).place ≠ .garage r ∨ (y.robot k).fault = true ∨ (y.robot k).silent = true ∨
      ∃ j, (y.row r).holder = some j ∧ j ≠ k
    let claims := (y.row r).custody = .track ∨ y.heldOpenBy r k = true
    (∀ (stage : Stage) (x : Entry), y.entryOf r = some x → k < y.robots.length →
      (y.assignEntry r k stage).entryOf r = some { x with robot := some k, stage := stage } ∧
      (y.assignEntry r k stage).robot k = { y.robot k with roundLink := some r }) ∧
    (fails → y.judgeClaiming e k = y.unassign r) ∧
    (¬fails → ¬claims → y.judgeClaiming e k = y) ∧
    (¬fails → (y.row r).custody = .track → y.claimRefusal r k = none →
      y.judgeClaiming e k = (y.takeClaim r k).setEntry r fun x => { x with stage := .flattening }) ∧
    (¬fails → y.heldOpenBy r k = true → y.claimRefusal r k = none → y.judgeClaiming e k =
      ((y.takeClaim r k).givePass k r e.kind).setEntry r fun x => { x with stage := .passing }) ∧
    (¬fails → claims → ∀ why, y.claimRefusal r k = some why →
      (why = .refuse .place ∨ why = .refuse .barred → y.judgeClaiming e k = y.unassign r) ∧
      (why ≠ .refuse .place → why ≠ .refuse .barred → y.judgeClaiming e k = y))) ∧
  ∀ (y : Yard) (k : Nat) (rest : List Nat),
    let b := y.robot k
    let next := y.rechargeWalk Yard.arbiterPass rest
    (y.mild = false ∨ y.rail.holdoff = true → y.rechargeTry Yard.arbiterPass = y) ∧
    (y.mild = true → y.rail.holdoff = false →
      y.rechargeTry Yard.arbiterPass = y.rechargeWalk Yard.arbiterPass (List.range y.robots.length)) ∧
    y.rechargeWalk Yard.arbiterPass [] = y ∧
    (y.needsCharge k = true ↔ (b.enrolled = true ∧ b.silent = false ∧ b.fault = false) ∧
      (b.order = none ∧ b.task = .idle ∧ b.roundLink = none) ∧ (∃ r, b.place = .garage r) ∧ b.chargeOverMin = false) ∧
    (y.needsCharge k = false → y.rechargeWalk Yard.arbiterPass (k :: rest) = next) ∧
    ∀ r, y.needsCharge k = true → b.place = .garage r →
      let away := fun d : Nat => (r - y.dockPosition d) + (y.dockPosition d - r)
      ((∀ d, d < y.settings.docks → y.dockFree d = false) → y.rechargeWalk Yard.arbiterPass (k :: rest) = next) ∧
      ∀ d, d < y.settings.docks → y.dockFree d = true →
        (∀ i, i < y.settings.docks → y.dockFree i = true → away d < away i ∨ (away d = away i ∧ d ≤ i)) →
        let asked := y.requestTransfer Yard.arbiterPass .round .recharge k (.dock d) none
        let sent := asked.1.countRounds fun n => { n with rechargesSent := min (n.rechargesSent + 1) 65535 }
        (asked.2.status = .accepted →
          y.rechargeWalk Yard.arbiterPass (k :: rest) = sent.rechargeWalk Yard.arbiterPass rest) ∧
        (asked.2.status = .full → y.rechargeWalk Yard.arbiterPass (k :: rest) = asked.1) ∧
        (asked.2.status ≠ .accepted → asked.2.status ≠ .full →
          y.rechargeWalk Yard.arbiterPass (k :: rest) = asked.1.rechargeWalk Yard.arbiterPass rest)

/-! ### Robots and carriages -/

/-- A clean pass writes age 0 and soiling RESIDUAL, a survey pass the measured soiling, at most 1000; no other field and no other
row changes (R11). A robot that comes home from the table under policy CLOSE in CALM or WARNED is in the row's garage with no
order and no task, and the row goes to SETTLE with its holder cleared and its settle timer started (R40, R12).
The lines of R12 for a holder that arrives: an OPEN row in CALM or WARNED is held open with its hold timer started where the
policy is HOLD, HOLD_LIMIT is not 0, the row is not barred and the robot has no fault, and else goes to SETTLE; an OPEN or
an EXPOSED row in RECALL, STOWING or PARKED goes to STOW_PENDING; no other row changes.
A Pass Done (R96, R97): the robot comes home, its result is applied, and the holder's arrival is taken; then its pass timer stops,
passes_done is counted, and its entry is removed; after a survey a CLEAN follow-up is put at the head where the soiling is
DIRTY_LIMIT or more in CALM, the row is not barred and has no entry; and the Pass Done is an assignment event. A Garage Reached
applies no result and makes no follow-up. That the tables-clear condition is judged last is the model's reading (log 41), and that
the entry removed is the robot's own (log 20). -/
def Obligations.PassesAndHomecomings : Prop :=
  (∀ (y : Yard) (k r measured : Nat), r < y.rows.length →
    (y.passResult r .clean measured).row r = { y.row r with age := 0, soiling := some y.settings.residual } ∧
    (y.passResult r .survey measured).row r = { y.row r with soiling := some (min measured 1000) } ∧
    (∀ (kind : PassKind) (q : Nat), q ≠ r → (y.passResult r kind measured).row q = y.row q) ∧
    (k < y.robots.length → y.mild = true → y.settings.rowPolicy = .close → (y.row r).custody = .open →
      (y.row r).holder = some k →
      let z := y.robotHome k r none
      ((z.robot k).place = .garage r ∧ (z.robot k).order = none ∧ (z.robot k).task = .idle) ∧
      ((z.row r).custody = .settle ∧ (z.row r).holder = none ∧ (z.row r).timer = some y.settings.settleTime ∧
        (z.row r).garageOccupant = some k ∧ (z.row r).age = (y.row r).age ∧ (z.row r).soiling = (y.row r).soiling))) ∧
  (∀ (y : Yard) (k r measured : Nat),
    let home := (y.setRobot k fun b => { b with order := none, task := .idle }).moveRobot k (.garage r)
    let finished := fun kind : PassKind =>
      let held := (home.passResult r kind measured).holderArrives r k
      (held.setPassTimer k none).countRounds fun n => { n with passesDone := min (n.passesDone + 1) 65535 }
    y.robotHome k r none = (home.holderArrives r k).judgeTablesClear ∧
    ∀ (kind : PassKind) (listed : Yard),
      (((finished kind).entryOfRobot k = none ∧ listed = finished kind) ∨
        ∃ e, (finished kind).entryOfRobot k = some e ∧ listed = (finished kind).removeEntry e.row) →
      let dirty := listed.settings.dirtyLimit ≤ min measured 1000 ∧ listed.storm.state = .calm ∧ listed.barred r = false ∧
        listed.entryOf r = none
      (kind = .clean ∨ ¬dirty → y.robotHome k r (some (kind, measured)) = listed.giveAssign.judgeTablesClear) ∧
      (kind = .survey → dirty → y.robotHome k r (some (kind, measured)) =
        (listed.insertHead ⟨r, .clean, .followup, none, .waiting⟩).1.giveAssign.judgeTablesClear)) ∧
  ∀ (y : Yard) (k r : Nat), r < y.rows.length → (y.row r).holder = some k →
    let w := y.row r
    let z := y.holderArrives r k
    let kept := y.settings.rowPolicy = .hold ∧ 0 < y.settings.holdLimit ∧ y.barred r = false ∧ (y.robot k).fault = false
    (w.custody = .open → y.mild = true → kept → z.row r = { w with timer := some y.settings.holdLimit }) ∧
    (w.custody = .open → y.mild = true → ¬kept →
      z.row r = { w with custody := .settle, holder := none, timer := some y.settings.settleTime }) ∧
    (w.custody = .open ∨ w.custody = .exposed → y.mild = false →
      z.row r = { w with custody := .stowPending, holder := none, timer := some y.settings.stowLimit }) ∧
    (w.custody = .open ∨ y.mild = false → ∀ q, q ≠ r → z.row q = y.row q)

/-- A robot's move to any place writes its place and the occupancy of a garage, a dock or a carriage that it takes, and clears
that of the garage, the dock or the carriage that it leaves; no other robot, row, dock or carriage changes (R29). -/
def Obligations.OccupancyMoves : Prop :=
  ∀ (y : Yard) (k : Nat) (pl : Place), k < y.robots.length →
    let old := (y.robot k).place
    let z := y.moveRobot k pl
    (z.robot k = { y.robot k with place := pl } ∧ ∀ j, j ≠ k → z.robot j = y.robot j) ∧
    (∀ r, pl = .garage r → r < y.rows.length → (z.row r).garageOccupant = some k) ∧
    (∀ d, pl = .dock d → d < y.docks.length → (z.dock d).occupant = some k) ∧
    (∀ c, pl = .aboard c → c < y.carriages.length → (z.carriage c).load = some k) ∧
    (∀ r, old = .garage r → pl ≠ .garage r → (z.row r).garageOccupant = none) ∧
    (∀ d, old = .dock d → pl ≠ .dock d → (z.dock d).occupant = none) ∧
    (∀ c, old = .aboard c → pl ≠ .aboard c → (z.carriage c).load = none) ∧
    (∀ r, old ≠ .garage r → pl ≠ .garage r → z.row r = y.row r) ∧
    (∀ d, old ≠ .dock d → pl ≠ .dock d → z.dock d = y.dock d) ∧
    ∀ c, old ≠ .aboard c → pl ≠ .aboard c → z.carriage c = y.carriage c

/-- A new order takes the subject's last serial plus one, from 255 to 0, and is the order in force; no other record changes. A
PASS in force that TO_GARAGE supersedes ends without result: its timer stops and passes_aborted is counted; a TO_GARAGE in
force stands (R35, R98). A robot that is given PASS (row, kind) has that order with its new serial, the task PASS, and the
place MIDROW of the row; its pass timer starts with PASS_LIMIT, and no other robot and nothing else of the Round Scheduler
changes. From GARAGE r its garage_occupant is cleared in the same event, and nothing else changes at all (R94, R35). -/
def Obligations.OrdersAndSerials : Prop :=
  ∀ (y : Yard) (n : Nat),
    (∀ o : RobotOrder, n < y.robots.length →
      ((y.orderRobot n o).robot n).order = some ⟨o, ((y.robot n).lastSerial + 1) % 256⟩ ∧
      ((y.orderRobot n o).robot n).lastSerial = ((y.robot n).lastSerial + 1) % 256 ∧
      ∀ j, j ≠ n → (y.orderRobot n o).robot j = y.robot j) ∧
    (∀ o : CarriageOrder, n < y.carriages.length →
      ((y.orderCarriage n o).carriage n).order = some ⟨o, ((y.carriage n).lastSerial + 1) % 256⟩ ∧
      ((y.orderCarriage n o).carriage n).lastSerial = ((y.carriage n).lastSerial + 1) % 256 ∧
      ∀ j, j ≠ n → (y.orderCarriage n o).carriage j = y.carriage j) ∧
    (∀ (r q : Nat) (kind : PassKind) (serial : Nat), n < y.robots.length → n < y.rounds.passTimers.length →
      (y.robot n).order = some ⟨.pass q kind, serial⟩ →
      let z := y.sendHome n r
      (z.robot n).order = some ⟨.toGarage r, ((y.robot n).lastSerial + 1) % 256⟩ ∧ (z.robot n).task = .toGarage ∧
      (z.robot n).place = (y.robot n).place ∧ z.rounds.passTimers.getD n none = none ∧
      z.rounds.counters.passesAborted = min (y.rounds.counters.passesAborted + 1) 65535) ∧
    (∀ (r q serial : Nat), (y.robot n).order = some ⟨.toGarage q, serial⟩ → y.sendHome n r = y) ∧
    ∀ (r : Nat) (kind : PassKind), n < y.robots.length →
      let z := y.givePass n r kind
      let serial := ((y.robot n).lastSerial + 1) % 256
      let given : Robot := { y.robot n with
        order := some ⟨.pass r kind, serial⟩, lastSerial := serial, task := .pass r kind, place := .midrow r }
      let timed := { y.rounds with passTimers := y.rounds.passTimers.set n (some y.settings.passLimit) }
      (z.robot n = given ∧ (∀ j, j ≠ n → z.robot j = y.robot j) ∧ z.rounds = timed) ∧
      ∀ q, (y.robot n).place = .garage q → z = { y with
        robots := y.robots.set n given
        rows := y.rows.modify q fun w => { w with garageOccupant := none }
        rounds := timed }

/-- Robot Status (R37, R38, R32). From an enrolled robot it clears the silent flag, starts the silence timer again and takes the
charge, with a ROBOT_LOW pulse where it falls below CHARGE_MIN. With the recorded place it changes no more. Another place of
a robot with an order or in a transfer is refused PLACE and counted; another robot is moved where R38's check passes, and
the report refused and counted where it fails: DOCK, no occupant and not reserved; GARAGE, the same, and the row's holder
absent or this robot; ABOARD, no load, no task, no FAULT; MIDROW, not FLATTENING, OPEN or EXPOSED of another holder (R24),
else HELD; UNKNOWN always. All this is judged after the pulse. A place that does not exist is refused RANGE, the charge
taken, as the model reads it (log 16). A robot not enrolled, or a charge above 100, is refused and counted. The pulse is of
source 14, and for a robot in a garage a recharge try follows it (R100). A taken place: on a row's table the row is adopted,
EXPOSED in STOWING and PARKED and else OPEN, with the robot its holder under a new TO_GARAGE (R24), and where it becomes
OPEN the robot's entry for it is removed and one for another row unassigned (R95), its own claim with no assignment event,
since the robot's place changes first (R24, steps 2 and 3); at another place the robot takes its place and its task, its
claim or hold of another row ends, and its entry is unassigned (R38). The comparisons of the charge are those of the last
report (log 18), and the try runs at the pulse, after its listeners, by the model's choice (log 19). The adopted row's entry
is removed in every stage, as the model reads it (log 20). The charge is written with its comparisons, at or above
CHARGE_MIN and at or above CHARGE_READY; a robot that is IDLE or CHARGING is then CHARGING in a dock below CHARGE_READY and
else IDLE, another task stays, and nothing else changes but that a robot becoming available gives an assignment event (R30
to R32). -/
def Obligations.RobotStatusTaken : Prop :=
  (∀ (p : Port) (body : List Byte) (s : State), s.takes .robotStatus p body → s.between →
    let k := byteAt body 0
    let charge := byteAt body 3
    let b := s.yard.robot k
    let heard := s.yard.setRobot k fun b => { b with silent := false, silenceTimer := some s.yard.settings.robotSilence }
    let charged := heard.writeCharge k charge
    let falls := charge < s.yard.settings.chargeMin ∧ s.yard.settings.chargeMin ≤ b.charge
    let quiet := s.yard.enrolled k = true ∧ charge ≤ 100 ∧ ¬falls
    (quiet → placeOf (byteAt body 1) (byteAt body 2) = some b.place → s.yard.placeExists b.place = true →
      exec (.robotStatus p body) s = .next ((s.afterEvent charged).answered p 0x20 (.ok []))) ∧
    (s.yard.enrolled k = true → charge ≤ 100 → falls →
      let told := charged.robotLow k
      placeOf (byteAt body 1) (byteAt body 2) = some (told.robot k).place →
      told.placeExists (told.robot k).place = true →
      exec (.robotStatus p body) s = .next ((s.afterEvent told).answered p 0x20 (.ok []))) ∧
    (s.yard.enrolled k = true → charge ≤ 100 →
      let told := if falls then charged.robotLow k else charged
      let turned := fun why : Reason =>
        (s.afterEvent { told with refusedReports := bump told.refusedReports }).answered p 0x20 (.refuse why)
      (placeOf (byteAt body 1) (byteAt body 2) = none → exec (.robotStatus p body) s = .next (turned .range)) ∧
      ∀ pl, placeOf (byteAt body 1) (byteAt body 2) = some pl →
        (told.placeExists pl = false → exec (.robotStatus p body) s = .next (turned .range)) ∧
        (told.placeExists pl = true → pl ≠ (told.robot k).place →
          ((told.robot k).order.isSome = true ∨ (told.transferOfRobot k).isSome = true →
            exec (.robotStatus p body) s = .next (turned .place)) ∧
          ((told.robot k).order = none → told.transferOfRobot k = none →
            (told.placeTaken k pl = true → exec (.robotStatus p body) s =
              .next ((s.afterEvent (told.afterMove (told.robot k).place (told.takeMove k pl))).answered p 0x20 (.ok []))) ∧
            (told.placeTaken k pl = false → exec (.robotStatus p body) s =
              .next (turned (match pl with | .midrow _ => .held | _ => .place)))))) ∧
    (∀ pl, quiet → placeOf (byteAt body 1) (byteAt body 2) = some pl → pl ≠ b.place → s.yard.placeExists pl = true →
      (b.order.isSome = true ∨ (s.yard.transferOfRobot k).isSome = true → exec (.robotStatus p body) s =
        .next ((s.afterEvent { charged with refusedReports := bump s.yard.refusedReports }).answered p 0x20
          (.refuse .place))) ∧
      (b.order = none → s.yard.transferOfRobot k = none →
        (charged.placeTaken k pl = true → exec (.robotStatus p body) s =
          .next ((s.afterEvent (charged.afterMove b.place (charged.takeMove k pl))).answered p 0x20 (.ok []))) ∧
        (charged.placeTaken k pl = false → exec (.robotStatus p body) s =
          .next ((s.afterEvent { charged with refusedReports := bump s.yard.refusedReports }).answered p 0x20
            (.refuse (Yard.placeReason pl)))))) ∧
    (s.yard.enrolled k = true → 100 < charge → exec (.robotStatus p body) s =
      .next ((s.afterEvent { heard with refusedReports := bump s.yard.refusedReports }).answered p 0x20
        (.refuse .range))) ∧
    (s.yard.enrolled k = false → exec (.robotStatus p body) s =
      .next ((s.withYard { s.yard with refusedReports := bump s.yard.refusedReports }).answered p 0x20
        (.refuse .range)))) ∧
  (∀ (y : Yard) (k : Nat),
    (∀ r, ((y.pulse 14).robot k).place = .garage r → y.robotLow k = (y.pulse 14).rechargeTry Yard.arbiterPass) ∧
    ((∀ r, ((y.pulse 14).robot k).place ≠ .garage r) → y.robotLow k = y.pulse 14)) ∧
  (∀ (y : Yard) (k r : Nat) (custody : Custody), y.adoptionCustody r k = some custody → k < y.robots.length →
    r < y.rows.length →
    let z := y.takeMove k (.midrow r)
    custody = (if y.storm.state = .stowing ∨ y.storm.state = .parked then .exposed else .open) ∧
    ((z.row r).custody = custody ∧ (z.row r).holder = some k ∧ (z.row r).timer = none ∧
      (z.row r).unconfirmed = false ∧ (z.row r).reported = (y.row r).reported ∧ (z.row r).age = (y.row r).age ∧
      (z.row r).soiling = (y.row r).soiling) ∧
    (z.robot k).place = .midrow r ∧ (z.robot k).task = .toGarage ∧
    (z.robot k).order = some ⟨.toGarage r, ((y.robot k).lastSerial + 1) % 256⟩ ∧
    (custody = .open → (y.row r).custody ≠ .exposed → y.listDistinct →
      (∀ e, y.entryOfRobot k = some e → (z.robot k).roundLink = none ∧ (e.row = r → z.entryOf r = none) ∧
        (e.row ≠ r → z.entryOf e.row = some { e with robot := none, stage := .waiting })) ∧
      (y.rowHeldBy k = some r → (∀ e, y.entryOfRobot k = some e → e.row = r) → z.assign = y.assign))) ∧
  (∀ (y : Yard) (k r d c : Nat),
    (y.placeTaken k (.dock d) = true ↔ (y.dock d).occupant = none ∧ (y.dock d).reservedFor = none) ∧
    (y.placeTaken k (.garage r) = true ↔ (y.row r).garageOccupant = none ∧ (y.row r).garageReserved = none ∧
      ((y.row r).holder = none ∨ (y.row r).holder = some k)) ∧
    (y.placeTaken k (.aboard c) = true ↔
      (y.carriage c).load = none ∧ (y.carriage c).task = none ∧ (y.carriage c).fault = false) ∧
    (y.placeTaken k (.midrow r) = true ↔ ∃ custody, y.adoptionCustody r k = some custody) ∧
    y.placeTaken k .unknown = true ∧
    (y.adoptionCustody r k = none ↔ (y.row r).holder ≠ some k ∧
      ((y.row r).custody = .flattening ∨ (y.row r).custody = .open ∨ (y.row r).custody = .exposed)) ∧
    (y.placeExists .unknown = true ∧ (y.placeExists (.dock d) = true ↔ d < y.settings.docks) ∧
      (y.placeExists (.garage r) = true ↔ r < y.rows.length) ∧ (y.placeExists (.midrow r) = true ↔ r < y.rows.length) ∧
      (y.placeExists (.aboard c) = true ↔ c < y.settings.carriages))) ∧
  (∀ (y : Yard) (k : Nat) (pl : Place), k < y.robots.length → (∀ r, pl ≠ .midrow r) →
    let z := y.takeMove k pl
    (z.robot k).place = pl ∧ (z.robot k).task = Robot.restTask { y.robot k with place := pl } ∧
    (∀ q, y.rowHeldBy k = some q → pl ≠ .garage q → y.heldOpen q = true ∨ (y.row q).custody = .flattening →
      (z.row q).custody = .settle ∧ (z.row q).holder = none ∧ (z.row q).timer = some y.settings.settleTime) ∧
    (y.listDistinct → ∀ e, y.entryOfRobot k = some e →
      (z.robot k).roundLink = none ∧ z.entryOf e.row = some { e with robot := none, stage := .waiting })) ∧
  (∀ b : Robot,
    (∀ d, b.place = .dock d → b.chargeOverReady = true → b.restTask = .idle) ∧
    (∀ d, b.place = .dock d → b.chargeOverReady = false → b.restTask = .charging) ∧
    ((∀ d, b.place ≠ .dock d) → b.restTask = .idle)) ∧
  ∀ (y : Yard) (k charge : Nat), k < y.robots.length →
    let z := y.writeCharge k charge
    let b := { y.robot k with
      charge := charge
      chargeOverMin := decide (y.settings.chargeMin ≤ charge)
      chargeOverReady := decide (y.settings.chargeReady ≤ charge) }
    ((y.robot k).task = .idle ∨ (y.robot k).task = .charging → z.robot k = { b with task := b.restTask }) ∧
    ((y.robot k).task ≠ .idle → (y.robot k).task ≠ .charging → z.robot k = b) ∧
    (∀ j, j ≠ k → z.robot j = y.robot j) ∧ { z with robots := y.robots, assign := y.assign } = y ∧
    (z.assign = true ↔ y.assign = true ∨ (y.available k = false ∧ z.available k = true))

/-- Order Done (R39 to R41). A completion with the serial of the order in force and the outcome of its kind is taken: Pass Done
and Garage Reached bring the robot home, or are refused PLACE where the garage has another occupant or is reserved; Arrived
at the ordered position, Boarded and Alighted end the carriage's order and go on with its task; a STAY that arrives where it
may ends. Another arrival is refused ORDER and sends the carriage to FAULT, its work failed. Another outcome is refused
ORDER, and one above 4 or an arrival beyond the rows RANGE; each refusal is counted. A serial that names no order in force
is STALE and counted, and beyond the silence flag and timer of a robot nothing changes.
What a carriage's completion gives its task (R67 to R70, R66): FETCH goes to BOARD, BOARD to CARRY or at the destination to
ALIGHT, CARRY to ALIGHT, each with the phase timer started and the order given; ALIGHT completes the transfer; a nudge
completes; a carriage without a task gives an arbiter pass.
An Order Done whose subject does not exist, a slot not enrolled, a carriage of CARRIAGES or more, or a number above 14, is
refused RANGE and counted, and changes nothing else (R37).
That the data of a Garage Reached, a Boarded or an Alighted is not judged is the model's choice (log 39), and so is that the
tables-clear condition is judged after the steps of R40 and R70 (log 41). -/
def Obligations.OrderDoneTaken : Prop :=
  (∀ (p : Port) (body : List Byte) (s : State), s.takes .orderDone p body → s.between →
    let k := byteAt body 0
    let serial := byteAt body 1
    let outcome := byteAt body 2
    let data := wordAt body 3
    let heard := s.yard.setRobot k fun b => { b with silent := false, silenceTimer := some s.yard.settings.robotSilence }
    let ended := fun x : Option Nat => s.yard.setCarriage (k - 12) fun w => { w with order := none, position := x.or w.position }
    let bounds := outcome ≤ 4 ∧ (outcome = 2 → data < s.yard.rows.length)
    (k < 12 → s.yard.enrolled k = true →
      let refused := fun why : Reason =>
        (s.afterEvent { heard with refusedReports := bump s.yard.refusedReports }).answered p 0x21 (.refuse why)
      (∀ r, (s.yard.row r).garageReserved = none →
        ((s.yard.row r).garageOccupant = none ∨ (s.yard.row r).garageOccupant = some k) →
        ((s.yard.robot k).order = some ⟨.toGarage r, serial⟩ → outcome = 1 → exec (.orderDone p body) s =
          .next ((s.afterEvent (heard.robotHome k r none)).answered p 0x21 (.ok []))) ∧
        (∀ kind, (s.yard.robot k).order = some ⟨.pass r kind, serial⟩ → outcome = 0 → exec (.orderDone p body) s =
          .next ((s.afterEvent (heard.robotHome k r (some (kind, data)))).answered p 0x21 (.ok [])))) ∧
      (∀ r, (s.yard.row r).garageReserved.isSome = true ∨
          (∃ j, (s.yard.row r).garageOccupant = some j ∧ j ≠ k) →
        ((s.yard.robot k).order = some ⟨.toGarage r, serial⟩ → outcome = 1 →
          exec (.orderDone p body) s = .next (refused .place)) ∧
        (∀ kind, (s.yard.robot k).order = some ⟨.pass r kind, serial⟩ → outcome = 0 →
          exec (.orderDone p body) s = .next (refused .place))) ∧
      (∀ r, (s.yard.robot k).order = some ⟨.toGarage r, serial⟩ → bounds → outcome ≠ 1 →
        exec (.orderDone p body) s = .next (refused .order)) ∧
      (∀ r kind, (s.yard.robot k).order = some ⟨.pass r kind, serial⟩ → bounds → outcome ≠ 0 →
        exec (.orderDone p body) s = .next (refused .order)) ∧
      (∀ o, (s.yard.robot k).order = some ⟨o, serial⟩ → ¬bounds →
        exec (.orderDone p body) s = .next (refused .range)) ∧
      ((∀ o, (s.yard.robot k).order = some o → o.serial ≠ serial) → exec (.orderDone p body) s =
        .next ((s.afterEvent { heard with staleReports := bump s.yard.staleReports }).answered p 0x21
          (.plain .stale)))) ∧
    (12 ≤ k → k ≤ 14 → k - 12 < s.yard.settings.carriages →
      let c := k - 12
      let refused := fun why : Reason =>
        (s.withYard { s.yard with refusedReports := bump s.yard.refusedReports }).answered p 0x21 (.refuse why)
      let failed := s.yard.failCarriage c .failedOrder
      let turned := (s.afterEvent { failed with refusedReports := bump failed.refusedReports }).answered p 0x21
        (.refuse .order)
      (∀ x, (s.yard.carriage c).order = some ⟨.goto x, serial⟩ → outcome = 2 → data < s.yard.rows.length →
        (data = x → exec (.orderDone p body) s =
          .next ((s.afterEvent ((ended (some x)).carriageCompleted c)).answered p 0x21 (.ok []))) ∧
        (data ≠ x → exec (.orderDone p body) s = .next turned)) ∧
      (∀ j, (s.yard.carriage c).order = some ⟨.board j, serial⟩ → outcome = 3 → exec (.orderDone p body) s =
        .next ((s.afterEvent (((ended none).moveRobot j (.aboard c)).carriageCompleted c)).answered p 0x21 (.ok []))) ∧
      (∀ j pl, (s.yard.carriage c).order = some ⟨.alight j pl, serial⟩ → outcome = 4 → exec (.orderDone p body) s =
        .next ((s.afterEvent (((ended none).moveRobot j pl).carriageCompleted c).judgeTablesClear).answered p 0x21
          (.ok []))) ∧
      ((s.yard.carriage c).order = some ⟨.stay, serial⟩ → outcome = 2 → data < s.yard.rows.length →
        (s.yard.keepsOrder c data = true → s.yard.inOthersSegment c data = false →
          exec (.orderDone p body) s =
            .next ((s.afterEvent (ended (some data)).arbiterPass).answered p 0x21 (.ok []))) ∧
        (s.yard.keepsOrder c data = false ∨ s.yard.inOthersSegment c data = true →
          exec (.orderDone p body) s = .next turned)) ∧
      (∀ o, (s.yard.carriage c).order = some ⟨o, serial⟩ →
        (¬bounds → exec (.orderDone p body) s = .next (refused .range)) ∧
        (bounds → (outcome ≠ match o with
            | .goto _ | .stay => 2
            | .board _ => 3
            | .alight _ _ => 4) → exec (.orderDone p body) s = .next (refused .order))) ∧
      ((∀ o, (s.yard.carriage c).order = some o → o.serial ≠ serial) → exec (.orderDone p body) s =
        .next ((s.withYard { s.yard with staleReports := bump s.yard.staleReports }).answered p 0x21 (.plain .stale)))) ∧
    ((k < 12 ∧ s.yard.enrolled k = false) ∨ (12 ≤ k ∧ s.yard.settings.carriages ≤ k - 12) ∨ 14 < k →
      exec (.orderDone p body) s = .next ((s.withYard
        { s.yard with refusedReports := bump s.yard.refusedReports }).answered p 0x21 (.refuse .range)))) ∧
  ∀ (y : Yard) (c : Nat),
    let phase := fun (tag : Nat) (ph : Phase) (o : CarriageOrder) =>
      (y.setTransfer tag fun t => { t with phase := ph, phaseTimer := some y.settings.phaseLimit }).orderCarriage c o
    let freed := fun z : Yard => (z.releaseSegments c).setCarriage c fun w => { w with task := none }
    let fault := (y.carriageFaults c).keepSegmentsFaulted c
    (∀ tag t, (y.carriage c).task = some (.transfer tag) → y.transferOf tag = some t →
      let there := y.destinationPosition t
      (t.phase = .fetch → y.carriageCompleted c = phase tag .board (.board t.robot)) ∧
      (t.phase = .board → (y.carriage c).position = some there →
        y.carriageCompleted c = phase tag .alight (.alight t.robot t.destination)) ∧
      (t.phase = .board → (y.carriage c).position ≠ some there →
        y.carriageCompleted c = phase tag .carry (.goto there)) ∧
      (t.phase = .carry → y.carriageCompleted c = phase tag .alight (.alight t.robot t.destination)) ∧
      (t.phase = .alight → y.carriageCompleted c =
        ((Yard.closeTransfer t .done (freed y)).judgeHoldoff Yard.handQuiet).arbiterPass) ∧
      (∀ result, fault.transferOf tag = some t →
        y.failCarriage c result = (Yard.closeTransfer t result fault).judgeHoldoff Yard.hand)) ∧
    ((y.carriage c).task = some .nudge →
      y.carriageCompleted c = ((freed (y.setNudge c none)).judgeHoldoff Yard.handQuiet).arbiterPass ∧
      ∀ result, y.failCarriage c result = (fault.setNudge c none).judgeHoldoff Yard.hand) ∧
    ((y.carriage c).task = none →
      y.carriageCompleted c = y.arbiterPass ∧ ∀ result, y.failCarriage c result = fault)

/-- Carriage Position and Robot Fault (R42, R43). A position that no case of R42 refuses is recorded, a STAY it completes
ends, and an arbiter pass runs where the carriage comes to be IDLE with a known position. A position is refused ORDER,
counted and without other effect, in R42's four cases: an order other than STAY, FAULT, a position not above those of every
lower-indexed carriage and below those of every higher-indexed one, or one in a segment reserved to another; a position of
ROWS or more, or a carriage that does not exist (R37), is refused RANGE, judged first by the model's choice (log 42). A
Robot Fault for a slot not enrolled is refused RANGE and counted. A Robot Fault sets the flag and gives ROBOT_FAULT; a PASS
in force is superseded by TO_GARAGE, and otherwise a row held in the garage is given up. -/
def Obligations.FleetReportsTaken : Prop :=
  (∀ (p : Port) (body : List Byte) (s : State),
    let n := byteAt body 0
    let x := byteAt body 1
    (s.takes .carriagePosition p body → n < s.yard.settings.carriages → x < s.yard.rows.length →
      s.yard.positionRefused n x = false →
      let placed := s.yard.setCarriage n fun w => { w with order := none, position := some x }
      let rests := (s.yard.carriage n).order.isSome = true ∨ (s.yard.carriage n).position = none
      (rests → exec (.carriagePosition p body) s =
        .next ((s.afterEvent placed.arbiterPass).answered p 0x22 (.ok []))) ∧
      (¬rests → exec (.carriagePosition p body) s = .next ((s.afterEvent placed).answered p 0x22 (.ok [])))) ∧
    (s.takes .carriagePosition p body → s.between →
      let turned := fun why : Reason =>
        (s.withYard { s.yard with refusedReports := bump s.yard.refusedReports }).answered p 0x22 (.refuse why)
      (s.yard.settings.carriages ≤ n ∨ s.yard.rows.length ≤ x →
        exec (.carriagePosition p body) s = .next (turned .range)) ∧
      (n < s.yard.settings.carriages → x < s.yard.rows.length → s.yard.positionRefused n x = true →
        exec (.carriagePosition p body) s = .next (turned .order))) ∧
    (s.takes .robotFault p body → s.yard.enrolled n = false → s.between → exec (.robotFault p body) s =
      .next ((s.withYard { s.yard with refusedReports := bump s.yard.refusedReports }).answered p 0x23 (.refuse .range))) ∧
    (s.takes .robotFault p body → s.yard.enrolled n = true →
      let heard := (s.yard.setRobot n fun b =>
        { b with silent := false, silenceTimer := some s.yard.settings.robotSilence }).setRobot n fun b =>
          { b with fault := true }
      let told := heard.notify .plant .robotFault (n, 0, 0) (s.yard.robot n).place.code
      (∀ r kind serial, (s.yard.robot n).order = some ⟨.pass r kind, serial⟩ →
        exec (.robotFault p body) s =
          .next ((s.afterEvent (told.sendHome n r)).answered p 0x23 (.ok []))) ∧
      ((∀ r kind serial, (s.yard.robot n).order ≠ some ⟨.pass r kind, serial⟩) →
        exec (.robotFault p body) s =
          .next ((s.afterEvent (told.giveUpRow n)).answered p 0x23 (.ok []))))) ∧
  ∀ (y : Yard) (c p : Nat),
    (y.positionRefused c p = true ↔ (∃ o, (y.carriage c).order = some o ∧ o.kind ≠ .stay) ∨ (y.carriage c).fault = true ∨
      y.keepsOrder c p = false ∨ y.inOthersSegment c p = true) ∧
    (y.keepsOrder c p = true ↔ ∀ i q, i < y.settings.carriages → (y.carriage i).position = some q →
      (i < c → q < p) ∧ (c < i → p < q)) ∧
    (y.inOthersSegment c p = true ↔ ∃ v, y.rail.segments.getD (p / 8) none = some v ∧ v.carriage ≠ c)

/-- The plant's requests on the fleet (R45, R46, R47). Enroll Robot makes a record with place UNKNOWN, no work and its
silence timer started, last_serial kept, and vacates the place that the slot's record still names (R29); Clear Robot clears
the fault flag; Clear Carriage records the confirmed position, ends FAULT, and releases the carriage's segments. It is
refused and changes nothing: STATE for a carriage not in FAULT; RANGE for a position of ROWS or more, judged after (log
42), and for a carriage that does not exist (log 17); ORDER for a position outside the carriage's own segments, or where it
has none in another's, or out of carriage order. Enroll Robot of an enrolled slot changes nothing; a slot above 11, or a
Clear Robot for a slot not enrolled, is refused RANGE. Write Off Robot ends the enrolment of its robot and of no other, by
the steps of R46 in turn: a row it holds goes to SETTLE in CALM or WARNED and else to STOW_PENDING, its holder cleared, its
timer started, and its ended flatten passed on (R25); a PASS in force ends without result, and the robot's entry is
unassigned (R98, R80); its WAITING transfer ends CANCELLED (R56), the hold-off level judged (R74); the occupancy field of
its place is cleared, and the slot's record is UNKNOWN, IDLE, without order, its charge 0, its last_serial kept; an arbiter
pass runs where the carriage it leaves comes to rest (R33, R62), and the tables-clear condition is judged last (R131; log
41). Where the transfer's end lets FREEZE's lane fall, that listener's pass (R107) is the one pass at the end of the event:
that is the model's reading (log 10). A robot in a granted transfer is refused ROBOT_BUSY, and a slot not enrolled RANGE.
That a slot's record could name a place when it is enrolled happens in no run: there Enroll Robot vacates nothing (log 29). -/
def Obligations.FleetRequestsTaken : Prop :=
  (∀ (p : Port) (body : List Byte) (s : State), s.between →
    let n := byteAt body 0
    let x := byteAt body 1
    (s.takes .enrollRobot p body → n ≤ 11 → s.yard.enrolled n = false →
      exec (.enrollRobot p body) s =
        .next ((s.withYard ((s.yard.vacate n).setRobot n fun b =>
          ⟨true, .unknown, .idle, none, b.lastSerial, 0, false, false, false, false, none,
            some s.yard.settings.robotSilence⟩)).answered p 0x24 (.ok []))) ∧
    (s.takes .clearRobot p body → s.yard.enrolled n = true →
      exec (.clearRobot p body) s =
        .next ((s.afterEvent (s.yard.setRobot n fun b => { b with fault := false })).answered p 0x25
          (.ok []))) ∧
    (s.takes .writeOffRobot p body → s.yard.enrolled n = true →
      (∀ t, s.yard.transferOfRobot n = some t → t.phase = .waiting) →
      ∃ t, exec (.writeOffRobot p body) s = .next t ∧
        t.yard.robots.map (·.enrolled) = (s.yard.robots.map (·.enrolled)).set n false ∧
        t.links = (s.answered p 0x26 (.ok [])).links ∧ t.accounts = s.accounts ∧ t.met = s.met ∧ t.loader = s.loader) ∧
    (s.takes .writeOffRobot p body → s.yard.enrolled n = true →
      (∀ t, s.yard.transferOfRobot n = some t → t.phase = .waiting) →
      let rowless := s.yard.writeOffRow n
      let passless := match (rowless.robot n).order with
        | some ⟨.pass _ _, _⟩ => rowless.passEnds n
        | _ => rowless
      let workless := match passless.entryOfRobot n with
        | some e => passless.unassign e.row
        | none => passless
      let left := match workless.transferOfRobot n with
        | some t => (Yard.closeTransfer t .cancelled workless).judgeHoldoff Yard.handQuiet
        | none => workless
      let gone := (left.vacate n).setRobot n fun b =>
        ⟨false, .unknown, .idle, none, b.lastSerial, 0, false, false, false, false, none, none⟩
      let passes := (∃ c, (left.robot n).place = .aboard c ∧ left.carriageRests c = true) ∨
        (s.yard.seen 4 = true ∧ gone.seen 4 = false)
      (passes → exec (.writeOffRobot p body) s =
        .next ((s.afterEvent gone.arbiterPass.judgeTablesClear).answered p 0x26 (.ok []))) ∧
      (¬passes → exec (.writeOffRobot p body) s =
        .next ((s.afterEvent gone.judgeTablesClear).answered p 0x26 (.ok [])))) ∧
    (s.takes .writeOffRobot p body →
      (s.yard.enrolled n = false → exec (.writeOffRobot p body) s = .next (s.answered p 0x26 (.refuse .range))) ∧
      (∀ t, s.yard.enrolled n = true → s.yard.transferOfRobot n = some t → t.phase ≠ .waiting →
        exec (.writeOffRobot p body) s = .next (s.answered p 0x26 (.refuse .robotBusy)))) ∧
    (s.takes .clearCarriage p body → n < s.yard.settings.carriages → (s.yard.carriage n).fault = true →
      x < s.yard.rows.length → s.yard.clearRefused n x = false →
      let cleared := (s.yard.setCarriage n fun w =>
        { w with position := some x, fault := false, order := none, task := none }).releaseSegments n
      exec (.clearCarriage p body) s =
        .next ((s.afterEvent (cleared.judgeHoldoff Yard.handQuiet).arbiterPass).answered p 0x27 (.ok []))) ∧
    (s.takes .clearCarriage p body →
      let turned := fun why : Reason => s.answered p 0x27 (.refuse why)
      (s.yard.settings.carriages ≤ n → exec (.clearCarriage p body) s = .next (turned .range)) ∧
      (n < s.yard.settings.carriages → (s.yard.carriage n).fault = false →
        exec (.clearCarriage p body) s = .next (turned .state)) ∧
      (n < s.yard.settings.carriages → (s.yard.carriage n).fault = true →
        (s.yard.rows.length ≤ x → exec (.clearCarriage p body) s = .next (turned .range)) ∧
        (x < s.yard.rows.length → s.yard.clearRefused n x = true →
          exec (.clearCarriage p body) s = .next (turned .order)))) ∧
    (s.takes .enrollRobot p body →
      (11 < n → exec (.enrollRobot p body) s = .next (s.answered p 0x24 (.refuse .range))) ∧
      (n ≤ 11 → s.yard.enrolled n = true → exec (.enrollRobot p body) s = .next (s.answered p 0x24 (.ok [])))) ∧
    (s.takes .clearRobot p body → s.yard.enrolled n = false →
      exec (.clearRobot p body) s = .next (s.answered p 0x25 (.refuse .range)))) ∧
  (∀ (y : Yard) (c p : Nat),
    let holds := fun i : Nat => ∃ v, y.rail.segments.getD i none = some v ∧ v.carriage = c
    ((∃ i, holds i) → (y.clearRefused c p = true ↔ y.keepsOrder c p = false ∨ ¬holds (p / 8))) ∧
    ((¬∃ i, holds i) → (y.clearRefused c p = true ↔ y.keepsOrder c p = false ∨ y.inOthersSegment c p = true))) ∧
  ∀ (y : Yard) (k : Nat),
    (y.rowHeldBy k = none → y.writeOffRow k = y) ∧
    (∀ r, y.rowHeldBy k = some r →
      let freed := if y.mild = true
        then y.setRow r fun w => { w with custody := .settle, holder := none, timer := some y.settings.settleTime }
        else y.setRow r fun w => { w with custody := .stowPending, holder := none, timer := some y.settings.stowLimit }
      let told := Yard.followWith Yard.handStorm 13 y freed
      ((∀ e, told.entryOf r = some e → e.stage ≠ .flattening) → y.writeOffRow k = told) ∧
      (∀ e, told.entryOf r = some e → e.stage = .flattening → y.writeOffRow k = told.unassign r))

/-- The expiries of a robot's two timers (R44, R99). A silence expiry sets the silent flag and gives ROBOT_SILENT to the plant
and the fleet port; place, order and task stand. A pass timer expiry gives PASS_TIMEOUT, sets the fault flag and sends the
robot to its garage.
That an expiry is taken whenever its timer runs is the model's reading (log 6). -/
def Obligations.RobotTimerExpiries : Prop :=
  ∀ (k : Nat) (s : State), s.running = true → s.between →
    (s.yard.enrolled k = true → (s.yard.robot k).silenceTimer.isSome = true →
      let silent := s.yard.setRobot k fun b => { b with silent := true, silenceTimer := none }
      let place := (s.yard.robot k).place.code
      exec (.robotSilenceExpiry k) s = .next { s with yard :=
        (silent.notify .plant .robotSilent (k, 0, 0) place).notify .fleet .robotSilent (k, 0, 0) place }) ∧
    (∀ r kind serial, (s.yard.rounds.passTimers.getD k none).isSome = true →
      (s.yard.robot k).order = some ⟨.pass r kind, serial⟩ →
      let told := (s.yard.notify .plant .passTimeout (r, 0, 0) k).countRounds fun n =>
        { n with passTimeouts := min (n.passTimeouts + 1) 65535 }
      exec (.passTimerExpiry k) s = .next (s.afterEvent ((told.setRobot k fun b => { b with fault := true }).sendHome k r)))

/-! ### The rail -/

/-- The checks of R54 in their order: each clause supposes that every check before its own passes. A request that a check
refuses changes nothing. -/
def Obligations.TransferChecks : Prop :=
  ∀ (y : Yard) (origin : TransferOrigin) (k : Nat) (d : Place), ((∃ r, d = .garage r) ∨ ∃ n, d = .dock n) →
    let b := y.robot k
    let answer := y.transferRefusal origin k d
    let c1 := b.enrolled = true
    let c2 := b.place ≠ .unknown ∧ ∀ r, b.place ≠ .midrow r
    let c3 := y.transferOfRobot k = none ∧ (∀ r kind, b.task ≠ .pass r kind) ∧ b.fault = false
    let c4 := origin = .round ∨ b.roundLink = none
    let c5 := (∀ r, d = .garage r → r < y.rows.length) ∧ (∀ n, d = .dock n → n < y.settings.docks) ∧ d ≠ b.place
    let c6 := ∀ r, d = .garage r → y.barred r = false
    let c7 := (∀ r, d = .garage r →
        (y.row r).garageOccupant = none ∧ (y.row r).garageReserved = none ∧ (y.row r).holder = none) ∧
      ∀ n, d = .dock n → (y.dock n).occupant = none ∧ (y.dock n).reservedFor = none
    let c8 := y.rail.queue.length < 8 ∧ ¬(origin = .round ∧ y.rail.holdoff = true)
    (¬c1 → answer = some (.refuse .range)) ∧
    (c1 → ¬c2 → answer = some (.refuse .robotBusy)) ∧
    (c1 → c2 → ¬c3 → answer = some (.refuse .robotBusy)) ∧
    (c1 → c2 → c3 → ¬c4 → answer = some (.refuse .robotBusy)) ∧
    (c1 → c2 → c3 → c4 → ¬c5 → answer = some (.refuse .range)) ∧
    (c1 → c2 → c3 → c4 → c5 → ¬c6 → answer = some (.refuse .barred)) ∧
    (c1 → c2 → c3 → c4 → c5 → c6 → ¬c7 → answer = some (.refuse .place)) ∧
    (c1 → c2 → c3 → c4 → c5 → c6 → c7 → ¬c8 → answer = some (.plain .full)) ∧
    (c1 → c2 → c3 → c4 → c5 → c6 → c7 → c8 →
      (y.storm.state = .calm → answer = none) ∧
      (y.storm.state = .warned → ∀ n, d = .dock n → answer = none) ∧
      (y.storm.state = .warned → ∀ r, d = .garage r → answer = some (.refuse .alertActive)) ∧
      (y.storm.state = .recall ∨ y.storm.state = .stowing → answer = some (.refuse .state)) ∧
      (y.storm.state = .parked → answer = some (.plain .ignored))) ∧
    ∀ (pass : Yard → Yard) (purpose : Purpose) (link : Option Nat) (reply : Reply), answer = some reply →
      y.requestTransfer pass origin purpose k d link = (y, reply)

/-- A Transfer that no check refuses is ACCEPTED with its tag (R53, R55): the robot gives up any row it holds, the destination
is reserved for the tag, the entry joins the tail of the queue in WAITING, the robot's task is the transfer, the hold-off
level is judged again, and an arbiter pass runs. A refused Transfer changes nothing. A robot slot above 11, or a destination
of a kind other than GARAGE or DOCK, is refused RANGE and changes nothing, judged before the checks of R54 by the model's
choice (log 42). A request of any origin, purpose and link that no check refuses, the Round Scheduler's own among them, is
accepted in the same way (R91, R100). -/
def Obligations.TransferTaken : Prop :=
  (∀ (p : Port) (body : List Byte) (s : State), s.takes .transfer p body → s.between →
    let k := byteAt body 0
    let origin := Yard.portOrigin p
    let tag := s.yard.freshTag 256 s.yard.rail.tagCounter
    ∀ d, placeOf (byteAt body 1) (byteAt body 2) = some d → ((∃ r, d = .garage r) ∨ ∃ n, d = .dock n) → k ≤ 11 →
    (s.yard.transferRefusal origin k d = none →
      let y₁ := (s.yard.giveUpRow k).reservePlace d (some tag)
      let entry : Transfer :=
        ⟨tag, origin, .move, k, (s.yard.robot k).place, d, .waiting, none, none, none, none⟩
      let y₂ := { y₁ with rail := { y₁.rail with queue := y₁.rail.queue ++ [entry], tagCounter := (tag + 1) % 256 } }
      let y₃ := y₂.setRobot k fun b => { b with task := .transfer tag }
      exec (.transfer p body) s =
        .next ((s.afterEvent (y₃.judgeHoldoff Yard.handQuiet).arbiterPass).answered p 0x30
          ⟨.accepted, .none, [byte tag]⟩)) ∧
    (∀ reply, s.yard.transferRefusal origin k d = some reply →
      exec (.transfer p body) s = .next (s.answered p 0x30 reply))) ∧
  (∀ (p : Port) (body : List Byte) (s : State), s.takes .transfer p body → s.between →
    let place := placeOf (byteAt body 1) (byteAt body 2)
    11 < byteAt body 0 ∨ ((∀ r, place ≠ some (.garage r)) ∧ ∀ n, place ≠ some (.dock n)) →
      exec (.transfer p body) s = .next (s.answered p 0x30 (.refuse .range))) ∧
  ∀ (y : Yard) (origin : TransferOrigin) (purpose : Purpose) (k : Nat) (d : Place) (link : Option Nat),
    y.transferRefusal origin k d = none →
    let tag := y.freshTag 256 y.rail.tagCounter
    let y₁ := (y.giveUpRow k).reservePlace d (some tag)
    let entry : Transfer := ⟨tag, origin, purpose, k, (y.robot k).place, d, .waiting, none, none, none, link⟩
    let y₂ := { y₁ with rail := { y₁.rail with queue := y₁.rail.queue ++ [entry], tagCounter := (tag + 1) % 256 } }
    let y₃ := y₂.setRobot k fun b => { b with task := .transfer tag }
    y.requestTransfer Yard.arbiterPass origin purpose k d link =
      ((y₃.judgeHoldoff Yard.handQuiet).arbiterPass, ⟨.accepted, .none, [byte tag]⟩)

/-- The tag given to a transfer is one that no entry of the queue holds (R51). -/
def Obligations.FreshTagFree : Prop :=
  ∀ (y : Yard) (n : Nat), y.queueFits → n < 256 →
    y.freshTag 256 n < 256 ∧ ∀ t ∈ y.rail.queue, t.tag ≠ y.freshTag 256 n

/-- Cancel Transfer of a WAITING entry of the requester's own origin ends it CANCELLED; the three refusals of R73 change
nothing. What every end of a transfer leaves (R56): the destination is not reserved, the entry with the tag has left the
queue, the robot has the task of a robot without a transfer, TRANSFER_END with the tag, the robot and the result is given
to the fleet port for origin FLEET and else to the plant port, and the end is an assignment event; a linked entry goes to
CLAIMING at DONE, and at any other result it is WAITING without a robot (R92); without a link the scheduler is unchanged. -/
def Obligations.CancelTransferTaken : Prop :=
  (∀ (p : Port) (body : List Byte) (s : State), s.takes .cancelTransfer p body → s.between →
    let tag := byteAt body 0
    (s.yard.transferOf tag = none → exec (.cancelTransfer p body) s = .next (s.answered p 0x31 (.refuse .range))) ∧
    ∀ t, s.yard.transferOf tag = some t →
      (t.origin = .round ∨ t.origin ≠ Yard.portOrigin p →
        exec (.cancelTransfer p body) s = .next (s.answered p 0x31 (.refuse .notOwner))) ∧
      (t.origin ≠ .round → t.origin = Yard.portOrigin p → t.phase ≠ .waiting →
        exec (.cancelTransfer p body) s = .next (s.answered p 0x31 (.refuse .state))) ∧
      (t.origin ≠ .round → t.origin = Yard.portOrigin p → t.phase = .waiting →
        exec (.cancelTransfer p body) s =
          .next ((s.afterEvent ((Yard.closeTransfer t .cancelled s.yard).judgeHoldoff Yard.hand)).answered p 0x31
            (.ok [])))) ∧
  ∀ (y : Yard) (t : Transfer) (result : TransferResult),
    let z := Yard.closeTransfer t result y
    let told : Port := if t.origin = .fleet then .fleet else .plant
    (∀ r, t.destination = .garage r → (z.row r).garageReserved = none) ∧
    (∀ d, t.destination = .dock d → (z.dock d).reservedFor = none) ∧
    z.rail.queue.map (·.tag) = (y.rail.queue.map (·.tag)).filter (fun n => n != t.tag) ∧
    (t.robot < y.robots.length → (z.robot t.robot).task = (y.robot t.robot).restTask) ∧
    z.boxes = y.boxes.set told ((y.boxes.get told).give ⟨.transferEnd, (t.tag, t.robot, 0), result.code, y.stamp⟩) ∧
    z.assign = true ∧
    (t.roundLink = none → z.rounds = y.rounds) ∧
    (∀ r e, t.roundLink = some r → y.entryOf r = some e →
      (result = .done → z.entryOf r = some { e with stage := .claiming }) ∧
      (result ≠ .done → z.entryOf r = some { e with robot := none, stage := .waiting }))

/-- The expiries of the rail's timers (R71, R66): the carriage goes to FAULT, and its transfer ends FAILED_TIMEOUT or its nudge
is ended; its segments stay with it. A carriage that enters FAULT keeps its position and load and loses its order and its
task, the plant and the fleet port are told its recorded position, or FFFFh, and no other carriage changes (R33). What the
end of the transfer leaves is said with CANCEL_TRANSFER.
That an expiry is taken whenever its timer runs is the model's reading (log 6). -/
def Obligations.RailTimerExpiries : Prop :=
  (∀ (s : State), s.running = true →
    (∀ (tag n c : Nat) (t : Transfer), s.yard.transferOf tag = some t → t.phaseTimer = some n → t.carriage = some c →
      (s.yard.carriage c).task = some (.transfer tag) →
      exec (.phaseTimerExpiry tag) s = .next (s.afterEvent
        ((Yard.closeTransfer t .failedTimeout ((s.yard.carriageFaults c).keepSegmentsFaulted c)).judgeHoldoff
          Yard.hand))) ∧
    (∀ c, (s.yard.rail.nudges.getD c none).isSome = true → (s.yard.carriage c).task = some .nudge →
      exec (.nudgeTimerExpiry c) s = .next (s.afterEvent
        ((((s.yard.carriageFaults c).keepSegmentsFaulted c).setNudge c none).judgeHoldoff Yard.hand)))) ∧
  ∀ (y : Yard) (c : Nat), c < y.carriages.length →
    let z := y.carriageFaults c
    let said : Notice := ⟨.carriageFault, (c, 0, 0), (y.carriage c).position.getD 65535, y.stamp⟩
    z.carriage c = { y.carriage c with fault := true, order := none, task := none } ∧
    (∀ i, i ≠ c → z.carriage i = y.carriage i) ∧
    z.boxes.plant = y.boxes.plant.give said ∧ z.boxes.fleet = y.boxes.fleet.give said ∧
    z.boxes.tracker = y.boxes.tracker

/-- Reserving a span takes every segment of it for the carriage and no other segment; releasing a carriage's segments frees
exactly those; a carriage that fails keeps exactly those, with cause FAULT (R58, R63). -/
def Obligations.SpanReserved : Prop :=
  ∀ (y : Yard) (sp : Span) (c s : Nat) (cause : Cause), s < y.rail.segments.length →
    (y.reserveSpan sp c cause).reservation s =
      (if sp.first ≤ s ∧ s ≤ sp.last then some ⟨c, cause⟩ else y.reservation s) ∧
    ((∃ x, y.reservation s = some ⟨c, x⟩) →
      (y.releaseSegments c).reservation s = none ∧ (y.keepSegmentsFaulted c).reservation s = some ⟨c, .fault⟩) ∧
    ((∀ x, y.reservation s ≠ some ⟨c, x⟩) →
      (y.releaseSegments c).reservation s = y.reservation s ∧
        (y.keepSegmentsFaulted c).reservation s = y.reservation s)

/-- An arbiter pass makes no grant and orders no nudge, and changes nothing at all, while the FREEZE lane is high, while a
carriage has an unknown position, and in RECALL, STOWING and PARKED (R60, R62, R47; in these three states by the model's
reading of R47, log 10). Otherwise it judges the WAITING entries in the order of the queue, each on the yard the one before it
left, and the spans of those not granted hold back the younger ones (R62).
The carriage chosen for a source ABOARD is that carriage, where it is IDLE without order, task and fault at a known position;
for another source the nearest that is free and not set aside, the lower index on a tie (R61). The span is from the lowest to the
highest segment of carriage, source and destination (R59). An entry whose span is held back only waits. One whose span is free
of reservations and of other carriages is granted: it takes carriage and span, the span is reserved, the carriage's task is the
tag, its first phase begins with its order and PHASE_LIMIT, and the hold-off level is judged (R63). Where other carriages in the
span alone keep it from its grant, and all are movable, the first whose move passes is nudged: to the row below or above the
span, over a free path without other carriages, in carriage order, with its path reserved, its task NUDGE, its GOTO and its
timer (R64, R65). Otherwise the entry waits.
A hold-off level that changes gives HOLDOFF, source 10 follows, and a fall is an assignment event (R74); one that stays changes
nothing. That the notice comes before the source is the model's reading (log 43). -/
def Obligations.ArbiterHolds : Prop :=
  (∀ y : Yard,
    (y.seen 4 = true ∨ (∃ c, c < y.settings.carriages ∧ (y.carriage c).position = none) ∨ y.mild = false →
      y.arbiterPass = y) ∧
    (y.seen 4 = false → (∀ c, c < y.settings.carriages → (y.carriage c).position.isSome = true) → y.mild = true →
      y.arbiterPass = y.walkTransfers [] (y.rail.queue.map (·.tag)))) ∧
  (∀ (y : Yard) (held : List Span) (tag : Nat) (rest : List Nat),
    y.walkTransfers held [] = y ∧
    (y.transferOf tag = none → y.walkTransfers held (tag :: rest) = y.walkTransfers held rest) ∧
    ∀ t, y.transferOf tag = some t →
      (t.phase ≠ .waiting → y.walkTransfers held (tag :: rest) = y.walkTransfers held rest) ∧
      (t.phase = .waiting → y.walkTransfers held (tag :: rest) =
        (y.judgeTransfer held t).1.walkTransfers (y.judgeTransfer held t).2 rest)) ∧
  (∀ (y : Yard) (t : Transfer),
    let stands := fun c : Nat => (y.carriage c).fault = false ∧ (y.carriage c).order = none
    let free := fun c : Nat => stands c ∧ (y.carriage c).load = none ∧ (y.carriage c).task = none
    let there := (y.placePosition t.destination).getD 0
    (∀ c, t.source = .aboard c →
      (stands c ∧ (y.carriage c).task = none ∧ (y.carriage c).position.isSome = true → y.chooseCarriage t = some c) ∧
      (¬(stands c ∧ (y.carriage c).task = none ∧ (y.carriage c).position.isSome = true) → y.chooseCarriage t = none)) ∧
    (∀ p, (∀ c, t.source ≠ .aboard c) → y.placePosition t.source = some p →
      let away := fun q : Nat => (q - p) + (p - q)
      let chosen := fun c q : Nat => c < y.settings.carriages ∧ (y.carriage c).position = some q ∧ free c ∧
        ∀ i x, i < y.settings.carriages → (y.carriage i).position = some x → min q p < x → x < max q p →
          stands i ∧ (y.carriage i).load = none
      ∀ c, y.chooseCarriage t = some c ↔
        ∃ q, chosen c q ∧ ∀ j x, chosen j x → away q < away x ∨ (away q = away x ∧ c ≤ j)) ∧
    (y.placePosition t.source = none → ∀ chosen, y.candidateSpan t chosen = none) ∧
    ∀ p, y.placePosition t.source = some p →
      y.candidateSpan t none = some ⟨min (p / 8) (there / 8), max (p / 8) (there / 8)⟩ ∧
      ∀ c q, (y.carriage c).position = some q → y.candidateSpan t (some c) =
        some ⟨min (min (q / 8) (p / 8)) (there / 8), max (max (q / 8) (p / 8)) (there / 8)⟩) ∧
  (∀ (y : Yard) (held : List Span) (t : Transfer),
    (y.chooseCarriage t = none → y.candidateSpan t none = none → y.judgeTransfer held t = (y, held)) ∧
    (∀ sp, y.chooseCarriage t = none → y.candidateSpan t none = some sp → y.judgeTransfer held t = (y, sp :: held)) ∧
    ∀ c sp, y.chooseCarriage t = some c → y.candidateSpan t (some c) = some sp →
      let behind := ∃ h ∈ held, sp.first ≤ h.last ∧ h.first ≤ sp.last
      let clear := ∀ s, s < y.rail.segments.length → sp.first ≤ s → s ≤ sp.last → y.reservation s = none
      let within := fun i : Nat => i < y.settings.carriages ∧ i ≠ c ∧
        ∃ x, (y.carriage i).position = some x ∧ sp.first ≤ x / 8 ∧ x / 8 ≤ sp.last
      let movable := fun i : Nat => ((y.carriage i).fault = false ∧ (y.carriage i).order = none) ∧
        (y.carriage i).load = none ∧ (y.carriage i).task = none
      (behind → y.judgeTransfer held t = (y, sp :: held)) ∧
      (¬behind → ¬clear ∨ y.seen 4 = true → y.judgeTransfer held t = (y, sp :: held)) ∧
      (¬behind → clear → y.seen 4 = false →
        ((∀ i, ¬within i) → y.judgeTransfer held t = (y.grant t c sp, held)) ∧
        ((∃ i, within i ∧ ¬movable i) → y.judgeTransfer held t = (y, sp :: held)) ∧
        ((∃ i, within i) → (∀ i, within i → movable i) → ∃ inWay : List Nat,
          inWay.Pairwise (· < ·) ∧ (∀ i, i ∈ inWay ↔ within i) ∧
            y.judgeTransfer held t = (y.nudgeFirst sp c inWay, sp :: held)))) ∧
  (∀ (y : Yard) (t : Transfer) (c : Nat) (sp : Span),
    let taken := ((y.setTransfer t.tag fun x => { x with carriage := some c, span := some sp }).reserveSpan sp c
      (.transfer t.tag)).setCarriage c fun w => { w with task := some (.transfer t.tag) }
    let begun := fun (phase : Phase) (o : CarriageOrder) =>
      ((taken.setTransfer t.tag fun x => { x with phase := phase, phaseTimer := some y.settings.phaseLimit }).orderCarriage
        c o).judgeHoldoff Yard.handQuiet
    let at_ := (y.carriage c).position
    let there := (y.placePosition t.destination).getD 0
    (∀ d, t.destination ≠ .aboard d) →
    (∀ a, t.source = .aboard a → at_ = some there → y.grant t c sp = begun .alight (.alight t.robot t.destination)) ∧
    (∀ a, t.source = .aboard a → at_ ≠ some there → y.grant t c sp = begun .carry (.goto there)) ∧
    (∀ p, (∀ a, t.source ≠ .aboard a) → y.placePosition t.source = some p →
      (at_ = some p → y.grant t c sp = begun .board (.board t.robot)) ∧
      (at_ ≠ some p → y.grant t c sp = begun .fetch (.goto p)))) ∧
  (∀ (y : Yard) (sp : Span) (c i : Nat) (rest : List Nat),
    y.nudgeFirst sp c [] = y ∧
    ∀ p, (y.carriage i).position = some p →
      let target := if i < c then 8 * sp.first - 1 else 8 * (sp.last + 1)
      let path : Span := ⟨min (p / 8) (target / 8), max (p / 8) (target / 8)⟩
      let passes := (if i < c then 0 < sp.first else target < y.rows.length) ∧
        (∀ j x, j < y.settings.carriages → (y.carriage j).position = some x →
          (j < i → x < target) ∧ (i < j → target < x)) ∧
        (∀ s, s < y.rail.segments.length → path.first ≤ s → s ≤ path.last → y.reservation s = none) ∧
        ∀ j x, j < y.settings.carriages → j ≠ i → (y.carriage j).position = some x →
          ¬(path.first ≤ x / 8 ∧ x / 8 ≤ path.last)
      (passes → y.nudgeFirst sp c (i :: rest) =
        ((((y.reserveSpan path i .nudge).setCarriage i fun w => { w with task := some .nudge }).orderCarriage i
          (.goto target)).setNudge i (some ⟨target, y.settings.phaseLimit⟩)).judgeHoldoff Yard.handQuiet) ∧
      (¬passes → y.nudgeFirst sp c (i :: rest) = y.nudgeFirst sp c rest)) ∧
  ∀ (y : Yard) (hand : Edge → List Nat → Yard → Yard),
    let level := decide (y.settings.holdoffCount ≤ y.rail.queue.length) ||
      decide (y.settings.holdoffSegments ≤ y.rail.segments.countP Option.isSome)
    let changed := { y with rail := { y.rail with holdoff := level } }
    let told := Yard.followWith hand 10 y (changed.notify .fleet .holdoff (0, 0, 0) (if level then 1 else 0))
    (level = y.rail.holdoff → y.judgeHoldoff hand = y) ∧
    (level ≠ y.rail.holdoff → y.judgeHoldoff hand = if level then told else told.giveAssign)

/-! ### Rounds -/

/-- The rank is a total order of rows by the four tests of R82, the ranked candidates are the candidates in that order, and
they are appended in it behind the entries of the list, which keep their order. -/
def Obligations.RankOrder : Prop :=
  ∀ (y : Yard) (rows : List Nat),
    (y.ranked rows).Perm rows ∧ (y.ranked rows).Pairwise (fun a b => y.ranksBefore b a = false) ∧
    (∀ a b, a ≠ b → (y.ranksBefore a b = true ↔ y.ranksBefore b a = false)) ∧
    (∀ a b, y.ranksBefore a b = true ↔
      let sa := (y.row a).soiling
      let sb := (y.row b).soiling
      (sa = none ∧ sb ≠ none) ∨
      (∃ m n, sa = some m ∧ sb = some n ∧ n < m) ∨
      (sa = sb ∧ (y.row b).age < (y.row a).age) ∨
      (sa = sb ∧ (y.row a).age = (y.row b).age ∧ a < b)) ∧
    ∀ (o : EntryOrigin) (kindOf : Nat → PassKind), (y.appendCandidates o kindOf rows).1.rounds.list =
      y.rounds.list ++ ((y.ranked rows).take (16 - y.rounds.list.length)).map fun r => ⟨r, kindOf r, o, none, .waiting⟩

/-- The build counts (R84): a missed build and a sweep change none; a taken build of group g increases that group's count by one,
and where SURVEY_EVERY is above 0 and the count has reached it, the build is a survey build and the count is 0 again; at
SURVEY_EVERY 0 every build is ordinary and the count stays at 15. -/
def Obligations.BuildCount : Prop :=
  ∀ (y : Yard) (g : Nat),
    let old := y.rounds.buildCounts.getD g 0
    let every := y.settings.surveyEvery
    (y.roundsTaken = false → (y.build g).1.rounds.buildCounts = y.rounds.buildCounts) ∧
    y.makeSweep.1.rounds.buildCounts = y.rounds.buildCounts ∧
    (y.roundsTaken = true →
      (y.build g).1.rounds.buildCounts = y.rounds.buildCounts.set g (y.surveyDecision g).2) ∧
    (0 < every → every ≤ 15 → every ≤ old + 1 → y.surveyDecision g = (true, 0)) ∧
    (0 < every → every ≤ 15 → old + 1 < every → y.surveyDecision g = (false, old + 1)) ∧
    (every = 0 → y.surveyDecision g = (false, min (old + 1) 15))

/-- The candidates of a build and of a sweep, and their kinds; a taken build or sweep appends them, ranked, as WAITING entries
up to the free capacity (R81, R85, R87). -/
def Obligations.BuildCandidates : Prop :=
  ∀ (y : Yard) (g r : Nat) (survey : Bool),
    let free := ((y.row r).custody = .track ∨ (y.row r).custody = .settle) ∧ y.barred r = false ∧ y.entryOf r = none
    let old := y.settings.cleanInterval * 60 ≤ (y.row r).age
    (r ∈ y.buildCandidates g survey ↔ r < y.rows.length ∧ r % y.settings.groups = g ∧ free ∧
      (survey = true ∨ (y.row r).soiling = none ∨
        ∃ v, (y.row r).soiling = some v ∧ (y.settings.dirtyLimit ≤ v ∨ old))) ∧
    (r ∈ y.sweepCandidates ↔ r < y.rows.length ∧ free ∧
      ((y.row r).soiling = none ∨ ∃ v, (y.row r).soiling = some v ∧ (y.settings.sweepLimit ≤ v ∨ old))) ∧
    ((y.row r).soiling = none → y.buildKind survey r = .survey ∧ y.sweepKind r = .survey) ∧
    (∀ v, (y.row r).soiling = some v →
      y.buildKind survey r = (if survey = true ∧ v < y.settings.dirtyLimit then .survey else .clean) ∧
      y.sweepKind r = .clean) ∧
    (y.roundsTaken = true →
      let room := 16 - y.rounds.list.length
      ((y.surveyDecision g).1 = survey → (y.build g).1.rounds.list = y.rounds.list ++
        ((y.ranked (y.buildCandidates g survey)).take room).map fun q => ⟨q, y.buildKind survey q, .build, none, .waiting⟩) ∧
      y.makeSweep.1.rounds.list = y.rounds.list ++
        ((y.ranked y.sweepCandidates).take room).map fun q => ⟨q, y.sweepKind q, .sweep, none, .waiting⟩)

/-- The plant's requests on rounds and the round timer (R83, R86 to R89). A Round Build and a Sweep in CALM answer OK with the
numbers added and skipped; out of CALM they are missed, counted and refused STATE. A Round Build of a group of G or more is
refused RANGE and changes nothing, also out of CALM, by the model's choice (log 42). A Plant Pass of a row of ROWS or more,
or of another kind, is refused RANGE; then in PARKED it is IGNORED, and in WARNED, RECALL and STOWING refused STATE; then a
barred row is refused BARRED; then an assigned entry is refused STATE, and a WAITING one is moved to the head with the kind
asked and origin PLANT; a Plant Pass of a row with no entry, with room in the list, puts an entry at the head. Cancel Entry
removes a WAITING entry; an assigned one is refused STATE, and a row of ROWS or more, or with no entry, RANGE. The round
timer's expiry starts it again, pulses ROUND_DUE, builds in TIMER mode, tells the plant port, and advances the rotation; the
detail it tells is the number of entries added modulo 256, 256 for a missed build, and 512 for none made in REQUEST mode. A
Plant Pass into a list of 16 removes the WAITING entry nearest the tail, counts it in rows_skipped, and puts its own at the
head; where all 16 are assigned it is answered FULL, and counted in inserts_dropped alone (R81, R88). So does any entry put
at the head. A removed entry leaves the list, and its robot's round_link is cleared (R80).
That an expiry is taken whenever its timer runs is the model's reading (log 6). -/
def Obligations.RoundEvents : Prop :=
  (∀ (p : Port) (body : List Byte) (s : State), s.between →
    let a := byteAt body 0
    let missed := s.yard.countRounds fun n => { n with roundsMissed := min (n.roundsMissed + 1) 65535 }
    (s.takes .roundBuild p body → a < s.yard.settings.groups → s.yard.storm.state = .calm → s.yard.startUp = .ready →
      ∃ added skipped, (s.yard.build a).2 = some (added, skipped) ∧ exec (.roundBuild p body) s =
        .next ((s.afterEvent (s.yard.build a).1).answered p 0x40 (.ok [byte added, byte skipped]))) ∧
    (s.takes .roundBuild p body → a < s.yard.settings.groups → s.yard.storm.state ≠ .calm →
      exec (.roundBuild p body) s = .next ((s.withYard missed).answered p 0x40 (.refuse .state))) ∧
    (s.takes .roundBuild p body → s.yard.settings.groups ≤ a →
      exec (.roundBuild p body) s = .next (s.answered p 0x40 (.refuse .range))) ∧
    (s.takes .sweep p body → s.yard.storm.state = .calm → s.yard.startUp = .ready →
      ∃ added skipped, s.yard.makeSweep.2 = some (added, skipped) ∧ exec (.sweep p body) s =
        .next ((s.afterEvent s.yard.makeSweep.1).answered p 0x41 (.ok [byte added, byte skipped]))) ∧
    (s.takes .sweep p body → s.yard.storm.state ≠ .calm →
      exec (.sweep p body) s = .next ((s.withYard missed).answered p 0x41 (.refuse .state))) ∧
    (∀ kind, s.takes .plantPass p body → passKindOf (byteAt body 1) = some kind → a < s.yard.rows.length →
      s.yard.storm.state = .calm → s.yard.barred a = false → s.yard.entryOf a = none →
      s.yard.rounds.list.length < 16 →
      let listed := { s.yard with rounds := { s.yard.rounds with
        list := ⟨a, kind, .plant, none, .waiting⟩ :: s.yard.rounds.list } }
      exec (.plantPass p body) s = .next ((s.afterEvent listed.giveAssign).answered p 0x42 (.ok []))) ∧
    (∀ kind, s.takes .plantPass p body → passKindOf (byteAt body 1) = some kind → a < s.yard.rows.length →
      s.yard.storm.state = .calm → s.yard.barred a = false → s.yard.entryOf a = none →
      16 ≤ s.yard.rounds.list.length →
      let own : Entry := ⟨a, kind, .plant, none, .waiting⟩
      (∀ front x back, s.yard.rounds.list = front ++ x :: back → x.stage = .waiting → (∀ e ∈ back, e.stage ≠ .waiting) →
        let roomy := (s.yard.removeEntry x.row).countRounds fun n => { n with rowsSkipped := min (n.rowsSkipped + 1) 65535 }
        let listed := { roomy with rounds := { roomy.rounds with list := own :: roomy.rounds.list } }
        exec (.plantPass p body) s = .next ((s.afterEvent listed.giveAssign).answered p 0x42 (.ok []))) ∧
      ((∀ e ∈ s.yard.rounds.list, e.stage ≠ .waiting) → exec (.plantPass p body) s =
        .next ((s.withYard (s.yard.countRounds fun n =>
          { n with insertsDropped := min (n.insertsDropped + 1) 65535 })).answered p 0x42 (.plain .full)))) ∧
    (∀ kind e, s.takes .plantPass p body → passKindOf (byteAt body 1) = some kind → a < s.yard.rows.length →
      s.yard.storm.state = .calm → s.yard.barred a = false → s.yard.entryOf a = some e →
      (e.stage = .waiting →
        let moved := { s.yard with rounds := { s.yard.rounds with list :=
          { e with kind := kind, origin := .plant } :: s.yard.rounds.list.filter fun x => x.row != e.row } }
        exec (.plantPass p body) s = .next ((s.afterEvent moved.giveAssign).answered p 0x42 (.ok []))) ∧
      (e.stage ≠ .waiting → exec (.plantPass p body) s = .next (s.answered p 0x42 (.refuse .state)))) ∧
    (s.takes .plantPass p body → passKindOf (byteAt body 1) = none ∨ s.yard.rows.length ≤ a →
      exec (.plantPass p body) s = .next (s.answered p 0x42 (.refuse .range))) ∧
    (∀ kind, s.takes .plantPass p body → passKindOf (byteAt body 1) = some kind → a < s.yard.rows.length →
      (s.yard.storm.state = .parked → exec (.plantPass p body) s = .next (s.answered p 0x42 (.plain .ignored))) ∧
      (s.yard.storm.state = .warned ∨ s.yard.storm.state = .recall ∨ s.yard.storm.state = .stowing →
        exec (.plantPass p body) s = .next (s.answered p 0x42 (.refuse .state))) ∧
      (s.yard.storm.state = .calm → s.yard.barred a = true →
        exec (.plantPass p body) s = .next (s.answered p 0x42 (.refuse .barred)))) ∧
    (s.takes .cancelEntry p body → s.yard.rows.length ≤ a ∨ s.yard.entryOf a = none →
      exec (.cancelEntry p body) s = .next (s.answered p 0x43 (.refuse .range))) ∧
    (∀ e, s.takes .cancelEntry p body → a < s.yard.rows.length → s.yard.entryOf a = some e →
      (e.stage = .waiting →
        exec (.cancelEntry p body) s = .next ((s.afterEvent (s.yard.removeEntry a)).answered p 0x43 (.ok []))) ∧
      (e.stage ≠ .waiting → exec (.cancelEntry p body) s = .next (s.answered p 0x43 (.refuse .state)))) ∧
    (s.running = true → s.yard.rounds.timer.isSome = true →
      let g := s.yard.rounds.rotation
      let due := Yard.pulse 9 { s.yard with rounds := { s.yard.rounds with
        timer := some (s.yard.settings.roundPeriod * 60) } }
      let told := ((due.timerBuild g).1.notify .plant .roundDue (g, 0, 0) (due.timerBuild g).2)
      exec .roundTimerExpiry s = .next (s.afterEvent { told with rounds := { told.rounds with
        rotation := (g + 1) % s.yard.settings.groups } }))) ∧
  (∀ (y : Yard) (g : Nat),
    (∀ added skipped, y.settings.roundSource = .timer → (y.build g).2 = some (added, skipped) →
      y.timerBuild g = ((y.build g).1, added % 256)) ∧
    (y.settings.roundSource = .timer → (y.build g).2 = none → y.timerBuild g = ((y.build g).1, 256)) ∧
    (y.settings.roundSource = .request → y.timerBuild g = (y, 512))) ∧
  ∀ (y : Yard) (own : Entry) (r : Nat),
    let skip := fun n : RoundCounters => { n with rowsSkipped := min (n.rowsSkipped + 1) 65535 }
    let head := fun z : Yard => { z with rounds := { z.rounds with list := own :: z.rounds.list } }.giveAssign
    (y.rounds.list.length < 16 → y.insertHead own = (head y, true)) ∧
    (16 ≤ y.rounds.list.length →
      (∀ front x back, y.rounds.list = front ++ x :: back → x.stage = .waiting → (∀ e ∈ back, e.stage ≠ .waiting) →
        y.insertHead own = (head ((y.removeEntry x.row).countRounds skip), true)) ∧
      ((∀ e ∈ y.rounds.list, e.stage ≠ .waiting) → y.insertHead own =
        (y.countRounds fun n => { n with insertsDropped := min (n.insertsDropped + 1) 65535 }, false))) ∧
    (y.removeEntry r).rounds.list = y.rounds.list.filter (fun e => e.row ≠ r) ∧
    ∀ e k, y.entryOf r = some e → e.robot = some k → k < y.robots.length →
      (y.removeEntry r).robot k = { y.robot k with roundLink := none }

/-! ### Alerts and the met receiver -/

/-- Raise Alert pulses its port's soft source; Set Lane gives the lane its source and hands a changed level on as a rise or a
fall; Set Listener gives a listener its selection: no edge for an edge listener, the watch judged where WATCH's seen level
changes, an assignment event where SUSPEND's falls, an arbiter pass where FREEZE's falls, a stretch of an output listener
stopped; Test Pulse hands a test edge to the lane's listeners, and one of a lane above 7 is refused RANGE and changes
nothing (R114, R108, R110, R113). A source that pulses hands a pulse edge, and one whose level changes a rise or a fall, to
the listeners whose lanes carry it; the levels are those of R105's sources. A lane has the level of its source, low for a
pulse source and for source 0 (R107); a listener sees the level of its lane, low for selection 0 (R109); OUT_A and OUT_B are
high exactly while the listener's seen level is high or the stretch runs (R111). What an edge does, listener by listener
(R107, R109, R111 to R113): at WATCH a rise in CALM changes the state to WARNED and settles the FLATTENING rows, their
entries back in CLAIMING, and a fall in WARNED changes it to CALM, an assignment event (R124, R125, R19); a rise, a pulse or
a test edge at STOW begins a recall, at SWEEP makes a sweep, at a NOTE listener gives ALERT to its port; a fall of FREEZE
runs an arbiter pass and one of SUSPEND gives an assignment event; a pulse starts the stretch of OUT_A or OUT_B; every other
pair does nothing. An edge at several listeners does what each does, once, in some order: which order is the model's free
value (log 8), but that the pass of FREEZE comes last where HOLDOFF itself falls (R105; log 9), and, by the model's choice,
where a Set Lane takes the lane from another high source to HOLDOFF while HOLDOFF is low (log 45). That a Set Listener of
the selection already held is no change is the model's reading (log 34). -/
def Obligations.AlertRequests : Prop :=
  (∀ (p : Port) (body : List Byte) (s : State), s.between →
    let a := byteAt body 0
    let b := byteAt body 1
    let wired := { s.yard with alerts := { s.yard.alerts with lanes := s.yard.alerts.lanes.set a b } }
    let chosen := { s.yard with alerts := { s.yard.alerts with listeners := s.yard.alerts.listeners.set a b } }
    (s.takes .raiseAlert p body → exec (.raiseAlert p body) s = .next ((s.afterEvent
      (s.yard.pulse (match p with | .plant => 15 | .tracker => 16 | .fleet => 17))).answered p 0x03 (.ok []))) ∧
    (s.takes .setLane p body → a ≤ 7 → b ≤ 17 → (a ≤ 3 ∨ b = 0 ∨ 8 ≤ b) →
      (s.yard.laneLevel a = wired.laneLevel a →
        exec (.setLane p body) s = .next ((s.withYard wired).answered p 0x50 (.ok []))) ∧
      (s.yard.laneLevel a = false → wired.laneLevel a = true → exec (.setLane p body) s =
        .next ((s.afterEvent (Yard.hand .rise (wired.listenersOf a) wired)).answered p 0x50 (.ok []))) ∧
      (s.yard.laneLevel a = true → wired.laneLevel a = false → exec (.setLane p body) s =
        .next ((s.afterEvent (Yard.hand .fall (wired.listenersOf a) wired)).answered p 0x50 (.ok [])))) ∧
    (s.takes .setLane p body → 7 < a ∨ 17 < b ∨ (4 ≤ a ∧ 1 ≤ b ∧ b ≤ 7) →
      exec (.setLane p body) s = .next (s.answered p 0x50 (.refuse .range))) ∧
    (s.takes .setListener p body → a ≤ 9 → b ≤ 8 → s.yard.selection a = b →
      exec (.setListener p body) s = .next (s.answered p 0x51 (.ok []))) ∧
    (s.takes .setListener p body → a ≤ 9 → b ≤ 8 → s.yard.selection a ≠ b →
      (a = 1 ∨ a = 3 ∨ a = 7 ∨ a = 8 ∨ a = 9 → exec (.setListener p body) s =
        .next ((s.withYard chosen).answered p 0x51 (.ok []))) ∧
      (a = 0 → exec (.setListener p body) s = .next ((s.afterEvent
        (if s.yard.seen 0 = chosen.seen 0 then chosen
          else Yard.hand (if chosen.seen 0 then .rise else .fall) [0] chosen)).answered p 0x51 (.ok []))) ∧
      (a = 2 → exec (.setListener p body) s = .next ((s.afterEvent
        (if s.yard.seen 2 = true ∧ chosen.seen 2 = false then chosen.giveAssign else chosen)).answered p 0x51 (.ok []))) ∧
      (a = 4 → exec (.setListener p body) s = .next ((s.afterEvent
        (if s.yard.seen 4 = true ∧ chosen.seen 4 = false then chosen.arbiterPass else chosen)).answered p 0x51 (.ok []))) ∧
      (a = 5 → exec (.setListener p body) s = .next ((s.withYard
        { chosen with alerts := { chosen.alerts with stretchA := false } }).answered p 0x51 (.ok []))) ∧
      (a = 6 → exec (.setListener p body) s = .next ((s.withYard
        { chosen with alerts := { chosen.alerts with stretchB := false } }).answered p 0x51 (.ok [])))) ∧
    (s.takes .setListener p body → 9 < a ∨ 8 < b →
      exec (.setListener p body) s = .next (s.answered p 0x51 (.refuse .range))) ∧
    (s.takes .testPulse p body → a ≤ 7 → exec (.testPulse p body) s =
      .next ((s.afterEvent (Yard.hand .test (s.yard.listenersOf a) s.yard)).answered p 0x52 (.ok []))) ∧
    (s.takes .testPulse p body → 7 < a →
      exec (.testPulse p body) s = .next (s.answered p 0x52 (.refuse .range)))) ∧
  (∀ (y : Yard) (e : Edge),
    let edge := e = .rise ∨ e = .pulse ∨ e = .test
    let test := e == .test
    let note := fun (p : Port) (i : Nat) =>
      y.notify p .alert (y.selection i - 1, 0, 0) (y.laneSource (y.selection i - 1) + if test then 256 else 0)
    (e = .rise → Yard.hand e [0] y = if y.storm.state = .calm
      then (y.changeStorm .warned .watchRise none).overRows Yard.endFlatten else y) ∧
    (e = .fall → Yard.hand e [0] y = if y.storm.state = .warned
      then (y.changeStorm .calm .watchFall none).giveAssign else y) ∧
    (e = .pulse ∨ e = .test → Yard.hand e [0] y = y) ∧
    (edge → Yard.hand e [1] y = y.beginRecall .stowEdge (some ⟨y.selection 1 - 1, test⟩)) ∧
    (Yard.hand e [2] y = if e = .fall then y.giveAssign else y) ∧
    (edge → Yard.hand e [3] y = y.makeSweep.1) ∧
    (Yard.hand e [4] y = if e = .fall then y.arbiterPass else y) ∧
    (Yard.hand e [5] y = if e = .pulse then { y with alerts := { y.alerts with stretchA := true } } else y) ∧
    (Yard.hand e [6] y = if e = .pulse then { y with alerts := { y.alerts with stretchB := true } } else y) ∧
    (edge → Yard.hand e [7] y = note .plant 7 ∧ Yard.hand e [8] y = note .tracker 8 ∧ Yard.hand e [9] y = note .fleet 9) ∧
    (e = .fall → ∀ i, i = 1 ∨ i = 3 ∨ 7 ≤ i → Yard.hand e [i] y = y)) ∧
  (∀ (y : Yard) (e : Edge) (listeners : List Nat),
    let stretched := if e = .pulse then y.stretch listeners else y
    let given := if e = .fall ∧ 2 ∈ listeners then stretched.giveAssign else stretched
    let last := y.laneSource (y.selection 4 - 1) == 10
    ∃ (order : List Nat) (draws : Nat), order.Perm (listeners.filter fun i => e.actsOn i && !(i == 4 && last)) ∧
      let acted := order.foldl (fun z i => Yard.hand e [i] z) { given with freeCount := draws }
      Yard.hand e listeners y = if e = .fall ∧ 4 ∈ listeners ∧ last = true then acted.arbiterPass else acted) ∧
  (∀ (y : Yard) (r : Nat), r < y.rows.length →
    ((y.row r).custody ≠ .flattening → Yard.endFlatten r y = y) ∧
    ((y.row r).custody = .flattening →
      (Yard.endFlatten r y).row r =
        { y.row r with custody := .settle, holder := none, timer := some y.settings.settleTime } ∧
      (∀ q, q ≠ r → (Yard.endFlatten r y).row q = y.row q) ∧
      ∀ e, y.entryOf r = some e → (Yard.endFlatten r y).entryOf r =
        some (if e.stage = .flattening then { e with stage := .claiming } else e))) ∧
  ∀ (y z : Yard) (src : Nat) (hand : Edge → List Nat → Yard → Yard),
    let carrying := fun x : Yard => (List.range 10).filter fun i =>
      decide (0 < x.selection i) && x.laneSource (x.selection i - 1) == src
    y.pulse src = Yard.hand .pulse (carrying y) y ∧
    (y.sourceLevel src = z.sourceLevel src → Yard.followWith hand src y z = z) ∧
    (y.sourceLevel src = false → z.sourceLevel src = true → Yard.followWith hand src y z = hand .rise (carrying z) z) ∧
    (y.sourceLevel src = true → z.sourceLevel src = false → Yard.followWith hand src y z = hand .fall (carrying z) z) ∧
    (y.sourceLevel 1 = y.alerts.lineW.level ∧ y.sourceLevel 2 = y.alerts.lineD.level ∧ y.sourceLevel 7 = y.metSilent ∧
      y.sourceLevel 10 = y.rail.holdoff ∧ (y.sourceLevel 11 = true ↔ y.storm.state = .parked) ∧
      (y.sourceLevel 13 = true ↔ ∃ w ∈ y.rows, w.custody = .exposed) ∧
      ∀ n, n ≠ 1 ∧ n ≠ 2 ∧ n ≠ 7 ∧ n ≠ 10 ∧ n ≠ 11 ∧ n ≠ 13 → y.sourceLevel n = false) ∧
    (∀ l, y.laneLevel l = y.sourceLevel (y.alerts.lanes.getD l 0)) ∧
    (∀ i, (y.alerts.listeners.getD i 0 = 0 → y.seen i = false) ∧
      ∀ l, y.alerts.listeners.getD i 0 = l + 1 → y.seen i = y.laneLevel l) ∧
    (y.outLevel .a = true ↔ y.seen 5 = true ∨ y.alerts.stretchA = true) ∧
    (y.outLevel .b = true ↔ y.seen 6 = true ∨ y.alerts.stretchB = true)

/-- The one-second filter of an alarm input: a first sample that differs from the level starts it, a second that differs
changes the level, a sample that agrees stops it (R106). A sample of both inputs puts each through its filter: where no
filtered level changes, the filters alone take it, a first sample that differs among them; where one changes, LINE_W or
LINE_D moves, and source 1 or source 2 follows (R105); where both change, both move, in some order: which order is the
model's free value (log 8). The expiry of a stretch timer stops it (R111). -/
def Obligations.AlertTime : Prop :=
  (∀ (f : Filter) (x : Bool),
    (x = f.level → f.take x = ⟨f.level, x, false⟩) ∧
    (x ≠ f.level → f.started = false → f.take x = ⟨f.level, x, true⟩) ∧
    (x ≠ f.level → f.started = true → f.take x = ⟨x, x, false⟩)) ∧
  ∀ s : State, s.running = true → s.between →
    let w := s.yard.alerts.lineW
    let d := s.yard.alerts.lineD
    (∀ a b : Bool,
      let fw := w.take a
      let fd := d.take b
      let stand := { s.yard with alerts := { s.yard.alerts with
        lineW := if fw.level = w.level then fw else w
        lineD := if fd.level = d.level then fd else d } }
      let take := fun (y : Yard) (source : Nat) => Yard.followWith Yard.hand source y { y with alerts :=
        if source = 1 then { y.alerts with lineW := fw } else { y.alerts with lineD := fd } }
      (fw.level = w.level → fd.level = d.level → exec (.alarmInputSample a b) s = .next (s.withYard stand)) ∧
      (fw.level ≠ w.level → fd.level = d.level →
        exec (.alarmInputSample a b) s = .next (s.afterEvent (take stand 1))) ∧
      (fw.level = w.level → fd.level ≠ d.level →
        exec (.alarmInputSample a b) s = .next (s.afterEvent (take stand 2))) ∧
      (fw.level ≠ w.level → fd.level ≠ d.level → ∃ draws : Nat,
        let drawn := { stand with freeCount := draws }
        exec (.alarmInputSample a b) s = .next (s.afterEvent (take (take drawn 1) 2)) ∨
        exec (.alarmInputSample a b) s = .next (s.afterEvent (take (take drawn 2) 1)))) ∧
    exec (.stretchTimerExpiry .a) s =
      .next (s.withYard { s.yard with alerts := { s.yard.alerts with stretchA := false } }) ∧
    exec (.stretchTimerExpiry .b) s =
      .next (s.withYard { s.yard with alerts := { s.yard.alerts with stretchB := false } })

/-- A pattern's run (R119): a frame fails an entry whose field set is empty, and meets one exactly where every field of the set
meets its comparison; the counter follows the table, and the entry pulses at the frame that completes its run. -/
def Obligations.PatternRun : Prop :=
  ∀ (pt : Pattern) (fields : List Nat),
    (pt.meets fields = true ↔ (∃ i, i < 8 ∧ pt.inSet.getD i false = true) ∧
      ∀ i, i < 8 → pt.inSet.getD i false = true →
        (pt.below.getD i false = true ∧ fields.getD i 0 ≤ pt.thresholds.getD i 0) ∨
        (pt.below.getD i false = false ∧ pt.thresholds.getD i 0 ≤ fields.getD i 0)) ∧
    (pt.meets fields = false → (pt.judge fields) = { pt with runCounter := 0 } ∧ pt.pulses fields = false) ∧
    (pt.meets fields = true → pt.runCounter + 1 < pt.runLength →
      pt.judge fields = { pt with runCounter := pt.runCounter + 1 } ∧ pt.pulses fields = false) ∧
    (pt.meets fields = true → pt.runCounter + 1 = pt.runLength →
      pt.judge fields = { pt with runCounter := pt.runLength } ∧ pt.pulses fields = true) ∧
    (pt.meets fields = true → pt.runCounter = pt.runLength → pt.judge fields = pt ∧ pt.pulses fields = false)

/-- The met receiver (R116 to R118, R120): a frame whose check fails is counted and dropped; a duplicate restarts the timer and
is not stored; a new frame is stored with the present stamp, counted, and judged by every pattern; stray bytes and gaps are
counted; silence raises MET_SILENT and breaks every run; Set Pattern writes the entry and sets its counter to 0. MET_SILENT
takes its level and source 7 follows; at a new frame it goes low, and then source i + 3 pulses once for each pattern i whose
run the frame completes, in some order: which order is the model's free value (log 8).
That a byte 3Ch begins a frame by itself (log 3) and that the silence timer waits for the settings (log 33) is the model's
choice. That an expiry is taken whenever its timer runs is the model's reading (log 6). -/
def Obligations.MetEvents : Prop :=
  (∀ (seq : Byte) (fields : List Word) (check : Word) (s : State), s.resetN = true →
    let m := s.met
    let n := m.counters
    let good := frameCheck (metCovered seq fields)
    let values := fields.map BitVec.toNat
    let timer := if s.running = true then some s.yard.settings.metSilence else m.timer
    let same := ∃ r, m.last = some r ∧ r.seq = seq.toNat
    (check ≠ good → exec (.metFrame seq fields check) s = .next { s with met :=
      { m with inFrame := false, counters := { n with badFrames := min (n.badFrames + 1) 65535 } } }) ∧
    (check = good → same → exec (.metFrame seq fields check) s = .next { s.afterEvent (s.yard.metSilence false) with met :=
      { m with inFrame := false, timer := timer, counters := { n with dupFrames := min (n.dupFrames + 1) 65535 } } }) ∧
    (check = good → ¬same →
      let gap := ∃ r, m.last = some r ∧ (r.seq + 1) % 256 ≠ seq.toNat
      ∃ c, c.goodFrames = min (n.goodFrames + 1) 65535 ∧ c.dupFrames = n.dupFrames ∧
        (gap → c.seqGaps = min (n.seqGaps + 1) 65535) ∧ (¬gap → c.seqGaps = n.seqGaps) ∧
        c.badFrames = n.badFrames ∧ c.shortFrames = n.shortFrames ∧ c.strayBytes = n.strayBytes ∧
        exec (.metFrame seq fields check) s = .next { s.afterEvent (s.yard.newFrame (m.pulsing values)) with met :=
          { m with
            inFrame := false
            last := some ⟨seq.toNat, values, s.yard.stamp⟩
            timer := timer
            patterns := m.patterns.map fun pt => pt.judge values
            counters := c } }) ∧
    (∀ b : Byte, m.inFrame = false → b ≠ 0x3C → exec (.metStrayByte b) s = .next { s with met :=
      { m with counters := { n with strayBytes := min (n.strayBytes + 1) 65535 } } }) ∧
    (m.inFrame = false → exec (.metStrayByte 0x3C) s = .next { s with met := { m with inFrame := true } }) ∧
    exec .metFrameGap s = .next { s with met :=
      { m with inFrame := false, counters := { n with shortFrames := min (n.shortFrames + 1) 65535 } } } ∧
    (s.running = true → m.timer.isSome = true →
      exec .metSilenceExpiry s = .next { s.afterEvent (s.yard.metSilence true) with met :=
        { m with timer := none, patterns := m.patterns.map fun pt => { pt with runCounter := 0 } } }) ∧
    (∀ (p : Port) (body : List Byte), s.takes .setPattern p body →
      let entry : Pattern := ⟨bitsOf (byteAt body 1), (List.range 8).map fun i => wordAt body (2 + 2 * i),
        bitsOf (byteAt body 18), byteAt body 19, 0⟩
      let written := m.patterns.set (byteAt body 0) entry
      (byteAt body 0 ≤ 3 → 1 ≤ byteAt body 19 → byteAt body 19 ≤ 15 → exec (.setPattern p body) s =
        .next ({ s with met := { m with patterns := written } }.answered p 0x53 (.ok []))) ∧
      (3 < byteAt body 0 ∨ byteAt body 19 = 0 ∨ 15 < byteAt body 19 →
        exec (.setPattern p body) s = .next (s.answered p 0x53 (.refuse .range))))) ∧
  (∀ (m : Met) (values : List Nat) (i : Nat),
    (m.pulsing values).Nodup ∧ (i ∈ m.pulsing values ↔ i < 4 ∧ (m.patterns.getD i freshPattern).pulses values = true)) ∧
  ∀ (y : Yard) (level : Bool) (pulsing : List Nat),
    y.metSilence level = Yard.followWith Yard.hand 7 y { y with metSilent := level } ∧
    ∃ (order : List Nat) (draws : Nat), order.Perm pulsing ∧ y.newFrame pulsing =
      order.foldl (fun z i => z.pulse (i + 3)) { y.metSilence false with freeCount := draws }

/-! ### The storm -/

/-- Stow Now and Release (R126, R137). Stow Now in CALM or WARNED begins RECALL: the storm is on when it is answered, with the
storm state as it then stands; in the other states it changes nothing. Release is refused out of PARKED and changes nothing;
in PARKED with WATCH or STOW high it is refused and counted; otherwise the block is released. -/
def Obligations.StormRequests : Prop :=
  ∀ (p : Port) (body : List Byte) (s : State), s.between →
    let refused := s.yard.countStorm fun n => { n with releaseRefusals := min (n.releaseRefusals + 1) 65535 }
    (s.takes .stowNow p body → s.yard.mild = true →
      ∃ y, y.mild = false ∧ y = Yard.beginRecall .stowNow none s.yard ∧
        exec (.stowNow p body) s = .next ((s.afterEvent y).answered p 0x60 (.ok [byte y.storm.state.code]))) ∧
    (s.takes .stowNow p body → s.yard.mild = false →
      exec (.stowNow p body) s = .next (s.answered p 0x60 (.ok [byte s.yard.storm.state.code]))) ∧
    (s.takes .release p body → s.yard.storm.state ≠ .parked →
      exec (.release p body) s = .next (s.answered p 0x61 (.refuse .state))) ∧
    (s.takes .release p body → s.yard.storm.state = .parked → (s.yard.seen 0 = true ∨ s.yard.seen 1 = true) →
      exec (.release p body) s = .next ((s.withYard refused).answered p 0x61 (.refuse .alertActive))) ∧
    (s.takes .release p body → s.yard.storm.state = .parked → s.yard.seen 0 = false → s.yard.seen 1 = false →
      let freed := s.yard.exposedFollows (s.yard.overRows Yard.releaseRow)
      let calm := Yard.followWith Yard.hand 11 freed (freed.changeStorm .calm .release none)
      exec (.release p body) s = .next ((s.afterEvent (calm.pulse 12).giveAssign).answered p 0x61 (.ok [])))

/-- What the storm does to the rows (R20, R22, R23, R132). At the recall deadline's expiry the timer stops, the expiry is
counted, the state is STOWING, the rows on the table are exposed, the queue ends, and the all-stowed condition is judged.
Release and the onset of RECALL change a row by its custody, and no other row. A row on the table that is exposed gives
EXPOSED, is counted, and source 13 follows; another row is left (R22). A change of state writes the record and gives
STOW_STATE to each port (R123). The onset of RECALL, in CALM or WARNED, follows R128: the change, with the recall counted
and its cause kept; the list emptied; the WAITING and FETCH entries ended and the nudges ended, each carriage given STAY and
its segments released (R75); the rows by their custody (R20); the enrolled robots on tables sent home (R129); then STOWING
where the tables are clear, else the deadline's start. The tables-clear condition leads to STOWING in RECALL alone, the
deadline stopped and the queue ended (R131, R134); no entry is left in the queue (R76); the all-stowed condition leads to
PARKED in STOWING alone, and source 11 follows (R134, R135). That the rows are exposed in increasing index, each with its
notice before source 13 rises, is the model's choice (log 36); its readings are that the queue's entries end before the
nudges (log 43), that the hold-off level is judged at each single end (R56, R74; log 28), and that listeners in a storm run
no pass and begin no recall (log 10); and that the deadline's expiry is taken whenever its timer runs is one too (log 6). -/
def Obligations.StormOnsets : Prop :=
  (∀ s : State, s.running = true → s.yard.storm.state = .recall → s.yard.storm.deadline.isSome = true →
    let y := s.yard
    let stopped := { y with storm := { y.storm with
      deadline := none
      counters := { y.storm.counters with
        deadlineExpiries := min (y.storm.counters.deadlineExpiries + 1) 65535 } } }
    exec .recallDeadlineExpiry s = .next (s.afterEvent
      (((stopped.changeStorm .stowing .deadline none).overRows Yard.exposeRow).endQueue).judgeAllStowed)) ∧
  (∀ (y : Yard) (new : StormState) (cause : StormCause) (lane : Option CauseLane),
    let z := y.changeStorm new cause lane
    let said : Notice := ⟨.stowState, (new.code, 0, 0), y.storm.state.code * 8192 + cause.code * 512 + (match lane with
      | some cl => 16 + cl.lane * 2 + if cl.test = true then 1 else 0
      | none => 0), y.stamp⟩
    z.storm = { y.storm with state := new, enteredAt := y.stamp, lastCause := cause, causeLane := lane } ∧
    (∀ p, z.boxes.get p = (y.boxes.get p).give said) ∧ { z with storm := y.storm, boxes := y.boxes } = y) ∧
  (∀ (y : Yard) (cause : StormCause) (lane : Option CauseLane),
    let begun := (y.changeStorm .recall cause lane).recordRecall cause lane
    let ended := begun.emptyList.rail.queue.foldl (fun z t => Yard.recallTransfer t z) begun.emptyList
    let called := ((ended.overCarriages Yard.abortNudge).overRows Yard.recallRow).overRobots Yard.recallRobot
    (y.mild = false → Yard.beginRecall cause lane y = y) ∧
    (y.mild = true → called.tablesClear = true → Yard.beginRecall cause lane y = called.judgeTablesClear) ∧
    (y.mild = true → called.tablesClear = false → Yard.beginRecall cause lane y =
      { called with storm := { called.storm with deadline := some called.settings.stowDeadline } })) ∧
  (∀ (y : Yard) (t : Transfer) (n : Nat),
    (∀ (cause : StormCause) (lane : Option CauseLane), y.recordRecall cause lane = { y with storm := { y.storm with
      recallCause := cause
      recallLane := lane
      counters := { y.storm.counters with recalls := min (y.storm.counters.recalls + 1) 65535 } } }) ∧
    (t.phase = .waiting ∨ t.phase = .fetch →
      Yard.recallTransfer t y = (Yard.abortTransfer t y).judgeHoldoff Yard.handStorm) ∧
    (t.phase ≠ .waiting → t.phase ≠ .fetch → Yard.recallTransfer t y = y) ∧
    let stays := fun c : Nat => (y.orderCarriage c .stay).setCarriage c fun w => { w with task := none }
    (t.carriage = none → Yard.abortTransfer t y = Yard.closeTransfer t .abortedStorm y) ∧
    (∀ c, t.carriage = some c →
      Yard.abortTransfer t y = Yard.closeTransfer t .abortedStorm ((stays c).releaseSegments c)) ∧
    (y.rail.nudges.getD n none = none → Yard.abortNudge n y = y) ∧
    ((y.rail.nudges.getD n none).isSome = true →
      Yard.abortNudge n y = (((stays n).setNudge n none).releaseSegments n).judgeHoldoff Yard.handStorm) ∧
    (∀ r, y.enrolled n = true → (y.robot n).place = .midrow r → Yard.recallRobot n y = y.sendHome n r) ∧
    (y.enrolled n = false ∨ (∀ r, (y.robot n).place ≠ .midrow r) → Yard.recallRobot n y = y)) ∧
  (∀ y : Yard,
    let clear := (∀ b ∈ y.robots, b.enrolled = true → ∀ r, b.place ≠ .midrow r) ∧
      ∀ c, c < y.settings.carriages → (y.carriage c).load = none
    let stowed := ∀ w ∈ y.rows, w.custody = .stowed ∨ w.custody = .exposed
    let stopped := { y with storm := { y.storm with deadline := none } }
    (y.tablesClear = true ↔ clear) ∧
    (y.storm.state = .recall → clear →
      y.judgeTablesClear = (stopped.changeStorm .stowing .tablesClear none).endQueue.judgeAllStowed) ∧
    (y.storm.state ≠ .recall ∨ ¬clear → y.judgeTablesClear = y) ∧
    (y.storm.state = .stowing → stowed → y.judgeAllStowed =
      Yard.followWith Yard.handStorm 11 y (y.changeStorm .parked .allStowed none)) ∧
    (y.storm.state ≠ .stowing ∨ ¬stowed → y.judgeAllStowed = y) ∧
    y.endQueue.rail.queue = [] ∧ y.endQueue =
      y.rail.queue.foldl (fun z t => (Yard.abortTransfer t z).judgeHoldoff Yard.handStorm) y) ∧
  ∀ (y : Yard) (r : Nat), r < y.rows.length →
    let w := y.row r
    (y.onTable r = false → Yard.exposeRow r y = y) ∧
    (∀ k, y.onTable r = true → w.holder = some k → Yard.exposeRow r y = Yard.followWith Yard.handStorm 13 y
      (((y.setRow r fun w => { w with custody := .exposed }).notify .plant .exposed (r, 0, 0) k).countStorm fun n =>
        { n with rowsExposed := min (n.rowsExposed + 1) 65535 })) ∧
    (w.custody = .stowed ∨ w.custody = .stowPending → (Yard.releaseRow r y).row r =
      { w with custody := .settle, holder := none, timer := some y.settings.settleTime, unconfirmed := false }) ∧
    (w.custody = .exposed → (Yard.releaseRow r y).row r = { w with custody := .open, timer := none }) ∧
    (w.custody = .track ∨ w.custody = .settle ∨ w.custody = .flattening ∨ y.heldOpen r = true →
      (Yard.recallRow r y).row r =
        { w with custody := .stowPending, holder := none, timer := some y.settings.stowLimit }) ∧
    (w.custody = .open → y.heldOpen r = false → Yard.recallRow r y = y) ∧
    (∀ q, q ≠ r → (Yard.releaseRow r y).row q = y.row q ∧ (Yard.recallRow r y).row q = y.row q)

/-- A storm once begun ends by Release alone: no other command but a cold reset or the application of the settings brings the
storm state from RECALL, STOWING or PARKED back to CALM or WARNED. -/
def Obligations.OnlyReleaseEndsAStorm : Prop :=
  ∀ (c : Instr) (s t : State), exec c s = .next t → s.yard.mild = false → (∀ p body, c ≠ .release p body) →
    c ≠ .coldReset → (∀ w d, c ≠ .startUpLoadEnd w d) → t.yard.mild = false

/-! ### Accounts -/

/-- The second event (R144, R147, R176): the stamp goes on, every timer that runs has one second less, each row's class is
charged one second in its open record, and the interval timer counts the second; in the last second of the interval its
expiry follows in the same event (R148), after that second has been charged. Before the settings are applied the stamp
alone goes on. A row's class follows R143's table: TRACK is SOIL, or FENCE where the row is barred; SETTLE is SOIL;
FLATTENING and OPEN are HOLD; STOW_PENDING and STOWED are STOW; EXPOSED is EXPOSED. That the second event moves every
timer, and the stamp in STARTING, is the model's choice (log 6), as are the mark that the interval's expiry has been taken
(log 7) and the stamp that INTERVAL_END carries (log 38). -/
def Obligations.SecondCharged : Prop :=
  (∀ s : State, s.resetN = true →
    let y := s.yard
    let less := fun t : Option Nat => t.map (· - 1)
    let ticked : Yard := { y with
      stamp := (y.stamp + 1) % 4294967296
      rows := y.rows.map fun w => { w with timer := less w.timer }
      robots := y.robots.map fun b => { b with silenceTimer := less b.silenceTimer }
      rail := { y.rail with
        queue := y.rail.queue.map fun t => { t with phaseTimer := less t.phaseTimer }
        nudges := y.rail.nudges.map fun n => n.map fun x => { x with timer := x.timer - 1 } }
      rounds := { y.rounds with timer := less y.rounds.timer, passTimers := y.rounds.passTimers.map less }
      storm := { y.storm with deadline := less y.storm.deadline } }
    let charged := s.accounts.rows.mapIdx fun r x => x.second (y.rowClass r)
    let next := (s.accounts.seq + 1) % 65536
    (s.yard.startUp = .starting →
      exec .secondEvent s = .next (s.withYard { y with stamp := (y.stamp + 1) % 4294967296 })) ∧
    (s.yard.startUp ≠ .starting → s.accounts.timer = none →
      exec .secondEvent s = .next { s with
        yard := ticked
        met := { s.met with timer := less s.met.timer }
        accounts := { s.accounts with rows := charged, expiryTaken := false } }) ∧
    (s.yard.startUp ≠ .starting → ∀ n, s.accounts.timer = some n → 1 < n →
      exec .secondEvent s = .next { s with
        yard := ticked
        met := { s.met with timer := less s.met.timer }
        accounts := { s.accounts with rows := charged, expiryTaken := false, timer := some (n - 1) } }) ∧
    (s.yard.startUp ≠ .starting → ∀ n, s.accounts.timer = some n → n ≤ 1 →
      exec .secondEvent s = .next { s with
        yard := ticked.notify .tracker .intervalEnd (s.accounts.seq / 256, s.accounts.seq % 256, 0)
          s.accounts.intervalLength
        met := { s.met with timer := less s.met.timer }
        accounts := { s.accounts with
          rows := charged.map fun x => x.expire next
          seq := next
          timer := some s.yard.settings.interval
          intervalLength := s.yard.settings.interval
          expiryTaken := true } })) ∧
  (∀ (y : Yard) (r : Nat),
    let custody := (y.row r).custody
    (custody = .track → y.barred r = false → y.rowClass r = .soil) ∧
    (custody = .track → y.barred r = true → y.rowClass r = .fence) ∧
    (custody = .settle → y.rowClass r = .soil) ∧
    (custody = .flattening ∨ custody = .open → y.rowClass r = .hold) ∧
    (custody = .stowPending ∨ custody = .stowed → y.rowClass r = .stow) ∧
    (custody = .exposed → y.rowClass r = .exposed)) ∧
  ∀ (a : RowAccount) (c : Sys2Proof.Machine.Class),
    let n := a.gathering.secs
    a.second c = { a with gathering := ⟨a.gathering.seq, match c with
      | .soil => { n with soil := n.soil + 1 }
      | .fence => { n with fence := n.fence + 1 }
      | .hold => { n with hold := n.hold + 1 }
      | .stow => { n with stow := n.stow + 1 }
      | .exposed => { n with exposed := n.exposed + 1 }⟩ }

/-- The interval expiry (R147, R148, R149): it is taken within the second event that counts the last second of the interval,
after that second has been charged, and never before: every row's pending record is closed as MISSING, its open record
becomes pending, and a new one begins; S goes on by one, the timer starts again with the live INTERVAL, and INTERVAL_END
goes to the tracker port with the old S and the length of the interval ended. Where more seconds are still to be counted,
or the last second event has taken the expiry, the command changes nothing but the model's own mark.
That the command is the last second event, where that second is still to be counted, is the model's choice (log 7); so are the
timers that the second event moves (log 6) and the stamp, the new one, that INTERVAL_END carries (log 38). -/
def Obligations.IntervalExpiryTaken : Prop :=
  (∀ (s : State) (n : Nat), s.running = true → s.accounts.timer = some n → n ≤ 1 → s.accounts.expiryTaken = false →
    let charged := s.accounts.rows.mapIdx fun r x => x.second (s.yard.rowClass r)
    let next := (s.accounts.seq + 1) % 65536
    exec .intervalExpiry s = .next { s with
      accounts := { s.accounts with
        rows := charged.map fun x => x.expire next
        seq := next
        timer := some s.yard.settings.interval
        intervalLength := s.yard.settings.interval }
      met := { s.met with timer := s.met.timer.map (· - 1) }
      yard := (State.tickYard { s.yard with stamp := (s.yard.stamp + 1) % 4294967296 }).notify .tracker .intervalEnd
        (s.accounts.seq / 256, s.accounts.seq % 256, 0) s.accounts.intervalLength }) ∧
  (∀ (s : State) (n : Nat), s.running = true → s.accounts.timer = some n → 1 < n ∨ s.accounts.expiryTaken = true →
    exec .intervalExpiry s = .next { s with accounts := { s.accounts with expiryTaken := false } }) ∧
  ∀ (a : RowAccount) (next : Nat),
    (a.expire next).pending = some a.gathering ∧ (a.expire next).gathering = ⟨next, 0, 0, 0, 0, 0⟩ ∧
    (a.expire next).snapshot = a.snapshot ∧
    (a.pending = none → (a.expire next).period = a.period ∧ (a.expire next).ring = a.ring) ∧
    (∀ g, a.pending = some g →
      (a.expire next).ring = (⟨g.seq, 0, 0, 0, g.secs.chosen, true⟩ :: a.ring).take 16 ∧
      (a.expire next).period = if a.period.intervals < 65535 then
        { a.period with intervals := a.period.intervals + 1, missing := a.period.missing + 1 } else a.period)

/-- Energy Reports (R150, R151, R154): a report that names the row's pending record closes it: its loss is charged to the
record's class, its energies are added, a ring record is written, and where the class is SOIL and the expected energy above
0 the soiling estimate is updated. One that names the interval now running is EARLY and changes nothing; any other is LATE
and counted. A report of a row of ROWS or more is refused RANGE and changes nothing. The additions keep the two sums whole
(R146): a loss adds to its class and to the total what the total can still take, an energy saturates alone, and a close
counts in intervals and reported while intervals is below 65535.
The update (R154, R155) writes the estimate of the row's old soiling; where it reaches DIRTY_LIMIT from below or from
unknown, source 8 pulses and SOIL_ALERT goes to the plant port, and else it does nothing more.
Within the update, that the SOIL pulse comes before its notice is the model's reading (log 43). -/
def Obligations.EnergyReports : Prop :=
  (∀ (p : Port) (body : List Byte) (s : State), s.takes .energyReport p body → s.between →
    let r := byteAt body 0
    let seq := wordAt body 1
    let expected := wordAt body 3
    let actual := wordAt body 5
    let account := s.accounts.row r
    let close : Gathered → RowAccount → RowAccount := fun g a => { a with
      ring := (⟨g.seq, expected, actual, expected - actual, g.secs.chosen, false⟩ :: a.ring).take 16
      period := ((a.period.addLoss g.secs.chosen (expected - actual)).addEnergy expected actual).countReported
      pending := none }
    let late : RowAccount → RowAccount := fun a =>
      { a with period := { a.period with lateReports := min (a.period.lateReports + 1) 65535 } }
    r < s.yard.rows.length →
    (∀ g, account.pending = some g → g.seq = seq → (g.secs.chosen ≠ .soil ∨ expected = 0) →
      exec (.energyReport p body) s = .next ({ s with accounts := { s.accounts with
        rows := s.accounts.rows.modify r (close g) } }.answered p 0x12 (.ok []))) ∧
    (∀ g, account.pending = some g → g.seq = seq → g.secs.chosen = .soil → 0 < expected →
      exec (.energyReport p body) s = .next ({ s.afterEvent (s.yard.writeEstimate r (expected - actual) expected) with
        accounts := { s.accounts with rows := s.accounts.rows.modify r (close g) } }.answered p 0x12 (.ok []))) ∧
    ((∀ g, account.pending = some g → g.seq ≠ seq) → seq = s.accounts.seq →
      exec (.energyReport p body) s = .next (s.answered p 0x12 (.plain .early))) ∧
    ((∀ g, account.pending = some g → g.seq ≠ seq) → seq ≠ s.accounts.seq →
      exec (.energyReport p body) s = .next ({ s with accounts := { s.accounts with
        rows := s.accounts.rows.modify r late } }.answered p 0x12 (.plain .late)))) ∧
  (∀ (p : Port) (body : List Byte) (s : State), s.takes .energyReport p body → s.yard.rows.length ≤ byteAt body 0 →
    exec (.energyReport p body) s = .next (s.answered p 0x12 (.refuse .range))) ∧
  (∀ (old : Option Nat) (loss expected : Nat), 0 < expected →
    (old = none → estimate old loss expected = min (loss * 1000 / expected) 1000) ∧
    (∀ v, old = some v → estimate old loss expected = (3 * v + min (loss * 1000 / expected) 1000) / 4)) ∧
  (∀ (y : Yard) (r loss expected : Nat),
    let old := (y.row r).soiling
    let new := estimate old loss expected
    let written := y.setRow r fun w => { w with soiling := some new }
    (y.settings.dirtyLimit ≤ new → (∀ v, old = some v → v < y.settings.dirtyLimit) →
      y.writeEstimate r loss expected = (written.pulse 8).notify .plant .soilAlert (r, 0, 0) new) ∧
    (new < y.settings.dirtyLimit ∨ (∃ v, old = some v ∧ y.settings.dirtyLimit ≤ v) →
      y.writeEstimate r loss expected = written)) ∧
  ∀ (p : Period) (c : Machine.Class) (loss expected actual : Nat),
    let amount := min loss (4294967295 - p.lossTotal)
    (p.addLoss c loss = { p with lossTotal := p.lossTotal + amount, loss := match c with
      | .soil => { p.loss with soil := p.loss.soil + amount }
      | .fence => { p.loss with fence := p.loss.fence + amount }
      | .hold => { p.loss with hold := p.loss.hold + amount }
      | .stow => { p.loss with stow := p.loss.stow + amount }
      | .exposed => { p.loss with exposed := p.loss.exposed + amount } }) ∧
    p.addEnergy expected actual = { p with
      expectedWh := min (p.expectedWh + expected) 4294967295, actualWh := min (p.actualWh + actual) 4294967295 } ∧
    (p.intervals < 65535 → p.countReported = { p with intervals := p.intervals + 1, reported := p.reported + 1 }) ∧
    (65535 ≤ p.intervals → p.countReported = p)

/-- Closing a period (R158 to R160): Close Period is BUSY while a walk is in flight, and otherwise starts one and advances the
period number; each step copies the counters of the next eight rows to their snapshots and zeroes them; the step that
walks the last row ends the walk and gives PERIOD_CLOSED. -/
def Obligations.PeriodClosing : Prop :=
  (∀ (p : Port) (body : List Byte) (s : State), s.takes .closePeriod p body →
    (s.accounts.walk.isSome = true → exec (.closePeriod p body) s = .next (s.answered p 0x70 (.plain .busy))) ∧
    (s.accounts.walk = none → exec (.closePeriod p body) s = .next ({ s with accounts := { s.accounts with
      periodNumber := (s.accounts.periodNumber + 1) % 65536
      walk := some ⟨s.accounts.periodNumber, 0, s.yard.rows.length⟩ } }.answered p 0x70 ⟨.accepted, .none, []⟩))) ∧
  ∀ (s : State) (w : Walk), s.running = true → s.accounts.walk = some w →
    let zero : Period := ⟨0, 0, ⟨0, 0, 0, 0, 0⟩, 0, 0, 0, 0, 0⟩
    let rows := s.accounts.rows.mapIdx fun r a => if w.next ≤ r ∧ r < w.next + 8 ∧ r < w.rows then
      { a with snapshot := a.period, snapshotOf := some w.period, period := zero } else a
    (w.next + 8 < w.rows → exec .closeWalkStep s = .next { s with accounts := { s.accounts with
      rows := rows, walk := some { w with next := w.next + 8 } } }) ∧
    (w.rows ≤ w.next + 8 → exec .closeWalkStep s = .next { s with
      accounts := { s.accounts with rows := rows, walk := none }
      yard := s.yard.notify .plant .periodClosed (w.period / 256, w.period % 256, 0) w.rows })

/-- The class of a closed interval is the class with the most seconds in its record; of tied classes it is the first in the order
STOW, EXPOSED, HOLD, FENCE, SOIL (R152). -/
def Obligations.ClassChosen : Prop :=
  ∀ n : PerClass,
    (∀ c, n.of c ≤ n.of n.chosen) ∧
    (n.of .stow = n.of n.chosen → n.chosen = .stow) ∧
    (n.of .exposed = n.of n.chosen → n.chosen = .stow ∨ n.chosen = .exposed) ∧
    (n.of .hold = n.of n.chosen → n.chosen = .stow ∨ n.chosen = .exposed ∨ n.chosen = .hold) ∧
    (n.of .fence = n.of n.chosen → n.chosen ≠ .soil)

/-- The accounts stay whole through every step: for every row, in the current period and in the snapshot, the class losses sum to
the loss total, the interval count is the reported plus the missing, no counter passes its top, and the ring holds at most
16 records (R145, R146, R156). -/
def Obligations.AccountsWholeKept : Prop := ∀ s t : State, step s = .next t → s.accounts.whole → t.accounts.whole

/-! ### Settings, start-up, restart -/

/-- The live settings stay legal through every step: every value in its range, the cross-limits held (R189, R190). -/
def Obligations.SettingsLegalKept : Prop := ∀ s t : State, step s = .next t → s.yard.settings.legal → t.yard.settings.legal

/-- Write Setting (R190 to R192): BUSY during a save; a code or a value out of range, or a value that breaks a cross-limit, is
refused RANGE; a structural write while the block is not idle is refused STATE, and one that changes nothing answers OK. A
free value becomes live and changes nothing else; a hold-off limit has the level judged again at once.
A structural change (R191) makes fresh rows for the live ROWS, keeps the fences that lie within them, puts every robot at
UNKNOWN with no work, its enrolment and last_serial kept, every carriage at an unknown position with last_serial kept, and
makes the docks, the Transfer Engine and the Round Scheduler anew; the row accounts are kept, dropped or added by index, an
added one with the current S (R166). Nothing else changes, the storm record, the Alert Matrix, the met receiver, the notice
queues and the loader with it: no notice is given, also where the hold-off level was high.
Some clauses are the model's readings: last_serial is kept in all three carriage records that it holds, those beyond
CARRIAGES too, four dock records are made, and a slot not enrolled takes an enrolled robot's values with its silence timer
stopped (log 27); and a hold-off level that is high falls with no notice and is handed to no listener, R191 and R77 read
against R74 and R107 (log 28). -/
def Obligations.WriteSettingTaken : Prop :=
  ∀ (p : Port) (body : List Byte) (s : State), s.takes .writeSetting p body → s.between →
    let code := byteAt body 0
    let v := wordAt body 1
    let st := s.yard.settings
    let put := st.put code v
    let fits := s.loader.save = none ∧ st.inRange code v = true ∧ put.crossLimits = true
    (s.loader.save.isSome = true → exec (.writeSetting p body) s = .next (s.answered p 0x80 (.plain .busy))) ∧
    (s.loader.save = none → st.inRange code v = false ∨ put.crossLimits = false →
      exec (.writeSetting p body) s = .next (s.answered p 0x80 (.refuse .range))) ∧
    (fits → 1 ≤ code → code ≤ 8 → s.idle = false →
      exec (.writeSetting p body) s = .next (s.answered p 0x80 (.refuse .state))) ∧
    (fits → 1 ≤ code → code ≤ 8 → s.idle = true → st.value code = v →
      exec (.writeSetting p body) s = .next (s.answered p 0x80 (.ok []))) ∧
    (fits → 1 ≤ code → code ≤ 8 → s.idle = true → st.value code ≠ v →
      exec (.writeSetting p body) s = .next (State.answered { s with
        yard := { s.yard with
          settings := put
          rows := List.replicate put.rows
            ⟨.track, none, .unknown, none, none, min (put.cleanInterval * 60) 65535, none, none, false⟩
          fences := s.yard.fences.map fun f => f.filter fun range => decide (range.2 < put.rows)
          robots := s.yard.robots.map fun b => ⟨b.enrolled, .unknown, .idle, none, b.lastSerial, 0, false, false, false, false,
            none, if b.enrolled = true then some put.robotSilence else none⟩
          carriages := s.yard.carriages.map fun w => ⟨none, false, none, none, w.lastSerial, none⟩
          docks := List.replicate 4 ⟨none, none⟩
          staleReports := 0
          refusedReports := 0
          rail := ⟨[], 0, List.replicate 24 none, List.replicate 3 none, false⟩
          rounds := ⟨[], some (put.roundPeriod * 60), 0, List.replicate 4 0, List.replicate 12 none,
            ⟨0, 0, 0, 0, 0, 0, 0, 0⟩⟩ }
        accounts := { s.accounts with
          rows := s.accounts.rows.take put.rows ++ List.replicate (put.rows - s.accounts.rows.length)
            ⟨⟨s.accounts.seq, 0, 0, 0, 0, 0⟩, none, [], ⟨0, 0, ⟨0, 0, 0, 0, 0⟩, 0, 0, 0, 0, 0⟩,
              ⟨0, 0, ⟨0, 0, 0, 0, 0⟩, 0, 0, 0, 0, 0⟩, none⟩ } } p 0x80 (.ok []))) ∧
    (fits → 9 ≤ code → code < 0x2A → exec (.writeSetting p body) s =
      .next ((s.withYard { s.yard with settings := put }).answered p 0x80 (.ok []))) ∧
    (fits → code = 0x2A ∨ code = 0x2B → exec (.writeSetting p body) s =
      .next ((s.afterEvent (Yard.judgeHoldoff Yard.hand { s.yard with settings := put })).answered p 0x80 (.ok [])))

/-- Commit Settings and saving (R199, R196). Commit Settings makes an UNCONFIGURED part READY and changes nothing else. A save is of
the live values as they stand, to the slot that is not current, with the next generation; its success makes that slot
current, its failure leaves it bad, and SETTINGS_SAVED tells the plant port which.
An image is good or bad by two marks (log 25), and the memory's slots are the model's (log 24). -/
def Obligations.SettingsSaved : Prop :=
  (∀ (p : Port) (body : List Byte) (s : State),
    (s.takes .commitSettings p body → s.yard.startUp = .unconfigured → exec (.commitSettings p body) s =
      .next ((s.withYard { s.yard with startUp := .ready }).answered p 0x82 (.ok []))) ∧
    (s.takes .commitSettings p body → s.yard.startUp = .ready →
      exec (.commitSettings p body) s = .next (s.answered p 0x82 (.ok []))) ∧
    (s.takes .saveSettings p body → s.loader.save.isSome = true →
      exec (.saveSettings p body) s = .next (s.answered p 0x83 (.plain .busy))) ∧
    (s.takes .saveSettings p body → s.loader.save = none →
      let slot := if s.loader.current = some 0 then 1 else 0
      let generation := if s.loader.current.isSome = true then (s.loader.generation + 1) % 65536 else 1
      let image : Image := ⟨true, true, generation, s.yard.settings, s.yard.robots.map (·.enrolled), s.yard.fences,
        s.yard.alerts.lanes, s.yard.alerts.listeners, s.met.patterns.map fun pt => { pt with runCounter := 0 }⟩
      exec (.saveSettings p body) s = .next ({ s with loader := { s.loader with save := some ⟨image, slot⟩ } }.answered p
        0x83 ⟨.accepted, .none, []⟩))) ∧
  ∀ (s : State) (image : Image) (slot : Nat), s.loader.save = some ⟨image, slot⟩ →
    let bad := { image with checkMatches := false }
    let saved : State := { s with
      loader := ⟨some slot, image.generation, none, if slot = 0 then image else s.loader.slot0,
        if slot = 0 then s.loader.slot1 else image⟩
      yard := s.yard.notify .plant .settingsSaved (0, 0, 0) 0 }
    let failed : State := { s with
      loader := ⟨s.loader.current, s.loader.generation, none, if slot = 0 then bad else s.loader.slot0,
        if slot = 0 then s.loader.slot1 else bad⟩
      yard := s.yard.notify .plant .settingsSaved (0, 0, 0) 1 }
    (image.good = true → exec (.saveComplete true) s = .next saved) ∧
    exec (.saveComplete false) s = .next failed ∧ exec .saveTimeout s = .next failed

/-- The start-up load takes the newer of two good images, the one good image, or none; the newer is the one whose generation is the
other's plus one modulo 65536, else the greater, else slot 0 (R195). -/
def Obligations.SlotChosen : Prop :=
  ∀ l : Loader,
    let g0 := l.slot0.generation
    let g1 := l.slot1.generation
    (l.slot0.good = false → l.slot1.good = false → l.chooseSlot = none) ∧
    (l.slot0.good = true → l.slot1.good = false → l.chooseSlot = some 0) ∧
    (l.slot0.good = false → l.slot1.good = true → l.chooseSlot = some 1) ∧
    (l.slot0.good = true → l.slot1.good = true → g0 < 65536 → g1 < 65536 →
      (g1 = (g0 + 1) % 65536 → l.chooseSlot = some 1) ∧
      (g0 = (g1 + 1) % 65536 → l.chooseSlot = some 0) ∧
      (g1 ≠ (g0 + 1) % 65536 → g0 ≠ (g1 + 1) % 65536 → g0 < g1 → l.chooseSlot = some 1) ∧
      (g1 ≠ (g0 + 1) % 65536 → g0 ≠ (g1 + 1) % 65536 → g1 ≤ g0 → l.chooseSlot = some 0))

/-- Fleet Restart (R200): in CALM or WARNED it is taken, whatever save or walk is in flight, and answered with the numbers of the
transfers ended, the carriages given STAY and the passes turned home; met receiver, accounts, loader, settings, fences,
lanes, selections and stamp stand; in the other storm states it is refused and changes nothing.
The yard it leaves is that of its steps in turn and of nothing else, so that no arbiter pass and no recharge send runs in the
event (R78, R104; log 35): each row FLATTENING or held open goes to SETTLE (R28) and the round list is emptied (R104); each
transfer ends RESTARTED, the hold-off level judged at each end (R78, R56; log 28); each carriage with an order is given STAY,
and no carriage has a task (R50); every nudge ends and only segments of cause FAULT stay reserved, and the level is judged
again (R78); a robot on a table with a PASS is given TO_GARAGE, every other enrolled robot rests, and no round_link stays
(R50). What each step does is said of every yard. -/
def Obligations.FleetRestartTaken : Prop :=
  (∀ (p : Port) (body : List Byte) (s : State), s.takes .fleetRestart p body →
    (s.yard.mild = false → exec (.fleetRestart p body) s = .next (s.answered p 0x84 (.refuse .state))) ∧
    (s.yard.mild = true →
      let y := s.yard
      let counts := [byte y.rail.queue.length,
        byte ((List.range y.settings.carriages).countP fun c => (y.carriage c).order.isSome),
        byte (y.robots.countP fun b => b.enrolled && match b.order with
          | some ⟨.pass _ _, _⟩ => true
          | _ => false)]
      let rowsDone := (y.overRows fun r z => z.settleClaimed r).emptyList
      let queueDone := rowsDone.rail.queue.foldl
        (fun z t => (Yard.closeTransfer t .restarted z).judgeHoldoff Yard.handQuiet) rowsDone
      let railDone := (queueDone.overCarriages Yard.restartCarriage).restartRail.judgeHoldoff Yard.handQuiet
      exec (.fleetRestart p body) s =
        .next ((s.withYard { railDone.overRobots Yard.restartRobot with assign := false }).answered p 0x84 (.ok counts)) ∧
      ∃ t, exec (.fleetRestart p body) s = .next t ∧ t.links = (s.answered p 0x84 (.ok counts)).links ∧
        t.met = s.met ∧ t.accounts = s.accounts ∧ t.loader = s.loader ∧ t.yard.settings = y.settings ∧
        t.yard.fences = y.fences ∧ t.yard.alerts.lanes = y.alerts.lanes ∧
        t.yard.alerts.listeners = y.alerts.listeners ∧ t.yard.stamp = y.stamp ∧
        t.yard.robots.map (·.enrolled) = y.robots.map (·.enrolled))) ∧
  ∀ (y : Yard) (n : Nat),
    (n < y.rows.length →
      ((y.row n).custody = .flattening ∨ y.heldOpen n = true → (y.settleClaimed n).row n =
        { y.row n with custody := .settle, holder := none, timer := some y.settings.settleTime }) ∧
      ((y.row n).custody ≠ .flattening → y.heldOpen n = false → y.settleClaimed n = y) ∧
      ∀ q, q ≠ n → (y.settleClaimed n).row q = y.row q) ∧
    y.emptyList.rounds.list = [] ∧
    (n < y.carriages.length →
      (∀ o, (y.carriage n).order = some o → (Yard.restartCarriage n y).carriage n = { y.carriage n with
        order := some ⟨.stay, ((y.carriage n).lastSerial + 1) % 256⟩
        lastSerial := ((y.carriage n).lastSerial + 1) % 256
        task := none }) ∧
      ((y.carriage n).order = none → (Yard.restartCarriage n y).carriage n = { y.carriage n with task := none }) ∧
      ∀ c, c ≠ n → (Yard.restartCarriage n y).carriage c = y.carriage c) ∧
    (y.restartRail.rail.nudges = y.rail.nudges.map fun _ => none) ∧
    (y.restartRail.rail.queue = y.rail.queue ∧ y.restartRail.rail.tagCounter = y.rail.tagCounter) ∧
    (∀ seg v, y.restartRail.reservation seg = some v ↔ y.reservation seg = some v ∧ v.cause = .fault) ∧
    (n < y.robots.length →
      let z := Yard.restartRobot n y
      (z.robot n).roundLink = none ∧ (z.robot n).place = (y.robot n).place ∧
      (∀ r q kind serial, (y.robot n).place = .midrow r → (y.robot n).order = some ⟨.pass q kind, serial⟩ →
        (z.robot n).order = some ⟨.toGarage r, ((y.robot n).lastSerial + 1) % 256⟩ ∧ (z.robot n).task = .toGarage ∧
        z.rounds.counters.passesAborted = min (y.rounds.counters.passesAborted + 1) 65535) ∧
      (∀ r q serial, (y.robot n).place = .midrow r → (y.robot n).order = some ⟨.toGarage q, serial⟩ →
        (z.robot n).order = (y.robot n).order ∧ z.rounds = y.rounds) ∧
      ((∀ r, (y.robot n).place ≠ .midrow r) → y.enrolled n = true →
        (z.robot n).task = (y.robot n).restTask ∧ z.rounds = y.rounds))

/-- Cold reset and start-up (R188, R197, R198, R202). A cold reset brings every block to its reset values whatever the state
was, keeps both slots where no save was in flight, and holds RESET_N low, with the transmit lines idle, ATN_P, ATN_T, ATN_F,
OUT_A and OUT_B low and SPI_CS high; a save in flight is stopped, its target slot left bad, as it was, or whole, which of
them is the model's free value (R196, log 24). The load ends in the event that applies the chosen image, or the defaults
where no slot holds a good one. That event writes every block anew from them (R198, R27, R49, R103, R122, R141, R165): the
rows with their age from the live CLEAN_INTERVAL, the robot records with the silence timers of the enrolled, the round, met
silence and interval timers, the lanes, listeners and patterns with run counters 0, the filtered levels from the inputs W
and D (R106); a WATCH listener that finds its lane high changes the state to WARNED. The stamp, the notices and the links
run on. At any other moment the command changes nothing (log 4). That RESET_N is a state, and the two image slots are, is
the model's choice (logs 4 and 24), as is the level of SPI_CS out of reset (log 40). Some clauses are the model's readings:
the end of the load lets the stored met frame and the six met counters of STARTING stand, the last sentence of R122 read
against its list (log 33); and it makes three carriage records and four dock records, and gives a slot not enrolled an
enrolled robot's values with its silence timer stopped (log 27). -/
def Obligations.StartUpTaken : Prop :=
  ∀ (s : State) (w d : Bool),
    (s.loader.save = none →
      let slots : Loader := ⟨none, 0, none, s.loader.slot0, s.loader.slot1⟩
      exec .coldReset s = .next { State.reset with
        yard := { State.reset.yard with freeCount := s.yard.freeCount }
        loader := slots
        resetN := false
        pending := s.pending }) ∧
    (∀ image slot, s.loader.save = some ⟨image, slot⟩ →
      let written := fun x : Image => (⟨none, 0, none, if slot = 0 then x else s.loader.slot0,
        if slot = 0 then s.loader.slot1 else x⟩ : Loader)
      ∃ slots : Loader, (slots = written { image with checkMatches := false } ∨ slots = written image ∨
          slots = ⟨none, 0, none, s.loader.slot0, s.loader.slot1⟩) ∧
        exec .coldReset s = .next { State.reset with
          yard := { State.reset.yard with freeCount := s.yard.freeCount + 1 }
          loader := slots
          resetN := false
          pending := s.pending }) ∧
    (∀ t, exec .coldReset s = .next t → t.spiCsHigh = true ∧ t.yard.outLevel .a = false ∧ t.yard.outLevel .b = false ∧
      ∀ p, t.transmitLineIdle p = true ∧ t.yard.attention p = false) ∧
    (s.resetN = false → s.spiCsHigh = true ∧ ∀ p, s.transmitLineIdle p = true) ∧
    exec .resetRelease s = .next { s with resetN := true } ∧
    (s.resetN = true → s.yard.startUp = .starting →
      let loaded := fun (state : StartUp) (slot : Option Nat) (generation : Nat) (st : Settings)
          (fences : List (Option (Nat × Nat))) (enrolled : List Bool) (lanes listeners : List Nat) (patterns : List Pattern) =>
        let found : Yard := {
          settings := st, startUp := state, stamp := s.yard.stamp, fences := fences, staleReports := 0, refusedReports := 0
          rows := List.replicate st.rows
            ⟨.track, none, .unknown, none, none, min (st.cleanInterval * 60) 65535, none, none, false⟩
          robots := enrolled.map fun e =>
            ⟨e, .unknown, .idle, none, 0, 0, false, false, false, false, none, if e then some st.robotSilence else none⟩
          carriages := List.replicate 3 ⟨none, false, none, none, 0, none⟩
          docks := List.replicate 4 ⟨none, none⟩
          rail := ⟨[], 0, List.replicate 24 none, List.replicate 3 none, false⟩
          rounds := ⟨[], some (st.roundPeriod * 60), 0, List.replicate 4 0, List.replicate 12 none,
            ⟨0, 0, 0, 0, 0, 0, 0, 0⟩⟩
          alerts := ⟨lanes, listeners, false, false, ⟨w, w, false⟩, ⟨d, d, false⟩⟩
          metSilent := false, storm := ⟨.calm, 0, .none, none, .none, none, none, ⟨0, 0, 0, 0⟩⟩
          boxes := s.yard.boxes, assign := false, freeCount := s.yard.freeCount }
        { s with
          yard := if found.seen 0 then found.changeStorm .warned .watchRise none else found
          met := { s.met with
            timer := some st.metSilence, patterns := patterns.map fun x => { x with runCounter := 0 } }
          accounts := ⟨List.replicate st.rows ⟨⟨0, 0, 0, 0, 0, 0⟩, none, [], freshPeriod, freshPeriod, none⟩, 0,
            some st.interval, st.interval, false, 0, none⟩
          loader := { s.loader with current := slot, generation := generation } }
      (∀ slot, s.loader.chooseSlot = some slot →
        let image := if slot = 0 then s.loader.slot0 else s.loader.slot1
        exec (.startUpLoadEnd w d) s = .next (loaded .ready (some slot) image.generation image.settings image.fences
          image.enrolled image.lanes image.listeners image.patterns)) ∧
      (s.loader.chooseSlot = none →
        exec (.startUpLoadEnd w d) s = .next (loaded .unconfigured none 0 defaultSettings (List.replicate 8 none)
          (List.replicate 12 false) (List.replicate 8 0) (List.replicate 10 0)
          (List.replicate 4 ⟨List.replicate 8 false, List.replicate 8 0, List.replicate 8 false, 1, 0⟩)))) ∧
    (s.resetN = false ∨ s.yard.startUp ≠ .starting → exec (.startUpLoadEnd w d) s = .next s)

/-- Only named commands change the configuration: the settings, the fences, the lanes' sources, the listeners' selections,
the enrolment, the stamp and the carriages' recorded positions. A carriage's position is written by an Order Done, a
Carriage Position, a Clear Carriage and a structural Write Setting alone (R33, R41, R42, R47, R191). The stamp changes at a
second event alone, which INTERVAL_EXPIRY is where the last second of its interval is still to be counted (log 7). -/
def Obligations.ConfigurationFrame : Prop :=
  ∀ (c : Instr) (s t : State), exec c s = .next t → c ≠ .coldReset → (∀ w d, c ≠ .startUpLoadEnd w d) →
    ((∀ p body, c ≠ .writeSetting p body) → t.yard.settings = s.yard.settings) ∧
    ((∀ p body, c ≠ .writeSetting p body) → (∀ p body, c ≠ .setFence p body) → (∀ p body, c ≠ .clearFence p body) →
      t.yard.fences = s.yard.fences) ∧
    ((∀ p body, c ≠ .setLane p body) → t.yard.alerts.lanes = s.yard.alerts.lanes) ∧
    ((∀ p body, c ≠ .setListener p body) → t.yard.alerts.listeners = s.yard.alerts.listeners) ∧
    ((∀ p body, c ≠ .enrollRobot p body) → (∀ p body, c ≠ .writeOffRobot p body) →
      t.yard.robots.map (·.enrolled) = s.yard.robots.map (·.enrolled)) ∧
    (c ≠ .secondEvent → c ≠ .intervalExpiry → t.yard.stamp = s.yard.stamp) ∧
    ((∀ p body, c ≠ .orderDone p body) → (∀ p body, c ≠ .carriagePosition p body) →
      (∀ p body, c ≠ .clearCarriage p body) → (∀ p body, c ≠ .writeSetting p body) →
      ∀ i, (t.yard.carriage i).position = (s.yard.carriage i).position)

/-- Between events no assignment event is left over: every step keeps the mark of R90 clear (the model's own field, log 22). -/
def Obligations.BetweenKept : Prop := ∀ s t : State, step s = .next t → s.between → t.between

/-- The state right after reset, block by block, where the manual gives its values: the rows and fences (R27, R26), the
robot, carriage and dock records and the two report counters (R49), the Transfer Engine (R77), the Round Scheduler with its
build counts, timers and eight counters (R103), the Alert Matrix and the Met Receiver with filters, stretch timers, output
lines, patterns and counters (R122), the storm record (R141), the accounts (R165), the links, queues and attention lines
(R181), and the Settings Loader with the live settings at the defaults of R189 (R202). The seconds timebase starts from 0
(R188). The length of the lists beyond the live counts, and that a slot not enrolled holds the values of an enrolled
robot's record with its silence timer stopped, is the model's (log 27). What the manual gives no value for (the filters'
levels, log 32; the model's own fields, logs 7, 8 and 22; the memory's slots, log 24) is not stated. -/
def Obligations.ResetValues : Prop :=
  let s := State.reset
  let y := s.yard
  (y.rows = List.replicate 192 ⟨.track, none, .unknown, none, none, 10080, none, none, false⟩ ∧
    y.fences = List.replicate 8 none ∧ ∀ r, r < 192 → y.wanted r = .free) ∧
  (y.robots = List.replicate 12 ⟨false, .unknown, .idle, none, 0, 0, false, false, false, false, none, none⟩ ∧
    y.carriages = List.replicate 3 ⟨none, false, none, none, 0, none⟩ ∧
    (∀ c, c < 3 → (y.carriage c).state = .idle) ∧
    y.docks = List.replicate 4 ⟨none, none⟩ ∧ y.staleReports = 0 ∧ y.refusedReports = 0) ∧
  y.rail = ⟨[], 0, List.replicate 24 none, List.replicate 3 none, false⟩ ∧
  y.rounds = ⟨[], none, 0, List.replicate 4 0, List.replicate 12 none, ⟨0, 0, 0, 0, 0, 0, 0, 0⟩⟩ ∧
  (y.alerts.lanes = List.replicate 8 0 ∧ (∀ l, l < 8 → y.laneLevel l = false) ∧
    y.alerts.listeners = List.replicate 10 0 ∧ (∀ i, i < 10 → y.seen i = false) ∧
    y.alerts.stretchA = false ∧ y.alerts.stretchB = false ∧ (∀ line, y.outLevel line = false) ∧
    y.alerts.lineW.started = false ∧ y.alerts.lineD.started = false ∧ y.metSilent = false) ∧
  s.met = ⟨false, none, none,
    List.replicate 4 ⟨List.replicate 8 false, List.replicate 8 0, List.replicate 8 false, 1, 0⟩, ⟨0, 0, 0, 0, 0, 0⟩⟩ ∧
  (y.storm = ⟨.calm, 0, .none, none, .none, none, none, ⟨0, 0, 0, 0⟩⟩ ∧ y.sourceLevel 11 = false) ∧
  (s.accounts.rows = List.replicate 192 ⟨⟨0, 0, 0, 0, 0, 0⟩, none, [], ⟨0, 0, ⟨0, 0, 0, 0, 0⟩, 0, 0, 0, 0, 0⟩,
      ⟨0, 0, ⟨0, 0, 0, 0, 0⟩, 0, 0, 0, 0, 0⟩, none⟩ ∧
    s.accounts.seq = 0 ∧ s.accounts.periodNumber = 0 ∧ s.accounts.walk = none ∧ s.accounts.timer = none) ∧
  (∀ p, s.links.get p = ⟨.hunting, .idle, 0, 0, 0, 0⟩ ∧ y.boxes.get p = ⟨[], 0⟩ ∧ y.attention p = false) ∧
  (y.startUp = .starting ∧ s.enrolmentMask = 0 ∧ s.loader.current = none ∧ s.loader.generation = 0 ∧
    s.loader.save = none ∧ y.stamp = 0) ∧
  y.settings = {
    rows := 192, groups := 2, carriages := 2, docks := 2, dockPos := [0, 191, 64, 128]
    rowPolicy := .close, roundSource := .timer, roundPeriod := 60, cleanInterval := 168, surveyEvery := 4
    dirtyLimit := 30, sweepLimit := 15, residual := 5, chargeMin := 35, chargeReady := 90
    settleTime := 300, flattenLimit := 240, holdLimit := 600, passLimit := 2400, phaseLimit := 180
    stowDeadline := 300, stowLimit := 180, robotSilence := 60, metSilence := 30, interval := 900
    holdoffCount := 6, holdoffSegments := 16 }

/-- The laws that every step keeps hold right after reset. -/
def Obligations.LawsAtReset : Prop :=
  State.reset.yard.noticesFit ∧ State.reset.yard.queueFits ∧ State.reset.yard.listFits ∧ State.reset.accounts.whole ∧
    State.reset.yard.settings.legal ∧ State.reset.between ∧ State.reset.yard.listDistinct ∧ State.reset.yard.holdersFit ∧
    State.reset.yard.occupancyTrue ∧ State.reset.yard.railFits ∧ State.reset.yard.positionsRise ∧ State.reset.yard.positionsFree
end

