-- ==== Sys2Proof/Laws/State.lean ====
section
/-! SUPPORT. What each update of a record leaves in each field: true by `rfl`, so that no later proof unfolds an
update. -/

namespace Sys2Proof.Machine

/-! ### Yard.setRow -/

@[simp] theorem Yard.setRow_settings (y : Yard) (r : Nat) (f : Row → Row) :
    (y.setRow r f).settings = y.settings := rfl
@[simp] theorem Yard.setRow_startUp (y : Yard) (r : Nat) (f : Row → Row) :
    (y.setRow r f).startUp = y.startUp := rfl
@[simp] theorem Yard.setRow_stamp (y : Yard) (r : Nat) (f : Row → Row) :
    (y.setRow r f).stamp = y.stamp := rfl
@[simp] theorem Yard.setRow_rows (y : Yard) (r : Nat) (f : Row → Row) :
    (y.setRow r f).rows = y.rows.modify r f := rfl
@[simp] theorem Yard.setRow_fences (y : Yard) (r : Nat) (f : Row → Row) :
    (y.setRow r f).fences = y.fences := rfl
@[simp] theorem Yard.setRow_robots (y : Yard) (r : Nat) (f : Row → Row) :
    (y.setRow r f).robots = y.robots := rfl
@[simp] theorem Yard.setRow_carriages (y : Yard) (r : Nat) (f : Row → Row) :
    (y.setRow r f).carriages = y.carriages := rfl
@[simp] theorem Yard.setRow_docks (y : Yard) (r : Nat) (f : Row → Row) :
    (y.setRow r f).docks = y.docks := rfl
@[simp] theorem Yard.setRow_staleReports (y : Yard) (r : Nat) (f : Row → Row) :
    (y.setRow r f).staleReports = y.staleReports := rfl
@[simp] theorem Yard.setRow_refusedReports (y : Yard) (r : Nat) (f : Row → Row) :
    (y.setRow r f).refusedReports = y.refusedReports := rfl
@[simp] theorem Yard.setRow_rail (y : Yard) (r : Nat) (f : Row → Row) :
    (y.setRow r f).rail = y.rail := rfl
@[simp] theorem Yard.setRow_rounds (y : Yard) (r : Nat) (f : Row → Row) :
    (y.setRow r f).rounds = y.rounds := rfl
@[simp] theorem Yard.setRow_alerts (y : Yard) (r : Nat) (f : Row → Row) :
    (y.setRow r f).alerts = y.alerts := rfl
@[simp] theorem Yard.setRow_metSilent (y : Yard) (r : Nat) (f : Row → Row) :
    (y.setRow r f).metSilent = y.metSilent := rfl
@[simp] theorem Yard.setRow_storm (y : Yard) (r : Nat) (f : Row → Row) :
    (y.setRow r f).storm = y.storm := rfl
@[simp] theorem Yard.setRow_boxes (y : Yard) (r : Nat) (f : Row → Row) :
    (y.setRow r f).boxes = y.boxes := rfl
@[simp] theorem Yard.setRow_assign (y : Yard) (r : Nat) (f : Row → Row) :
    (y.setRow r f).assign = y.assign := rfl
@[simp] theorem Yard.setRow_freeCount (y : Yard) (r : Nat) (f : Row → Row) :
    (y.setRow r f).freeCount = y.freeCount := rfl

/-! ### Yard.setRobot -/

@[simp] theorem Yard.setRobot_settings (y : Yard) (k : Nat) (f : Robot → Robot) :
    (y.setRobot k f).settings = y.settings := rfl
@[simp] theorem Yard.setRobot_startUp (y : Yard) (k : Nat) (f : Robot → Robot) :
    (y.setRobot k f).startUp = y.startUp := rfl
@[simp] theorem Yard.setRobot_stamp (y : Yard) (k : Nat) (f : Robot → Robot) :
    (y.setRobot k f).stamp = y.stamp := rfl
@[simp] theorem Yard.setRobot_rows (y : Yard) (k : Nat) (f : Robot → Robot) :
    (y.setRobot k f).rows = y.rows := rfl
@[simp] theorem Yard.setRobot_fences (y : Yard) (k : Nat) (f : Robot → Robot) :
    (y.setRobot k f).fences = y.fences := rfl
@[simp] theorem Yard.setRobot_robots (y : Yard) (k : Nat) (f : Robot → Robot) :
    (y.setRobot k f).robots = y.robots.modify k f := rfl
@[simp] theorem Yard.setRobot_carriages (y : Yard) (k : Nat) (f : Robot → Robot) :
    (y.setRobot k f).carriages = y.carriages := rfl
@[simp] theorem Yard.setRobot_docks (y : Yard) (k : Nat) (f : Robot → Robot) :
    (y.setRobot k f).docks = y.docks := rfl
@[simp] theorem Yard.setRobot_staleReports (y : Yard) (k : Nat) (f : Robot → Robot) :
    (y.setRobot k f).staleReports = y.staleReports := rfl
@[simp] theorem Yard.setRobot_refusedReports (y : Yard) (k : Nat) (f : Robot → Robot) :
    (y.setRobot k f).refusedReports = y.refusedReports := rfl
@[simp] theorem Yard.setRobot_rail (y : Yard) (k : Nat) (f : Robot → Robot) :
    (y.setRobot k f).rail = y.rail := rfl
@[simp] theorem Yard.setRobot_rounds (y : Yard) (k : Nat) (f : Robot → Robot) :
    (y.setRobot k f).rounds = y.rounds := rfl
@[simp] theorem Yard.setRobot_alerts (y : Yard) (k : Nat) (f : Robot → Robot) :
    (y.setRobot k f).alerts = y.alerts := rfl
@[simp] theorem Yard.setRobot_metSilent (y : Yard) (k : Nat) (f : Robot → Robot) :
    (y.setRobot k f).metSilent = y.metSilent := rfl
@[simp] theorem Yard.setRobot_storm (y : Yard) (k : Nat) (f : Robot → Robot) :
    (y.setRobot k f).storm = y.storm := rfl
@[simp] theorem Yard.setRobot_boxes (y : Yard) (k : Nat) (f : Robot → Robot) :
    (y.setRobot k f).boxes = y.boxes := rfl
@[simp] theorem Yard.setRobot_assign (y : Yard) (k : Nat) (f : Robot → Robot) :
    (y.setRobot k f).assign = (y.assign || y.makesAvailable k f) := rfl
@[simp] theorem Yard.setRobot_freeCount (y : Yard) (k : Nat) (f : Robot → Robot) :
    (y.setRobot k f).freeCount = y.freeCount := rfl

/-! ### Yard.setCarriage -/

@[simp] theorem Yard.setCarriage_settings (y : Yard) (c : Nat) (f : Carriage → Carriage) :
    (y.setCarriage c f).settings = y.settings := rfl
@[simp] theorem Yard.setCarriage_startUp (y : Yard) (c : Nat) (f : Carriage → Carriage) :
    (y.setCarriage c f).startUp = y.startUp := rfl
@[simp] theorem Yard.setCarriage_stamp (y : Yard) (c : Nat) (f : Carriage → Carriage) :
    (y.setCarriage c f).stamp = y.stamp := rfl
@[simp] theorem Yard.setCarriage_rows (y : Yard) (c : Nat) (f : Carriage → Carriage) :
    (y.setCarriage c f).rows = y.rows := rfl
@[simp] theorem Yard.setCarriage_fences (y : Yard) (c : Nat) (f : Carriage → Carriage) :
    (y.setCarriage c f).fences = y.fences := rfl
@[simp] theorem Yard.setCarriage_robots (y : Yard) (c : Nat) (f : Carriage → Carriage) :
    (y.setCarriage c f).robots = y.robots := rfl
@[simp] theorem Yard.setCarriage_carriages (y : Yard) (c : Nat) (f : Carriage → Carriage) :
    (y.setCarriage c f).carriages = y.carriages.modify c f := rfl
@[simp] theorem Yard.setCarriage_docks (y : Yard) (c : Nat) (f : Carriage → Carriage) :
    (y.setCarriage c f).docks = y.docks := rfl
@[simp] theorem Yard.setCarriage_staleReports (y : Yard) (c : Nat) (f : Carriage → Carriage) :
    (y.setCarriage c f).staleReports = y.staleReports := rfl
@[simp] theorem Yard.setCarriage_refusedReports (y : Yard) (c : Nat) (f : Carriage → Carriage) :
    (y.setCarriage c f).refusedReports = y.refusedReports := rfl
@[simp] theorem Yard.setCarriage_rail (y : Yard) (c : Nat) (f : Carriage → Carriage) :
    (y.setCarriage c f).rail = y.rail := rfl
@[simp] theorem Yard.setCarriage_rounds (y : Yard) (c : Nat) (f : Carriage → Carriage) :
    (y.setCarriage c f).rounds = y.rounds := rfl
@[simp] theorem Yard.setCarriage_alerts (y : Yard) (c : Nat) (f : Carriage → Carriage) :
    (y.setCarriage c f).alerts = y.alerts := rfl
@[simp] theorem Yard.setCarriage_metSilent (y : Yard) (c : Nat) (f : Carriage → Carriage) :
    (y.setCarriage c f).metSilent = y.metSilent := rfl
@[simp] theorem Yard.setCarriage_storm (y : Yard) (c : Nat) (f : Carriage → Carriage) :
    (y.setCarriage c f).storm = y.storm := rfl
@[simp] theorem Yard.setCarriage_boxes (y : Yard) (c : Nat) (f : Carriage → Carriage) :
    (y.setCarriage c f).boxes = y.boxes := rfl
@[simp] theorem Yard.setCarriage_assign (y : Yard) (c : Nat) (f : Carriage → Carriage) :
    (y.setCarriage c f).assign = y.assign := rfl
@[simp] theorem Yard.setCarriage_freeCount (y : Yard) (c : Nat) (f : Carriage → Carriage) :
    (y.setCarriage c f).freeCount = y.freeCount := rfl

/-! ### Yard.setDock -/

@[simp] theorem Yard.setDock_settings (y : Yard) (d : Nat) (f : Dock → Dock) :
    (y.setDock d f).settings = y.settings := rfl
@[simp] theorem Yard.setDock_startUp (y : Yard) (d : Nat) (f : Dock → Dock) :
    (y.setDock d f).startUp = y.startUp := rfl
@[simp] theorem Yard.setDock_stamp (y : Yard) (d : Nat) (f : Dock → Dock) :
    (y.setDock d f).stamp = y.stamp := rfl
@[simp] theorem Yard.setDock_rows (y : Yard) (d : Nat) (f : Dock → Dock) :
    (y.setDock d f).rows = y.rows := rfl
@[simp] theorem Yard.setDock_fences (y : Yard) (d : Nat) (f : Dock → Dock) :
    (y.setDock d f).fences = y.fences := rfl
@[simp] theorem Yard.setDock_robots (y : Yard) (d : Nat) (f : Dock → Dock) :
    (y.setDock d f).robots = y.robots := rfl
@[simp] theorem Yard.setDock_carriages (y : Yard) (d : Nat) (f : Dock → Dock) :
    (y.setDock d f).carriages = y.carriages := rfl
@[simp] theorem Yard.setDock_docks (y : Yard) (d : Nat) (f : Dock → Dock) :
    (y.setDock d f).docks = y.docks.modify d f := rfl
@[simp] theorem Yard.setDock_staleReports (y : Yard) (d : Nat) (f : Dock → Dock) :
    (y.setDock d f).staleReports = y.staleReports := rfl
@[simp] theorem Yard.setDock_refusedReports (y : Yard) (d : Nat) (f : Dock → Dock) :
    (y.setDock d f).refusedReports = y.refusedReports := rfl
@[simp] theorem Yard.setDock_rail (y : Yard) (d : Nat) (f : Dock → Dock) :
    (y.setDock d f).rail = y.rail := rfl
@[simp] theorem Yard.setDock_rounds (y : Yard) (d : Nat) (f : Dock → Dock) :
    (y.setDock d f).rounds = y.rounds := rfl
@[simp] theorem Yard.setDock_alerts (y : Yard) (d : Nat) (f : Dock → Dock) :
    (y.setDock d f).alerts = y.alerts := rfl
@[simp] theorem Yard.setDock_metSilent (y : Yard) (d : Nat) (f : Dock → Dock) :
    (y.setDock d f).metSilent = y.metSilent := rfl
@[simp] theorem Yard.setDock_storm (y : Yard) (d : Nat) (f : Dock → Dock) :
    (y.setDock d f).storm = y.storm := rfl
@[simp] theorem Yard.setDock_boxes (y : Yard) (d : Nat) (f : Dock → Dock) :
    (y.setDock d f).boxes = y.boxes := rfl
@[simp] theorem Yard.setDock_assign (y : Yard) (d : Nat) (f : Dock → Dock) :
    (y.setDock d f).assign = y.assign := rfl
@[simp] theorem Yard.setDock_freeCount (y : Yard) (d : Nat) (f : Dock → Dock) :
    (y.setDock d f).freeCount = y.freeCount := rfl

/-! ### Yard.setTransfer -/

@[simp] theorem Yard.setTransfer_settings (y : Yard) (tag : Nat) (f : Transfer → Transfer) :
    (y.setTransfer tag f).settings = y.settings := rfl
@[simp] theorem Yard.setTransfer_startUp (y : Yard) (tag : Nat) (f : Transfer → Transfer) :
    (y.setTransfer tag f).startUp = y.startUp := rfl
@[simp] theorem Yard.setTransfer_stamp (y : Yard) (tag : Nat) (f : Transfer → Transfer) :
    (y.setTransfer tag f).stamp = y.stamp := rfl
@[simp] theorem Yard.setTransfer_rows (y : Yard) (tag : Nat) (f : Transfer → Transfer) :
    (y.setTransfer tag f).rows = y.rows := rfl
@[simp] theorem Yard.setTransfer_fences (y : Yard) (tag : Nat) (f : Transfer → Transfer) :
    (y.setTransfer tag f).fences = y.fences := rfl
@[simp] theorem Yard.setTransfer_robots (y : Yard) (tag : Nat) (f : Transfer → Transfer) :
    (y.setTransfer tag f).robots = y.robots := rfl
@[simp] theorem Yard.setTransfer_carriages (y : Yard) (tag : Nat) (f : Transfer → Transfer) :
    (y.setTransfer tag f).carriages = y.carriages := rfl
@[simp] theorem Yard.setTransfer_docks (y : Yard) (tag : Nat) (f : Transfer → Transfer) :
    (y.setTransfer tag f).docks = y.docks := rfl
@[simp] theorem Yard.setTransfer_staleReports (y : Yard) (tag : Nat) (f : Transfer → Transfer) :
    (y.setTransfer tag f).staleReports = y.staleReports := rfl
@[simp] theorem Yard.setTransfer_refusedReports (y : Yard) (tag : Nat) (f : Transfer → Transfer) :
    (y.setTransfer tag f).refusedReports = y.refusedReports := rfl
@[simp] theorem Yard.setTransfer_rail (y : Yard) (tag : Nat) (f : Transfer → Transfer) :
    (y.setTransfer tag f).rail = { y.rail with queue := y.rail.queue.map fun t => if t.tag = tag then f t else t } := rfl
@[simp] theorem Yard.setTransfer_rounds (y : Yard) (tag : Nat) (f : Transfer → Transfer) :
    (y.setTransfer tag f).rounds = y.rounds := rfl
@[simp] theorem Yard.setTransfer_alerts (y : Yard) (tag : Nat) (f : Transfer → Transfer) :
    (y.setTransfer tag f).alerts = y.alerts := rfl
@[simp] theorem Yard.setTransfer_metSilent (y : Yard) (tag : Nat) (f : Transfer → Transfer) :
    (y.setTransfer tag f).metSilent = y.metSilent := rfl
@[simp] theorem Yard.setTransfer_storm (y : Yard) (tag : Nat) (f : Transfer → Transfer) :
    (y.setTransfer tag f).storm = y.storm := rfl
@[simp] theorem Yard.setTransfer_boxes (y : Yard) (tag : Nat) (f : Transfer → Transfer) :
    (y.setTransfer tag f).boxes = y.boxes := rfl
@[simp] theorem Yard.setTransfer_assign (y : Yard) (tag : Nat) (f : Transfer → Transfer) :
    (y.setTransfer tag f).assign = y.assign := rfl
@[simp] theorem Yard.setTransfer_freeCount (y : Yard) (tag : Nat) (f : Transfer → Transfer) :
    (y.setTransfer tag f).freeCount = y.freeCount := rfl

/-! ### Yard.setEntry -/

@[simp] theorem Yard.setEntry_settings (y : Yard) (r : Nat) (f : Entry → Entry) :
    (y.setEntry r f).settings = y.settings := rfl
@[simp] theorem Yard.setEntry_startUp (y : Yard) (r : Nat) (f : Entry → Entry) :
    (y.setEntry r f).startUp = y.startUp := rfl
@[simp] theorem Yard.setEntry_stamp (y : Yard) (r : Nat) (f : Entry → Entry) :
    (y.setEntry r f).stamp = y.stamp := rfl
@[simp] theorem Yard.setEntry_rows (y : Yard) (r : Nat) (f : Entry → Entry) :
    (y.setEntry r f).rows = y.rows := rfl
@[simp] theorem Yard.setEntry_fences (y : Yard) (r : Nat) (f : Entry → Entry) :
    (y.setEntry r f).fences = y.fences := rfl
@[simp] theorem Yard.setEntry_robots (y : Yard) (r : Nat) (f : Entry → Entry) :
    (y.setEntry r f).robots = y.robots := rfl
@[simp] theorem Yard.setEntry_carriages (y : Yard) (r : Nat) (f : Entry → Entry) :
    (y.setEntry r f).carriages = y.carriages := rfl
@[simp] theorem Yard.setEntry_docks (y : Yard) (r : Nat) (f : Entry → Entry) :
    (y.setEntry r f).docks = y.docks := rfl
@[simp] theorem Yard.setEntry_staleReports (y : Yard) (r : Nat) (f : Entry → Entry) :
    (y.setEntry r f).staleReports = y.staleReports := rfl
@[simp] theorem Yard.setEntry_refusedReports (y : Yard) (r : Nat) (f : Entry → Entry) :
    (y.setEntry r f).refusedReports = y.refusedReports := rfl
@[simp] theorem Yard.setEntry_rail (y : Yard) (r : Nat) (f : Entry → Entry) :
    (y.setEntry r f).rail = y.rail := rfl
@[simp] theorem Yard.setEntry_rounds (y : Yard) (r : Nat) (f : Entry → Entry) :
    (y.setEntry r f).rounds = { y.rounds with list := y.rounds.list.map fun e => if e.row = r then f e else e } := rfl
@[simp] theorem Yard.setEntry_alerts (y : Yard) (r : Nat) (f : Entry → Entry) :
    (y.setEntry r f).alerts = y.alerts := rfl
@[simp] theorem Yard.setEntry_metSilent (y : Yard) (r : Nat) (f : Entry → Entry) :
    (y.setEntry r f).metSilent = y.metSilent := rfl
@[simp] theorem Yard.setEntry_storm (y : Yard) (r : Nat) (f : Entry → Entry) :
    (y.setEntry r f).storm = y.storm := rfl
@[simp] theorem Yard.setEntry_boxes (y : Yard) (r : Nat) (f : Entry → Entry) :
    (y.setEntry r f).boxes = y.boxes := rfl
@[simp] theorem Yard.setEntry_assign (y : Yard) (r : Nat) (f : Entry → Entry) :
    (y.setEntry r f).assign = y.assign := rfl
@[simp] theorem Yard.setEntry_freeCount (y : Yard) (r : Nat) (f : Entry → Entry) :
    (y.setEntry r f).freeCount = y.freeCount := rfl

/-! ### Yard.setNudge -/

@[simp] theorem Yard.setNudge_settings (y : Yard) (c : Nat) (n : Option Nudge) :
    (y.setNudge c n).settings = y.settings := rfl
@[simp] theorem Yard.setNudge_startUp (y : Yard) (c : Nat) (n : Option Nudge) :
    (y.setNudge c n).startUp = y.startUp := rfl
@[simp] theorem Yard.setNudge_stamp (y : Yard) (c : Nat) (n : Option Nudge) :
    (y.setNudge c n).stamp = y.stamp := rfl
@[simp] theorem Yard.setNudge_rows (y : Yard) (c : Nat) (n : Option Nudge) :
    (y.setNudge c n).rows = y.rows := rfl
@[simp] theorem Yard.setNudge_fences (y : Yard) (c : Nat) (n : Option Nudge) :
    (y.setNudge c n).fences = y.fences := rfl
@[simp] theorem Yard.setNudge_robots (y : Yard) (c : Nat) (n : Option Nudge) :
    (y.setNudge c n).robots = y.robots := rfl
@[simp] theorem Yard.setNudge_carriages (y : Yard) (c : Nat) (n : Option Nudge) :
    (y.setNudge c n).carriages = y.carriages := rfl
@[simp] theorem Yard.setNudge_docks (y : Yard) (c : Nat) (n : Option Nudge) :
    (y.setNudge c n).docks = y.docks := rfl
@[simp] theorem Yard.setNudge_staleReports (y : Yard) (c : Nat) (n : Option Nudge) :
    (y.setNudge c n).staleReports = y.staleReports := rfl
@[simp] theorem Yard.setNudge_refusedReports (y : Yard) (c : Nat) (n : Option Nudge) :
    (y.setNudge c n).refusedReports = y.refusedReports := rfl
@[simp] theorem Yard.setNudge_rail (y : Yard) (c : Nat) (n : Option Nudge) :
    (y.setNudge c n).rail = { y.rail with nudges := y.rail.nudges.set c n } := rfl
@[simp] theorem Yard.setNudge_rounds (y : Yard) (c : Nat) (n : Option Nudge) :
    (y.setNudge c n).rounds = y.rounds := rfl
@[simp] theorem Yard.setNudge_alerts (y : Yard) (c : Nat) (n : Option Nudge) :
    (y.setNudge c n).alerts = y.alerts := rfl
@[simp] theorem Yard.setNudge_metSilent (y : Yard) (c : Nat) (n : Option Nudge) :
    (y.setNudge c n).metSilent = y.metSilent := rfl
@[simp] theorem Yard.setNudge_storm (y : Yard) (c : Nat) (n : Option Nudge) :
    (y.setNudge c n).storm = y.storm := rfl
@[simp] theorem Yard.setNudge_boxes (y : Yard) (c : Nat) (n : Option Nudge) :
    (y.setNudge c n).boxes = y.boxes := rfl
@[simp] theorem Yard.setNudge_assign (y : Yard) (c : Nat) (n : Option Nudge) :
    (y.setNudge c n).assign = y.assign := rfl
@[simp] theorem Yard.setNudge_freeCount (y : Yard) (c : Nat) (n : Option Nudge) :
    (y.setNudge c n).freeCount = y.freeCount := rfl

/-! ### Yard.setPassTimer -/

@[simp] theorem Yard.setPassTimer_settings (y : Yard) (k : Nat) (t : Option Nat) :
    (y.setPassTimer k t).settings = y.settings := rfl
@[simp] theorem Yard.setPassTimer_startUp (y : Yard) (k : Nat) (t : Option Nat) :
    (y.setPassTimer k t).startUp = y.startUp := rfl
@[simp] theorem Yard.setPassTimer_stamp (y : Yard) (k : Nat) (t : Option Nat) :
    (y.setPassTimer k t).stamp = y.stamp := rfl
@[simp] theorem Yard.setPassTimer_rows (y : Yard) (k : Nat) (t : Option Nat) :
    (y.setPassTimer k t).rows = y.rows := rfl
@[simp] theorem Yard.setPassTimer_fences (y : Yard) (k : Nat) (t : Option Nat) :
    (y.setPassTimer k t).fences = y.fences := rfl
@[simp] theorem Yard.setPassTimer_robots (y : Yard) (k : Nat) (t : Option Nat) :
    (y.setPassTimer k t).robots = y.robots := rfl
@[simp] theorem Yard.setPassTimer_carriages (y : Yard) (k : Nat) (t : Option Nat) :
    (y.setPassTimer k t).carriages = y.carriages := rfl
@[simp] theorem Yard.setPassTimer_docks (y : Yard) (k : Nat) (t : Option Nat) :
    (y.setPassTimer k t).docks = y.docks := rfl
@[simp] theorem Yard.setPassTimer_staleReports (y : Yard) (k : Nat) (t : Option Nat) :
    (y.setPassTimer k t).staleReports = y.staleReports := rfl
@[simp] theorem Yard.setPassTimer_refusedReports (y : Yard) (k : Nat) (t : Option Nat) :
    (y.setPassTimer k t).refusedReports = y.refusedReports := rfl
@[simp] theorem Yard.setPassTimer_rail (y : Yard) (k : Nat) (t : Option Nat) :
    (y.setPassTimer k t).rail = y.rail := rfl
@[simp] theorem Yard.setPassTimer_rounds (y : Yard) (k : Nat) (t : Option Nat) :
    (y.setPassTimer k t).rounds = { y.rounds with passTimers := y.rounds.passTimers.set k t } := rfl
@[simp] theorem Yard.setPassTimer_alerts (y : Yard) (k : Nat) (t : Option Nat) :
    (y.setPassTimer k t).alerts = y.alerts := rfl
@[simp] theorem Yard.setPassTimer_metSilent (y : Yard) (k : Nat) (t : Option Nat) :
    (y.setPassTimer k t).metSilent = y.metSilent := rfl
@[simp] theorem Yard.setPassTimer_storm (y : Yard) (k : Nat) (t : Option Nat) :
    (y.setPassTimer k t).storm = y.storm := rfl
@[simp] theorem Yard.setPassTimer_boxes (y : Yard) (k : Nat) (t : Option Nat) :
    (y.setPassTimer k t).boxes = y.boxes := rfl
@[simp] theorem Yard.setPassTimer_assign (y : Yard) (k : Nat) (t : Option Nat) :
    (y.setPassTimer k t).assign = y.assign := rfl
@[simp] theorem Yard.setPassTimer_freeCount (y : Yard) (k : Nat) (t : Option Nat) :
    (y.setPassTimer k t).freeCount = y.freeCount := rfl

/-! ### Yard.countRounds -/

@[simp] theorem Yard.countRounds_settings (y : Yard) (f : RoundCounters → RoundCounters) :
    (y.countRounds f).settings = y.settings := rfl
@[simp] theorem Yard.countRounds_startUp (y : Yard) (f : RoundCounters → RoundCounters) :
    (y.countRounds f).startUp = y.startUp := rfl
@[simp] theorem Yard.countRounds_stamp (y : Yard) (f : RoundCounters → RoundCounters) :
    (y.countRounds f).stamp = y.stamp := rfl
@[simp] theorem Yard.countRounds_rows (y : Yard) (f : RoundCounters → RoundCounters) :
    (y.countRounds f).rows = y.rows := rfl
@[simp] theorem Yard.countRounds_fences (y : Yard) (f : RoundCounters → RoundCounters) :
    (y.countRounds f).fences = y.fences := rfl
@[simp] theorem Yard.countRounds_robots (y : Yard) (f : RoundCounters → RoundCounters) :
    (y.countRounds f).robots = y.robots := rfl
@[simp] theorem Yard.countRounds_carriages (y : Yard) (f : RoundCounters → RoundCounters) :
    (y.countRounds f).carriages = y.carriages := rfl
@[simp] theorem Yard.countRounds_docks (y : Yard) (f : RoundCounters → RoundCounters) :
    (y.countRounds f).docks = y.docks := rfl
@[simp] theorem Yard.countRounds_staleReports (y : Yard) (f : RoundCounters → RoundCounters) :
    (y.countRounds f).staleReports = y.staleReports := rfl
@[simp] theorem Yard.countRounds_refusedReports (y : Yard) (f : RoundCounters → RoundCounters) :
    (y.countRounds f).refusedReports = y.refusedReports := rfl
@[simp] theorem Yard.countRounds_rail (y : Yard) (f : RoundCounters → RoundCounters) :
    (y.countRounds f).rail = y.rail := rfl
@[simp] theorem Yard.countRounds_rounds (y : Yard) (f : RoundCounters → RoundCounters) :
    (y.countRounds f).rounds = { y.rounds with counters := f y.rounds.counters } := rfl
@[simp] theorem Yard.countRounds_alerts (y : Yard) (f : RoundCounters → RoundCounters) :
    (y.countRounds f).alerts = y.alerts := rfl
@[simp] theorem Yard.countRounds_metSilent (y : Yard) (f : RoundCounters → RoundCounters) :
    (y.countRounds f).metSilent = y.metSilent := rfl
@[simp] theorem Yard.countRounds_storm (y : Yard) (f : RoundCounters → RoundCounters) :
    (y.countRounds f).storm = y.storm := rfl
@[simp] theorem Yard.countRounds_boxes (y : Yard) (f : RoundCounters → RoundCounters) :
    (y.countRounds f).boxes = y.boxes := rfl
@[simp] theorem Yard.countRounds_assign (y : Yard) (f : RoundCounters → RoundCounters) :
    (y.countRounds f).assign = y.assign := rfl
@[simp] theorem Yard.countRounds_freeCount (y : Yard) (f : RoundCounters → RoundCounters) :
    (y.countRounds f).freeCount = y.freeCount := rfl

/-! ### Yard.countStorm -/

@[simp] theorem Yard.countStorm_settings (y : Yard) (f : StormCounters → StormCounters) :
    (y.countStorm f).settings = y.settings := rfl
@[simp] theorem Yard.countStorm_startUp (y : Yard) (f : StormCounters → StormCounters) :
    (y.countStorm f).startUp = y.startUp := rfl
@[simp] theorem Yard.countStorm_stamp (y : Yard) (f : StormCounters → StormCounters) :
    (y.countStorm f).stamp = y.stamp := rfl
@[simp] theorem Yard.countStorm_rows (y : Yard) (f : StormCounters → StormCounters) :
    (y.countStorm f).rows = y.rows := rfl
@[simp] theorem Yard.countStorm_fences (y : Yard) (f : StormCounters → StormCounters) :
    (y.countStorm f).fences = y.fences := rfl
@[simp] theorem Yard.countStorm_robots (y : Yard) (f : StormCounters → StormCounters) :
    (y.countStorm f).robots = y.robots := rfl
@[simp] theorem Yard.countStorm_carriages (y : Yard) (f : StormCounters → StormCounters) :
    (y.countStorm f).carriages = y.carriages := rfl
@[simp] theorem Yard.countStorm_docks (y : Yard) (f : StormCounters → StormCounters) :
    (y.countStorm f).docks = y.docks := rfl
@[simp] theorem Yard.countStorm_staleReports (y : Yard) (f : StormCounters → StormCounters) :
    (y.countStorm f).staleReports = y.staleReports := rfl
@[simp] theorem Yard.countStorm_refusedReports (y : Yard) (f : StormCounters → StormCounters) :
    (y.countStorm f).refusedReports = y.refusedReports := rfl
@[simp] theorem Yard.countStorm_rail (y : Yard) (f : StormCounters → StormCounters) :
    (y.countStorm f).rail = y.rail := rfl
@[simp] theorem Yard.countStorm_rounds (y : Yard) (f : StormCounters → StormCounters) :
    (y.countStorm f).rounds = y.rounds := rfl
@[simp] theorem Yard.countStorm_alerts (y : Yard) (f : StormCounters → StormCounters) :
    (y.countStorm f).alerts = y.alerts := rfl
@[simp] theorem Yard.countStorm_metSilent (y : Yard) (f : StormCounters → StormCounters) :
    (y.countStorm f).metSilent = y.metSilent := rfl
@[simp] theorem Yard.countStorm_storm (y : Yard) (f : StormCounters → StormCounters) :
    (y.countStorm f).storm = { y.storm with counters := f y.storm.counters } := rfl
@[simp] theorem Yard.countStorm_boxes (y : Yard) (f : StormCounters → StormCounters) :
    (y.countStorm f).boxes = y.boxes := rfl
@[simp] theorem Yard.countStorm_assign (y : Yard) (f : StormCounters → StormCounters) :
    (y.countStorm f).assign = y.assign := rfl
@[simp] theorem Yard.countStorm_freeCount (y : Yard) (f : StormCounters → StormCounters) :
    (y.countStorm f).freeCount = y.freeCount := rfl

/-! ### Yard.giveAssign -/

@[simp] theorem Yard.giveAssign_settings (y : Yard) :
    (y.giveAssign).settings = y.settings := rfl
@[simp] theorem Yard.giveAssign_startUp (y : Yard) :
    (y.giveAssign).startUp = y.startUp := rfl
@[simp] theorem Yard.giveAssign_stamp (y : Yard) :
    (y.giveAssign).stamp = y.stamp := rfl
@[simp] theorem Yard.giveAssign_rows (y : Yard) :
    (y.giveAssign).rows = y.rows := rfl
@[simp] theorem Yard.giveAssign_fences (y : Yard) :
    (y.giveAssign).fences = y.fences := rfl
@[simp] theorem Yard.giveAssign_robots (y : Yard) :
    (y.giveAssign).robots = y.robots := rfl
@[simp] theorem Yard.giveAssign_carriages (y : Yard) :
    (y.giveAssign).carriages = y.carriages := rfl
@[simp] theorem Yard.giveAssign_docks (y : Yard) :
    (y.giveAssign).docks = y.docks := rfl
@[simp] theorem Yard.giveAssign_staleReports (y : Yard) :
    (y.giveAssign).staleReports = y.staleReports := rfl
@[simp] theorem Yard.giveAssign_refusedReports (y : Yard) :
    (y.giveAssign).refusedReports = y.refusedReports := rfl
@[simp] theorem Yard.giveAssign_rail (y : Yard) :
    (y.giveAssign).rail = y.rail := rfl
@[simp] theorem Yard.giveAssign_rounds (y : Yard) :
    (y.giveAssign).rounds = y.rounds := rfl
@[simp] theorem Yard.giveAssign_alerts (y : Yard) :
    (y.giveAssign).alerts = y.alerts := rfl
@[simp] theorem Yard.giveAssign_metSilent (y : Yard) :
    (y.giveAssign).metSilent = y.metSilent := rfl
@[simp] theorem Yard.giveAssign_storm (y : Yard) :
    (y.giveAssign).storm = y.storm := rfl
@[simp] theorem Yard.giveAssign_boxes (y : Yard) :
    (y.giveAssign).boxes = y.boxes := rfl
@[simp] theorem Yard.giveAssign_assign (y : Yard) :
    (y.giveAssign).assign = true := rfl
@[simp] theorem Yard.giveAssign_freeCount (y : Yard) :
    (y.giveAssign).freeCount = y.freeCount := rfl

/-! ### Yard.notify -/

@[simp] theorem Yard.notify_settings (y : Yard) (p : Port) (kind : NoticeKind) (subject : Nat × Nat × Nat) (detail : Nat) :
    (y.notify p kind subject detail).settings = y.settings := rfl
@[simp] theorem Yard.notify_startUp (y : Yard) (p : Port) (kind : NoticeKind) (subject : Nat × Nat × Nat) (detail : Nat) :
    (y.notify p kind subject detail).startUp = y.startUp := rfl
@[simp] theorem Yard.notify_stamp (y : Yard) (p : Port) (kind : NoticeKind) (subject : Nat × Nat × Nat) (detail : Nat) :
    (y.notify p kind subject detail).stamp = y.stamp := rfl
@[simp] theorem Yard.notify_rows (y : Yard) (p : Port) (kind : NoticeKind) (subject : Nat × Nat × Nat) (detail : Nat) :
    (y.notify p kind subject detail).rows = y.rows := rfl
@[simp] theorem Yard.notify_fences (y : Yard) (p : Port) (kind : NoticeKind) (subject : Nat × Nat × Nat) (detail : Nat) :
    (y.notify p kind subject detail).fences = y.fences := rfl
@[simp] theorem Yard.notify_robots (y : Yard) (p : Port) (kind : NoticeKind) (subject : Nat × Nat × Nat) (detail : Nat) :
    (y.notify p kind subject detail).robots = y.robots := rfl
@[simp] theorem Yard.notify_carriages (y : Yard) (p : Port) (kind : NoticeKind) (subject : Nat × Nat × Nat) (detail : Nat) :
    (y.notify p kind subject detail).carriages = y.carriages := rfl
@[simp] theorem Yard.notify_docks (y : Yard) (p : Port) (kind : NoticeKind) (subject : Nat × Nat × Nat) (detail : Nat) :
    (y.notify p kind subject detail).docks = y.docks := rfl
@[simp] theorem Yard.notify_staleReports (y : Yard) (p : Port) (kind : NoticeKind) (subject : Nat × Nat × Nat) (detail : Nat) :
    (y.notify p kind subject detail).staleReports = y.staleReports := rfl
@[simp] theorem Yard.notify_refusedReports (y : Yard) (p : Port) (kind : NoticeKind) (subject : Nat × Nat × Nat) (detail : Nat) :
    (y.notify p kind subject detail).refusedReports = y.refusedReports := rfl
@[simp] theorem Yard.notify_rail (y : Yard) (p : Port) (kind : NoticeKind) (subject : Nat × Nat × Nat) (detail : Nat) :
    (y.notify p kind subject detail).rail = y.rail := rfl
@[simp] theorem Yard.notify_rounds (y : Yard) (p : Port) (kind : NoticeKind) (subject : Nat × Nat × Nat) (detail : Nat) :
    (y.notify p kind subject detail).rounds = y.rounds := rfl
@[simp] theorem Yard.notify_alerts (y : Yard) (p : Port) (kind : NoticeKind) (subject : Nat × Nat × Nat) (detail : Nat) :
    (y.notify p kind subject detail).alerts = y.alerts := rfl
@[simp] theorem Yard.notify_metSilent (y : Yard) (p : Port) (kind : NoticeKind) (subject : Nat × Nat × Nat) (detail : Nat) :
    (y.notify p kind subject detail).metSilent = y.metSilent := rfl
@[simp] theorem Yard.notify_storm (y : Yard) (p : Port) (kind : NoticeKind) (subject : Nat × Nat × Nat) (detail : Nat) :
    (y.notify p kind subject detail).storm = y.storm := rfl
@[simp] theorem Yard.notify_boxes (y : Yard) (p : Port) (kind : NoticeKind) (subject : Nat × Nat × Nat) (detail : Nat) :
    (y.notify p kind subject detail).boxes = y.boxes.set p ((y.boxes.get p).give ⟨kind, subject, detail, y.stamp⟩) := rfl
@[simp] theorem Yard.notify_assign (y : Yard) (p : Port) (kind : NoticeKind) (subject : Nat × Nat × Nat) (detail : Nat) :
    (y.notify p kind subject detail).assign = y.assign := rfl
@[simp] theorem Yard.notify_freeCount (y : Yard) (p : Port) (kind : NoticeKind) (subject : Nat × Nat × Nat) (detail : Nat) :
    (y.notify p kind subject detail).freeCount = y.freeCount := rfl

/-! ### Yard.dropLinks -/

@[simp] theorem Yard.dropLinks_settings (y : Yard) (r : Nat) :
    (y.dropLinks r).settings = y.settings := rfl
@[simp] theorem Yard.dropLinks_startUp (y : Yard) (r : Nat) :
    (y.dropLinks r).startUp = y.startUp := rfl
@[simp] theorem Yard.dropLinks_stamp (y : Yard) (r : Nat) :
    (y.dropLinks r).stamp = y.stamp := rfl
@[simp] theorem Yard.dropLinks_rows (y : Yard) (r : Nat) :
    (y.dropLinks r).rows = y.rows := rfl
@[simp] theorem Yard.dropLinks_fences (y : Yard) (r : Nat) :
    (y.dropLinks r).fences = y.fences := rfl
@[simp] theorem Yard.dropLinks_robots (y : Yard) (r : Nat) :
    (y.dropLinks r).robots = y.robots := rfl
@[simp] theorem Yard.dropLinks_carriages (y : Yard) (r : Nat) :
    (y.dropLinks r).carriages = y.carriages := rfl
@[simp] theorem Yard.dropLinks_docks (y : Yard) (r : Nat) :
    (y.dropLinks r).docks = y.docks := rfl
@[simp] theorem Yard.dropLinks_staleReports (y : Yard) (r : Nat) :
    (y.dropLinks r).staleReports = y.staleReports := rfl
@[simp] theorem Yard.dropLinks_refusedReports (y : Yard) (r : Nat) :
    (y.dropLinks r).refusedReports = y.refusedReports := rfl
@[simp] theorem Yard.dropLinks_rounds (y : Yard) (r : Nat) :
    (y.dropLinks r).rounds = y.rounds := rfl
@[simp] theorem Yard.dropLinks_alerts (y : Yard) (r : Nat) :
    (y.dropLinks r).alerts = y.alerts := rfl
@[simp] theorem Yard.dropLinks_metSilent (y : Yard) (r : Nat) :
    (y.dropLinks r).metSilent = y.metSilent := rfl
@[simp] theorem Yard.dropLinks_storm (y : Yard) (r : Nat) :
    (y.dropLinks r).storm = y.storm := rfl
@[simp] theorem Yard.dropLinks_boxes (y : Yard) (r : Nat) :
    (y.dropLinks r).boxes = y.boxes := rfl
@[simp] theorem Yard.dropLinks_assign (y : Yard) (r : Nat) :
    (y.dropLinks r).assign = y.assign := rfl
@[simp] theorem Yard.dropLinks_freeCount (y : Yard) (r : Nat) :
    (y.dropLinks r).freeCount = y.freeCount := rfl

/-! ### Yard.reserveSpan -/

@[simp] theorem Yard.reserveSpan_settings (y : Yard) (sp : Span) (c : Nat) (cause : Cause) :
    (y.reserveSpan sp c cause).settings = y.settings := rfl
@[simp] theorem Yard.reserveSpan_startUp (y : Yard) (sp : Span) (c : Nat) (cause : Cause) :
    (y.reserveSpan sp c cause).startUp = y.startUp := rfl
@[simp] theorem Yard.reserveSpan_stamp (y : Yard) (sp : Span) (c : Nat) (cause : Cause) :
    (y.reserveSpan sp c cause).stamp = y.stamp := rfl
@[simp] theorem Yard.reserveSpan_rows (y : Yard) (sp : Span) (c : Nat) (cause : Cause) :
    (y.reserveSpan sp c cause).rows = y.rows := rfl
@[simp] theorem Yard.reserveSpan_fences (y : Yard) (sp : Span) (c : Nat) (cause : Cause) :
    (y.reserveSpan sp c cause).fences = y.fences := rfl
@[simp] theorem Yard.reserveSpan_robots (y : Yard) (sp : Span) (c : Nat) (cause : Cause) :
    (y.reserveSpan sp c cause).robots = y.robots := rfl
@[simp] theorem Yard.reserveSpan_carriages (y : Yard) (sp : Span) (c : Nat) (cause : Cause) :
    (y.reserveSpan sp c cause).carriages = y.carriages := rfl
@[simp] theorem Yard.reserveSpan_docks (y : Yard) (sp : Span) (c : Nat) (cause : Cause) :
    (y.reserveSpan sp c cause).docks = y.docks := rfl
@[simp] theorem Yard.reserveSpan_staleReports (y : Yard) (sp : Span) (c : Nat) (cause : Cause) :
    (y.reserveSpan sp c cause).staleReports = y.staleReports := rfl
@[simp] theorem Yard.reserveSpan_refusedReports (y : Yard) (sp : Span) (c : Nat) (cause : Cause) :
    (y.reserveSpan sp c cause).refusedReports = y.refusedReports := rfl
@[simp] theorem Yard.reserveSpan_rounds (y : Yard) (sp : Span) (c : Nat) (cause : Cause) :
    (y.reserveSpan sp c cause).rounds = y.rounds := rfl
@[simp] theorem Yard.reserveSpan_alerts (y : Yard) (sp : Span) (c : Nat) (cause : Cause) :
    (y.reserveSpan sp c cause).alerts = y.alerts := rfl
@[simp] theorem Yard.reserveSpan_metSilent (y : Yard) (sp : Span) (c : Nat) (cause : Cause) :
    (y.reserveSpan sp c cause).metSilent = y.metSilent := rfl
@[simp] theorem Yard.reserveSpan_storm (y : Yard) (sp : Span) (c : Nat) (cause : Cause) :
    (y.reserveSpan sp c cause).storm = y.storm := rfl
@[simp] theorem Yard.reserveSpan_boxes (y : Yard) (sp : Span) (c : Nat) (cause : Cause) :
    (y.reserveSpan sp c cause).boxes = y.boxes := rfl
@[simp] theorem Yard.reserveSpan_assign (y : Yard) (sp : Span) (c : Nat) (cause : Cause) :
    (y.reserveSpan sp c cause).assign = y.assign := rfl
@[simp] theorem Yard.reserveSpan_freeCount (y : Yard) (sp : Span) (c : Nat) (cause : Cause) :
    (y.reserveSpan sp c cause).freeCount = y.freeCount := rfl

/-! ### Yard.setReservations -/

@[simp] theorem Yard.setReservations_settings (y : Yard) (c : Nat) (v : Option Reservation) :
    (y.setReservations c v).settings = y.settings := rfl
@[simp] theorem Yard.setReservations_startUp (y : Yard) (c : Nat) (v : Option Reservation) :
    (y.setReservations c v).startUp = y.startUp := rfl
@[simp] theorem Yard.setReservations_stamp (y : Yard) (c : Nat) (v : Option Reservation) :
    (y.setReservations c v).stamp = y.stamp := rfl
@[simp] theorem Yard.setReservations_rows (y : Yard) (c : Nat) (v : Option Reservation) :
    (y.setReservations c v).rows = y.rows := rfl
@[simp] theorem Yard.setReservations_fences (y : Yard) (c : Nat) (v : Option Reservation) :
    (y.setReservations c v).fences = y.fences := rfl
@[simp] theorem Yard.setReservations_robots (y : Yard) (c : Nat) (v : Option Reservation) :
    (y.setReservations c v).robots = y.robots := rfl
@[simp] theorem Yard.setReservations_carriages (y : Yard) (c : Nat) (v : Option Reservation) :
    (y.setReservations c v).carriages = y.carriages := rfl
@[simp] theorem Yard.setReservations_docks (y : Yard) (c : Nat) (v : Option Reservation) :
    (y.setReservations c v).docks = y.docks := rfl
@[simp] theorem Yard.setReservations_staleReports (y : Yard) (c : Nat) (v : Option Reservation) :
    (y.setReservations c v).staleReports = y.staleReports := rfl
@[simp] theorem Yard.setReservations_refusedReports (y : Yard) (c : Nat) (v : Option Reservation) :
    (y.setReservations c v).refusedReports = y.refusedReports := rfl
@[simp] theorem Yard.setReservations_rounds (y : Yard) (c : Nat) (v : Option Reservation) :
    (y.setReservations c v).rounds = y.rounds := rfl
@[simp] theorem Yard.setReservations_alerts (y : Yard) (c : Nat) (v : Option Reservation) :
    (y.setReservations c v).alerts = y.alerts := rfl
@[simp] theorem Yard.setReservations_metSilent (y : Yard) (c : Nat) (v : Option Reservation) :
    (y.setReservations c v).metSilent = y.metSilent := rfl
@[simp] theorem Yard.setReservations_storm (y : Yard) (c : Nat) (v : Option Reservation) :
    (y.setReservations c v).storm = y.storm := rfl
@[simp] theorem Yard.setReservations_boxes (y : Yard) (c : Nat) (v : Option Reservation) :
    (y.setReservations c v).boxes = y.boxes := rfl
@[simp] theorem Yard.setReservations_assign (y : Yard) (c : Nat) (v : Option Reservation) :
    (y.setReservations c v).assign = y.assign := rfl
@[simp] theorem Yard.setReservations_freeCount (y : Yard) (c : Nat) (v : Option Reservation) :
    (y.setReservations c v).freeCount = y.freeCount := rfl

/-! ### Yard.stretch -/

@[simp] theorem Yard.stretch_settings (y : Yard) (ls : List Nat) :
    (y.stretch ls).settings = y.settings := rfl
@[simp] theorem Yard.stretch_startUp (y : Yard) (ls : List Nat) :
    (y.stretch ls).startUp = y.startUp := rfl
@[simp] theorem Yard.stretch_stamp (y : Yard) (ls : List Nat) :
    (y.stretch ls).stamp = y.stamp := rfl
@[simp] theorem Yard.stretch_rows (y : Yard) (ls : List Nat) :
    (y.stretch ls).rows = y.rows := rfl
@[simp] theorem Yard.stretch_fences (y : Yard) (ls : List Nat) :
    (y.stretch ls).fences = y.fences := rfl
@[simp] theorem Yard.stretch_robots (y : Yard) (ls : List Nat) :
    (y.stretch ls).robots = y.robots := rfl
@[simp] theorem Yard.stretch_carriages (y : Yard) (ls : List Nat) :
    (y.stretch ls).carriages = y.carriages := rfl
@[simp] theorem Yard.stretch_docks (y : Yard) (ls : List Nat) :
    (y.stretch ls).docks = y.docks := rfl
@[simp] theorem Yard.stretch_staleReports (y : Yard) (ls : List Nat) :
    (y.stretch ls).staleReports = y.staleReports := rfl
@[simp] theorem Yard.stretch_refusedReports (y : Yard) (ls : List Nat) :
    (y.stretch ls).refusedReports = y.refusedReports := rfl
@[simp] theorem Yard.stretch_rail (y : Yard) (ls : List Nat) :
    (y.stretch ls).rail = y.rail := rfl
@[simp] theorem Yard.stretch_rounds (y : Yard) (ls : List Nat) :
    (y.stretch ls).rounds = y.rounds := rfl
@[simp] theorem Yard.stretch_metSilent (y : Yard) (ls : List Nat) :
    (y.stretch ls).metSilent = y.metSilent := rfl
@[simp] theorem Yard.stretch_storm (y : Yard) (ls : List Nat) :
    (y.stretch ls).storm = y.storm := rfl
@[simp] theorem Yard.stretch_boxes (y : Yard) (ls : List Nat) :
    (y.stretch ls).boxes = y.boxes := rfl
@[simp] theorem Yard.stretch_assign (y : Yard) (ls : List Nat) :
    (y.stretch ls).assign = y.assign := rfl
@[simp] theorem Yard.stretch_freeCount (y : Yard) (ls : List Nat) :
    (y.stretch ls).freeCount = y.freeCount := rfl

/-! ### State.setLink -/

@[simp] theorem State.setLink_yard (s : State) (p : Port) (f : Link → Link) :
    (s.setLink p f).yard = s.yard := rfl
@[simp] theorem State.setLink_met (s : State) (p : Port) (f : Link → Link) :
    (s.setLink p f).met = s.met := rfl
@[simp] theorem State.setLink_accounts (s : State) (p : Port) (f : Link → Link) :
    (s.setLink p f).accounts = s.accounts := rfl
@[simp] theorem State.setLink_loader (s : State) (p : Port) (f : Link → Link) :
    (s.setLink p f).loader = s.loader := rfl
@[simp] theorem State.setLink_resetN (s : State) (p : Port) (f : Link → Link) :
    (s.setLink p f).resetN = s.resetN := rfl
@[simp] theorem State.setLink_pending (s : State) (p : Port) (f : Link → Link) :
    (s.setLink p f).pending = s.pending := rfl
@[simp] theorem State.setLink_links (s : State) (p : Port) (f : Link → Link) :
    (s.setLink p f).links = s.links.set p (f (s.links.get p)) := rfl

/-! ### One item for each port -/

@[simp] theorem Trio.get_set_same {α : Type} (t : Trio α) (p : Port) (a : α) : (t.set p a).get p = a := by
  cases p <;> rfl

theorem Trio.get_set_ne {α : Type} (t : Trio α) {p q : Port} (a : α) (h : q ≠ p) : (t.set p a).get q = t.get q := by
  cases p <;> cases q <;> first | rfl | exact absurd rfl h

@[simp] theorem Trio.set_get {α : Type} (t : Trio α) (p : Port) : t.set p (t.get p) = t := by
  cases p <;> rfl

theorem Trio.get_set {α : Type} (t : Trio α) (p q : Port) (a : α) :
    (t.set p a).get q = if q = p then a else t.get q := by
  cases p <;> cases q <;> rfl

/-- The link of another port is left as it is. -/
theorem State.setLink_get_ne (s : State) {p q : Port} (f : Link → Link) (h : q ≠ p) :
    (s.setLink p f).links.get q = s.links.get q := by
  simp [Trio.get_set_ne _ _ h]

/-! ### A link -/

@[simp] theorem Link.answer_receiver (l : Link) (k : Byte) (r : Reply) : (l.answer k r).receiver = .hunting := rfl
@[simp] theorem Link.answer_transmitter (l : Link) (k : Byte) (r : Reply) :
    (l.answer k r).transmitter = .sending ⟨k, r⟩ := rfl
@[simp] theorem Link.answer_strayBytes (l : Link) (k : Byte) (r : Reply) : (l.answer k r).strayBytes = l.strayBytes := rfl
@[simp] theorem Link.answer_truncated (l : Link) (k : Byte) (r : Reply) : (l.answer k r).truncated = l.truncated := rfl
@[simp] theorem Link.answer_overrun (l : Link) (k : Byte) (r : Reply) : (l.answer k r).overrun = l.overrun := rfl
@[simp] theorem Link.overrunEnds_receiver (l : Link) : l.overrunEnds.receiver = .hunting := rfl
@[simp] theorem Link.overrunEnds_transmitter (l : Link) : l.overrunEnds.transmitter = l.transmitter := rfl
@[simp] theorem Link.overrunEnds_overrun (l : Link) : l.overrunEnds.overrun = bump l.overrun := rfl

end Sys2Proof.Machine
end

