-- ==== Sys2Proof/Laws/RailFits.lean ====
section
/-! SUPPORT. The law of the rail: what it reads of a yard, so that a change that leaves that alone keeps the law, and the
places where a carriage's work, its segments and the queue do change. -/

-- One proof after another: the package as one text would ask for too many threads at once.
set_option Elab.async false

namespace Sys2Proof.Machine

/-! ### What the law reads -/

/-- Telling a carriage to stay is one change of its record. -/
theorem Yard.stayCarriage_eq (y : Yard) (c : Nat) : y.stayCarriage c = y.setCarriage c fun w => { w with
    order := some ⟨.stay, nextSerial w.lastSerial⟩, lastSerial := nextSerial w.lastSerial, task := none } := by
  simp [Yard.stayCarriage, Yard.orderCarriage, Yard.setCarriage, List.modify_modify_eq, Function.comp_def]

/-- What the law of the rail reads of a carriage. -/
def Carriage.work (w : Carriage) : Option Nat × Option (Order CarriageOrder) × Option CarriageTask :=
  (w.position, w.order, w.task)

/-- What the law of the rail, and the ends of transfers, read of a queue entry. -/
def Transfer.work (t : Transfer) : Nat × Nat × Place × Phase × Option Nat :=
  (t.tag, t.robot, t.destination, t.phase, t.carriage)

/-- The rail of `z` is that of `y`, as far as its law reads it. -/
structure RailSame (y z : Yard) : Prop where
  settings : z.settings = y.settings
  rows : z.rows.length = y.rows.length
  carriages : z.carriages.map Carriage.work = y.carriages.map Carriage.work
  segments : z.rail.segments = y.rail.segments
  queue : z.rail.queue.map Transfer.work = y.rail.queue.map Transfer.work

namespace RailSame

variable {y z w : Yard}

theorem same (settings : z.settings = y.settings := by rfl) (rows : z.rows.length = y.rows.length := by first | rfl | simp)
    (carriages : z.carriages = y.carriages := by rfl) (rail : z.rail = y.rail := by rfl) : RailSame y z :=
  ⟨settings, rows, by rw [carriages], by rw [rail], by rw [rail]⟩

theorem refl (y : Yard) : RailSame y y := same

theorem trans (h : RailSame y z) (k : RailSame z w) : RailSame y w :=
  ⟨k.settings.trans h.settings, k.rows.trans h.rows, k.carriages.trans h.carriages, k.segments.trans h.segments,
    k.queue.trans h.queue⟩

theorem symm (h : RailSame y z) : RailSame z y :=
  ⟨h.settings.symm, h.rows.symm, h.carriages.symm, h.segments.symm, h.queue.symm⟩

theorem ite {c : Prop} [Decidable c] (h : c → RailSame y z) (k : ¬c → RailSame y w) : RailSame y (if c then z else w) := by
  split
  · exact h ‹_›
  · exact k ‹_›

theorem foldl {α : Type} {f : Yard → α → Yard} (h : ∀ z a, RailSame z (f z a)) (l : List α) (y : Yard) :
    RailSame y (l.foldl f y) := by
  induction l generalizing y with
  | nil => exact refl y
  | cons a l ih => exact (h y a).trans (ih _)

theorem carriage (h : RailSame y z) (c : Nat) : (z.carriage c).work = (y.carriage c).work := by
  have e := congrArg (fun l => l[c]?) h.carriages
  simp only [List.getElem?_map] at e
  simp only [Yard.carriage, List.getD_eq_getElem?_getD]
  cases hl : y.carriages[c]? <;> cases hm : z.carriages[c]? <;> simp_all

theorem position (h : RailSame y z) (c : Nat) : (z.carriage c).position = (y.carriage c).position :=
  congrArg Prod.fst (h.carriage c)

theorem order (h : RailSame y z) (c : Nat) : (z.carriage c).order = (y.carriage c).order :=
  congrArg (fun w => w.2.1) (h.carriage c)

theorem task (h : RailSame y z) (c : Nat) : (z.carriage c).task = (y.carriage c).task :=
  congrArg (fun w => w.2.2) (h.carriage c)

theorem reservation (h : RailSame y z) (s : Nat) : z.reservation s = y.reservation s := by
  simp only [Yard.reservation, h.segments]

/-! What leaves the rail alone. -/

theorem giveAssign (y : Yard) : RailSame y y.giveAssign := same

theorem notify (y : Yard) (p : Port) (k : NoticeKind) (sub : Nat × Nat × Nat) (d : Nat) : RailSame y (y.notify p k sub d) :=
  same

theorem restRobot (y : Yard) (k : Nat) : RailSame y (y.restRobot k) := same

theorem setEntry (y : Yard) (r : Nat) (f : Entry → Entry) : RailSame y (y.setEntry r f) := same

theorem setNudge (y : Yard) (c : Nat) (n : Option Nudge) : RailSame y (y.setNudge c n) := ⟨rfl, rfl, rfl, rfl, rfl⟩

theorem stopDeadline (y : Yard) : RailSame y y.stopDeadline := same

theorem recordRecall (y : Yard) (cause : StormCause) (lane : Option CauseLane) : RailSame y (y.recordRecall cause lane) :=
  same

theorem overRows (y : Yard) {f : Nat → Yard → Yard} (h : ∀ r z, RailSame z (f r z)) : RailSame y (y.overRows f) :=
  foldl (fun z r => h r z) _ _

theorem overRobots (y : Yard) {f : Nat → Yard → Yard} (h : ∀ r z, RailSame z (f r z)) : RailSame y (y.overRobots f) :=
  foldl (fun z r => h r z) _ _

theorem inFreeOrder (y : Yard) (items : List Nat) {act : Nat → Yard → Yard} (h : ∀ i z, RailSame z (act i z)) :
    RailSame y (y.inFreeOrder items act) := by
  unfold Yard.inFreeOrder
  split
  · exact refl _
  · exact h _ _
  · exact trans (same (z := { y with freeCount := y.freeCount + 1 })) (foldl (fun z i => h i z) _ _)

theorem setCarriage (y : Yard) (c : Nat) (f : Carriage → Carriage) (hf : ∀ w, (f w).work = w.work) :
    RailSame y (y.setCarriage c f) where
  settings := rfl
  rows := rfl
  carriages := by
    have e : ∀ (l : List Carriage) (n : Nat), (l.modify n f).map Carriage.work = l.map Carriage.work := by
      intro l
      induction l with
      | nil => simp
      | cons a l ih => intro n; cases n <;> simp [hf, ih]
    exact e _ _
  segments := rfl
  queue := rfl

theorem occupy (y : Yard) (k : Nat) (pl : Place) : RailSame y (y.occupy k pl) := by
  unfold Yard.occupy
  split
  · exact same
  · exact same
  · exact setCarriage _ _ _ fun _ => rfl
  all_goals exact refl _

theorem vacate (y : Yard) (k : Nat) : RailSame y (y.vacate k) := by
  unfold Yard.vacate
  split
  · exact same
  · exact same
  · exact setCarriage _ _ _ fun _ => rfl
  all_goals exact refl _

theorem moveRobot (y : Yard) (k : Nat) (pl : Place) : RailSame y (y.moveRobot k pl) :=
  (vacate y k).trans ((occupy _ k pl).trans same)

theorem dropLinks (y : Yard) (r : Nat) : RailSame y (y.dropLinks r) where
  settings := rfl
  rows := rfl
  carriages := rfl
  segments := rfl
  queue := by
    simp only [Yard.dropLinks, List.map_map]
    refine List.map_congr_left fun t _ => ?_
    simp only [Function.comp]
    split <;> rfl

theorem unlink (y : Yard) (k : Option Nat) : RailSame y (y.unlink k) := by
  unfold Yard.unlink
  split
  · exact same
  · exact refl _

theorem removeEntry (y : Yard) (r : Nat) : RailSame y (y.removeEntry r) := by
  unfold Yard.removeEntry
  split
  · exact refl _
  · exact trans (same (z := { y with rounds := _ })) ((unlink _ _).trans (dropLinks _ _))

theorem unassign (y : Yard) (r : Nat) : RailSame y (y.unassign r) := by
  unfold Yard.unassign
  split
  · exact refl _
  · exact trans (same (z := y.setEntry r _)) ((unlink _ _).trans (dropLinks _ _))

theorem unassignRobot (y : Yard) (k : Nat) : RailSame y (y.unassignRobot k) := by
  unfold Yard.unassignRobot
  split
  · exact unassign _ _
  · exact refl _

theorem claimUnassigned (y : Yard) (r : Nat) : RailSame y (y.claimUnassigned r) := by
  unfold Yard.claimUnassigned
  split
  · exact ite (fun _ => unassign _ _) fun _ => refl _
  · exact refl _

theorem settleRow (y : Yard) (r : Nat) : RailSame y (y.settleRow r) := same (rows := by simp [Yard.settleRow])

theorem stowRow (y : Yard) (r : Nat) : RailSame y (y.stowRow r) := same (rows := by simp [Yard.stowRow])

theorem giveUpRow (y : Yard) (k : Nat) : RailSame y (y.giveUpRow k) := by
  unfold Yard.giveUpRow
  split
  · exact refl _
  · exact ite (fun _ => settleRow _ _) fun _ =>
      ite (fun _ => (settleRow _ _).trans (claimUnassigned _ _)) fun _ => refl _

theorem reservePlace (y : Yard) (pl : Place) (tag : Option Nat) : RailSame y (y.reservePlace pl tag) := by
  unfold Yard.reservePlace
  split
  · exact same
  · exact same
  all_goals exact refl _

theorem passEnds (y : Yard) (k : Nat) : RailSame y (y.passEnds k) := by
  unfold Yard.passEnds
  have h : RailSame y ((y.setPassTimer k none).countRounds fun n => { n with passesAborted := bump n.passesAborted }) := same
  dsimp only
  split
  · exact h.trans (removeEntry _ _)
  · exact h

theorem linkedEnd (y : Yard) (link : Option Nat) (result : TransferResult) : RailSame y (y.linkedEnd link result) := by
  unfold Yard.linkedEnd
  split
  · exact refl _
  · split
    · exact same
    · exact unassign _ _

theorem changeStorm (y : Yard) (new : StormState) (cause : StormCause) (lane : Option CauseLane) :
    RailSame y (y.changeStorm new cause lane) := same

theorem endFlatten (r : Nat) (y : Yard) : RailSame y (y.endFlatten r) := by
  unfold Yard.endFlatten
  exact ite (fun _ => (settleRow _ _).trans (setEntry _ _ _)) fun _ => refl _

theorem watchRises (y : Yard) : RailSame y y.watchRises := by
  unfold Yard.watchRises
  exact ite (fun _ => (changeStorm _ _ _ _).trans (overRows _ fun r z => endFlatten r z)) fun _ => refl _

theorem watchFalls (y : Yard) : RailSame y y.watchFalls := by
  unfold Yard.watchFalls
  exact ite (fun _ => (changeStorm _ _ _ _).trans (giveAssign _)) fun _ => refl _

theorem makeSweep (y : Yard) : RailSame y y.makeSweep.1 := by
  unfold Yard.makeSweep
  split
  · unfold Yard.appendCandidates
    exact ite (fun _ => same) fun _ => same
  · exact same

theorem handStorm (e : Edge) (ls : List Nat) (y : Yard) : RailSame y (y.handStorm e ls) := by
  have acts (i : Nat) (z : Yard) : RailSame z (z.listenerActs (fun _ y => y) (fun y => y) e i) := by
    unfold Yard.listenerActs
    split
    · exact ite (fun _ => watchFalls _) fun _ => watchRises _
    · exact refl _
    · exact makeSweep _
    all_goals exact same
  unfold Yard.handStorm Yard.handWith
  refine trans (z := if e = .pulse then y.stretch ls else y) (ite (fun _ => same) fun _ => refl _) ?_
  dsimp only
  generalize (if e = .pulse then y.stretch ls else y) = y₁
  refine trans (z := if e = .fall ∧ ls.contains 2 then y₁.giveAssign else y₁)
    (ite (fun _ => giveAssign _) fun _ => refl _) ?_
  exact ite (fun _ => inFreeOrder _ _ acts) fun _ => inFreeOrder _ _ acts

theorem followStorm (src : Nat) (h : RailSame y z) : RailSame y (Yard.followWith Yard.handStorm src y z) := by
  unfold Yard.followWith
  exact ite (fun _ => h) fun _ => h.trans (handStorm _ _ _)

theorem judgeHoldoffStorm (y : Yard) : RailSame y (y.judgeHoldoff Yard.handStorm) := by
  unfold Yard.judgeHoldoff
  refine ite (fun _ => refl _) fun _ => ?_
  have base := followStorm 10 (y := y) (z := ({ y with rail := { y.rail with holdoff := y.holdoffLevel } } : Yard).notify
    .fleet .holdoff (0, 0, 0) (if y.holdoffLevel then 1 else 0)) ⟨rfl, rfl, rfl, rfl, rfl⟩
  exact ite (fun _ => base) fun _ => base.trans same

theorem judgeAllStowed (y : Yard) : RailSame y y.judgeAllStowed := by
  unfold Yard.judgeAllStowed
  exact ite (fun _ => followStorm 11 (changeStorm _ _ _ _)) fun _ => refl _

theorem emptyList (y : Yard) : RailSame y y.emptyList := foldl (fun z (e : Entry) => removeEntry z e.row) _ _

theorem sendHome (y : Yard) (k r : Nat) : RailSame y (y.sendHome k r) := by
  unfold Yard.sendHome
  dsimp only
  split
  · exact refl _
  · exact (passEnds y k).trans same
  · exact same

theorem recallRow (r : Nat) (y : Yard) : RailSame y (y.recallRow r) := by
  unfold Yard.recallRow
  split
  case h_4 => exact ite (fun _ => stowRow _ _) fun _ => refl _
  all_goals first | exact stowRow _ _ | exact refl _

theorem recallRobot (k : Nat) (y : Yard) : RailSame y (y.recallRobot k) := by
  unfold Yard.recallRobot
  split
  · exact ite (fun _ => sendHome _ _ _) fun _ => refl _
  · exact refl _

/-- An entry of the one queue stands in the other. -/
theorem entry (h : RailSame y z) {t : Transfer} (ht : t ∈ y.rail.queue) : ∃ u ∈ z.rail.queue, u.work = t.work := by
  have : t.work ∈ z.rail.queue.map Transfer.work := h.queue ▸ List.mem_map_of_mem ht
  simpa using this

end RailSame

/-- The rail of `z` is that of `y` with work ended: carriages have lost tasks and GOTO orders, entries have left the
queue. -/
structure RailEnds (y z : Yard) : Prop where
  settings : z.settings = y.settings
  rows : z.rows.length = y.rows.length
  segments : z.rail.segments.length = y.rail.segments.length
  position : ∀ c, (z.carriage c).position = (y.carriage c).position
  task : ∀ c, (z.carriage c).task = (y.carriage c).task ∨ (z.carriage c).task = none
  goto : ∀ c x n, (z.carriage c).order = some ⟨.goto x, n⟩ → (y.carriage c).order = some ⟨.goto x, n⟩
  queue : (z.rail.queue.map Transfer.work).Sublist (y.rail.queue.map Transfer.work)

namespace RailEnds

variable {y z w : Yard}

theorem of_same (h : RailSame y z) : RailEnds y z :=
  ⟨h.settings, h.rows, by rw [h.segments], h.position, fun c => .inl (h.task c), fun c x n e => h.order c ▸ e,
    h.queue ▸ List.Sublist.refl _⟩

theorem refl (y : Yard) : RailEnds y y := of_same (.refl y)

theorem trans (h : RailEnds y z) (k : RailEnds z w) : RailEnds y w where
  settings := k.settings.trans h.settings
  rows := k.rows.trans h.rows
  segments := k.segments.trans h.segments
  position := fun c => (k.position c).trans (h.position c)
  task := fun c => (k.task c).elim (fun e => (h.task c).imp e.trans e.trans) .inr
  goto := fun c x n e => h.goto c x n (k.goto c x n e)
  queue := k.queue.trans h.queue

theorem ite {c : Prop} [Decidable c] (h : c → RailEnds y z) (k : ¬c → RailEnds y w) : RailEnds y (if c then z else w) := by
  split
  · exact h ‹_›
  · exact k ‹_›

theorem foldl {α : Type} {f : Yard → α → Yard} (h : ∀ z a, RailEnds z (f z a)) (l : List α) (y : Yard) :
    RailEnds y (l.foldl f y) := by
  induction l generalizing y with
  | nil => exact refl y
  | cons a l ih => exact (h y a).trans (ih _)

theorem overCarriages (y : Yard) {f : Nat → Yard → Yard} (h : ∀ r z, RailEnds z (f r z)) :
    RailEnds y (y.overCarriages f) := foldl (fun z r => h r z) _ _

theorem inFreeOrder (y : Yard) (items : List Nat) {act : Nat → Yard → Yard} (h : ∀ i z, RailEnds z (act i z)) :
    RailEnds y (y.inFreeOrder items act) := by
  unfold Yard.inFreeOrder
  split
  · exact refl _
  · exact h _ _
  · exact trans (of_same (.same (z := { y with freeCount := y.freeCount + 1 }))) (foldl (fun z i => h i z) _ _)

/-- A carriage's record is changed, or it is as it was. -/
theorem carriage_cases {P : Carriage → Carriage → Prop} (y : Yard) (c : Nat) (f : Carriage → Carriage) (i : Nat)
    (hf : ∀ w, P w (f w)) (hr : ∀ w, P w w) : P (y.carriage i) ((y.setCarriage c f).carriage i) := by
  simp only [Yard.carriage, Yard.setCarriage_carriages, List.getD_eq_getElem?_getD, List.getElem?_modify]
  cases hg : y.carriages[i]? with
  | none => simpa using hr _
  | some w =>
    by_cases h : c = i
    · simpa [h] using hf w
    · simpa [h] using hr w

theorem stayCarriage (y : Yard) (c : Nat) : RailEnds y (y.stayCarriage c) := by
  rw [Yard.stayCarriage_eq]
  have cases {P : Carriage → Carriage → Prop} (i : Nat) := carriage_cases (P := P) y c (fun w => { w with
    order := some ⟨.stay, nextSerial w.lastSerial⟩, lastSerial := nextSerial w.lastSerial, task := none }) i
  exact {
    settings := rfl
    rows := rfl
    segments := rfl
    position := fun i => cases (P := fun v w => w.position = v.position) i (fun _ => rfl) fun _ => rfl
    task := fun i => cases (P := fun v w => w.task = v.task ∨ w.task = none) i (fun _ => .inr rfl) fun _ => .inl rfl
    goto := fun i x n => cases (P := fun v w => w.order = some ⟨.goto x, n⟩ → v.order = some ⟨.goto x, n⟩) i
      (fun _ h => by simp at h) fun _ h => h
    queue := List.Sublist.refl _ }

theorem releaseSegments (y : Yard) (c : Nat) : RailEnds y (y.releaseSegments c) where
  settings := rfl
  rows := rfl
  segments := by simp [Yard.releaseSegments, Yard.setReservations]
  position := fun _ => rfl
  task := fun _ => .inl rfl
  goto := fun _ _ _ e => e
  queue := List.Sublist.refl _

theorem filterQueue (y : Yard) (p : Transfer → Bool) :
    RailEnds y { y with rail := { y.rail with queue := y.rail.queue.filter p } } where
  settings := rfl
  rows := rfl
  segments := rfl
  position := fun _ => rfl
  task := fun _ => .inl rfl
  goto := fun _ _ _ e => e
  queue := List.filter_sublist.map _

theorem closeTransfer (t : Transfer) (result : TransferResult) (y : Yard) : RailEnds y (y.closeTransfer t result) := by
  unfold Yard.closeTransfer
  dsimp only
  refine (of_same (.reservePlace y t.destination none)).trans ((filterQueue _ fun x => x.tag != t.tag).trans ?_)
  exact of_same ((RailSame.restRobot _ _).trans ((RailSame.notify _ _ _ _ _).trans
    ((RailSame.linkedEnd _ _ _).trans (.giveAssign _))))

theorem abortTransfer (t : Transfer) (y : Yard) : RailEnds y (y.abortTransfer t) := by
  unfold Yard.abortTransfer
  dsimp only
  split
  · exact (stayCarriage _ _).trans ((releaseSegments _ _).trans (closeTransfer _ _ _))
  · exact closeTransfer _ _ _

theorem endQueue (y : Yard) : RailEnds y y.endQueue :=
  foldl (fun z t => (abortTransfer t z).trans (of_same (.judgeHoldoffStorm _))) _ _

theorem judgeTablesClear (y : Yard) : RailEnds y y.judgeTablesClear := by
  unfold Yard.judgeTablesClear
  refine ite (fun _ => ?_) fun _ => refl _
  exact (of_same ((RailSame.stopDeadline _).trans (.changeStorm _ _ _ _))).trans
    ((endQueue _).trans (of_same (.judgeAllStowed _)))

theorem recallTransfer (t : Transfer) (y : Yard) : RailEnds y (y.recallTransfer t) := by
  unfold Yard.recallTransfer
  exact ite (fun _ => (abortTransfer _ _).trans (of_same (.judgeHoldoffStorm _))) fun _ => refl _

theorem abortNudge (c : Nat) (y : Yard) : RailEnds y (y.abortNudge c) := by
  unfold Yard.abortNudge
  refine ite (fun _ => ?_) fun _ => refl _
  exact (stayCarriage _ _).trans ((of_same (.setNudge _ _ _)).trans ((releaseSegments _ _).trans
    (of_same (.judgeHoldoffStorm _))))

theorem beginRecall (cause : StormCause) (lane : Option CauseLane) (y : Yard) : RailEnds y (y.beginRecall cause lane) := by
  unfold Yard.beginRecall
  refine ite (fun _ => ?_) fun _ => refl _
  have k₁ : RailEnds y ((y.changeStorm .recall cause lane).recordRecall cause lane).emptyList :=
    of_same ((RailSame.changeStorm _ _ _ _).trans ((RailSame.recordRecall _ _ _).trans (.emptyList _)))
  dsimp only
  generalize ((y.changeStorm .recall cause lane).recordRecall cause lane).emptyList = y₁ at k₁ ⊢
  have k₂ := k₁.trans ((foldl (fun z t => recallTransfer t z) y₁.rail.queue y₁).trans
    ((overCarriages _ fun c z => abortNudge c z).trans ((of_same (.overRows _ fun r z => .recallRow r z)).trans
      (of_same (.overRobots _ fun k z => .recallRobot k z)))))
  exact ite (fun _ => k₂.trans (judgeTablesClear _)) fun _ => k₂.trans (of_same .same)

theorem handQuiet (e : Edge) (ls : List Nat) (y : Yard) : RailEnds y (y.handQuiet e ls) := by
  have acts (i : Nat) (z : Yard) : RailEnds z (z.listenerActs Yard.stowEdge (fun y => y) e i) := by
    unfold Yard.listenerActs
    split
    · exact of_same (.ite (fun _ => .watchFalls _) fun _ => .watchRises _)
    · exact beginRecall _ _ _
    · exact of_same (.makeSweep _)
    all_goals exact of_same .same
  unfold Yard.handQuiet Yard.handWith
  refine trans (z := if e = .pulse then y.stretch ls else y) (ite (fun _ => of_same .same) fun _ => refl _) ?_
  dsimp only
  generalize (if e = .pulse then y.stretch ls else y) = y₁
  refine trans (z := if e = .fall ∧ ls.contains 2 then y₁.giveAssign else y₁)
    (ite (fun _ => of_same (.giveAssign _)) fun _ => refl _) ?_
  exact ite (fun _ => inFreeOrder _ _ acts) fun _ => inFreeOrder _ _ acts

theorem judgeHoldoffQuiet (y : Yard) : RailEnds y (y.judgeHoldoff Yard.handQuiet) := by
  unfold Yard.judgeHoldoff
  refine ite (fun _ => refl _) fun _ => ?_
  have base : RailEnds y (Yard.followWith Yard.handQuiet 10 y
      (({ y with rail := { y.rail with holdoff := y.holdoffLevel } } : Yard).notify
        .fleet .holdoff (0, 0, 0) (if y.holdoffLevel then 1 else 0))) := by
    have k : RailEnds y (({ y with rail := { y.rail with holdoff := y.holdoffLevel } } : Yard).notify
        .fleet .holdoff (0, 0, 0) (if y.holdoffLevel then 1 else 0)) := of_same ⟨rfl, rfl, rfl, rfl, rfl⟩
    unfold Yard.followWith
    exact ite (fun _ => k) fun _ => k.trans (handQuiet _ _ _)
  exact ite (fun _ => base) fun _ => base.trans (of_same .same)

/-- Entries that `y` knows by their tag, `z` knows. -/
theorem entry (h : RailEnds y z) {u : Transfer} (hu : u ∈ z.rail.queue) : ∃ v ∈ y.rail.queue, v.work = u.work := by
  have : u.work ∈ y.rail.queue.map Transfer.work := h.queue.subset (List.mem_map_of_mem hu)
  simpa using this

end RailEnds

/-- A place that is aboard no carriage has the same rail position wherever the settings are the same. -/
theorem Yard.placePosition_fixed {y z : Yard} (hs : z.settings = y.settings) {pl : Place} (hp : ∀ c, pl ≠ .aboard c) :
    z.placePosition pl = y.placePosition pl := by
  cases pl <;> simp_all [Yard.placePosition, Yard.dockPosition]

theorem Yard.destinationPosition_fixed {y z : Yard} (hs : z.settings = y.settings) {t u : Transfer}
    (hd : u.destination = t.destination) (hp : ∀ c, t.destination ≠ .aboard c) :
    z.destinationPosition u = y.destinationPosition t := by
  rw [Yard.destinationPosition, Yard.destinationPosition, hd, Yard.placePosition_fixed hs hp]

/-- Segments that a carriage holds in `y` it holds in `z`. -/
def Yard.holdsIn (y z : Yard) (c : Nat) : Prop :=
  z.rail.segments.length = y.rail.segments.length ∧
    ∀ s cause, y.reservation s = some ⟨c, cause⟩ → ∃ cause', z.reservation s = some ⟨c, cause'⟩

theorem Yard.holdsIn.way {y z : Yard} {c p q : Nat} (h : y.holdsIn z c) (w : y.holdsWay c p q) : z.holdsWay c p q := by
  intro s h₁ h₂ h₃
  obtain ⟨cause, e⟩ := w s h₁ h₂ (h.1 ▸ h₃)
  exact h.2 s cause e

theorem Yard.holdsIn.of_segments {y z : Yard} (h : z.rail.segments = y.rail.segments) (c : Nat) : y.holdsIn z c :=
  ⟨by rw [h], fun s cause e => ⟨cause, by simpa only [Yard.reservation, h] using e⟩⟩

/-- A carriage's work still fits where its record, its segments and the entry of its task are as they were. -/
theorem Yard.carriageFits.of {y z : Yard} {c : Nat} (h : y.carriageFits c) (hs : z.settings = y.settings)
    (hf : ∀ t ∈ y.rail.queue, ∀ c, t.destination ≠ .aboard c)
    (hp : (z.carriage c).position = (y.carriage c).position) (ho : (z.carriage c).order = (y.carriage c).order)
    (ht : (z.carriage c).task = (y.carriage c).task) (hh : y.holdsIn z c)
    (hq : ∀ t ∈ y.rail.queue, (y.carriage c).task = some (.transfer t.tag) → t.carriage = some c → t.phase ≠ .waiting →
      ∃ u ∈ z.rail.queue, u.tag = t.tag ∧ u.carriage = some c ∧ u.phase ≠ .waiting ∧ u.destination = t.destination) :
    z.carriageFits c := by
  obtain ⟨h₁, h₂, h₃⟩ := h
  refine ⟨fun x n e => ?_, fun tag e => ?_, fun e => ?_⟩
  · obtain ⟨p, ep, w⟩ := h₁ x n (ho ▸ e)
    exact ⟨p, hp.trans ep, hh.way w⟩
  · rw [ht] at e
    obtain ⟨t, mt, rfl, ct, pt, p, ep, w⟩ := h₂ tag e
    obtain ⟨u, mu, tu, cu, pu, du⟩ := hq t mt e ct pt
    exact ⟨u, mu, tu, cu, pu, p, hp.trans ep, by
      rw [Yard.destinationPosition_fixed hs du (hf t mt)]
      exact hh.way w⟩
  · rw [ho]
    exact h₃ (ht ▸ e)

theorem Yard.carriageFits.same {y z : Yard} {c : Nat} (f : y.carriageFits c) (h : RailSame y z)
    (hd : ∀ t ∈ y.rail.queue, ∀ c, t.destination ≠ .aboard c) : z.carriageFits c :=
  f.of h.settings hd (h.position c) (h.order c) (h.task c) (.of_segments h.segments c) fun t ht _ ct pt => by
    obtain ⟨u, mu, e⟩ := h.entry ht
    have e₁ : u.tag = t.tag := congrArg Prod.fst e
    have e₂ : u.carriage = t.carriage := congrArg (fun w => w.2.2.2.2) e
    have e₃ : u.phase = t.phase := congrArg (fun w => w.2.2.2.1) e
    exact ⟨u, mu, e₁, e₂ ▸ ct, e₃ ▸ pt, congrArg (fun w => w.2.2.1) e⟩

/-- The law of the rail but for the work of carriage `c`, which is in the middle of a change. -/
structure Yard.railFitsBut (y : Yard) (c : Nat) : Prop where
  rowsOnRail : y.settings.rows ≤ 192 ∧ y.rows.length ≤ 8 * y.rail.segments.length
  positionsOnRail : ∀ c p, (y.carriage c).position = some p → segmentOf p < y.rail.segments.length
  carriagesAbsent : ∀ c, y.settings.carriages ≤ c → (y.carriage c).position = none ∧ (y.carriage c).task = none
  tagsDistinct : (y.rail.queue.map (·.tag)).Nodup
  destinationsFixed : ∀ t ∈ y.rail.queue, ∀ c, t.destination ≠ .aboard c
  carriagesFit : ∀ i, i ≠ c → y.carriageFits i

theorem Yard.railFitsBut.same {y z : Yard} {c : Nat} (f : y.railFitsBut c) (h : RailSame y z) : z.railFitsBut c where
  rowsOnRail := by rw [h.settings, h.rows, h.segments]; exact f.rowsOnRail
  positionsOnRail := fun c p e => by rw [h.segments]; exact f.positionsOnRail c p (h.position c ▸ e)
  carriagesAbsent := fun c hc => by rw [h.position, h.task]; exact f.carriagesAbsent c (h.settings ▸ hc)
  tagsDistinct := by
    have e := congrArg (List.map Prod.fst) h.queue
    simp only [List.map_map] at e
    exact (show z.rail.queue.map (·.tag) = y.rail.queue.map (·.tag) from e) ▸ f.tagsDistinct
  destinationsFixed := fun t ht c => by
    obtain ⟨u, mu, e⟩ := h.symm.entry ht
    have := f.destinationsFixed u mu c
    rwa [show u.destination = t.destination from congrArg (fun w => w.2.2.1) e] at this
  carriagesFit := fun i hi => (f.carriagesFit i hi).same h f.destinationsFixed

theorem Yard.railFits.but {y : Yard} (f : y.railFits) (c : Nat) : y.railFitsBut c :=
  { f with carriagesFit := fun i _ => f.carriagesFit i }

theorem Yard.railFitsBut.whole {y : Yard} {c : Nat} (f : y.railFitsBut c) (h : y.carriageFits c) : y.railFits :=
  { f with carriagesFit := fun i => if e : i = c then e ▸ h else f.carriagesFit i e }

/-- The work of one carriage changes, with its segments and its entry: the law holds again where the carriage's work fits. -/
theorem Yard.railFitsBut.alter {y z : Yard} {c : Nat} (f : y.railFitsBut c) (hs : z.settings = y.settings)
    (hr : z.rows.length = y.rows.length) (hn : z.rail.segments.length = y.rail.segments.length)
    (hi : ∀ i, i ≠ c → (z.carriage i).work = (y.carriage i).work ∧ y.holdsIn z i)
    (hp : (z.carriage c).position = (y.carriage c).position)
    (ha : y.settings.carriages ≤ c → (z.carriage c).task = none)
    (ht : (z.rail.queue.map (·.tag)).Nodup) (hd : ∀ t ∈ z.rail.queue, ∀ c, t.destination ≠ .aboard c)
    (hq : ∀ i, i ≠ c → ∀ t ∈ y.rail.queue, (y.carriage i).task = some (.transfer t.tag) → t.carriage = some i →
      t.phase ≠ .waiting →
      ∃ u ∈ z.rail.queue, u.tag = t.tag ∧ u.carriage = some i ∧ u.phase ≠ .waiting ∧ u.destination = t.destination)
    (hc : z.carriageFits c) : z.railFits where
  rowsOnRail := by rw [hs, hr, hn]; exact f.rowsOnRail
  positionsOnRail := fun i p e => by
    rw [hn]
    by_cases h : i = c
    · subst h; exact f.positionsOnRail i p (hp ▸ e)
    · exact f.positionsOnRail i p ((show _ = (y.carriage i).position from congrArg Prod.fst (hi i h).1) ▸ e)
  carriagesAbsent := fun i h => by
    rw [hs] at h
    by_cases e : i = c
    · subst e; exact ⟨hp.trans (f.carriagesAbsent i h).1, ha h⟩
    · exact ⟨(congrArg Prod.fst (hi i e).1).trans (f.carriagesAbsent i h).1,
        (congrArg (fun w => w.2.2) (hi i e).1).trans (f.carriagesAbsent i h).2⟩
  tagsDistinct := ht
  destinationsFixed := hd
  carriagesFit := fun i => by
    by_cases e : i = c
    · exact e ▸ hc
    · exact (f.carriagesFit i e).of hs f.destinationsFixed (congrArg Prod.fst (hi i e).1)
        (congrArg (fun w => w.2.1) (hi i e).1) (congrArg (fun w => w.2.2) (hi i e).1) (hi i e).2 (hq i e)

namespace Yard.railFits

variable {y z : Yard}

/-- A change that leaves the rail as the law reads it keeps the law. -/
theorem same (h : RailSame y z) (f : y.railFits) : z.railFits :=
  ((f.but 0).same h).whole ((f.carriagesFit 0).same h f.destinationsFixed)

/-- A change of the segments in which every carriage holds what it held keeps the law. -/
theorem segmentsChange {l : List (Option Reservation)} (f : y.railFits)
    (h : ∀ i, y.holdsIn { y with rail := { y.rail with segments := l } } i) :
    ({ y with rail := { y.rail with segments := l } } : Yard).railFits where
  rowsOnRail := by rw [(h 0).1]; exact f.rowsOnRail
  positionsOnRail := fun c p e => by rw [(h 0).1]; exact f.positionsOnRail c p e
  carriagesAbsent := f.carriagesAbsent
  tagsDistinct := f.tagsDistinct
  destinationsFixed := f.destinationsFixed
  carriagesFit := fun c => (f.carriagesFit c).of rfl f.destinationsFixed rfl rfl rfl (h c)
    fun t mt _ ct pt => ⟨t, mt, rfl, ct, pt, rfl⟩

/-- Entries that are no carriage's task may leave the queue. -/
theorem filterQueue {p : Transfer → Bool} (f : y.railFits)
    (h : ∀ c, ∀ t ∈ y.rail.queue, (y.carriage c).task = some (.transfer t.tag) → p t = true) :
    ({ y with rail := { y.rail with queue := y.rail.queue.filter p } } : Yard).railFits where
  rowsOnRail := f.rowsOnRail
  positionsOnRail := f.positionsOnRail
  carriagesAbsent := f.carriagesAbsent
  tagsDistinct := f.tagsDistinct.sublist (List.filter_sublist.map _)
  destinationsFixed := fun t ht => f.destinationsFixed t (List.mem_of_mem_filter ht)
  carriagesFit := fun c => (f.carriagesFit c).of rfl f.destinationsFixed rfl rfl rfl (.of_segments rfl c)
    fun t mt et ct pt => ⟨t, List.mem_filter.2 ⟨mt, h c t mt et⟩, rfl, ct, pt, rfl⟩

/-- Entries of one tag are one entry. -/
theorem entry_unique (f : y.railFits) {t u : Transfer} (ht : t ∈ y.rail.queue) (hu : u ∈ y.rail.queue)
    (h : t.tag = u.tag) : t = u :=
  List.inj_on_of_nodup_map f.tagsDistinct ht hu h

/-- The entry that holds a tag is the one that the queue finds by it. -/
theorem transferOf_mem (f : y.railFits) {t : Transfer} (ht : t ∈ y.rail.queue) : y.transferOf t.tag = some t := by
  cases e : y.transferOf t.tag with
  | none =>
    have := List.find?_eq_none.1 e t ht
    simp at this
  | some u =>
    rw [f.entry_unique (List.mem_of_find?_eq_some e) ht (by simpa using List.find?_some e)]

/-- A WAITING entry is no carriage's task. -/
theorem waiting_unlinked (f : y.railFits) {t : Transfer} (ht : t ∈ y.rail.queue) (hw : t.phase = .waiting) (c : Nat) :
    (y.carriage c).task ≠ some (.transfer t.tag) := by
  intro e
  obtain ⟨u, mu, tu, _, pu, _⟩ := (f.carriagesFit c).2.1 _ e
  exact pu (f.entry_unique mu ht tu ▸ hw)

/-- The task of a carriage is the entry that names it. -/
theorem linked_carriage (f : y.railFits) {t : Transfer} (ht : t ∈ y.rail.queue) {c : Nat}
    (e : (y.carriage c).task = some (.transfer t.tag)) : t.carriage = some c := by
  obtain ⟨u, mu, tu, cu, _⟩ := (f.carriagesFit c).2.1 _ e
  exact f.entry_unique mu ht tu ▸ cu

/-- Where the law holds, the target of a GOTO in force is a position that its carriage may take (R33, R58). -/
theorem goto_fits (f : y.railFits) (hr : y.positionsRise) (hf : y.positionsFree) {c x serial : Nat}
    (hc : c < y.settings.carriages) (ho : (y.carriage c).order = some ⟨.goto x, serial⟩) :
    y.keepsOrder c x = true ∧ y.inOthersSegment c x = false := by
  obtain ⟨p, hp, w⟩ := (f.carriagesFit c).1 x serial ho
  have clear : ∀ i q, i ≠ c → i < y.settings.carriages → (y.carriage i).position = some q →
      ¬(min p x ≤ q ∧ q ≤ max p x) := by
    intro i q hi hl hq hb
    obtain ⟨cause, e⟩ := w (segmentOf q) (Nat.div_le_div_right hb.1) (Nat.div_le_div_right hb.2) (f.positionsOnRail i q hq)
    have := hf i q hl hq
    simp [Yard.inOthersSegment, e, Ne.symm hi] at this
  constructor
  · simp only [Yard.keepsOrder, Yard.carriageList, List.all_eq_true, List.mem_range]
    intro i hi
    split
    · rename_i q hq
      by_cases hic : i = c
      · subst hic; simp
      · have h₀ := clear i q hic hi hq
        rcases Nat.lt_or_gt_of_ne hic with hl | hl
        · have := hr i c q p hl hc hq hp
          simp only [Bool.and_eq_true, Bool.or_eq_true, decide_eq_true_eq]
          omega
        · have := hr c i p q hl hi hp hq
          simp only [Bool.and_eq_true, Bool.or_eq_true, decide_eq_true_eq]
          omega
    · rfl
  · by_cases hx : segmentOf x < y.rail.segments.length
    · obtain ⟨cause, e⟩ := w (segmentOf x) (Nat.div_le_div_right (Nat.min_le_right p x))
        (Nat.div_le_div_right (Nat.le_max_right p x)) hx
      simp [Yard.inOthersSegment, e]
    · have : y.reservation (segmentOf x) = none := by
        simp [Yard.reservation, List.getD_eq_getElem?_getD, List.getElem?_eq_none (Nat.le_of_not_lt hx)]
      simp [Yard.inOthersSegment, this]

/-! ### One carriage -/

theorem carriage_setCarriage (y : Yard) (c i : Nat) (f : Carriage → Carriage) (h : i ≠ c) :
    (y.setCarriage c f).carriage i = y.carriage i := by
  simp [Yard.carriage, List.getD_eq_getElem?_getD, Ne.symm h]

/-- A carriage without task and without GOTO fits. -/
theorem idle_fits {c : Nat} (ho : ∀ x serial, (y.carriage c).order ≠ some ⟨.goto x, serial⟩)
    (ht : (y.carriage c).task = none) : y.carriageFits c :=
  ⟨fun x n e => absurd e (ho x n), fun tag e => by simp [ht] at e, fun e => by simp [ht] at e⟩

/-- A carriage loses its task, and its order unless that is no GOTO; its position stands. -/
theorem carriageRests (f : y.railFits) (c : Nat) {g : Carriage → Carriage} (hp : ∀ w, (g w).position = w.position)
    (ho : ∀ w x serial, (g w).order ≠ some ⟨.goto x, serial⟩) (ht : ∀ w, (g w).task = none) :
    (y.setCarriage c g).railFits := by
  have hc : ((y.setCarriage c g).carriage c).position = (y.carriage c).position ∧
      (∀ x serial, ((y.setCarriage c g).carriage c).order ≠ some ⟨.goto x, serial⟩) ∧
      ((y.setCarriage c g).carriage c).task = none := by
    by_cases h : c < y.carriages.length
    · have e : (y.setCarriage c g).carriage c = g (y.carriage c) := by
        simp [Yard.carriage, List.getD_eq_getElem?_getD, h]
      rw [e]
      exact ⟨hp _, ho _, ht _⟩
    · have e : y.carriage c = freshCarriage 0 := by
        simp [Yard.carriage, List.getD_eq_getElem?_getD, List.getElem?_eq_none (Nat.le_of_not_lt h)]
      have e' : (y.setCarriage c g).carriage c = freshCarriage 0 := by
        simp [Yard.carriage, List.getD_eq_getElem?_getD, List.getElem?_eq_none (Nat.le_of_not_lt h)]
      rw [e, e']
      exact ⟨rfl, fun _ _ => by simp [freshCarriage], rfl⟩
  exact (f.but c).alter rfl rfl rfl (fun i h => ⟨by rw [carriage_setCarriage y c i g h], .of_segments rfl i⟩) hc.1
    (fun _ => hc.2.2) f.tagsDistinct f.destinationsFixed (fun i _ t mt _ ct pt => ⟨t, mt, rfl, ct, pt, rfl⟩)
    (idle_fits hc.2.1 hc.2.2)

theorem reservation_setReservations (y : Yard) (c s : Nat) (v : Option Reservation) :
    (y.setReservations c v).reservation s =
      if (y.reservation s).any (·.carriage == c) then v else y.reservation s := by
  simp only [Yard.reservation, Yard.setReservations, List.getD_eq_getElem?_getD, List.getElem?_map]
  cases y.rail.segments[s]? <;> simp

/-- Releasing or marking one carriage's segments takes none from another. -/
theorem holdsIn_setReservations (y : Yard) (c i : Nat) (v : Option Reservation)
    (h : i = c → ∃ cause, v = some ⟨c, cause⟩) : y.holdsIn (y.setReservations c v) i := by
  refine ⟨by simp [Yard.setReservations], fun s cause e => ?_⟩
  rw [reservation_setReservations, e]
  by_cases hi : i = c
  · obtain ⟨x, rfl⟩ := h hi
    exact ⟨x, by simp [hi]⟩
  · exact ⟨cause, by simp [hi]⟩

end Yard.railFits

end Sys2Proof.Machine
end

