-- ==== Sys2Proof/Laws/RailWork.lean ====
section
/-! SUPPORT. The law of the rail through the changes of a carriage's work: the end and the abort of a transfer, a grant, a
nudge, the phases, an arrival. -/

-- One proof after another: the package as one text would ask for too many threads at once.
set_option Elab.async false

namespace Sys2Proof.Machine.Yard.railFits

variable {y z : Yard}

/-! ### Ends of transfers (R56, R75, R76) -/

/-- A transfer that is no carriage's task ends. -/
theorem closeTransfer (f : y.railFits) {t : Transfer} (result : TransferResult)
    (h : ∀ c, (y.carriage c).task ≠ some (.transfer t.tag)) : (Yard.closeTransfer t result y).railFits := by
  unfold Yard.closeTransfer
  dsimp only
  have k := RailSame.reservePlace y t.destination none
  refine same ((RailSame.restRobot _ _).trans ((RailSame.notify _ _ _ _ _).trans
    ((RailSame.linkedEnd _ _ _).trans (.giveAssign _)))) (filterQueue (f.same k) fun c u _ hu => ?_)
  rw [k.task] at hu
  have : u.tag ≠ t.tag := fun e => h c (e ▸ hu)
  simpa using this

/-- Whatever entry of the queue holds the tag of `t` has the carriage of `t`. -/
def knows (y : Yard) (t : Transfer) : Prop := ∀ u ∈ y.rail.queue, u.tag = t.tag → u.carriage = t.carriage

theorem knows_of_mem (f : y.railFits) {t : Transfer} (ht : t ∈ y.rail.queue) : knows y t := fun _ hu e => by
  rw [f.entry_unique hu ht e]

theorem knows_ends (h : RailEnds y z) {t : Transfer} (k : knows y t) : knows z t := fun u hu e => by
  obtain ⟨v, mv, ev⟩ := h.entry hu
  have e₁ : v.tag = u.tag := congrArg Prod.fst ev
  have e₂ : v.carriage = u.carriage := congrArg (fun w => w.2.2.2.2) ev
  rw [← e₂]
  exact k v mv (e₁.trans e)

/-- A carriage without task and GOTO releases its segments. -/
theorem releaseSegments (f : y.railFits) (c : Nat) (ho : ∀ x serial, (y.carriage c).order ≠ some ⟨.goto x, serial⟩)
    (ht : (y.carriage c).task = none) : (y.releaseSegments c).railFits :=
  (f.but c).alter rfl rfl (by simp [Yard.releaseSegments, Yard.setReservations])
    (fun i h => ⟨rfl, holdsIn_setReservations y c i none fun e => absurd e h⟩) rfl
    (fun _ => ht) f.tagsDistinct f.destinationsFixed (fun i _ t mt _ ct pt => ⟨t, mt, rfl, ct, pt, rfl⟩)
    (idle_fits ho ht)

/-- A carriage told to stay has neither task nor GOTO. -/
theorem stayed (y : Yard) (c : Nat) : (∀ x serial, ((y.stayCarriage c).carriage c).order ≠ some ⟨.goto x, serial⟩) ∧
    ((y.stayCarriage c).carriage c).task = none := by
  rw [Yard.stayCarriage_eq]
  simp only [Yard.carriage, Yard.setCarriage_carriages, List.getD_eq_getElem?_getD, List.getElem?_modify, if_true]
  cases y.carriages[c]? <;> simp [freshCarriage]

theorem stayCarriage (f : y.railFits) (c : Nat) : (y.stayCarriage c).railFits := by
  rw [Yard.stayCarriage_eq]
  exact f.carriageRests c (fun _ => rfl) (fun _ _ _ => by simp) fun _ => rfl

theorem abortTransfer (f : y.railFits) {t : Transfer} (k : knows y t) : (Yard.abortTransfer t y).railFits := by
  have own : ∀ c, (y.carriage c).task = some (.transfer t.tag) → t.carriage = some c := fun c e => by
    obtain ⟨u, mu, tu, cu, _⟩ := (f.carriagesFit c).2.1 _ e
    exact (k u mu tu).symm.trans cu
  unfold Yard.abortTransfer
  dsimp only
  split
  · rename_i c hc
    have s := stayed y c
    refine ((f.stayCarriage c).releaseSegments c s.1 s.2).closeTransfer _ fun i e => ?_
    rcases (RailEnds.stayCarriage y c).task i with e' | e'
    · have : c = i := Option.some.inj (hc.symm.trans (own i (e'.symm.trans e)))
      subst this
      exact absurd (s.2.symm.trans e) (by simp)
    · exact absurd (e'.symm.trans e) (by simp)
  · rename_i hc
    exact f.closeTransfer _ fun i e => by simp [own i e] at hc

/-- Transfers of the queue end one after another. -/
theorem foldEnds {g : Yard → Transfer → Yard} (hg : ∀ z t, z.railFits → knows z t → (g z t).railFits)
    (he : ∀ z t, RailEnds z (g z t)) (l : List Transfer) (y : Yard) (f : y.railFits) (h : ∀ t ∈ l, knows y t) :
    (l.foldl g y).railFits := by
  induction l generalizing y with
  | nil => exact f
  | cons a l ih =>
    exact ih _ (hg y a f (h a (by simp))) fun t ht => knows_ends (he y a) (h t (by simp [ht]))

theorem endQueue (f : y.railFits) : y.endQueue.railFits :=
  foldEnds (fun _ _ fz k => same (.judgeHoldoffStorm _) (fz.abortTransfer k))
    (fun z t => (RailEnds.abortTransfer t z).trans (.of_same (.judgeHoldoffStorm _))) _ _ f
    fun _ ht => f.knows_of_mem ht

theorem recallTransfer (f : y.railFits) {t : Transfer} (k : knows y t) : (Yard.recallTransfer t y).railFits := by
  unfold Yard.recallTransfer
  split
  · exact same (.judgeHoldoffStorm _) (f.abortTransfer k)
  · exact f

theorem recallQueue (f : y.railFits) : (y.rail.queue.foldl (fun z t => Yard.recallTransfer t z) y).railFits :=
  foldEnds (fun _ _ fz k => fz.recallTransfer k) (fun z t => RailEnds.recallTransfer t z) _ _ f
    fun _ ht => f.knows_of_mem ht

theorem abortNudge (f : y.railFits) (c : Nat) : (Yard.abortNudge c y).railFits := by
  unfold Yard.abortNudge
  split
  · have s := stayed y c
    exact same (.judgeHoldoffStorm _) ((same (.setNudge _ _ _) (f.stayCarriage c)).releaseSegments c s.1 s.2)
  · exact f

/-! ### Taking up work (R63, R65) -/

/-- The record of a carriage that has a position is one of the table's. -/
theorem position_lt {c p : Nat} (h : (y.carriage c).position = some p) : c < y.carriages.length := by
  by_contra hc
  simp [Yard.carriage, List.getD_eq_getElem?_getD, List.getElem?_eq_none (Nat.le_of_not_lt hc), freshCarriage] at h

theorem carriage_setCarriage_same {c : Nat} (h : c < y.carriages.length) (g : Carriage → Carriage) :
    (y.setCarriage c g).carriage c = g (y.carriage c) := by
  simp [Yard.carriage, List.getD_eq_getElem?_getD, h]

theorem reservation_reserveSpan (y : Yard) (sp : Span) (c s : Nat) (cause : Cause) :
    (y.reserveSpan sp c cause).reservation s =
      if s < y.rail.segments.length ∧ sp.has s = true then some ⟨c, cause⟩ else y.reservation s := by
  simp only [Yard.reservation, Yard.reserveSpan, List.getD_eq_getElem?_getD, List.getElem?_mapIdx]
  by_cases h : s < y.rail.segments.length
  · simp [h]
  · simp [h]

/-- Reserving a free span takes no segment from any carriage. -/
theorem holdsIn_reserveSpan {sp : Span} (h : y.spanFree sp = true) (c i : Nat) (cause : Cause) :
    y.holdsIn (y.reserveSpan sp c cause) i := by
  refine ⟨by simp [Yard.reserveSpan], fun s x e => ⟨x, ?_⟩⟩
  rw [reservation_reserveSpan, if_neg]
  · exact e
  · rintro ⟨hs, hp⟩
    simp only [Yard.spanFree, List.all_eq_true, List.mem_range] at h
    have := h s hs
    simp [hp, e] at this

/-- A reserved span that covers the way is held. -/
theorem holdsWay_reserveSpan {sp : Span} {c p q : Nat} {cause : Cause}
    (h : ∀ s, segmentOf (min p q) ≤ s → s ≤ segmentOf (max p q) → sp.has s = true) :
    (y.reserveSpan sp c cause).holdsWay c p q := fun s h₁ h₂ h₃ => by
  refine ⟨cause, ?_⟩
  rw [reservation_reserveSpan, if_pos ⟨by simpa [Yard.reserveSpan] using h₃, h s h₁ h₂⟩]

theorem segmentOf_min (p q : Nat) : segmentOf (min p q) = min (segmentOf p) (segmentOf q) := by
  unfold segmentOf; omega

theorem segmentOf_max (p q : Nat) : segmentOf (max p q) = max (segmentOf p) (segmentOf q) := by
  unfold segmentOf; omega

/-- A span over positions covers the way to each of them (R59). -/
theorem spanOver_has {p : Nat} {ps : List Nat} {q : Nat} (hq : q ∈ ps) (s : Nat) (h₁ : segmentOf (min p q) ≤ s)
    (h₂ : s ≤ segmentOf (max p q)) : (spanOver p ps).has s = true := by
  have low : ∀ (l : List Nat) (a : Nat), l.foldl (fun a q => min a (segmentOf q)) a ≤ a ∧
      ∀ q ∈ l, l.foldl (fun a q => min a (segmentOf q)) a ≤ segmentOf q := by
    intro l
    induction l with
    | nil => intro a; simp
    | cons b l ih =>
      intro a
      have := ih (min a (segmentOf b))
      simp only [List.foldl_cons, List.mem_cons, forall_eq_or_imp]
      exact ⟨by omega, by omega, this.2⟩
  have high : ∀ (l : List Nat) (a : Nat), a ≤ l.foldl (fun a q => max a (segmentOf q)) a ∧
      ∀ q ∈ l, segmentOf q ≤ l.foldl (fun a q => max a (segmentOf q)) a := by
    intro l
    induction l with
    | nil => intro a; simp
    | cons b l ih =>
      intro a
      have := ih (max a (segmentOf b))
      simp only [List.foldl_cons, List.mem_cons, forall_eq_or_imp]
      exact ⟨by omega, by omega, this.2⟩
  have l := low ps (segmentOf p)
  have g := high ps (segmentOf p)
  have lq := l.2 q hq
  have gq := g.2 q hq
  rw [segmentOf_min] at h₁
  rw [segmentOf_max] at h₂
  exact decide_eq_true ⟨show ps.foldl _ _ ≤ s by omega, show s ≤ ps.foldl _ _ by omega⟩

/-- The queue after the entry of one tag has been changed, in neither tag nor destination. -/
theorem setTransfer_tags (y : Yard) (n : Nat) {g : Transfer → Transfer} (hg : ∀ t, (g t).tag = t.tag) :
    (y.setTransfer n g).rail.queue.map (·.tag) = y.rail.queue.map (·.tag) := by
  simp only [Yard.setTransfer, List.map_map]
  refine List.map_congr_left fun t _ => ?_
  simp only [Function.comp]
  split
  · exact hg t
  · rfl

theorem setTransfer_destinations {n : Nat} {g : Transfer → Transfer}
    (hd : ∀ t ∈ y.rail.queue, ∀ c, t.destination ≠ .aboard c) (hg : ∀ t, (g t).destination = t.destination) :
    ∀ t ∈ (y.setTransfer n g).rail.queue, ∀ c, t.destination ≠ .aboard c := by
  intro t ht c
  obtain ⟨u, mu, rfl⟩ := List.mem_map.1 ht
  split
  · rw [hg]; exact hd u mu c
  · exact hd u mu c

theorem setTransfer_other {n : Nat} {g : Transfer → Transfer} {t : Transfer} (ht : t ∈ y.rail.queue) (h : t.tag ≠ n) :
    t ∈ (y.setTransfer n g).rail.queue :=
  List.mem_map.2 ⟨t, ht, if_neg h⟩

theorem setTransfer_same {g : Transfer → Transfer} {t : Transfer} (ht : t ∈ y.rail.queue) :
    g t ∈ (y.setTransfer t.tag g).rail.queue :=
  List.mem_map.2 ⟨t, ht, if_pos rfl⟩

/-- A grant, up to the hold-off level: carriage `c`, at position `p` with neither order nor task, takes the WAITING entry `t`
with a free span, in a phase whose order goes nowhere outside the span (R63). -/
theorem grantPhase (f : y.railFits) {t : Transfer} {c p : Nat} {sp : Span} {phase : Phase} {o : CarriageOrder}
    (ht : t ∈ y.rail.queue) (hw : t.phase = .waiting) (hp : (y.carriage c).position = some p)
    (hs : y.spanFree sp = true) (hph : phase ≠ .waiting) (ho : o ≠ .stay)
    (hd : ∀ s, segmentOf (min p (y.destinationPosition t)) ≤ s → s ≤ segmentOf (max p (y.destinationPosition t)) →
      sp.has s = true)
    (hx : ∀ x, o = .goto x → ∀ s, segmentOf (min p x) ≤ s → s ≤ segmentOf (max p x) → sp.has s = true) :
    ((((y.setTransfer t.tag fun x => { x with carriage := some c, span := some sp }).reserveSpan sp c
      (.transfer t.tag)).setCarriage c fun w => { w with task := some (.transfer t.tag) }).startPhase t.tag c phase o).railFits := by
  have hl := position_lt hp
  have unlinked := f.waiting_unlinked ht hw
  have rec' : ((((y.setTransfer t.tag fun x => { x with carriage := some c, span := some sp }).reserveSpan sp c
      (.transfer t.tag)).setCarriage c fun w => { w with task := some (.transfer t.tag) }).startPhase t.tag c phase o).carriage c
      = { y.carriage c with
          order := some ⟨o, nextSerial (y.carriage c).lastSerial⟩
          lastSerial := nextSerial (y.carriage c).lastSerial
          task := some (.transfer t.tag) } := by
    unfold Yard.startPhase Yard.orderCarriage
    rw [carriage_setCarriage_same (by simpa [Yard.setTransfer, Yard.reserveSpan] using hl)]
    have e : ∀ (u : Yard) (n : Nat) (g : Transfer → Transfer), (u.setTransfer n g).carriage c = u.carriage c := fun _ _ _ => rfl
    rw [e, carriage_setCarriage_same (by simpa [Yard.setTransfer, Yard.reserveSpan] using hl)]
    rfl
  have mem : ({ t with carriage := some c, span := some sp, phase := phase, phaseTimer := some y.settings.phaseLimit } : Transfer)
      ∈ (((((y.setTransfer t.tag fun x => { x with carriage := some c, span := some sp }).reserveSpan sp c
      (.transfer t.tag)).setCarriage c fun w => { w with task := some (.transfer t.tag) }).startPhase t.tag c phase o)).rail.queue :=
    setTransfer_same (y := ((y.setTransfer t.tag fun x => { x with carriage := some c, span := some sp }).reserveSpan sp c
      (.transfer t.tag)).setCarriage c fun w => { w with task := some (.transfer t.tag) })
      (g := fun t => { t with phase := phase, phaseTimer := some y.settings.phaseLimit })
      (t := { t with carriage := some c, span := some sp })
      (setTransfer_same (g := fun x => { x with carriage := some c, span := some sp }) ht)
  refine (f.but c).alter (c := c) rfl rfl (by simp [Yard.startPhase, Yard.orderCarriage, Yard.setTransfer, Yard.reserveSpan,
    Yard.setCarriage]) (fun i hi => ⟨?_, ?_⟩) (by rw [rec']) (fun hc => ?_) ?_ ?_ (fun i _ u mu eu cu pu => ?_) ?_
  · unfold Yard.startPhase Yard.orderCarriage
    rw [carriage_setCarriage _ _ _ _ hi]
    exact congrArg Carriage.work (carriage_setCarriage _ _ _ _ hi)
  · have h := holdsIn_reserveSpan (y := y.setTransfer t.tag fun x => { x with carriage := some c, span := some sp })
      (sp := sp) hs c i (.transfer t.tag)
    exact h
  · rw [(f.carriagesAbsent c hc).1] at hp
    cases hp
  · have e₁ := setTransfer_tags y t.tag (g := fun x => { x with carriage := some c, span := some sp }) fun _ => rfl
    have e₂ := setTransfer_tags (y.setTransfer t.tag fun x => { x with carriage := some c, span := some sp }) t.tag
      (g := fun t => { t with phase := phase, phaseTimer := some y.settings.phaseLimit }) fun _ => rfl
    exact (congrArg List.Nodup (e₂.trans e₁)).mpr f.tagsDistinct
  · exact setTransfer_destinations (setTransfer_destinations f.destinationsFixed fun _ => rfl) fun _ => rfl
  · have hn : u.tag ≠ t.tag := fun e => unlinked i (e ▸ eu)
    exact ⟨u, setTransfer_other (setTransfer_other mu hn) hn, rfl, cu, pu, rfl⟩
  · have way {q : Nat} (h : ∀ s, segmentOf (min p q) ≤ s → s ≤ segmentOf (max p q) → sp.has s = true) :
        ((((y.setTransfer t.tag fun x => { x with carriage := some c, span := some sp }).reserveSpan sp c
          (.transfer t.tag)).setCarriage c fun w => { w with task := some (.transfer t.tag) }).startPhase t.tag c phase o).holdsWay
          c p q :=
      holdsWay_reserveSpan (y := y.setTransfer t.tag fun x => { x with carriage := some c, span := some sp }) h
    refine ⟨fun x n e => ?_, fun tag e => ?_, fun _ => ?_⟩ <;> rw [rec'] at *
    · simp only [Option.some.injEq, Order.mk.injEq] at e
      exact ⟨p, hp, way (hx x e.1)⟩
    · simp only [Option.some.injEq, CarriageTask.transfer.injEq] at e
      subst e
      refine ⟨_, mem, rfl, rfl, hph, p, hp, ?_⟩
      convert way hd using 1
      refine Yard.destinationPosition_fixed ?_ ?_ (f.destinationsFixed t ht) <;> rfl
    · exact ⟨_, rfl, ho⟩

/-- A nudge is ordered, up to the hold-off level: a carriage at position `p` without task takes a free path to its target
(R65). -/
theorem orderNudge (f : y.railFits) {i p target : Nat} {path : Span} (hp : (y.carriage i).position = some p)
    (hs : y.spanFree path = true)
    (hx : ∀ s, segmentOf (min p target) ≤ s → s ≤ segmentOf (max p target) → path.has s = true) (n : Option Nudge) :
    ((((y.reserveSpan path i .nudge).setCarriage i fun w => { w with task := some .nudge }).orderCarriage i
      (.goto target)).setNudge i n).railFits := by
  refine same (.setNudge _ _ _) ?_
  have hl := position_lt hp
  have rec' : ((((y.reserveSpan path i .nudge).setCarriage i fun w => { w with task := some .nudge }).orderCarriage i
      (.goto target))).carriage i = { y.carriage i with
        order := some ⟨.goto target, nextSerial (y.carriage i).lastSerial⟩
        lastSerial := nextSerial (y.carriage i).lastSerial
        task := some .nudge } := by
    unfold Yard.orderCarriage
    rw [carriage_setCarriage_same (by simpa [Yard.reserveSpan] using hl),
      carriage_setCarriage_same (by simpa [Yard.reserveSpan] using hl)]
    rfl
  refine (f.but i).alter (c := i) rfl rfl (by simp [Yard.orderCarriage, Yard.reserveSpan, Yard.setCarriage])
    (fun j hj => ⟨?_, ?_⟩) (by rw [rec']) (fun hc => ?_) f.tagsDistinct f.destinationsFixed
    (fun j _ u mu _ cu pu => ⟨u, mu, rfl, cu, pu, rfl⟩) ?_
  · unfold Yard.orderCarriage
    rw [carriage_setCarriage _ _ _ _ hj]
    exact congrArg Carriage.work (carriage_setCarriage _ _ _ _ hj)
  · exact holdsIn_reserveSpan (y := y) hs i j .nudge
  · rw [(f.carriagesAbsent i hc).1] at hp
    cases hp
  · refine ⟨fun x n e => ?_, fun tag e => ?_, fun _ => ?_⟩ <;> rw [rec'] at *
    · simp only [Option.some.injEq, Order.mk.injEq, CarriageOrder.goto.injEq] at e
      exact ⟨p, hp, e.1 ▸ holdsWay_reserveSpan (y := y) hx⟩
    · simp at e
    · exact ⟨_, rfl, by simp⟩

/-! ### Phases and completions (R67 to R71) -/

/-- Carriage `c` has a transfer for its task: the entry is in the queue, it has begun, it names the carriage, and its
destination is in reach over segments of the carriage's own. -/
def linked (y : Yard) (c : Nat) : Prop :=
  ∀ tag, (y.carriage c).task = some (.transfer tag) → ∃ t ∈ y.rail.queue, t.tag = tag ∧ t.carriage = some c ∧
    t.phase ≠ .waiting ∧ ∃ p, (y.carriage c).position = some p ∧ y.holdsWay c p (y.destinationPosition t)

/-- A phase starts for a carriage between two orders (R67 to R70). -/
theorem startPhase {t : Transfer} {c p : Nat} {phase : Phase} {o : CarriageOrder} (f : y.railFitsBut c)
    (ht : t ∈ y.rail.queue) (hc : t.carriage = some c) (hk : (y.carriage c).task = some (.transfer t.tag))
    (hp : (y.carriage c).position = some p) (hd : y.holdsWay c p (y.destinationPosition t)) (hph : phase ≠ .waiting)
    (ho : o ≠ .stay) (hx : ∀ x, o = .goto x → x = y.destinationPosition t) : (y.startPhase t.tag c phase o).railFits := by
  have hl := position_lt hp
  have rec' : (y.startPhase t.tag c phase o).carriage c = { y.carriage c with
      order := some ⟨o, nextSerial (y.carriage c).lastSerial⟩
      lastSerial := nextSerial (y.carriage c).lastSerial } := by
    unfold Yard.startPhase Yard.orderCarriage
    rw [carriage_setCarriage_same (by simpa [Yard.setTransfer] using hl)]
    rfl
  refine f.alter (c := c) rfl rfl rfl (fun i hi => ⟨?_, .of_segments rfl i⟩) (by rw [rec']) (fun h => ?_) ?_ ?_
    (fun i hi u mu eu cu pu => ?_) ?_
  · unfold Yard.startPhase Yard.orderCarriage
    exact congrArg Carriage.work (carriage_setCarriage _ _ _ _ hi)
  · rw [(f.carriagesAbsent c h).1] at hp
    cases hp
  · have e := setTransfer_tags y t.tag (g := fun t => { t with phase := phase, phaseTimer := some y.settings.phaseLimit })
      fun _ => rfl
    exact (congrArg List.Nodup e).mpr f.tagsDistinct
  · exact setTransfer_destinations f.destinationsFixed fun _ => rfl
  · have hn : u.tag ≠ t.tag := fun e => hi (Option.some.inj (cu.symm.trans
      ((List.inj_on_of_nodup_map f.tagsDistinct mu ht e) ▸ hc)))
    exact ⟨u, setTransfer_other mu hn, rfl, cu, pu, rfl⟩
  · have way {q : Nat} (h : y.holdsWay c p q) : (y.startPhase t.tag c phase o).holdsWay c p q := h
    refine ⟨fun x n e => ?_, fun tag e => ?_, fun _ => ?_⟩ <;> rw [rec'] at *
    · simp only [Option.some.injEq, Order.mk.injEq] at e
      exact ⟨p, hp, way (hx x e.1 ▸ hd)⟩
    · have e' : t.tag = tag := by
        have := hk.symm.trans e
        simpa using this
      subst e'
      refine ⟨_, setTransfer_same ht, rfl, hc, hph, p, hp, ?_⟩
      convert way hd using 1
      refine Yard.destinationPosition_fixed ?_ ?_ (f.destinationsFixed t ht) <;> rfl
    · exact ⟨_, rfl, ho⟩

theorem carryOn {t : Transfer} {c p : Nat} (f : y.railFitsBut c) (ht : t ∈ y.rail.queue) (hc : t.carriage = some c)
    (hk : (y.carriage c).task = some (.transfer t.tag)) (hp : (y.carriage c).position = some p)
    (hd : y.holdsWay c p (y.destinationPosition t)) : (y.carryOn t c).railFits := by
  unfold Yard.carryOn
  split
  · exact startPhase f ht hc hk hp hd (by simp) (by simp) (by simp)
  · exact startPhase f ht hc hk hp hd (by simp) (by simp) (by simp)

/-- A carriage ends its work: no GOTO, no task, its segments released. -/
theorem endsWork {c : Nat} (f : y.railFitsBut c) (ho : (y.carriage c).order = none) :
    ((y.releaseSegments c).setCarriage c fun w => { w with task := none }).railFits := by
  have rec' : (((y.releaseSegments c).setCarriage c fun w => { w with task := none }).carriage c).position =
        (y.carriage c).position ∧
      (((y.releaseSegments c).setCarriage c fun w => { w with task := none }).carriage c).order = none ∧
      (((y.releaseSegments c).setCarriage c fun w => { w with task := none }).carriage c).task = none := by
    simp only [Yard.carriage, Yard.setCarriage_carriages, List.getD_eq_getElem?_getD, List.getElem?_modify, if_true,
      show (y.releaseSegments c).carriages = y.carriages from rfl] at ho ⊢
    cases hg : y.carriages[c]? <;> simp_all [freshCarriage]
  refine f.alter (c := c) rfl rfl (by simp [Yard.releaseSegments, Yard.setReservations]) (fun i hi => ⟨?_, ?_⟩) rec'.1
    (fun _ => rec'.2.2) f.tagsDistinct f.destinationsFixed (fun i _ u mu _ cu pu => ⟨u, mu, rfl, cu, pu, rfl⟩)
    (idle_fits (fun x n => by rw [rec'.2.1]; simp) rec'.2.2)
  · exact congrArg Carriage.work (carriage_setCarriage _ _ _ _ hi)
  · exact holdsIn_setReservations y c i none fun e => absurd e hi

/-- The transfer that carriage `c` has completed leaves the queue, its carriage's work ended. -/
theorem completesTransfer {t : Transfer} {c : Nat} (f : y.railFitsBut c) (ht : t ∈ y.rail.queue) (hc : t.carriage = some c)
    (ho : (y.carriage c).order = none) :
    (Yard.closeTransfer t .done ((y.releaseSegments c).setCarriage c fun w => { w with task := none })).railFits := by
  have e := endsWork f ho
  refine e.closeTransfer _ fun i h => ?_
  have hi : i = c := Option.some.inj ((e.linked_carriage (t := t) ht h).symm.trans hc)
  subst hi
  have : (((y.releaseSegments i).setCarriage i fun w => { w with task := none }).carriage i).task = none := by
    simp only [Yard.carriage, Yard.setCarriage_carriages, List.getD_eq_getElem?_getD, List.getElem?_modify, if_true]
    cases (y.releaseSegments i).carriages[i]? <;> simp [freshCarriage]
  rw [this] at h
  cases h

/-- From the way held to two positions, the way between them is held. -/
theorem holdsWay_join {c p q r : Nat} (h : y.holdsWay c p q) (k : y.holdsWay c p r) : y.holdsWay c q r := by
  intro s h₁ h₂ h₃
  rw [segmentOf_min] at h₁
  rw [segmentOf_max] at h₂
  by_cases hs : segmentOf (min p q) ≤ s ∧ s ≤ segmentOf (max p q)
  · exact h s hs.1 hs.2 h₃
  · refine k s ?_ ?_ h₃ <;> rw [segmentOf_min, segmentOf_max] at * <;> omega

/-! ### Arrivals and reported positions (R41, R42, R47) -/

/-- A carriage's record changes: the law holds but for its work, where its position lies on the rail. -/
theorem setCarriageBut (f : y.railFits) {c : Nat} (g : Carriage → Carriage) (hc : c < y.settings.carriages)
    (hp : ∀ q, ((y.setCarriage c g).carriage c).position = some q → segmentOf q < y.rail.segments.length) :
    (y.setCarriage c g).railFitsBut c where
  rowsOnRail := f.rowsOnRail
  positionsOnRail := fun i q e => by
    by_cases h : i = c
    · subst h; exact hp q e
    · rw [carriage_setCarriage y c i g h] at e
      exact f.positionsOnRail i q e
  carriagesAbsent := fun i h => by
    have hi : y.settings.carriages ≤ i := h
    have : i ≠ c := by omega
    rw [carriage_setCarriage y c i g this]
    exact f.carriagesAbsent i hi
  tagsDistinct := f.tagsDistinct
  destinationsFixed := f.destinationsFixed
  carriagesFit := fun i hi => (f.carriagesFit i).of rfl f.destinationsFixed (by rw [carriage_setCarriage y c i g hi])
    (by rw [carriage_setCarriage y c i g hi]) (by rw [carriage_setCarriage y c i g hi]) (.of_segments rfl i)
    fun t mt _ ct pt => ⟨t, mt, rfl, ct, pt, rfl⟩

/-- The way to the destination of an entry is read of no carriage's record. -/
theorem way_setCarriage (f : y.railFits) {t : Transfer} (ht : t ∈ y.rail.queue) {c i p : Nat} {g : Carriage → Carriage}
    (w : y.holdsWay i p (y.destinationPosition t)) :
    (y.setCarriage c g).holdsWay i p ((y.setCarriage c g).destinationPosition t) := by
  have e : (y.setCarriage c g).destinationPosition t = y.destinationPosition t :=
    Yard.destinationPosition_fixed (y := y) (z := y.setCarriage c g) rfl rfl (f.destinationsFixed t ht)
  rw [e]
  exact w

/-- The order of carriage `c` has ended, and its task is as it was its own: what a completion starts from. -/
def between (y : Yard) (c : Nat) : Prop := y.railFitsBut c ∧ (y.carriage c).order = none ∧ linked y c

theorem between.same {c : Nat} (b : between y c) (h : RailSame y z) : between z c :=
  ⟨b.1.same h, (h.order c).trans b.2.1, fun tag e => by
    obtain ⟨t, mt, tt, ct, pt, p, hp, w⟩ := b.2.2 tag (h.task c ▸ e)
    obtain ⟨u, mu, eu⟩ := h.entry mt
    have e₁ : u.tag = t.tag := congrArg Prod.fst eu
    have e₂ : u.carriage = t.carriage := congrArg (fun w => w.2.2.2.2) eu
    have e₃ : u.phase = t.phase := congrArg (fun w => w.2.2.2.1) eu
    refine ⟨u, mu, e₁.trans tt, e₂ ▸ ct, e₃ ▸ pt, p, (h.position c).trans hp, ?_⟩
    rw [Yard.destinationPosition_fixed h.settings (congrArg (fun w => w.2.2.1) eu) (b.1.destinationsFixed t mt)]
    exact (Yard.holdsIn.of_segments h.segments c).way w⟩

/-- The GOTO of a carriage ends at its target. -/
theorem arrives (f : y.railFits) {c x serial : Nat} (hc : c < y.settings.carriages)
    (hx : segmentOf x < y.rail.segments.length) (ho : (y.carriage c).order = some ⟨.goto x, serial⟩) :
    between (y.setCarriage c fun w => { w with order := none, position := some x }) c := by
  obtain ⟨p, hp, w⟩ := (f.carriagesFit c).1 x serial ho
  have e := carriage_setCarriage_same (position_lt hp) fun w => { w with order := none, position := some x }
  refine ⟨f.setCarriageBut _ hc fun q h => ?_, by rw [e], fun tag h => ?_⟩ <;> rw [e] at h
  · exact Option.some.inj h ▸ hx
  · obtain ⟨t, mt, tt, ct, pt, p', hp', w'⟩ := (f.carriagesFit c).2.1 tag h
    have : p' = p := Option.some.inj (hp'.symm.trans hp)
    subst this
    refine ⟨t, mt, tt, ct, pt, x, by rw [e], ?_⟩
    exact f.way_setCarriage mt (holdsWay_join w w')

/-- Another order of a carriage ends where it stands. -/
theorem stops (f : y.railFits) {c : Nat} (hc : c < y.settings.carriages) :
    between (y.setCarriage c fun w => { w with order := none }) c := by
  have same : ((y.setCarriage c fun w => { w with order := none }).carriage c).position = (y.carriage c).position ∧
      ((y.setCarriage c fun w => { w with order := none }).carriage c).order = none ∧
      ((y.setCarriage c fun w => { w with order := none }).carriage c).task = (y.carriage c).task := by
    simp only [Yard.carriage, Yard.setCarriage_carriages, List.getD_eq_getElem?_getD, List.getElem?_modify, if_true]
    cases y.carriages[c]? <;> simp [freshCarriage]
  refine ⟨f.setCarriageBut _ hc fun q h => f.positionsOnRail c q (same.1 ▸ h), same.2.1, fun tag h => ?_⟩
  obtain ⟨t, mt, tt, ct, pt, p, hp, w⟩ := (f.carriagesFit c).2.1 tag (same.2.2 ▸ h)
  refine ⟨t, mt, tt, ct, pt, p, same.1.trans hp, ?_⟩
  exact f.way_setCarriage mt w

/-- A position is recorded for a carriage that is left with neither order nor task. -/
theorem recorded (f : y.railFits) {c x : Nat} {g : Carriage → Carriage} (hc : c < y.settings.carriages)
    (hx : segmentOf x < y.rail.segments.length) (hp : ∀ w, (g w).position = some x) (ho : ∀ w, (g w).order = none)
    (ht : ((y.setCarriage c g).carriage c).task = none) : (y.setCarriage c g).railFits := by
  have cases : (y.setCarriage c g).carriage c = g (y.carriage c) ∨ (y.setCarriage c g).carriage c = freshCarriage 0 := by
    simp only [Yard.carriage, Yard.setCarriage_carriages, List.getD_eq_getElem?_getD, List.getElem?_modify, if_true]
    cases y.carriages[c]? <;> simp
  refine (f.setCarriageBut g hc fun q h => ?_).whole (idle_fits (fun x n => ?_) ht)
  · rcases cases with e | e <;> rw [e] at h
    · rw [hp] at h
      exact Option.some.inj h ▸ hx
    · simp [freshCarriage] at h
  · rcases cases with e | e <;> rw [e]
    · rw [ho]; simp
    · simp [freshCarriage]

/-- A carriage with no order, or told to stay, has no task. -/
theorem resting_task (f : y.railFits) {c : Nat}
    (h : (y.carriage c).order = none ∨ ∃ n, (y.carriage c).order = some ⟨.stay, n⟩) : (y.carriage c).task = none := by
  by_contra hc
  obtain ⟨o, e, hs⟩ := (f.carriagesFit c).2.2 (Option.isSome_iff_ne_none.2 hc)
  rcases h with h | ⟨n, h⟩ <;> rw [h] at e
  · cases e
  · exact hs (Option.some.inj e ▸ rfl)

/-- The task of a carriage stands where only its order and its position change. -/
theorem task_setCarriage {c : Nat} {g : Carriage → Carriage} (hg : ∀ w, (g w).task = w.task) :
    ((y.setCarriage c g).carriage c).task = (y.carriage c).task := by
  simp only [Yard.carriage, Yard.setCarriage_carriages, List.getD_eq_getElem?_getD, List.getElem?_modify, if_true]
  cases y.carriages[c]? <;> simp [hg]

/-- A position of a row that exists lies on the rail. -/
theorem row_onRail (f : y.railFits) {x : Nat} (h : x < y.rows.length) : segmentOf x < y.rail.segments.length := by
  have := f.rowsOnRail.2
  unfold segmentOf
  omega

/-- A position is recorded for a carriage that rests: its order ends, and it has no task. -/
theorem recordedResting (f : y.railFits) {c x : Nat} {g : Carriage → Carriage} (hc : c < y.settings.carriages)
    (hx : x < y.rows.length) (hp : ∀ w, (g w).position = some x) (ho : ∀ w, (g w).order = none)
    (ht : ∀ w, (g w).task = w.task) (h : (y.carriage c).order = none ∨ ∃ n, (y.carriage c).order = some ⟨.stay, n⟩) :
    (y.setCarriage c g).railFits :=
  f.recorded hc (f.row_onRail hx) hp ho ((task_setCarriage ht).trans (f.resting_task h))

end Sys2Proof.Machine.Yard.railFits
end

