-- ==== Sys2Proof/Laws/Keeps.lean ====
section
/-! SUPPORT. One lemma for each shared operation of the yard, saying what it keeps: the settings, the start-up state, the
stamp, the fences, the lanes and selections, the enrolment, the number of records of each table, the carriages'
positions, the laws of the tables and the queues, and a storm once begun. `Keeps` composes, so that a meaning's frame is
the chain of its operations. -/

-- One proof after another: the package as one text would ask for too many threads at once.
set_option Elab.async false

namespace Sys2Proof.Machine

/-- What `z` keeps of `y` whatever becomes of the carriages' positions. -/
structure KeepsCore (y z : Yard) : Prop where
  settings : z.settings = y.settings
  startUp : z.startUp = y.startUp
  stamp : z.stamp = y.stamp
  fences : z.fences = y.fences
  lanes : z.alerts.lanes = y.alerts.lanes
  listeners : z.alerts.listeners = y.alerts.listeners
  enrolled : z.robots.map (·.enrolled) = y.robots.map (·.enrolled)
  rows : z.rows.length = y.rows.length
  carriages : z.carriages.length = y.carriages.length
  docks : z.docks.length = y.docks.length
  segments : z.rail.segments.length = y.rail.segments.length
  nudges : z.rail.nudges.length = y.rail.nudges.length
  passTimers : z.rounds.passTimers.length = y.rounds.passTimers.length
  buildCounts : z.rounds.buildCounts.length = y.rounds.buildCounts.length
  queueFits : y.queueFits → z.queueFits
  listFits : y.listFits → z.listFits
  noticesFit : y.noticesFit → z.noticesFit
  stormLasts : y.mild = false → z.mild = false
  listDistinct : y.listDistinct → z.listDistinct
  holdersFit : y.holdersFit → z.holdersFit
  occupancyTrue : y.occupancyTrue → z.occupancyTrue

/-- What `z` keeps of `y` in the middle of a change of the carriages' work. -/
structure KeepsPlaces (y z : Yard) : Prop extends KeepsCore y z where
  positions : z.carriages.map (·.position) = y.carriages.map (·.position)
  positionsFree : y.positionsFree → z.positionsFree

/-- What `z` keeps of `y`. -/
structure Keeps (y z : Yard) : Prop extends KeepsPlaces y z where
  railFits : y.railFits → z.railFits

theorem KeepsCore.trans {y z w : Yard} (h : KeepsCore y z) (k : KeepsCore z w) : KeepsCore y w where
  settings := k.settings.trans h.settings
  startUp := k.startUp.trans h.startUp
  stamp := k.stamp.trans h.stamp
  fences := k.fences.trans h.fences
  lanes := k.lanes.trans h.lanes
  listeners := k.listeners.trans h.listeners
  enrolled := k.enrolled.trans h.enrolled
  rows := k.rows.trans h.rows
  carriages := k.carriages.trans h.carriages
  docks := k.docks.trans h.docks
  segments := k.segments.trans h.segments
  nudges := k.nudges.trans h.nudges
  passTimers := k.passTimers.trans h.passTimers
  buildCounts := k.buildCounts.trans h.buildCounts
  queueFits := k.queueFits ∘ h.queueFits
  listFits := k.listFits ∘ h.listFits
  noticesFit := k.noticesFit ∘ h.noticesFit
  stormLasts := k.stormLasts ∘ h.stormLasts
  listDistinct := k.listDistinct ∘ h.listDistinct
  holdersFit := k.holdersFit ∘ h.holdersFit
  occupancyTrue := k.occupancyTrue ∘ h.occupancyTrue

theorem KeepsPlaces.trans {y z w : Yard} (h : KeepsPlaces y z) (k : KeepsPlaces z w) : KeepsPlaces y w where
  toKeepsCore := h.toKeepsCore.trans k.toKeepsCore
  positions := k.positions.trans h.positions
  positionsFree := k.positionsFree ∘ h.positionsFree

theorem KeepsPlaces.foldl {α : Type} {f : Yard → α → Yard} (h : ∀ z a, KeepsPlaces z (f z a)) (l : List α) {y x : Yard}
    (k : KeepsPlaces y x) : KeepsPlaces y (l.foldl f x) := by
  induction l generalizing x with
  | nil => exact k
  | cons a l ih => exact ih (k.trans (h x a))

namespace Keeps

variable {y z w : Yard}

/-- A change that leaves every table and queue as it was keeps everything. -/
theorem same (settings : z.settings = y.settings := by rfl) (startUp : z.startUp = y.startUp := by rfl)
    (stamp : z.stamp = y.stamp := by rfl) (fences : z.fences = y.fences := by rfl)
    (lanes : z.alerts.lanes = y.alerts.lanes := by rfl) (listeners : z.alerts.listeners = y.alerts.listeners := by rfl)
    (robots : z.robots = y.robots := by rfl) (rows : z.rows = y.rows := by rfl)
    (carriages : z.carriages = y.carriages := by rfl) (docks : z.docks = y.docks := by rfl)
    (segments : z.rail.segments = y.rail.segments := by rfl)
    (nudges : z.rail.nudges.length = y.rail.nudges.length := by first | rfl | simp)
    (passTimers : z.rounds.passTimers.length = y.rounds.passTimers.length := by first | rfl | simp)
    (buildCounts : z.rounds.buildCounts.length = y.rounds.buildCounts.length := by first | rfl | simp)
    (queue : z.rail.queue.map Transfer.work = y.rail.queue.map Transfer.work := by rfl)
    (list : z.rounds.list = y.rounds.list := by rfl) (boxes : z.boxes = y.boxes := by rfl)
    (storm : z.storm.state = y.storm.state := by rfl) : Keeps y z where
  settings := settings
  startUp := startUp
  stamp := stamp
  fences := fences
  lanes := lanes
  listeners := listeners
  enrolled := by rw [robots]
  rows := by rw [rows]
  carriages := by rw [carriages]
  docks := by rw [docks]
  segments := by rw [segments]
  nudges := nudges
  passTimers := passTimers
  buildCounts := buildCounts
  queueFits := by
    have e := congrArg List.length queue
    simp only [List.length_map] at e
    simp [Yard.queueFits, e]
  listFits := by simp [Yard.listFits, list]
  noticesFit := by simp [Yard.noticesFit, boxes]
  stormLasts := by simp [Yard.mild, storm]
  listDistinct := by simp [Yard.listDistinct, list]
  holdersFit := by simp [Yard.holdersFit, rows]
  occupancyTrue := by
    simp [Yard.occupancyTrue, Yard.fieldsName, Yard.row, Yard.robot, Yard.dock, Yard.carriage, rows, robots, docks,
      carriages]
  positions := by rw [carriages]
  positionsFree := by
    simp [Yard.positionsFree, Yard.inOthersSegment, Yard.reservation, Yard.carriage, carriages, segments, settings]
  railFits := .same ⟨settings, by rw [rows], by rw [carriages], segments, queue⟩

theorem refl (y : Yard) : Keeps y y := same

theorem trans (h : Keeps y z) (k : Keeps z w) : Keeps y w where
  toKeepsPlaces := h.toKeepsPlaces.trans k.toKeepsPlaces
  railFits := k.railFits ∘ h.railFits

theorem ite {c : Prop} [Decidable c] (h : c → Keeps y z) (k : ¬c → Keeps y w) : Keeps y (if c then z else w) := by
  split
  · exact h ‹_›
  · exact k ‹_›

theorem foldl {α : Type} {f : Yard → α → Yard} (h : ∀ z a, Keeps z (f z a)) (l : List α) (y : Yard) :
    Keeps y (l.foldl f y) := by
  induction l generalizing y with
  | nil => exact refl y
  | cons a l ih => exact (h y a).trans (ih _)

/-! ### Updates of one record -/

theorem mapModify {α β : Type} (g : α → β) (l : List α) (k : Nat) {f : α → α} (hf : ∀ a, g (f a) = g a) :
    (l.modify k f).map g = l.map g := by
  induction l generalizing k with
  | nil => simp
  | cons a l ih => cases k <;> simp [hf, ih]

/-- A change of the rows that keeps the holders' law and records no new occupant keeps everything. -/
theorem withRows (y : Yard) {l : List Row} (hl : l.length = y.rows.length)
    (hh : y.holdersFit → ∀ w ∈ l, w.holderFits)
    (ho : ∀ r k, (l.getD r (freshRow 0)).garageOccupant = some k → (y.row r).garageOccupant = some k) :
    Keeps y { y with rows := l } where
  toKeepsCore := { (refl y).toKeepsCore with
    rows := hl
    holdersFit := hh
    occupancyTrue := fun h k hk => ⟨fun r hr => (h k hk).1 r (ho r k hr), (h k hk).2⟩ }
  positions := rfl
  positionsFree := id
  railFits := .same (.same (rows := hl))

/-- Every row changes alike, in neither holder, custody nor occupant. -/
theorem mapRows (y : Yard) (f : Row → Row) (hh : ∀ w, (f w).holder = w.holder ∧ (f w).custody = w.custody)
    (ho : ∀ w, (f w).garageOccupant = w.garageOccupant) : Keeps y { y with rows := y.rows.map f } := by
  refine withRows y (by simp) (fun h w hw => ?_) fun r k hr => ?_
  · obtain ⟨x, hx, rfl⟩ := List.mem_map.1 hw
    rw [Row.holderFits, (hh x).1, (hh x).2]
    exact h x hx
  · rw [List.getD_eq_getElem?_getD, List.getElem?_map] at hr
    rw [Yard.row, List.getD_eq_getElem?_getD]
    cases hg : y.rows[r]? with
    | none => simp [hg, freshRow] at hr
    | some w => simpa [hg, ho] using hr

/-- A row's record changes: the holders' law is kept, and no new occupant is recorded. -/
theorem setRowAt (y : Yard) (r : Nat) (f : Row → Row) (hh : (y.row r).holderFits → (f (y.row r)).holderFits)
    (ho : ∀ w k, (f w).garageOccupant = some k → w.garageOccupant = some k) : Keeps y (y.setRow r f) := by
  refine withRows y (by simp) (fun h w hw => ?_) fun q k hq => ?_
  · obtain ⟨i, hi, rfl⟩ := List.getElem_of_mem hw
    rw [List.length_modify] at hi
    rw [List.getElem_modify]
    split
    · rename_i hri
      subst hri
      have e : y.row r = y.rows[r] := by simp [Yard.row, hi]
      rw [← e]
      exact hh (by rw [e]; exact h _ (List.getElem_mem _))
    · exact h _ (List.getElem_mem _)
  · rw [List.getD_eq_getElem?_getD, List.getElem?_modify] at hq
    rw [Yard.row, List.getD_eq_getElem?_getD]
    split at hq
    · cases hg : y.rows[q]? with
      | none => simp [hg] at hq; exact hq
      | some w => simp [hg] at hq; simpa using ho w k hq
    · simpa using hq

theorem setRow (y : Yard) (r : Nat) (f : Row → Row)
    (hh : ∀ w, (f w).holder = w.holder ∧ (f w).custody = w.custody := by exact fun _ => ⟨rfl, rfl⟩)
    (ho : ∀ w, (f w).garageOccupant = w.garageOccupant := by exact fun _ => rfl) : Keeps y (y.setRow r f) :=
  setRowAt y r f (by rw [Row.holderFits, Row.holderFits, (hh _).1, (hh _).2]; exact id) fun w k h => by rwa [ho] at h

/-- A change of the robots that keeps their enrolment and their places keeps everything. -/
theorem withRobots (y : Yard) {l : List Robot} (he : l.map (·.enrolled) = y.robots.map (·.enrolled))
    (hp : l.map (·.place) = y.robots.map (·.place)) : Keeps y { y with robots := l } where
  toKeepsCore := { (refl y).toKeepsCore with
    enrolled := he
    occupancyTrue := fun h j hj => by
      have e := congrArg (fun l => l[j]?) hp
      have p : (({ y with robots := l } : Yard).robot j).place = (y.robot j).place := by
        simp only [List.getElem?_map] at e
        simp only [Yard.robot, List.getD_eq_getElem?_getD]
        cases hl : y.robots[j]? <;> cases hm : l[j]? <;> simp_all
      have n : l.length = y.robots.length := by simpa using congrArg List.length hp
      rw [p]
      exact h j (n ▸ hj) }
  positions := rfl
  positionsFree := id
  railFits := .same .same

theorem setRobot (y : Yard) (k : Nat) {f : Robot → Robot}
    (hf : ∀ b, (f b).enrolled = b.enrolled ∧ (f b).place = b.place) : Keeps y (y.setRobot k f) :=
  (withRobots y (mapModify _ _ _ fun b => (hf b).1) (mapModify _ _ _ fun b => (hf b).2)).trans same

/-- A change of a carriage that keeps its load keeps everything but the positions. -/
theorem setCarriageCore (y : Yard) (c : Nat) (f : Carriage → Carriage)
    (hl : ∀ w k, (f w).load = some k → w.load = some k) : KeepsCore y (y.setCarriage c f) :=
  { (refl y).toKeepsCore with
    carriages := by simp
    occupancyTrue := fun h j hj => ⟨(h j hj).1, (h j hj).2.1, fun i hi => (h j hj).2.2 i (by
      rw [Yard.carriage, List.getD_eq_getElem?_getD, Yard.setCarriage_carriages, List.getElem?_modify] at hi
      rw [Yard.carriage, List.getD_eq_getElem?_getD]
      split at hi
      · cases hg : y.carriages[i]? with
        | none => simp [hg] at hi; exact hi
        | some w => simp [hg] at hi; simpa using hl w j hi
      · simpa using hi)⟩ }

/-- The recorded position of a carriage, from the list of positions. -/
theorem position_of (h : z.carriages.map (·.position) = y.carriages.map (·.position)) (c : Nat) :
    (z.carriage c).position = (y.carriage c).position := by
  have e := congrArg (fun l => l[c]?) h
  simp only [List.getElem?_map] at e
  simp only [Yard.carriage, List.getD_eq_getElem?_getD]
  cases hl : y.carriages[c]? <;> cases hm : z.carriages[c]? <;> simp_all

theorem setCarriagePlaces (y : Yard) (c : Nat) (f : Carriage → Carriage)
    (hp : ∀ w, (f w).position = w.position := by exact fun _ => rfl)
    (hl : ∀ w k, (f w).load = some k → w.load = some k := by exact fun _ _ h => h) :
    KeepsPlaces y (y.setCarriage c f) where
  toKeepsCore := setCarriageCore y c f hl
  positions := mapModify _ _ _ hp
  positionsFree := fun h i p hi hpos => h i p hi (by
    rw [← position_of (z := y.setCarriage c f) (mapModify _ _ _ hp)]; exact hpos)

theorem setDock (y : Yard) (d : Nat) (f : Dock → Dock)
    (ho : ∀ w k, (f w).occupant = some k → w.occupant = some k := by exact fun _ _ h => h) : Keeps y (y.setDock d f) where
  toKeepsCore := { (refl y).toKeepsCore with
    docks := by simp
    occupancyTrue := fun h j hj => ⟨(h j hj).1, fun i hi => (h j hj).2.1 i (by
      rw [Yard.dock, List.getD_eq_getElem?_getD, Yard.setDock_docks, List.getElem?_modify] at hi
      rw [Yard.dock, List.getD_eq_getElem?_getD]
      split at hi
      · cases hg : y.docks[i]? with
        | none => simp [hg] at hi; exact hi
        | some w => simp [hg] at hi; simpa using ho w j hi
      · simpa using hi), (h j hj).2.2⟩ }
  positions := rfl
  positionsFree := id
  railFits := .same .same

/-- A change of the queue that makes it no longer. -/
theorem withQueuePlaces (y : Yard) {l : List Transfer} (h : l.length ≤ y.rail.queue.length) :
    KeepsPlaces y { y with rail := { y.rail with queue := l } } where
  toKeepsCore := { (refl y).toKeepsCore with queueFits := fun k => Nat.le_trans h k }
  positions := rfl
  positionsFree := id

theorem setTransferPlaces (y : Yard) (tag : Nat) (f : Transfer → Transfer) : KeepsPlaces y (y.setTransfer tag f) :=
  withQueuePlaces y (by simp)

theorem setEntry (y : Yard) (r : Nat) (f : Entry → Entry) (hr : ∀ e, (f e).row = e.row := by exact fun _ => rfl) :
    Keeps y (y.setEntry r f) where
  toKeepsCore := { (refl y).toKeepsCore with
    listFits := by simp [Yard.listFits]
    listDistinct := by
      have e : ∀ l : List Entry, (l.map fun e => if e.row = r then f e else e).map (·.row) = l.map (·.row) := by
        intro l
        simp only [List.map_map]
        refine List.map_congr_left fun e _ => ?_
        simp only [Function.comp]
        split
        · exact hr e
        · rfl
      simp [Yard.listDistinct, e] }
  positions := rfl
  positionsFree := id
  railFits := .same .same

theorem setNudge (y : Yard) (c : Nat) (n : Option Nudge) : Keeps y (y.setNudge c n) := same

theorem setPassTimer (y : Yard) (k : Nat) (t : Option Nat) : Keeps y (y.setPassTimer k t) := same

theorem countRounds (y : Yard) (f : RoundCounters → RoundCounters) : Keeps y (y.countRounds f) := same

theorem countStorm (y : Yard) (f : StormCounters → StormCounters) : Keeps y (y.countStorm f) := same

theorem giveAssign (y : Yard) : Keeps y y.giveAssign := same

theorem stretch (y : Yard) (ls : List Nat) : Keeps y (y.stretch ls) := same

/-! ### Notices -/

theorem give_fits (b : NoticeBox) (n : Notice) (h : b.queue.length ≤ 16) : (b.give n).queue.length ≤ 16 := by
  unfold NoticeBox.give
  split
  · simp only [List.length_append, List.length_cons, List.length_nil]; omega
  · exact h

theorem notify (y : Yard) (p : Port) (k : NoticeKind) (sub : Nat × Nat × Nat) (d : Nat) :
    Keeps y (y.notify p k sub d) where
  toKeepsCore := { (refl y).toKeepsCore with
    noticesFit := fun h q => by
      have := h q
      simp only [Yard.notify_boxes, Trio.get_set]
      split
      · subst_vars; exact give_fits _ _ this
      · exact this }
  positions := rfl
  positionsFree := id
  railFits := .same .same

/-! ### Rows, robots and places -/

theorem overRows (y : Yard) {f : Nat → Yard → Yard} (h : ∀ r z, Keeps z (f r z)) : Keeps y (y.overRows f) :=
  foldl (fun z r => h r z) _ _

theorem overRobots (y : Yard) {f : Nat → Yard → Yard} (h : ∀ r z, Keeps z (f r z)) : Keeps y (y.overRobots f) :=
  foldl (fun z r => h r z) _ _

theorem overCarriages (y : Yard) {f : Nat → Yard → Yard} (h : ∀ r z, Keeps z (f r z)) : Keeps y (y.overCarriages f) :=
  foldl (fun z r => h r z) _ _

theorem settleRow (y : Yard) (r : Nat) : Keeps y (y.settleRow r) :=
  setRowAt _ _ _ (fun _ => rfl) fun _ _ h => h

theorem stowRow (y : Yard) (r : Nat) : Keeps y (y.stowRow r) := setRowAt _ _ _ (fun _ => rfl) fun _ _ h => h

theorem vacate (y : Yard) (k : Nat) : Keeps y (y.vacate k) := by
  unfold Yard.vacate
  split
  · exact setDock _ _ _ fun _ _ h => by simp at h
  · exact setRowAt _ _ _ id fun _ _ h => by simp at h
  · exact {
      toKeepsPlaces := setCarriagePlaces _ _ _ (fun _ => rfl) fun _ _ h => by simp at h
      railFits := .same (.setCarriage _ _ _ fun _ => rfl) }
  all_goals exact refl _

/-- After robot `k` has left its place no occupancy field names it. -/
theorem vacate_nowhere (y : Yard) (k : Nat) (h : y.fieldsName k (y.robot k).place) (pl : Place) :
    (y.vacate k).fieldsName k pl := by
  obtain ⟨hr, hd, hc⟩ := h
  unfold Yard.vacate
  split <;> rename_i hp <;> rw [hp] at hr hd hc <;> refine ⟨fun r e => ?_, fun d e => ?_, fun c e => ?_⟩
  all_goals first
    | exact absurd (hr _ e) (by simp)
    | exact absurd (hd _ e) (by simp)
    | exact absurd (hc _ e) (by simp)
    | skip
  · rename_i q
    by_cases hq : q = d
    · subst hq
      simp [Yard.dock, List.getD_eq_getElem?_getD] at e
      cases hg : y.docks[q]? <;> simp [hg, freshDock] at e
    · have := hd d (by
        simpa [Yard.dock, List.getD_eq_getElem?_getD, List.getElem?_modify, hq] using e)
      simp [hq] at this
  · rename_i q
    by_cases hq : q = r
    · subst hq
      simp [Yard.row, List.getD_eq_getElem?_getD] at e
      cases hg : y.rows[q]? <;> simp [hg, freshRow] at e
    · have := hr r (by
        simpa [Yard.row, List.getD_eq_getElem?_getD, List.getElem?_modify, hq] using e)
      simp [hq] at this
  · rename_i q
    by_cases hq : q = c
    · subst hq
      simp [Yard.carriage, List.getD_eq_getElem?_getD] at e
      cases hg : y.carriages[q]? <;> simp [hg, freshCarriage] at e
    · have := hc c (by
        simpa [Yard.carriage, List.getD_eq_getElem?_getD, List.getElem?_modify, hq] using e)
      simp [hq] at this

/-- Writing robot `k` into the field of a place names no other robot, and names `k` at that place alone. -/
theorem occupy_names (y : Yard) (k j : Nat) (pl at' : Place) (h : y.fieldsName j at') (hj : j = k → at' = pl) :
    (y.occupy k pl).fieldsName j at' := by
  obtain ⟨hr, hd, hc⟩ := h
  unfold Yard.occupy
  split
  · rename_i q
    refine ⟨hr, fun d e => ?_, hc⟩
    by_cases hq : q = d
    · subst hq
      simp only [Yard.dock, List.getD_eq_getElem?_getD, List.getElem?_modify, Yard.setDock_docks, if_true] at e
      cases hg : y.docks[q]? <;> simp [hg, freshDock] at e
      exact hj e.symm
    · exact hd d (by simpa [Yard.dock, List.getD_eq_getElem?_getD, List.getElem?_modify, hq] using e)
  · rename_i q
    refine ⟨fun r e => ?_, hd, hc⟩
    by_cases hq : q = r
    · subst hq
      simp only [Yard.row, List.getD_eq_getElem?_getD, List.getElem?_modify, Yard.setRow_rows, if_true] at e
      cases hg : y.rows[q]? <;> simp [hg, freshRow] at e
      exact hj e.symm
    · exact hr r (by simpa [Yard.row, List.getD_eq_getElem?_getD, List.getElem?_modify, hq] using e)
  · rename_i q
    refine ⟨hr, hd, fun c e => ?_⟩
    by_cases hq : q = c
    · subst hq
      simp only [Yard.carriage, List.getD_eq_getElem?_getD, List.getElem?_modify, Yard.setCarriage_carriages,
        if_true] at e
      cases hg : y.carriages[q]? <;> simp [hg, freshCarriage] at e
      exact hj e.symm
    · exact hc c (by simpa [Yard.carriage, List.getD_eq_getElem?_getD, List.getElem?_modify, hq] using e)
  all_goals exact ⟨hr, hd, hc⟩

/-- Robot `k` is written at a place: whatever `y` keeps of `x` is kept, where the occupancy law is. -/
theorem placed {x y : Yard} (h : Keeps x y) (k : Nat) (pl : Place)
    (ho : x.occupancyTrue → ((y.occupy k pl).setRobot k fun b => { b with place := pl }).occupancyTrue) :
    Keeps x ((y.occupy k pl).setRobot k fun b => { b with place := pl }) := by
  have hf : x.railFits → ((y.occupy k pl).setRobot k fun b => { b with place := pl }).railFits := fun f =>
    .same ((RailSame.occupy y k pl).trans .same) (h.railFits f)
  have he : (y.robots.modify k fun b => { b with place := pl }).map (·.enrolled) = x.robots.map (·.enrolled) :=
    (mapModify (·.enrolled) y.robots k (f := fun b => { b with place := pl }) fun _ => rfl).trans h.enrolled
  unfold Yard.occupy at ho hf ⊢
  cases pl with
  | dock d =>
    exact {
      toKeepsCore := { h.toKeepsCore with
        enrolled := he
        docks := by simpa using h.docks
        occupancyTrue := ho }
      positions := h.positions
      positionsFree := h.positionsFree
      railFits := hf }
  | garage r =>
    have hr : (y.setRow r fun w => { w with garageOccupant := some k }).holdersFit ↔ y.holdersFit := by
      simp only [Yard.holdersFit, Yard.setRow_rows]
      have e : (y.rows.modify r fun w => { w with garageOccupant := some k }).map (fun w => (w.holder, w.custody)) =
          y.rows.map fun w => (w.holder, w.custody) := mapModify _ _ _ fun _ => rfl
      have f : ∀ l : List Row, (∀ w ∈ l, w.holderFits) ↔
          ∀ v ∈ l.map (fun w => (w.holder, w.custody)), v.1.isSome = v.2.hasHolder := by
        intro l; simp [Row.holderFits]
      rw [f, f, e]
    exact {
      toKeepsCore := { h.toKeepsCore with
        enrolled := he
        rows := by simpa using h.rows
        holdersFit := fun a => hr.2 (h.holdersFit a)
        occupancyTrue := ho }
      positions := h.positions
      positionsFree := h.positionsFree
      railFits := hf }
  | aboard c =>
    have hp : (y.carriages.modify c fun w => { w with load := some k }).map (·.position) =
        y.carriages.map (·.position) := mapModify _ _ _ fun _ => rfl
    exact {
      toKeepsCore := { h.toKeepsCore with
        enrolled := he
        carriages := by simpa using h.carriages
        occupancyTrue := ho }
      positions := hp.trans h.positions
      positionsFree := fun a i p hi hpos => h.positionsFree a i p hi (by
        rw [← position_of (z := (y.setCarriage c fun w => { w with load := some k }).setRobot k
          fun b => { b with place := .aboard c }) hp]
        exact hpos)
      railFits := hf }
  | midrow r =>
    exact {
      toKeepsCore := { h.toKeepsCore with enrolled := he, occupancyTrue := ho }
      positions := h.positions
      positionsFree := h.positionsFree
      railFits := hf }
  | unknown =>
    exact {
      toKeepsCore := { h.toKeepsCore with enrolled := he, occupancyTrue := ho }
      positions := h.positions
      positionsFree := h.positionsFree
      railFits := hf }

theorem vacate_robots (y : Yard) (k : Nat) : (y.vacate k).robots = y.robots := by
  unfold Yard.vacate
  split <;> rfl

theorem occupy_robots (y : Yard) (k : Nat) (pl : Place) : (y.occupy k pl).robots = y.robots := by
  unfold Yard.occupy
  split <;> rfl

theorem moveRobot (y : Yard) (k : Nat) (pl : Place) : Keeps y (y.moveRobot k pl) := by
  refine placed (vacate y k) k pl fun h j hj => ?_
  have hj' : j < y.robots.length := by simpa [occupy_robots, vacate_robots] using hj
  show ((y.vacate k).occupy k pl).fieldsName j _
  by_cases hk : j = k
  · subst hk
    have e : (((y.vacate j).occupy j pl).setRobot j fun b => { b with place := pl }).robot j =
        { y.robot j with place := pl } := by
      simp [Yard.robot, List.getD_eq_getElem?_getD, occupy_robots, vacate_robots, hj']
    rw [e]
    exact occupy_names _ _ _ _ _ (vacate_nowhere y j (h j hj') pl) fun _ => rfl
  · have e : (((y.vacate k).occupy k pl).setRobot k fun b => { b with place := pl }).robot j = y.robot j := by
      simp [Yard.robot, List.getD_eq_getElem?_getD, occupy_robots, vacate_robots, Ne.symm hk]
    rw [e]
    refine occupy_names _ _ _ _ _ ?_ fun e => absurd e hk
    have v := (vacate y k).occupancyTrue h j (by simpa [vacate_robots] using hj')
    rwa [show (y.vacate k).robot j = y.robot j by simp [Yard.robot, vacate_robots]] at v

theorem restRobot (y : Yard) (k : Nat) : Keeps y (y.restRobot k) := setRobot _ _ fun _ => ⟨rfl, rfl⟩

/-! ### Round entries -/

theorem dropLinks (y : Yard) (r : Nat) : Keeps y (y.dropLinks r) := same (queue := (RailSame.dropLinks y r).queue)

theorem unlink (y : Yard) (k : Option Nat) : Keeps y (y.unlink k) := by
  unfold Yard.unlink
  split
  · exact setRobot _ _ fun _ => ⟨rfl, rfl⟩
  · exact refl _

theorem shorterList (y : Yard) {l : List Entry} (h : l.Sublist y.rounds.list) :
    Keeps y { y with rounds := { y.rounds with list := l } } where
  toKeepsCore := { (refl y).toKeepsCore with
    listFits := fun k => Nat.le_trans h.length_le k
    listDistinct := fun k => List.Nodup.sublist (h.map _) k }
  positions := rfl
  positionsFree := id
  railFits := .same .same

theorem removeEntry (y : Yard) (r : Nat) : Keeps y (y.removeEntry r) := by
  unfold Yard.removeEntry
  split
  · exact refl _
  · exact (shorterList y List.filter_sublist).trans ((unlink _ _).trans (dropLinks _ _))

theorem unassign (y : Yard) (r : Nat) : Keeps y (y.unassign r) := by
  unfold Yard.unassign
  split
  · exact refl _
  · exact (setEntry _ _ _).trans ((unlink _ _).trans (dropLinks _ _))

theorem unassignRobot (y : Yard) (k : Nat) : Keeps y (y.unassignRobot k) := by
  unfold Yard.unassignRobot
  split
  · exact unassign _ _
  · exact refl _

theorem emptyList (y : Yard) : Keeps y y.emptyList := foldl (fun z (e : Entry) => removeEntry z e.row) _ _

/-! ### Orders -/

theorem orderRobot (y : Yard) (k : Nat) (o : RobotOrder) : Keeps y (y.orderRobot k o) := setRobot _ _ fun _ => ⟨rfl, rfl⟩

theorem orderCarriagePlaces (y : Yard) (c : Nat) (o : CarriageOrder) : KeepsPlaces y (y.orderCarriage c o) :=
  setCarriagePlaces _ _ _

theorem passEnds (y : Yard) (k : Nat) : Keeps y (y.passEnds k) := by
  unfold Yard.passEnds
  refine (setPassTimer y k none).trans ((countRounds _ fun n => { n with passesAborted := bump n.passesAborted }).trans ?_)
  dsimp only
  split
  · exact removeEntry _ _
  · exact refl _

theorem sendHome (y : Yard) (k r : Nat) : Keeps y (y.sendHome k r) := by
  unfold Yard.sendHome
  have give (z : Yard) : Keeps z ((z.orderRobot k (.toGarage r)).setRobot k fun b => { b with task := .toGarage }) :=
    (orderRobot _ _ _).trans (setRobot _ _ fun _ => ⟨rfl, rfl⟩)
  dsimp only
  split
  · exact refl _
  · exact (passEnds y k).trans (give _)
  · exact give _

theorem givePass (y : Yard) (k r : Nat) (kind : PassKind) : Keeps y (y.givePass k r kind) := by
  unfold Yard.givePass
  refine trans ?_ (setPassTimer _ _ _)
  refine trans ?_ (moveRobot _ _ _)
  exact (orderRobot _ _ _).trans (setRobot _ _ fun _ => ⟨rfl, rfl⟩)

theorem claimUnassigned (y : Yard) (r : Nat) : Keeps y (y.claimUnassigned r) := by
  unfold Yard.claimUnassigned
  split
  · exact ite (fun _ => unassign _ _) fun _ => refl _
  · exact refl _

theorem giveUpRow (y : Yard) (k : Nat) : Keeps y (y.giveUpRow k) := by
  unfold Yard.giveUpRow
  split
  · exact refl _
  · exact ite (fun _ => settleRow _ _) fun _ =>
      ite (fun _ => (settleRow _ _).trans (claimUnassigned _ _)) fun _ => refl _

/-! ### Reservations and carriages -/

theorem reservePlace (y : Yard) (pl : Place) (tag : Option Nat) : Keeps y (y.reservePlace pl tag) := by
  unfold Yard.reservePlace
  split
  · exact setRow _ _ _
  · exact setDock _ _ _
  all_goals exact refl _

/-- The reservation of a segment after a span has been reserved. -/
theorem reservation_reserveSpan (y : Yard) (sp : Span) (c s : Nat) (cause : Cause) (v : Reservation)
    (h : (y.reserveSpan sp c cause).reservation s = some v) :
    (sp.has s = true ∧ v = ⟨c, cause⟩) ∨ y.reservation s = some v := by
  simp only [Yard.reservation, Yard.reserveSpan, List.getD_eq_getElem?_getD, List.getElem?_mapIdx] at h ⊢
  cases hg : y.rail.segments[s]? with
  | none => simp [hg] at h
  | some u =>
    simp only [hg, Option.map_some, Option.getD_some] at h ⊢
    split at h
    · exact .inl ⟨‹_›, (Option.some.inj h).symm⟩
    · exact .inr h

/-- A span in which no other carriage stands is reserved (R63, R65). -/
theorem reserveSpanPlaces (y : Yard) (sp : Span) (c : Nat) (cause : Cause) (h : y.othersInside sp c = []) :
    KeepsPlaces y (y.reserveSpan sp c cause) where
  toKeepsCore := { (refl y).toKeepsCore with segments := by simp [Yard.reserveSpan] }
  positions := rfl
  positionsFree := fun f i p hi hp => by
    have fi := f i p hi hp
    have hp' : (y.carriage i).position = some p := hp
    cases hr : (y.reserveSpan sp c cause).reservation (segmentOf p) with
    | none => simp [Yard.inOthersSegment, hr]
    | some v =>
      rcases reservation_reserveSpan _ _ _ _ _ _ hr with ⟨hs, rfl⟩ | e
      · by_cases hc : c = i
        · rw [Yard.inOthersSegment, hr]
          simp [hc]
        · have : i ∈ y.othersInside sp c := by
            simp only [Yard.othersInside, Yard.carriageList, List.mem_filter, List.mem_range, Yard.inside, hp']
            exact ⟨hi, by simp [Ne.symm hc, hs]⟩
          rw [h] at this
          cases this
      · simpa [Yard.inOthersSegment, hr, e] using fi

/-- A change of one carriage's reservations that gives its segments to no other carriage. -/
theorem setReservationsPlaces (y : Yard) (c : Nat) (v : Option Reservation) (h : ∀ x, v = some x → x.carriage = c) :
    KeepsPlaces y (y.setReservations c v) where
  toKeepsCore := { (refl y).toKeepsCore with segments := by simp [Yard.setReservations] }
  positions := rfl
  positionsFree := fun f i p hi hp => by
    have fi := f i p hi hp
    simp only [Yard.inOthersSegment, Yard.reservation, Yard.setReservations, List.getD_eq_getElem?_getD,
      List.getElem?_map] at fi ⊢
    cases hg : y.rail.segments[segmentOf p]? with
    | none => simp
    | some u =>
      simp only [hg, Option.map_some, Option.getD_some] at fi ⊢
      split
      · rename_i hu
        cases v with
        | none => rfl
        | some x =>
          have hx := h x rfl
          cases u with
          | none => simp at hu
          | some w =>
            simp only [Option.any_some, beq_iff_eq] at hu
            simpa [hx, hu] using fi
      · exact fi

theorem releaseSegmentsPlaces (y : Yard) (c : Nat) : KeepsPlaces y (y.releaseSegments c) :=
  setReservationsPlaces _ _ _ fun _ h => by cases h

/-- A carriage that keeps its segments with cause FAULT holds what it held. -/
theorem keepSegmentsFaulted (y : Yard) (c : Nat) : Keeps y (y.keepSegmentsFaulted c) where
  toKeepsPlaces := setReservationsPlaces _ _ _ fun _ h => by cases h; rfl
  railFits := fun f => f.segmentsChange fun i => Yard.railFits.holdsIn_setReservations y c i _ fun _ => ⟨.fault, rfl⟩

theorem carriageFaults (y : Yard) (c : Nat) : Keeps y (y.carriageFaults c) := by
  refine trans ?_ ((notify _ _ _ _ _).trans (notify _ _ _ _ _))
  exact {
    toKeepsPlaces := setCarriagePlaces _ _ _
    railFits := fun f => f.carriageRests c (fun _ => rfl) (fun _ _ _ => by simp) fun _ => rfl }

theorem stayCarriage (y : Yard) (c : Nat) : Keeps y (y.stayCarriage c) where
  toKeepsPlaces := (orderCarriagePlaces _ _ _).trans (setCarriagePlaces _ _ _)
  railFits := fun f => f.stayCarriage c

/-- A carriage told to stay releases its segments. -/
theorem stayReleased (y : Yard) (c : Nat) : Keeps (y.stayCarriage c) ((y.stayCarriage c).releaseSegments c) where
  toKeepsPlaces := releaseSegmentsPlaces _ _
  railFits := fun f => f.releaseSegments c (Yard.railFits.stayed y c).1 (Yard.railFits.stayed y c).2

theorem countStale (y : Yard) : Keeps y y.countStale := same

theorem countRefused (y : Yard) : Keeps y y.countRefused := same

theorem freeCounted (y : Yard) (n : Nat) : Keeps y { y with freeCount := n } := same

theorem inFreeOrder (y : Yard) (items : List Nat) {act : Nat → Yard → Yard} (h : ∀ i z, Keeps z (act i z)) :
    Keeps y (y.inFreeOrder items act) := by
  unfold Yard.inFreeOrder
  split
  · exact refl _
  · exact h _ _
  · exact (freeCounted y _).trans (foldl (fun z i => h i z) _ _)

end Keeps

end Sys2Proof.Machine
end

