-- ==== Sys2Proof/Laws/KeepsYard.lean ====
section
/-! SUPPORT. What builds, listeners, transfers' ends, the onsets of a storm, the arbiter and the assignment attempt keep:
the chain of `Keeps` goes on. -/

-- One proof after another: the package as one text would ask for too many threads at once.
set_option Elab.async false

namespace Sys2Proof.Machine.Keeps

variable {y z : Yard}

/-! ### Builds and sweeps -/

theorem withList (k : Keeps y z) {l : List Entry} (h : y.listFits → l.length ≤ 16)
    (hd : y.listDistinct → (l.map (·.row)).Nodup) : Keeps y { z with rounds := { z.rounds with list := l } } where
  toKeepsCore := { k.toKeepsCore with listFits := h, listDistinct := hd }
  positions := k.positions
  positionsFree := k.positionsFree
  railFits := fun f => .same .same (k.railFits f)

/-- Putting a row among ranked rows adds it and no other. -/
theorem insertRanked_perm (y : Yard) (a : Nat) (l : List Nat) : (y.insertRanked a l).Perm (a :: l) := by
  induction l with
  | nil => exact List.Perm.refl _
  | cons b l ih =>
    unfold Yard.insertRanked
    split
    · exact List.Perm.refl _
    · exact (ih.cons b).trans (List.Perm.swap a b l)

theorem ranked_perm (y : Yard) (l : List Nat) : (y.ranked l).Perm l := by
  induction l with
  | nil => exact List.Perm.refl _
  | cons a l ih => exact (insertRanked_perm y a _).trans (ih.cons a)

/-- No entry of the list is for a row that `entryOf` does not find. -/
theorem entryOf_none {y : Yard} {r : Nat} (h : y.entryOf r = none) : ∀ e ∈ y.rounds.list, e.row ≠ r := by
  intro e he hr
  have := List.find?_eq_none.1 h e he
  simp [hr] at this

/-- Candidates that are not listed, each once, join the list. -/
theorem appendCandidates (y : Yard) (o : EntryOrigin) (kindOf : Nat → PassKind) (rows : List Nat) (hn : rows.Nodup)
    (hf : ∀ r ∈ rows, y.entryOf r = none) : Keeps y (y.appendCandidates o kindOf rows).1 := by
  have d : y.listDistinct → ((y.rounds.list ++ ((y.ranked rows).take (16 - y.rounds.list.length)).map fun r =>
      (⟨r, kindOf r, o, none, .waiting⟩ : Entry)).map (·.row)).Nodup := by
    intro h
    rw [List.map_append, List.map_map]
    have e : ((fun x : Entry => x.row) ∘ fun r => (⟨r, kindOf r, o, none, .waiting⟩ : Entry)) = id := rfl
    rw [e, List.map_id]
    refine List.Nodup.append h (((ranked_perm y rows).nodup_iff.2 hn).sublist (List.take_sublist _ _)) ?_
    intro r hr hm
    obtain ⟨x, hx, rfl⟩ := List.mem_map.1 hr
    exact entryOf_none (hf _ ((ranked_perm y rows).mem_iff.1 (List.mem_of_mem_take hm))) x hx rfl
  unfold Yard.appendCandidates
  refine ite (fun _ => trans (withList (refl y) ?_ d) (countRounds _ _)) fun _ =>
    trans (trans (withList (refl y) ?_ d) (countRounds _ _)) (giveAssign _)
  all_goals
    intro h
    simp only [Yard.listFits] at h
    simp only [List.length_append, List.length_map, List.length_take]
    omega

theorem putHead (k : Keeps y z) (e : Entry) (h : y.listFits → z.rounds.list.length < 16)
    (hf : ∀ x ∈ z.rounds.list, x.row ≠ e.row) : Keeps y (z.putHead e) :=
  trans (withList k (l := e :: z.rounds.list) (fun f => by simpa using h f) fun d => by
    have := k.listDistinct d
    simp only [List.map_cons, List.nodup_cons, List.mem_map, not_exists, not_and]
    exact ⟨fun x hx => hf x hx, this⟩) (giveAssign _)

/-- Removing an entry adds none. -/
theorem removeEntry_mem (y : Yard) (r : Nat) : ∀ x ∈ (y.removeEntry r).rounds.list, x ∈ y.rounds.list := by
  intro x hx
  unfold Yard.removeEntry at hx
  have len : ∀ (z : Yard) (o : Option Nat), ((z.unlink o).dropLinks r).rounds.list = z.rounds.list := by
    intro z o
    unfold Yard.unlink Yard.dropLinks
    split <;> rfl
  split at hx
  · exact hx
  · rw [len] at hx
    exact List.mem_of_mem_filter hx

/-- Removing the entry of a listed row shortens the list. -/
theorem removeEntry_shorter (y : Yard) (e : Entry) (h : e ∈ y.rounds.list) :
    (y.removeEntry e.row).rounds.list.length < y.rounds.list.length := by
  unfold Yard.removeEntry
  have found : (y.entryOf e.row).isSome := by
    unfold Yard.entryOf
    exact List.find?_isSome.2 ⟨e, h, by simp⟩
  cases hf : y.entryOf e.row with
  | none => simp [hf] at found
  | some x =>
    have len : ∀ z : Yard, ((z.unlink x.robot).dropLinks e.row).rounds.list = z.rounds.list := by
      intro z
      unfold Yard.unlink Yard.dropLinks
      split <;> rfl
    simp only [len]
    have := List.length_filter_lt_length_iff_exists (p := fun y => y.row != e.row) (l := y.rounds.list)
    exact this.2 ⟨e, h, by simp⟩

theorem insertHead (y : Yard) (e : Entry) (hf : y.entryOf e.row = none) : Keeps y (y.insertHead e).1 := by
  unfold Yard.insertHead
  split
  · exact putHead (refl y) e (fun _ => ‹_›) (entryOf_none hf)
  · split
    · rename_i x hx
      refine putHead ((removeEntry _ _).trans (countRounds _ _)) e (fun h => ?_) fun v hv =>
        entryOf_none hf v (removeEntry_mem _ _ _ hv)
      have := removeEntry_shorter y x (by simpa using List.mem_of_find?_eq_some hx)
      simp only [Yard.countRounds_rounds]
      simp only [Yard.listFits] at h
      omega
    · dsimp only
      exact countRounds y _

theorem missRound (y : Yard) : Keeps y y.missRound := countRounds y _

theorem setBuildCount (y : Yard) (g n : Nat) :
    Keeps y { y with rounds := { y.rounds with buildCounts := y.rounds.buildCounts.set g n } } := same

/-- The rows of the block that pass a test, none of them listed, are each named once. -/
theorem candidates (y : Yard) (p : Nat → Bool) (hp : ∀ r, p r = true → y.listable r = true) :
    (y.rowList.filter p).Nodup ∧ ∀ r ∈ y.rowList.filter p, y.entryOf r = none := by
  refine ⟨List.Nodup.filter _ List.nodup_range, fun r hr => ?_⟩
  have := hp r (List.of_mem_filter hr)
  simp only [Yard.listable, Bool.and_eq_true, Option.isNone_iff_eq_none] at this
  exact this.2

theorem build (y : Yard) (g : Nat) : Keeps y (y.build g).1 := by
  have hc := candidates y (fun r => r % y.settings.groups == g && y.listable r &&
    ((y.surveyDecision g).1 || y.due y.settings.dirtyLimit r)) fun r h => by simp_all
  unfold Yard.build
  split
  · exact (setBuildCount y g _).trans ((countRounds _ _).trans (appendCandidates _ _ _ _ hc.1 hc.2))
  · exact missRound y

theorem makeSweep (y : Yard) : Keeps y y.makeSweep.1 := by
  have hc := candidates y (fun r => y.listable r && y.due y.settings.sweepLimit r) fun r h => by simp_all
  unfold Yard.makeSweep
  split
  · exact appendCandidates _ _ _ _ hc.1 hc.2
  · exact missRound y

/-! ### The storm record and the watch -/

/-- A change of the storm record alone. -/
theorem withStorm (y : Yard) (t : Storm) (h : y.mild = false → ({ y with storm := t } : Yard).mild = false) :
    Keeps y { y with storm := t } where
  toKeepsCore := { (refl y).toKeepsCore with stormLasts := h }
  positions := rfl
  positionsFree := id
  railFits := .same .same

theorem changeStorm (y : Yard) (new : StormState) (cause : StormCause) (lane : Option CauseLane)
    (h : y.mild = false → (new == .calm || new == .warned) = false) : Keeps y (y.changeStorm new cause lane) :=
  trans (withStorm y ⟨new, y.stamp, cause, lane, y.storm.recallCause, y.storm.recallLane, y.storm.deadline,
    y.storm.counters⟩ h) ((notify _ _ _ _ _).trans ((notify _ _ _ _ _).trans (notify _ _ _ _ _)))

theorem endFlatten (r : Nat) (y : Yard) : Keeps y (y.endFlatten r) := by
  unfold Yard.endFlatten
  exact ite (fun _ => (settleRow _ _).trans (setEntry _ _ _ fun _ => by split <;> rfl)) fun _ => refl _

theorem watchRises (y : Yard) : Keeps y y.watchRises := by
  unfold Yard.watchRises
  refine ite (fun h => ?_) fun _ => refl _
  exact (changeStorm _ _ _ _ fun k => by simp [Yard.mild, h] at k).trans (overRows _ fun r z => endFlatten r z)

theorem watchFalls (y : Yard) : Keeps y y.watchFalls := by
  unfold Yard.watchFalls
  refine ite (fun h => ?_) fun _ => refl _
  exact (changeStorm _ _ _ _ fun k => by simp [Yard.mild, h] at k).trans (giveAssign _)

theorem judgeWatch (y : Yard) : Keeps y y.judgeWatch := ite (fun _ => watchRises _) fun _ => watchFalls _

/-! ### Listeners -/

theorem noteAlert (y : Yard) (p : Port) (lane : Nat) (test : Bool) : Keeps y (y.noteAlert p lane test) :=
  notify _ _ _ _ _

variable {onset : CauseLane → Yard → Yard} {pass : Yard → Yard} {hand : Edge → List Nat → Yard → Yard}

theorem listenerActs (ho : ∀ l y, Keeps y (onset l y)) (hp : ∀ y, Keeps y (pass y)) (e : Edge) (i : Nat) (y : Yard) :
    Keeps y (y.listenerActs onset pass e i) := by
  unfold Yard.listenerActs
  split
  · exact ite (fun _ => watchFalls _) fun _ => watchRises _
  · exact ho _ _
  · exact makeSweep _
  · exact hp _
  · exact noteAlert _ _ _ _
  · exact noteAlert _ _ _ _
  · exact noteAlert _ _ _ _
  · exact refl _

theorem handWith (ho : ∀ l y, Keeps y (onset l y)) (hp : ∀ y, Keeps y (pass y)) (e : Edge) (ls : List Nat) (y : Yard) :
    Keeps y (y.handWith onset pass e ls) := by
  unfold Yard.handWith
  refine trans (z := if e = .pulse then y.stretch ls else y) (ite (fun _ => stretch _ _) fun _ => refl _) ?_
  dsimp only
  generalize (if e = .pulse then y.stretch ls else y) = y₁
  have k (items : List Nat) : Keeps y₁ ((if e = .fall ∧ ls.contains 2 then y₁.giveAssign else y₁).inFreeOrder items
      (Yard.listenerActs onset pass e)) :=
    trans (ite (fun _ => giveAssign _) fun _ => refl _) (inFreeOrder _ items fun i z => listenerActs ho hp e i z)
  exact ite (fun _ => (k _).trans (hp _)) fun _ => k _

theorem pulseWith (hh : ∀ e ls y, Keeps y (hand e ls y)) (src : Nat) (y : Yard) : Keeps y (y.pulseWith hand src) :=
  hh _ _ _

theorem followWith (hh : ∀ e ls y, Keeps y (hand e ls y)) (src : Nat) (k : Keeps y z) :
    Keeps y (Yard.followWith hand src y z) := by
  unfold Yard.followWith
  exact ite (fun _ => k) fun _ => k.trans (hh _ _ _)

theorem handStorm (e : Edge) (ls : List Nat) (y : Yard) : Keeps y (y.handStorm e ls) :=
  handWith (fun _ y => refl y) refl e ls y

/-! ### Hold-off and the ends of transfers -/

theorem setHoldoff (y : Yard) (b : Bool) : Keeps y { y with rail := { y.rail with holdoff := b } } := same

theorem judgeHoldoff (hh : ∀ e ls y, Keeps y (hand e ls y)) (y : Yard) : Keeps y (y.judgeHoldoff hand) := by
  unfold Yard.judgeHoldoff
  refine ite (fun _ => refl _) fun _ => ?_
  have base := followWith hh 10 ((setHoldoff y y.holdoffLevel).trans
    (notify _ .fleet .holdoff (0, 0, 0) (if y.holdoffLevel then 1 else 0)))
  exact ite (fun _ => base) fun _ => base.trans (giveAssign _)

theorem linkedEnd (y : Yard) (link : Option Nat) (result : TransferResult) : Keeps y (y.linkedEnd link result) := by
  unfold Yard.linkedEnd
  split
  · exact refl _
  · split
    · exact setEntry _ _ _
    · exact unassign _ _

theorem closeTransferPlaces (t : Transfer) (result : TransferResult) (y : Yard) :
    KeepsPlaces y (y.closeTransfer t result) := by
  unfold Yard.closeTransfer
  dsimp only
  refine (reservePlace y t.destination none).toKeepsPlaces.trans ((withQueuePlaces _
    (List.length_filter_le (fun x => x.tag != t.tag) _)).trans ?_)
  exact ((restRobot _ _).trans ((notify _ _ _ _ _).trans ((linkedEnd _ _ _).trans (giveAssign _)))).toKeepsPlaces

/-- The end of a transfer that is no carriage's task. -/
theorem closeTransfer (t : Transfer) (result : TransferResult) (y : Yard)
    (h : y.railFits → ∀ c, (y.carriage c).task ≠ some (.transfer t.tag)) : Keeps y (y.closeTransfer t result) where
  toKeepsPlaces := closeTransferPlaces t result y
  railFits := fun f => f.closeTransfer result (h f)

/-- The end of a WAITING entry of the queue. -/
theorem closeWaiting (t : Transfer) (result : TransferResult) (y : Yard) (ht : t ∈ y.rail.queue) (hw : t.phase = .waiting) :
    Keeps y (y.closeTransfer t result) :=
  closeTransfer t result y fun f => f.waiting_unlinked ht hw

theorem abortTransferPlaces (t : Transfer) (y : Yard) : KeepsPlaces y (y.abortTransfer t) := by
  unfold Yard.abortTransfer
  dsimp only
  split
  · exact ((stayCarriage y _).trans (stayReleased y _)).toKeepsPlaces.trans (closeTransferPlaces _ _ _)
  · exact closeTransferPlaces _ _ _

theorem abortNudge (c : Nat) (y : Yard) : Keeps y (y.abortNudge c) where
  toKeepsPlaces := by
    unfold Yard.abortNudge
    split
    · exact ((stayCarriage _ _).trans (setNudge _ _ _)).toKeepsPlaces.trans ((releaseSegmentsPlaces _ _).trans
        (judgeHoldoff handStorm _).toKeepsPlaces)
    · exact (refl _).toKeepsPlaces
  railFits := fun f => f.abortNudge c

/-! ### The onsets of a storm -/

theorem exposedFollows (k : Keeps y z) : Keeps y (y.exposedFollows z) := followWith handStorm 13 k

theorem onTable_open {y : Yard} {r : Nat} (h : y.onTable r = true) : (y.row r).custody = .open := by
  simp only [Yard.onTable, Bool.and_eq_true, beq_iff_eq] at h
  exact h.1

theorem exposeRow (r : Nat) (y : Yard) : Keeps y (y.exposeRow r) := by
  unfold Yard.exposeRow
  refine ite (fun h => ?_) fun _ => refl _
  have k : Keeps y (y.setRow r fun w => { w with custody := .exposed }) := by
    refine setRowAt _ _ _ (fun k => ?_) fun _ _ h => h
    rw [Row.holderFits, onTable_open h] at k
    exact k
  exact exposedFollows (k.trans ((notify _ _ _ _ _).trans (countStorm _ _)))

theorem judgeAllStowed (y : Yard) : Keeps y y.judgeAllStowed := by
  unfold Yard.judgeAllStowed
  exact ite (fun _ => followWith handStorm 11 (changeStorm _ _ _ _ fun _ => rfl)) fun _ => refl _

theorem endQueue (y : Yard) : Keeps y y.endQueue where
  toKeepsPlaces := KeepsPlaces.foldl (fun z t => (abortTransferPlaces t z).trans (judgeHoldoff handStorm _).toKeepsPlaces) _
    (refl y).toKeepsPlaces
  railFits := fun f => f.endQueue

theorem stopDeadline (y : Yard) : Keeps y y.stopDeadline := withStorm y _ fun h => h

theorem judgeTablesClear (y : Yard) : Keeps y y.judgeTablesClear := by
  unfold Yard.judgeTablesClear
  exact ite (fun _ => (stopDeadline _).trans ((changeStorm _ _ _ _ fun _ => rfl).trans
    ((endQueue _).trans (judgeAllStowed _)))) fun _ => refl _

theorem deadlineExpires (y : Yard) : Keeps y y.deadlineExpires :=
  (stopDeadline y).trans ((countStorm _ _).trans ((changeStorm _ _ _ _ fun _ => rfl).trans
    ((overRows _ fun r z => exposeRow r z).trans ((endQueue _).trans (judgeAllStowed _)))))

/-- What the onset does to the entries of the queue, one after another. -/
theorem recallQueue (y : Yard) : Keeps y (y.rail.queue.foldl (fun z t => Yard.recallTransfer t z) y) where
  toKeepsPlaces := by
    refine KeepsPlaces.foldl (fun z t => ?_) _ (refl y).toKeepsPlaces
    unfold Yard.recallTransfer
    split
    · exact (abortTransferPlaces _ _).trans (judgeHoldoff handStorm _).toKeepsPlaces
    · exact (refl _).toKeepsPlaces
  railFits := fun f => f.recallQueue

theorem recallRow (r : Nat) (y : Yard) : Keeps y (y.recallRow r) := by
  unfold Yard.recallRow
  split
  case h_4 => exact ite (fun _ => stowRow _ _) fun _ => refl _
  all_goals first | exact stowRow _ _ | exact refl _

theorem recallRobot (k : Nat) (y : Yard) : Keeps y (y.recallRobot k) := by
  unfold Yard.recallRobot
  split
  · exact ite (fun _ => sendHome _ _ _) fun _ => refl _
  · exact refl _

theorem recordRecall (y : Yard) (cause : StormCause) (lane : Option CauseLane) : Keeps y (y.recordRecall cause lane) := by
  unfold Yard.recordRecall
  exact trans (withStorm y { y.storm with recallCause := cause, recallLane := lane } fun h => h) (countStorm _ _)

/-- What a recall that begins keeps of the yard right after its record has been written. -/
theorem recallSteps (cause : StormCause) (lane : Option CauseLane) {y : Yard} (h : y.mild = true) :
    Keeps ((y.changeStorm .recall cause lane).recordRecall cause lane) (y.beginRecall cause lane) := by
  unfold Yard.beginRecall
  rw [if_pos h]
  dsimp only
  generalize (y.changeStorm .recall cause lane).recordRecall cause lane = y₁
  have k₃ : Keeps y₁ (y₁.emptyList.rail.queue.foldl (fun z t => Yard.recallTransfer t z) y₁.emptyList) :=
    (emptyList _).trans (recallQueue _)
  generalize y₁.emptyList.rail.queue.foldl (fun z t => Yard.recallTransfer t z) y₁.emptyList = y₃ at k₃ ⊢
  have k₅ := k₃.trans ((overCarriages y₃ fun c z => abortNudge c z).trans
    ((overRows _ fun r z => recallRow r z).trans (overRobots _ fun k z => recallRobot k z)))
  exact ite (fun _ => k₅.trans (judgeTablesClear _)) fun _ => k₅.trans (withStorm _ _ fun h => h)

theorem beginRecall (cause : StormCause) (lane : Option CauseLane) (y : Yard) : Keeps y (y.beginRecall cause lane) := by
  by_cases h : y.mild = true
  · exact (changeStorm y .recall cause lane fun _ => rfl).trans ((recordRecall _ _ _).trans (recallSteps cause lane h))
  · rw [Yard.beginRecall, if_neg h]
    exact refl y

/-- A cause of recall leaves the storm on. -/
theorem beginRecall_storm (cause : StormCause) (lane : Option CauseLane) (y : Yard) :
    (y.beginRecall cause lane).mild = false := by
  by_cases h : y.mild = true
  · exact (recallSteps cause lane h).stormLasts rfl
  · rw [Yard.beginRecall, if_neg h]
    simpa using h

theorem stowEdge (lane : CauseLane) (y : Yard) : Keeps y (y.stowEdge lane) := beginRecall _ _ _

theorem handQuiet (e : Edge) (ls : List Nat) (y : Yard) : Keeps y (y.handQuiet e ls) := handWith stowEdge refl e ls y

end Sys2Proof.Machine.Keeps
end

