-- ==== Sys2Proof/Laws/KeepsRail.lean ====
section
/-! SUPPORT. What the arbiter, transfer requests, claims, the assignment attempt, recharge sends and the end of an event
keep: the chain of `Keeps` goes on. -/

-- One proof after another: the package as one text would ask for too many threads at once.
set_option Elab.async false

namespace Sys2Proof.Machine.Keeps

variable {y z : Yard}

/-! ### Phases and grants -/

theorem startPhasePlaces (y : Yard) (tag c : Nat) (phase : Phase) (o : CarriageOrder) :
    KeepsPlaces y (y.startPhase tag c phase o) := (setTransferPlaces _ _ _).trans (orderCarriagePlaces _ _ _)

theorem carryOnPlaces (y : Yard) (t : Transfer) (c : Nat) : KeepsPlaces y (y.carryOn t c) := by
  unfold Yard.carryOn
  split <;> exact startPhasePlaces _ _ _ _ _

/-- The first phase is one with an order other than STAY, and a GOTO goes to the source or the destination (R63). -/
theorem firstPhase_starts (y : Yard) (t : Transfer) (c : Nat) : ∃ phase o, y.firstPhase t c = y.startPhase t.tag c phase o ∧
    phase ≠ .waiting ∧ o ≠ .stay ∧
    ∀ x, o = .goto x → x = y.destinationPosition t ∨ x = (y.placePosition t.source).getD 0 := by
  have carry : ∃ phase o, y.carryOn t c = y.startPhase t.tag c phase o ∧ phase ≠ .waiting ∧ o ≠ .stay ∧
      ∀ x, o = .goto x → x = y.destinationPosition t ∨ x = (y.placePosition t.source).getD 0 := by
    unfold Yard.carryOn
    split
    · exact ⟨_, _, rfl, by simp, by simp, by simp⟩
    · exact ⟨_, _, rfl, by simp, by simp, fun x h => .inl (CarriageOrder.goto.inj h).symm⟩
  unfold Yard.firstPhase
  split
  · exact carry
  · dsimp only
    split
    · exact ⟨_, _, rfl, by simp, by simp, by simp⟩
    · exact ⟨_, _, rfl, by simp, by simp, fun x h => .inr (CarriageOrder.goto.inj h).symm⟩

/-- A grant (R63): the carriage chosen stands at a known position, and the span, which is free and in which no other carriage
stands, covers the source and the destination. -/
theorem grant (y : Yard) (t : Transfer) (c p q : Nat) (ht : t ∈ y.rail.queue) (hw : t.phase = .waiting)
    (hp : (y.carriage c).position = some p) (hq : y.placePosition t.source = some q)
    (hs : y.spanFree (spanOver p [q, y.destinationPosition t]) = true)
    (h : y.othersInside (spanOver p [q, y.destinationPosition t]) c = []) :
    Keeps y (y.grant t c (spanOver p [q, y.destinationPosition t])) := by
  unfold Yard.grant
  refine trans ?_ (judgeHoldoff handQuiet _)
  generalize hsp : spanOver p [q, y.destinationPosition t] = sp at hs h ⊢
  have places : KeepsPlaces y (((y.setTransfer t.tag fun x => { x with carriage := some c, span := some sp }).reserveSpan sp c
      (.transfer t.tag)).setCarriage c fun w => { w with task := some (.transfer t.tag) }) :=
    (setTransferPlaces y _ _).trans (KeepsPlaces.trans (reserveSpanPlaces (y.setTransfer t.tag fun x => { x with
      carriage := some c, span := some sp }) _ _ _ h) (setCarriagePlaces _ _ _))
  have source : (((y.setTransfer t.tag fun x => { x with carriage := some c, span := some sp }).reserveSpan sp c
      (.transfer t.tag)).setCarriage c fun w => { w with task := some (.transfer t.tag) }).placePosition t.source = some q := by
    rw [← hq]
    unfold Yard.placePosition Yard.dockPosition
    rw [places.settings]
    cases t.source <;> simp [position_of places.positions]
  obtain ⟨phase, o, e, hph, ho, hx⟩ := firstPhase_starts (((y.setTransfer t.tag fun x => { x with
    carriage := some c, span := some sp }).reserveSpan sp c (.transfer t.tag)).setCarriage c fun w => { w with
      task := some (.transfer t.tag) }) t c
  rw [source] at hx
  rw [e]
  refine ⟨places.trans (startPhasePlaces _ _ _ _ _), fun f => f.grantPhase ht hw hp hs hph ho ?_ fun x hox => ?_⟩
  · exact hsp ▸ Yard.railFits.spanOver_has (by simp)
  · have := hx x hox
    rw [Yard.destinationPosition_fixed (y := y) (t := t) places.settings rfl (f.destinationsFixed t ht)] at this
    rcases this with rfl | rfl
    · exact hsp ▸ Yard.railFits.spanOver_has (by simp)
    · exact hsp ▸ Yard.railFits.spanOver_has (by simp)

/-- A nudge is ordered for a carriage at position `p` whose path, free and without other carriages, leads to its target. -/
theorem orderNudge (y : Yard) (i p target : Nat) (hp : (y.carriage i).position = some p)
    (hs : y.spanFree (spanOver p [target]) = true) (h : y.othersInside (spanOver p [target]) i = []) :
    Keeps y (y.orderNudge i target (spanOver p [target])) := by
  unfold Yard.orderNudge
  refine trans ?_ (judgeHoldoff handQuiet _)
  exact {
    toKeepsPlaces := (reserveSpanPlaces y _ _ _ h).trans ((setCarriagePlaces _ _ _).trans
      ((orderCarriagePlaces _ _ _).trans (setNudge _ _ _).toKeepsPlaces))
    railFits := fun f => f.orderNudge hp hs (Yard.railFits.spanOver_has (by simp)) _ }

/-- A move that passes its checks has a free path over which no other carriage stands (R65). -/
theorem nudgeMove_clear {y : Yard} {sp path : Span} {c i target : Nat} (h : y.nudgeMove sp c i = some (target, path)) :
    ∃ p, (y.carriage i).position = some p ∧ path = spanOver p [target] ∧ y.spanFree path = true ∧
      y.othersInside path i = [] := by
  unfold Yard.nudgeMove at h
  split at h
  · rename_i p _ hp _
    simp only at h
    split at h
    · rename_i hc
      simp only [Option.some.injEq, Prod.mk.injEq] at h
      obtain ⟨rfl, rfl⟩ := h
      simp only [Bool.and_eq_true, List.isEmpty_iff] at hc
      exact ⟨p, hp, rfl, hc.1.2, hc.2⟩
    · cases h
  · cases h

theorem nudgeFirst (y : Yard) (sp : Span) (c : Nat) (l : List Nat) : Keeps y (y.nudgeFirst sp c l) := by
  induction l with
  | nil => exact refl y
  | cons i rest ih =>
    unfold Yard.nudgeFirst
    split
    · obtain ⟨p, hp, rfl, hs, hc⟩ := nudgeMove_clear ‹_›
      exact orderNudge _ _ _ _ hp hs hc
    · exact ih

theorem blockedNudge (y : Yard) (c : Nat) (sp : Span) : Keeps y (y.blockedNudge c sp) := by
  unfold Yard.blockedNudge
  exact ite (fun _ => nudgeFirst _ _ _ _) fun _ => refl _

/-! ### The arbiter pass -/

/-- The span of an entry with its chosen carriage covers its source and its destination from the carriage on (R59). -/
theorem candidateSpan_chosen {y : Yard} {t : Transfer} {c : Nat} {sp : Span} (h : y.candidateSpan t (some c) = some sp) :
    ∃ p q, (y.carriage c).position = some p ∧ y.placePosition t.source = some q ∧
      sp = spanOver p [q, y.destinationPosition t] := by
  unfold Yard.candidateSpan at h
  split at h
  · cases h
  · rename_i q hq
    dsimp only at h
    split at h
    · rename_i p hp
      exact ⟨p, q, hp, hq, (Option.some.inj h).symm⟩
    · cases h

theorem judgeTransfer (y : Yard) (held : List Span) (t : Transfer) (ht : t ∈ y.rail.queue) (hw : t.phase = .waiting) :
    Keeps y (y.judgeTransfer held t).1 := by
  unfold Yard.judgeTransfer
  dsimp only
  split
  · exact refl _
  · exact refl _
  · exact refl _
  · rename_i c sp hch hsp
    split
    · exact refl _
    · split
      · rename_i hc
        simp only [Bool.and_eq_true, List.isEmpty_iff] at hc
        rw [hch] at hsp
        obtain ⟨p, q, hp, hq, rfl⟩ := candidateSpan_chosen hsp
        exact grant _ _ _ _ _ ht hw hp hq hc.1.1 hc.1.2
      · exact blockedNudge _ _ _

theorem walkTransfers (l : List Nat) (held : List Span) (y : Yard) : Keeps y (y.walkTransfers held l) := by
  induction l generalizing y held with
  | nil => exact refl y
  | cons tag rest ih =>
    unfold Yard.walkTransfers
    split
    · rename_i t ht
      exact ite (fun hw => (judgeTransfer _ _ _ (List.mem_of_find?_eq_some ht) hw).trans (ih _ _)) fun _ => ih _ _
    · exact ih _ _

theorem arbiterPass (y : Yard) : Keeps y y.arbiterPass := by
  unfold Yard.arbiterPass
  exact ite (fun _ => walkTransfers _ _ _) fun _ => refl _

theorem hand (e : Edge) (ls : List Nat) (y : Yard) : Keeps y (y.hand e ls) := handWith stowEdge arbiterPass e ls y

theorem pulse (src : Nat) (y : Yard) : Keeps y (y.pulse src) := pulseWith hand src y

theorem passAfter (caused : Bool) (x : Yard) (k : Keeps y z) : Keeps y (x.passAfter caused z) := by
  unfold Yard.passAfter
  exact ite (fun _ => k.trans (arbiterPass _)) fun _ => k

/-! ### Transfer requests -/

/-- Giving up a row changes no entry of the queue but its link. -/
theorem giveUpRow_queue (y : Yard) (k : Nat) : (y.giveUpRow k).rail.queue.length = y.rail.queue.length := by
  simpa using congrArg List.length (RailSame.giveUpRow y k).queue

/-- From a number on, one of the next numbers modulo 256 is held by no entry, where there are fewer entries than numbers: the
search finds it (R51). -/
theorem freshTag_free (y : Yard) (h : y.rail.queue.length < 255) (n : Nat) : y.transferOf (y.freshTag 256 n) = none := by
  have walk : ∀ fuel m, m < 256 → (∃ i, i < fuel ∧ y.transferOf ((m + i) % 256) = none) →
      y.transferOf (y.freshTag fuel m) = none := by
    intro fuel
    induction fuel with
    | zero => intro m _ ⟨i, hi, _⟩; omega
    | succ fuel ih =>
      intro m hm ⟨i, hi, e⟩
      unfold Yard.freshTag
      split
      · rename_i hs
        refine ih _ (Nat.mod_lt _ (by omega)) ⟨i - 1, ?_, ?_⟩
        · have : i ≠ 0 := by
            rintro rfl
            rw [Nat.add_zero, Nat.mod_eq_of_lt hm] at e
            simp [e] at hs
          omega
        · have : i ≠ 0 := by
            rintro rfl
            rw [Nat.add_zero, Nat.mod_eq_of_lt hm] at e
            simp [e] at hs
          rw [Nat.mod_add_mod, show m + 1 + (i - 1) = m + i by omega]
          exact e
      · rename_i hs
        simpa using hs
  have room : ∀ m, ∃ i, i < 255 ∧ y.transferOf ((m + i) % 256) = none := by
    intro m
    by_contra hc
    simp only [not_exists, not_and] at hc
    have sub : (List.range 255).map (fun i => (m + i) % 256) ⊆ y.rail.queue.map (·.tag) := by
      intro v hv
      obtain ⟨i, hi, rfl⟩ := List.mem_map.1 hv
      have := hc i (List.mem_range.1 hi)
      obtain ⟨t, e⟩ := Option.ne_none_iff_exists'.1 this
      exact List.mem_map.2 ⟨t, List.mem_of_find?_eq_some e, by simpa using List.find?_some e⟩
    have nod : ((List.range 255).map fun i => (m + i) % 256).Nodup :=
      List.Nodup.map_on (fun a ha b hb e => by
        rw [List.mem_range] at ha hb
        omega) List.nodup_range
    have := (List.subperm_of_subset nod sub).length_le
    simp only [List.length_map, List.length_range] at this
    omega
  unfold Yard.freshTag
  split
  · obtain ⟨i, hi, e⟩ := room ((n + 1) % 256)
    exact walk 255 _ (Nat.mod_lt _ (by omega)) ⟨i, hi, e⟩
  · rename_i hs
    simpa using hs

theorem reservePlace_queue (y : Yard) (pl : Place) (t : Option Nat) : (y.reservePlace pl t).rail = y.rail := by
  unfold Yard.reservePlace
  split <;> rfl

theorem appendTransfer (y : Yard) (o : TransferOrigin) (p : Purpose) (k : Nat) (d : Place) (link : Option Nat) (tag : Nat)
    (h : y.rail.queue.length < 8) (hd : ∀ c, d ≠ .aboard c) (hn : y.transferOf tag = none) :
    Keeps y (y.appendTransfer o p k d link tag) := by
  unfold Yard.appendTransfer
  dsimp only
  refine trans ((giveUpRow y k).trans (reservePlace _ d (some tag))) (trans ?_ (setRobot _ _ fun _ => ⟨rfl, rfl⟩))
  have s : RailSame y ((y.giveUpRow k).reservePlace d (some tag)) :=
    (RailSame.giveUpRow y k).trans (.reservePlace _ _ _)
  generalize (y.giveUpRow k).reservePlace d (some tag) = z at s ⊢
  have len : z.rail.queue.length = y.rail.queue.length := by simpa using congrArg List.length s.queue
  exact {
    toKeepsCore := { (refl z).toKeepsCore with
      queueFits := fun _ => by
        simp only [Yard.queueFits, List.length_append, List.length_cons, List.length_nil]
        omega }
    positions := rfl
    positionsFree := id
    railFits := fun f => {
      rowsOnRail := f.rowsOnRail
      positionsOnRail := f.positionsOnRail
      carriagesAbsent := f.carriagesAbsent
      tagsDistinct := by
        rw [List.map_append, List.nodup_append]
        refine ⟨f.tagsDistinct, by simp, fun a ha b hb => ?_⟩
        obtain ⟨t, mt, rfl⟩ := List.mem_map.1 ha
        obtain ⟨u, mu, eu⟩ := s.symm.entry mt
        simp only [List.map_cons, List.map_nil, List.mem_singleton] at hb
        rintro rfl
        have e : u.tag = t.tag := congrArg Prod.fst eu
        have := List.find?_eq_none.1 hn u mu
        simp [e, hb] at this
      destinationsFixed := fun t ht => by
        rcases List.mem_append.1 ht with ht | ht
        · exact f.destinationsFixed t ht
        · rw [List.mem_singleton.1 ht]
          exact hd
      carriagesFit := fun c => (f.carriagesFit c).of rfl f.destinationsFixed rfl rfl rfl (.of_segments rfl c)
        fun t mt _ ct pt => ⟨t, List.mem_append_left _ mt, rfl, ct, pt, rfl⟩ } }

/-- A request that no check refuses finds room in the queue (R54, check 8). -/
theorem transferRefusal_room (y : Yard) (o : TransferOrigin) (k : Nat) (d : Place)
    (h : y.transferRefusal o k d = none) : y.rail.queue.length < 8 := by
  unfold Yard.transferRefusal at h
  dsimp only at h
  by_contra hc
  have h8 : 8 ≤ y.rail.queue.length := Nat.le_of_not_lt hc
  simp only [h8, true_or, if_true] at h
  repeat' split at h
  all_goals simp at h

/-- The destination of a request that no check refuses is a garage or a dock (R54, check 7). -/
theorem transferRefusal_fixed (y : Yard) (o : TransferOrigin) (k : Nat) (d : Place)
    (h : y.transferRefusal o k d = none) (c : Nat) : d ≠ .aboard c := by
  rintro rfl
  unfold Yard.transferRefusal at h
  dsimp only [Yard.destinationFree] at h
  repeat' split at h
  all_goals simp_all

theorem requestTransfer {pass : Yard → Yard} (hp : ∀ y, Keeps y (pass y)) (y : Yard) (o : TransferOrigin) (p : Purpose)
    (k : Nat) (d : Place) (link : Option Nat) : Keeps y (y.requestTransfer pass o p k d link).1 := by
  unfold Yard.requestTransfer
  split
  · exact refl _
  · rename_i h
    have room := transferRefusal_room _ _ _ _ h
    exact (appendTransfer _ _ _ _ _ _ _ room (transferRefusal_fixed _ _ _ _ h) (freshTag_free _ (by omega) _)).trans
      ((judgeHoldoff handQuiet _).trans (hp _))

/-! ### Failure and completion -/

/-- A carriage that has failed has no task. -/
theorem failed_task (y : Yard) (c : Nat) : (((y.carriageFaults c).keepSegmentsFaulted c).carriage c).task = none := by
  show ((y.setCarriage c fun w => { w with fault := true, order := none, task := none }).carriage c).task = none
  simp only [Yard.carriage, Yard.setCarriage_carriages, List.getD_eq_getElem?_getD, List.getElem?_modify, if_true]
  cases y.carriages[c]? <;> simp [freshCarriage]

theorem failed_other (y : Yard) {c i : Nat} (h : i ≠ c) :
    ((y.carriageFaults c).keepSegmentsFaulted c).carriage i = y.carriage i :=
  Yard.railFits.carriage_setCarriage y c i _ h

theorem failCarriage (y : Yard) (c : Nat) (result : TransferResult) : Keeps y (y.failCarriage c result) := by
  unfold Yard.failCarriage
  have base := (carriageFaults y c).trans (keepSegmentsFaulted _ c)
  dsimp only
  split
  · rename_i tag htask
    split
    · rename_i t ht
      refine trans ?_ (judgeHoldoff hand _)
      refine ⟨base.toKeepsPlaces.trans (closeTransferPlaces _ _ _), fun f => (base.railFits f).closeTransfer _ fun i e => ?_⟩
      have tt : t.tag = tag := by simpa using List.find?_some ht
      have mt : t ∈ y.rail.queue := List.mem_of_find?_eq_some ht
      by_cases hi : i = c
      · subst hi
        rw [failed_task] at e
        cases e
      · rw [failed_other y hi] at e
        have := (f.linked_carriage mt e).symm.trans (f.linked_carriage mt (tt ▸ htask))
        exact hi (Option.some.inj this)
    · exact base
  · exact base.trans ((setNudge _ _ _).trans (judgeHoldoff hand _))
  · exact base

theorem completeNudgePlaces (y : Yard) (c : Nat) : KeepsPlaces y (y.completeNudge c) :=
  (setNudge y c none).toKeepsPlaces.trans ((releaseSegmentsPlaces _ _).trans ((setCarriagePlaces _ _ _).trans
    ((judgeHoldoff handQuiet _).trans (arbiterPass _)).toKeepsPlaces))

theorem completeTransferPlaces (y : Yard) (t : Transfer) (c : Nat) : KeepsPlaces y (y.completeTransfer t c) :=
  (releaseSegmentsPlaces y c).trans ((setCarriagePlaces _ _ _).trans ((closeTransferPlaces _ _ _).trans
    ((judgeHoldoff handQuiet _).trans (arbiterPass _)).toKeepsPlaces))

theorem carriageCompletedPlaces (y : Yard) (c : Nat) : KeepsPlaces y (y.carriageCompleted c) := by
  unfold Yard.carriageCompleted
  split
  · split
    · split
      · exact startPhasePlaces _ _ _ _ _
      · exact carryOnPlaces _ _ _
      · exact startPhasePlaces _ _ _ _ _
      · exact completeTransferPlaces _ _ _
      · exact (refl _).toKeepsPlaces
    · exact (refl _).toKeepsPlaces
  · exact completeNudgePlaces _ _
  · exact (arbiterPass _).toKeepsPlaces

/-- A completion passed on with the carriage's task leaves the law of the rail, where the task was the carriage's own. -/
theorem carriageCompleted_rail {y : Yard} {c : Nat} (b : Yard.railFits.between y c) : (y.carriageCompleted c).railFits := by
  obtain ⟨f, ho, hl⟩ := b
  unfold Yard.carriageCompleted
  split
  · rename_i tag htask
    obtain ⟨t, mt, rfl, ct, pt, p, hp, hd⟩ := hl tag htask
    split
    · rename_i u hu
      have e : u = t := List.inj_on_of_nodup_map f.tagsDistinct (List.mem_of_find?_eq_some hu) mt
        (by simpa using List.find?_some hu)
      subst e
      split
      · exact Yard.railFits.startPhase f mt ct htask hp hd (by simp) (by simp) (by simp)
      · exact Yard.railFits.carryOn f mt ct htask hp hd
      · exact Yard.railFits.startPhase f mt ct htask hp hd (by simp) (by simp) (by simp)
      · exact ((judgeHoldoff handQuiet _).trans (arbiterPass _)).railFits (Yard.railFits.completesTransfer f mt ct ho)
      · exact absurd ‹_› pt
    · rename_i hn
      have := List.find?_eq_none.1 hn t mt
      simp at this
  · unfold Yard.completeNudge
    exact ((judgeHoldoff handQuiet _).trans (arbiterPass _)).railFits (Yard.railFits.endsWork (f.same (.setNudge y c none)) ho)
  · rename_i hn
    exact (arbiterPass _).railFits (f.whole (Yard.railFits.idle_fits (fun x n => by rw [ho]; simp) hn))

/-! ### Claims and assignment -/

theorem takeClaim (y : Yard) (r k : Nat) : Keeps y (y.takeClaim r k) :=
  ite (fun _ => setRowAt _ _ _ (fun _ => rfl) fun _ _ h => h) fun _ => setRow _ _ _

theorem claimEntry (y : Yard) (e : Entry) (k : Nat) : Keeps y (y.claimEntry e k) := by
  unfold Yard.claimEntry
  split
  · exact unassign _ _
  · exact unassign _ _
  · exact refl _
  · exact ite (fun _ => (takeClaim _ _ _).trans (setEntry _ _ _)) fun _ =>
      (takeClaim _ _ _).trans ((givePass _ _ _ _).trans (setEntry _ _ _))

theorem judgeClaiming (y : Yard) (e : Entry) (k : Nat) : Keeps y (y.judgeClaiming e k) := by
  unfold Yard.judgeClaiming
  exact ite (fun _ => unassign _ _) fun _ => ite (fun _ => claimEntry _ _ _) fun _ => refl _

theorem assignEntry (y : Yard) (r k : Nat) (stage : Stage) : Keeps y (y.assignEntry r k stage) := by
  unfold Yard.assignEntry
  exact ite (fun _ => (setEntry _ _ _).trans (setRobot _ _ fun _ => ⟨rfl, rfl⟩)) fun _ => refl _

variable {pass : Yard → Yard}

theorem judgeWaiting (hp : ∀ y, Keeps y (pass y)) (y : Yard) (full : Bool) (e : Entry) :
    Keeps y (y.judgeWaiting pass full e).1 := by
  unfold Yard.judgeWaiting
  dsimp only
  split
  · split
    · exact refl _
    · split
      · exact (assignEntry _ _ _ _).trans (judgeClaiming _ _ _)
      · split
        · exact refl _
        · have base := fun k => requestTransfer hp y .round .round k (.garage e.row) (some e.row)
          split
          · exact (base _).trans (assignEntry _ _ _ _)
          · exact base _
          · exact base _
  · exact refl _

theorem judgeEntry (hp : ∀ y, Keeps y (pass y)) (y : Yard) (full : Bool) (e : Entry) :
    Keeps y (y.judgeEntry pass full e).1 := by
  unfold Yard.judgeEntry
  split
  · exact judgeWaiting hp _ _ _
  · exact judgeClaiming _ _ _
  · exact refl _

theorem walkList (hp : ∀ y, Keeps y (pass y)) (fuel : Nat) (full : Bool) (judged : List Nat) (y : Yard) :
    Keeps y (Yard.walkList pass fuel full judged y) := by
  induction fuel generalizing full judged y with
  | zero => exact refl y
  | succ n ih =>
    unfold Yard.walkList
    split
    · exact refl _
    · exact (judgeEntry hp _ _ _).trans (ih _ _ _)

theorem assignAttempt (hp : ∀ y, Keeps y (pass y)) (y : Yard) : Keeps y (y.assignAttempt pass) := by
  unfold Yard.assignAttempt
  exact ite (fun _ => walkList hp _ _ _ _) fun _ => refl _

theorem rechargeRobot (hp : ∀ y, Keeps y (pass y)) (y : Yard) (k : Nat) : Keeps y (y.rechargeRobot pass k).1 := by
  unfold Yard.rechargeRobot
  split
  · split
    · exact refl _
    · split
      · exact refl _
      · have base := fun d => requestTransfer hp y .round .recharge k (.dock d) none
        dsimp only
        split
        · dsimp only
          exact (base _).trans (countRounds _ _)
        · exact base _
        · exact base _
  · exact refl _

theorem rechargeWalk (hp : ∀ y, Keeps y (pass y)) (l : List Nat) (y : Yard) : Keeps y (y.rechargeWalk pass l) := by
  induction l generalizing y with
  | nil => exact refl y
  | cons k rest ih =>
    unfold Yard.rechargeWalk
    exact ite (fun _ => rechargeRobot hp _ _) fun _ => (rechargeRobot hp _ _).trans (ih _)

theorem rechargeTry (hp : ∀ y, Keeps y (pass y)) (y : Yard) : Keeps y (y.rechargeTry pass) := by
  unfold Yard.rechargeTry
  exact ite (fun _ => rechargeWalk hp _ _) fun _ => refl _

/-! ### The end of an event -/

theorem clearAssign (y : Yard) : Keeps y { y with assign := false } := same

theorem finishWith (hp : ∀ y, Keeps y (pass y)) (y : Yard) : Keeps y (y.finishWith pass) := by
  unfold Yard.finishWith
  exact ite (fun _ => (assignAttempt hp y).trans ((rechargeTry hp _).trans (clearAssign _))) fun _ => refl _

theorem finish (y : Yard) : Keeps y y.finish := finishWith arbiterPass y

end Sys2Proof.Machine.Keeps
end

