-- ==== Sys2Proof/Laws/KeepsEvents.lean ====
section
/-! SUPPORT. What the reports, requests and expiries of the yard keep: the chain of `Keeps` ends here, at the functions
that the meanings call. -/

-- One proof after another: the package as one text would ask for too many threads at once.
set_option Elab.async false

namespace Sys2Proof.Machine

namespace Keeps

variable {y z : Yard}

theorem takeRaiseAlert (p : Port) (y : Yard) : Keeps y (y.takeRaiseAlert p).1 := pulse _ _

/-! ### Rows -/

/-- A row goes from one custody to another of which both, or neither, have a holder; its holder stands. -/
theorem setCustody (y : Yard) (r : Nat) (f : Row → Row)
    (hc : (f (y.row r)).custody.hasHolder = (y.row r).custody.hasHolder)
    (hh : ∀ w, (f w).holder = w.holder := by exact fun _ => rfl)
    (ho : ∀ w, (f w).garageOccupant = w.garageOccupant := by exact fun _ => rfl) : Keeps y (y.setRow r f) :=
  setRowAt y r f (by rw [Row.holderFits, Row.holderFits, hh, hc]; exact id) fun w k h => by rwa [ho] at h

theorem endFlattenFlat (y : Yard) (r : Nat) (h : (y.row r).custody = .flattening) : Keeps y (y.endFlattenFlat r) := by
  have k : Keeps y (y.setRow r fun w => { w with custody := .open, timer := none }) :=
    setCustody _ _ _ (by rw [h]; rfl)
  unfold Yard.endFlattenFlat
  dsimp only
  split
  · exact k.trans ((givePass _ _ _ _).trans (setEntry _ _ _))
  · exact k

theorem settleClaimed (y : Yard) (r : Nat) : Keeps y (y.settleClaimed r) := by
  unfold Yard.settleClaimed
  exact ite (fun _ => settleRow _ _) fun _ => refl _

theorem barByFault (y : Yard) (r : Nat) : Keeps y (y.barByFault r) := by
  unfold Yard.barByFault
  dsimp only
  refine trans ?_ (removeEntry _ _)
  split
  · refine ite (fun _ => ?_) fun _ => settleClaimed _ _
    split
    · exact (settleClaimed _ _).trans (sendHome _ _ _)
    · exact settleClaimed _ _
  · exact settleClaimed _ _

theorem completeStow (y : Yard) (r : Nat) : Keeps y (y.completeStow r) := by
  unfold Yard.completeStow
  split
  · exact (setCustody _ _ _ (by simp only [‹(y.row r).custody = _›]; rfl)).trans (judgeAllStowed _)
  · exact setRow _ _ _
  · exact refl _

theorem postureEffect (y : Yard) (r : Nat) (p : Posture) : Keeps y (y.postureEffect r p) := by
  unfold Yard.postureEffect
  split
  · exact ite (fun h => endFlattenFlat _ _ h) fun _ => refl _
  · exact barByFault _ _
  · exact completeStow _ _
  all_goals exact refl _

theorem takePostureReport (body : List Byte) (y : Yard) : Keeps y (y.takePostureReport body).1 := by
  unfold Yard.takePostureReport
  dsimp only
  split
  · split
    · exact (setRow _ _ _).trans (postureEffect _ _ _)
    · exact refl _
  · exact refl _

theorem barByFence (x : Yard) (r : Nat) (y : Yard) : Keeps y (x.barByFence r y) := by
  unfold Yard.barByFence
  exact ite (fun _ => (settleClaimed _ _).trans (removeEntry _ _)) fun _ => refl _

theorem flattenExpires (r : Nat) (y : Yard) : Keeps y (y.flattenExpires r) := by
  unfold Yard.flattenExpires
  exact ite (fun _ => (settleRow _ _).trans ((notify _ _ _ _ _).trans (removeEntry _ _))) fun _ => refl _

theorem holdExpires (r : Nat) (y : Yard) : Keeps y (y.holdExpires r) := by
  unfold Yard.holdExpires
  exact ite (fun _ => settleRow _ _) fun _ => refl _

theorem settleExpires (r : Nat) (y : Yard) : Keeps y (y.settleExpires r) := by
  unfold Yard.settleExpires
  exact ite (fun h => (setCustody _ _ _ (by simp only [h.1]; rfl)).trans (giveAssign _)) fun _ => refl _

theorem stowExpires (r : Nat) (y : Yard) : Keeps y (y.stowExpires r) := by
  unfold Yard.stowExpires
  exact ite (fun h => (setCustody _ _ _ (by simp only [h.1]; rfl)).trans ((notify _ _ _ _ _).trans (judgeAllStowed _)))
    fun _ => refl _

theorem minutePasses (y : Yard) : Keeps y y.minutePasses :=
  mapRows y (fun w => { w with age := bump w.age }) (fun _ => ⟨rfl, rfl⟩) fun _ => rfl

/-! ### Fleet reports -/

theorem touchRobot (y : Yard) (k : Nat) : Keeps y (y.touchRobot k) := setRobot _ _ fun _ => ⟨rfl, rfl⟩

theorem refuseReport (y : Yard) (reason : Reason) : Keeps y (y.refuseReport reason).1 := countRefused y

theorem staleReport (y : Yard) : Keeps y y.staleReport.1 := countStale y

theorem passResult (y : Yard) (r : Nat) (kind : PassKind) (m : Nat) : Keeps y (y.passResult r kind m) := by
  unfold Yard.passResult
  split <;> exact setRow _ _ _

theorem holderArrives (y : Yard) (r k : Nat) : Keeps y (y.holderArrives r k) := by
  unfold Yard.holderArrives
  split
  · split
    · exact ite (fun _ => ite (fun _ => setRow _ _ _) fun _ => settleRow _ _) fun _ => stowRow _ _
    · exact exposedFollows (stowRow _ _)
    · exact refl _
  · exact refl _

theorem followUp (y : Yard) (r m : Nat) : Keeps y (y.followUp r m) := by
  unfold Yard.followUp
  exact ite (fun h => insertHead _ _ (by simpa using h.2.2.2)) fun _ => refl _

theorem passDone (y : Yard) (r k : Nat) (kind : PassKind) (m : Nat) : Keeps y (y.passDone r k kind m) := by
  unfold Yard.passDone
  dsimp only
  refine trans ?_ (giveAssign _)
  have k₁ : Keeps y ((y.setPassTimer k none).countRounds fun n => { n with passesDone := bump n.passesDone }) :=
    (setPassTimer _ _ _).trans (countRounds _ _)
  generalize (y.setPassTimer k none).countRounds _ = y₁ at k₁ ⊢
  split <;> split
  · exact k₁.trans ((removeEntry _ _).trans (followUp _ _ _))
  · exact k₁.trans (followUp _ _ _)
  · exact k₁.trans (removeEntry _ _)
  · exact k₁

theorem passExpires (k : Nat) (y : Yard) : Keeps y (y.passExpires k) := by
  unfold Yard.passExpires
  split
  · dsimp only
    refine trans ?_ (sendHome _ _ _)
    refine trans ?_ (setRobot _ _ fun _ => ⟨rfl, rfl⟩)
    exact (notify _ _ _ _ _).trans (countRounds _ _)
  · exact refl _

theorem writeCharge (y : Yard) (k c : Nat) : Keeps y (y.writeCharge k c) := by
  unfold Yard.writeCharge
  dsimp only
  split
  · exact trans (setRobot _ _ (by intro; exact ⟨rfl, rfl⟩)) (restRobot _ _)
  · exact trans (setRobot _ _ (by intro; exact ⟨rfl, rfl⟩)) (restRobot _ _)
  · exact setRobot _ _ fun _ => ⟨rfl, rfl⟩

theorem robotLow (y : Yard) (k : Nat) : Keeps y (y.robotLow k) := by
  unfold Yard.robotLow
  dsimp only
  split
  · exact (pulse _ _).trans (rechargeTry arbiterPass _)
  · exact pulse _ _

theorem takeCharge (y : Yard) (k c : Nat) : Keeps y (y.takeCharge k c) := by
  unfold Yard.takeCharge
  exact ite (fun _ => (writeCharge _ _ _).trans (robotLow _ _)) fun _ => writeCharge _ _ _

theorem leaveRow (y : Yard) (k : Nat) (keep : Option Nat) : Keeps y (y.leaveRow k keep) :=
  ite (fun _ => refl _) fun _ => giveUpRow _ _

theorem leaveEntry (y : Yard) (k r : Nat) : Keeps y (y.leaveEntry k r) := by
  unfold Yard.leaveEntry
  split
  · exact ite (fun _ => refl _) fun _ => unassign _ _
  · exact refl _

theorem endOwnClaim (y : Yard) (k r : Nat) : Keeps y (y.endOwnClaim k r) := by
  unfold Yard.endOwnClaim
  split
  · exact ite (fun _ => removeEntry _ _) fun _ => refl _
  · exact refl _

theorem adopt (y : Yard) (r k : Nat) (c : Custody) (hc : c.hasHolder = true) : Keeps y (y.adopt r k c) := by
  have s : ∀ z : Yard, Keeps z
      (z.setRow r fun w => { w with custody := c, holder := some k, timer := none, unconfirmed := false }) :=
    fun z => setRowAt _ _ _ (fun _ => by simp [Row.holderFits, hc]) fun _ _ h => h
  unfold Yard.adopt
  dsimp only
  refine trans ?_ (judgeAllStowed _)
  refine trans ?_ (notify _ _ _ _ _)
  refine trans ?_ (setRobot _ _ fun _ => ⟨rfl, rfl⟩)
  refine trans ?_ (orderRobot _ _ _)
  refine trans ?_ (endOwnClaim _ _ _)
  refine trans ((leaveRow y k (some r)).trans (leaveEntry _ _ _)) (exposedFollows ?_)
  refine ite (fun _ => ?_) fun _ => (s _).trans (moveRobot _ _ _)
  exact (s _).trans ((moveRobot _ _ _).trans (countStorm _ _))

/-- An adoption gives a custody that has a holder (R24). -/
theorem adoptionCustody_hasHolder {y : Yard} {r k : Nat} {c : Custody} (h : y.adoptionCustody r k = some c) :
    c.hasHolder = true := by
  unfold Yard.adoptionCustody at h
  dsimp only at h
  repeat' split at h
  all_goals first
    | (cases h; done)
    | (rw [← Option.some.inj h]; rfl)

theorem putRobot (y : Yard) (k : Nat) (pl : Place) : Keeps y (y.putRobot k pl) := by
  unfold Yard.putRobot
  refine trans ?_ (restRobot _ _)
  refine trans ?_ (moveRobot _ _ _)
  exact (leaveRow _ _ _).trans (unassignRobot _ _)

theorem takeMove (y : Yard) (k : Nat) (pl : Place) : Keeps y (y.takeMove k pl) := by
  unfold Yard.takeMove
  split
  · split
    · exact adopt _ _ _ _ (adoptionCustody_hasHolder ‹_›)
    · exact refl _
  · exact putRobot _ _ _

theorem afterMove (x : Yard) (old : Place) (y : Yard) : Keeps y (x.afterMove old y) := by
  unfold Yard.afterMove
  dsimp only
  refine trans ?_ (judgeTablesClear _)
  split
  · exact passAfter _ _ (refl _)
  · exact refl _

theorem judgePlace (y : Yard) (k : Nat) (pl : Option Place) : Keeps y (y.judgePlace k pl).1 := by
  unfold Yard.judgePlace
  split
  · exact refuseReport _ _
  · dsimp only
    split
    · exact refuseReport _ _
    · split
      · exact refl _
      · split
        · exact refuseReport _ _
        · split
          · exact refuseReport _ _
          · exact (takeMove _ _ _).trans (afterMove _ _ _)

theorem takeRobotStatus (body : List Byte) (y : Yard) : Keeps y (y.takeRobotStatus body).1 := by
  unfold Yard.takeRobotStatus
  dsimp only
  split
  · exact refuseReport _ _
  · split
    · exact (touchRobot _ _).trans (refuseReport _ _)
    · exact (touchRobot _ _).trans ((takeCharge _ _ _).trans (judgePlace _ _ _))

theorem robotHome (y : Yard) (k r : Nat) (result : Option (PassKind × Nat)) : Keeps y (y.robotHome k r result) := by
  unfold Yard.robotHome
  dsimp only
  refine trans ?_ (judgeTablesClear _)
  have k₁ : Keeps y ((y.setRobot k fun b => { b with order := none, task := .idle }).moveRobot k (.garage r)) :=
    trans (setRobot _ _ (by intro; exact ⟨rfl, rfl⟩)) (moveRobot _ _ _)
  generalize (y.setRobot k _).moveRobot k (.garage r) = y₁ at k₁ ⊢
  split
  · exact k₁.trans ((passResult _ _ _ _).trans ((holderArrives _ _ _).trans (passDone _ _ _ _ _)))
  · exact k₁.trans (holderArrives _ _ _)

theorem robotCompletes (y : Yard) (k r : Nat) (result : Option (PassKind × Nat)) :
    Keeps y (y.robotCompletes k r result).1 := by
  unfold Yard.robotCompletes
  dsimp only
  split
  · exact refuseReport _ _
  · exact robotHome _ _ _ _

theorem robotOutcome (y : Yard) (k : Nat) (o : RobotOrder) (outcome data : Nat) :
    Keeps y (y.robotOutcome k o outcome data).1 := by
  unfold Yard.robotOutcome
  split
  · exact refuseReport _ _
  · split
    · exact robotCompletes _ _ _ _
    · exact robotCompletes _ _ _ _
    · exact refuseReport _ _

theorem refuseArrival (y : Yard) (c : Nat) : Keeps y (y.refuseArrival c).1 :=
  (failCarriage _ _ _).trans (refuseReport _ _)

end Keeps

/-- What a report or a request that may record a carriage's position keeps: the law of the rail, and everything else, or
everything else of the yard in which carriage `c` has position `p`, which passed the checks of R33 and R58 or is the target
of the carriage's GOTO. -/
def Located (y z : Yard) : Prop :=
  (y.railFits → z.railFits) ∧ (KeepsPlaces y z ∨ ∃ c p f, c < y.settings.carriages ∧ (∀ w, (f w).position = some p) ∧
    (∀ w, (f w).load = w.load) ∧ ((y.keepsOrder c p = true ∧ y.inOthersSegment c p = false) ∨
      ∃ serial, (y.carriage c).order = some ⟨.goto p, serial⟩) ∧ KeepsPlaces (y.setCarriage c f) z)

namespace Located

variable {y z w : Yard}

theorem of_keeps (h : Keeps y z) : Located y z := ⟨h.railFits, .inl h.toKeepsPlaces⟩

theorem core (h : Located y z) : KeepsCore y z := by
  rcases h.2 with k | ⟨c, p, f, _, _, hl, _, k⟩
  · exact k.toKeepsCore
  · exact (Keeps.setCarriageCore y c f fun w k h => by rwa [hl] at h).trans k.toKeepsCore

theorem trans (h : Located y z) (k : Keeps z w) : Located y w := by
  refine ⟨k.railFits ∘ h.1, ?_⟩
  rcases h.2 with h | ⟨c, p, f, hc, hp, hl, ho, h⟩
  · exact .inl (h.trans k.toKeepsPlaces)
  · exact .inr ⟨c, p, f, hc, hp, hl, ho, h.trans k.toKeepsPlaces⟩

/-- The recorded position of a carriage after a report has recorded one. -/
theorem position_set {c p : Nat} {f : Carriage → Carriage} (hp : ∀ w, (f w).position = some p) {i q : Nat}
    (h : ((y.setCarriage c f).carriage i).position = some q) :
    (i = c ∧ q = p) ∨ (i ≠ c ∧ (y.carriage i).position = some q) := by
  simp only [Yard.carriage, Yard.setCarriage_carriages, List.getD_eq_getElem?_getD, List.getElem?_modify] at h ⊢
  by_cases hi : c = i
  · subst hi
    cases hg : y.carriages[c]? <;> simp [hg, freshCarriage, hp] at h
    exact .inl ⟨rfl, h.symm⟩
  · exact .inr ⟨Ne.symm hi, by simpa [hi] using h⟩

/-- A recorded position is one that its carriage may take. -/
theorem fits {c p : Nat} (t : y.railFits) (hr : y.positionsRise) (hf : y.positionsFree) (hc : c < y.settings.carriages)
    (ho : (y.keepsOrder c p = true ∧ y.inOthersSegment c p = false) ∨
      ∃ serial, (y.carriage c).order = some ⟨.goto p, serial⟩) :
    y.keepsOrder c p = true ∧ y.inOthersSegment c p = false := by
  rcases ho with ho | ⟨serial, ho⟩
  · exact ho
  · exact t.goto_fits hr hf hc ho

/-- Positions still rise with the carriage index (R33). -/
theorem positionsRise (h : Located y z) (t : y.railFits) (hr : y.positionsRise) (hf : y.positionsFree) :
    z.positionsRise := by
  have key : ∀ {x : Yard}, KeepsPlaces x z → x.positionsRise → z.positionsRise := by
    intro x k hx i j p q hij hj hi hq
    rw [k.settings] at hj
    rw [Keeps.position_of k.positions] at hi hq
    exact hx i j p q hij hj hi hq
  rcases h.2 with k | ⟨c, p, f, hc, hp, hl, ho, k⟩
  · exact key k hr
  · refine key k fun i j u v hij hj hi hv => ?_
    have hj' : j < y.settings.carriages := hj
    have order := (fits t hr hf hc ho).1
    simp only [Yard.keepsOrder, Yard.carriageList, List.all_eq_true, List.mem_range] at order
    rcases position_set hp hi with ⟨rfl, rfl⟩ | ⟨ic, hi'⟩ <;> rcases position_set hp hv with ⟨jc, rfl⟩ | ⟨jc, hv'⟩
    · omega
    · have := order j hj'
      rw [hv'] at this
      simp only [Bool.and_eq_true, Bool.or_eq_true, decide_eq_true_eq] at this
      omega
    · subst jc
      have := order i (by omega)
      rw [hi'] at this
      simp only [Bool.and_eq_true, Bool.or_eq_true, decide_eq_true_eq] at this
      omega
    · exact hr i j u v hij hj' hi' hv'

/-- Still no carriage stands in a segment of another (R58). -/
theorem positionsFree (h : Located y z) (t : y.railFits) (hr : y.positionsRise) (hf : y.positionsFree) :
    z.positionsFree := by
  rcases h.2 with k | ⟨c, p, f, hc, hp, hl, ho, k⟩
  · exact k.positionsFree hf
  · refine k.positionsFree fun i q hi hq => ?_
    show y.inOthersSegment i q = false
    rcases position_set hp hq with ⟨rfl, rfl⟩ | ⟨_, hq'⟩
    · exact (fits t hr hf hc ho).2
    · exact hf i q hi hq'

theorem carriageOutcome (y : Yard) (c : Nat) (o : Order CarriageOrder) (outcome data : Nat)
    (hc : c < y.settings.carriages) (h : (y.carriage c).order = some o) :
    Located y (y.carriageOutcome c o.kind outcome data).1 := by
  have ended : KeepsPlaces y (y.endCarriageOrder c none) :=
    Keeps.setCarriagePlaces _ _ _ (fun w => by cases w.position <;> rfl)
  unfold Yard.carriageOutcome
  split
  · exact of_keeps (Keeps.refuseReport _ _)
  · rename_i hb
    split
    · rename_i p hk
      split
      · rename_i hd
        have ho : (y.carriage c).order = some ⟨.goto p, o.serial⟩ := by rw [h, ← hk]
        refine ⟨fun f => ?_, .inr ⟨c, p, fun w => { w with order := none, position := some p }, hc, fun _ => rfl,
          fun _ => rfl, .inr ⟨o.serial, ho⟩, Keeps.carriageCompletedPlaces _ _⟩⟩
        have hx : data < y.rows.length := by
          by_contra hx
          exact hb (.inr ⟨rfl, Nat.le_of_not_lt hx⟩)
        exact Keeps.carriageCompleted_rail (f.arrives hc (f.row_onRail (hd ▸ hx)) ho)
      · exact of_keeps (Keeps.refuseArrival _ _)
    · rename_i hk
      split
      · rename_i hs
        simp only [Bool.and_eq_true, Bool.not_eq_eq_eq_not, Bool.not_true] at hs
        refine ⟨fun f => ?_, .inr ⟨c, data, fun w => { w with order := none, position := some data }, hc, fun _ => rfl,
          fun _ => rfl, .inl hs, (Keeps.arbiterPass _).toKeepsPlaces⟩⟩
        have hx : data < y.rows.length := by
          by_contra hx
          exact hb (.inr ⟨rfl, Nat.le_of_not_lt hx⟩)
        exact (Keeps.arbiterPass _).railFits (f.recordedResting hc hx (fun _ => rfl) (fun _ => rfl) (fun _ => rfl)
          (.inr ⟨o.serial, by rw [h, ← hk]⟩))
      · exact of_keeps (Keeps.refuseArrival _ _)
    · refine ⟨fun f => ?_, .inl (ended.trans ((Keeps.moveRobot _ _ _).toKeepsPlaces.trans
        (Keeps.carriageCompletedPlaces _ _)))⟩
      exact Keeps.carriageCompleted_rail ((f.stops hc).same (.moveRobot _ _ _))
    · refine ⟨fun f => ?_, .inl (ended.trans ((Keeps.moveRobot _ _ _).toKeepsPlaces.trans
        ((Keeps.carriageCompletedPlaces _ _).trans (Keeps.judgeTablesClear _).toKeepsPlaces)))⟩
      exact (Keeps.judgeTablesClear _).railFits (Keeps.carriageCompleted_rail ((f.stops hc).same (.moveRobot _ _ _)))
    · exact of_keeps (Keeps.refuseReport _ _)

theorem takeOrderDone (body : List Byte) (y : Yard) : Located y (y.takeOrderDone body).1 := by
  have robots (k serial outcome data : Nat) : Keeps y (y.robotDone k serial outcome data).1 := by
    unfold Yard.robotDone
    dsimp only
    split
    · exact Keeps.refuseReport _ _
    · split
      · split
        · exact (Keeps.touchRobot _ _).trans (Keeps.robotOutcome _ _ _ _ _)
        · exact (Keeps.touchRobot _ _).trans (Keeps.staleReport _)
      · exact (Keeps.touchRobot _ _).trans (Keeps.staleReport _)
  have carriages (c serial outcome data : Nat) : Located y (y.carriageDone c serial outcome data).1 := by
    unfold Yard.carriageDone
    split
    · exact of_keeps (Keeps.refuseReport _ _)
    · rename_i hc
      have hc' : c < y.settings.carriages := by simpa [Yard.carriageExists] using hc
      split
      · split
        · exact carriageOutcome _ _ _ _ _ hc' ‹_›
        · exact of_keeps (Keeps.staleReport _)
      · exact of_keeps (Keeps.staleReport _)
  unfold Yard.takeOrderDone
  dsimp only
  split
  · exact of_keeps (robots _ _ _ _)
  · split
    · exact carriages _ _ _ _
    · exact of_keeps (Keeps.refuseReport _ _)

theorem takeCarriagePosition (body : List Byte) (y : Yard) : Located y (y.takeCarriagePosition body).1 := by
  unfold Yard.takeCarriagePosition
  dsimp only
  split
  · exact of_keeps (Keeps.refuseReport _ _)
  · rename_i hc
    simp only [Bool.or_eq_true, Bool.not_eq_true', Yard.carriageExists, decide_eq_false_iff_not, decide_eq_true_eq, not_or,
      Nat.not_le, not_not] at hc
    split
    · exact of_keeps (Keeps.refuseReport _ _)
    · rename_i hr
      simp only [Yard.positionRefused, Bool.or_eq_true, not_or, Bool.not_eq_true, Bool.not_eq_eq_eq_not] at hr
      have rest : Keeps (y.endCarriageOrder (byteAt body 0) (some (byteAt body 1)))
          (if (y.carriage (byteAt body 0)).order.isSome ∨ (y.carriage (byteAt body 0)).position.isNone then
            (y.endCarriageOrder (byteAt body 0) (some (byteAt body 1))).arbiterPass
          else y.endCarriageOrder (byteAt body 0) (some (byteAt body 1))) :=
        Keeps.ite (fun _ => Keeps.arbiterPass _) fun _ => Keeps.refl _
      refine ⟨fun f => ?_, .inr ⟨byteAt body 0, byteAt body 1, fun w => { w with
        order := none, position := some (byteAt body 1) }, hc.1, fun _ => rfl, fun _ => rfl,
        .inl ⟨by simpa using hr.1.2, hr.2⟩, rest.toKeepsPlaces⟩⟩
      refine rest.railFits (f.recordedResting hc.1 hc.2 (fun _ => rfl) (fun _ => rfl) (fun _ => rfl) ?_)
      have := hr.1.1.1
      split at this
      · exact .inr ⟨_, ‹_›⟩
      · exact .inl ‹_›
      · simp at this

theorem takeClearCarriage (body : List Byte) (y : Yard) : Located y (y.takeClearCarriage body).1 := by
  unfold Yard.takeClearCarriage
  dsimp only
  split
  · exact of_keeps (Keeps.refl _)
  · rename_i hc
    have hc : byteAt body 0 < y.settings.carriages := by simpa [Yard.carriageExists] using hc
    repeat' split
    all_goals first
      | exact of_keeps (Keeps.refl _)
      | skip
    rename_i hb hr
    simp only [Yard.clearRefused, Bool.or_eq_true, not_or] at hr
    have rest (z : Yard) : Keeps z (Yard.judgeHoldoff Yard.handQuiet z).arbiterPass :=
      (Keeps.judgeHoldoff Keeps.handQuiet _).trans (Keeps.arbiterPass _)
    refine ⟨fun f => ?_, .inr ⟨byteAt body 0, byteAt body 1, fun w =>
      { w with position := some (byteAt body 1), fault := false, order := none, task := none },
      hc, fun _ => rfl, fun _ => rfl, .inl ⟨by simpa using hr.1, ?_⟩,
      (Keeps.releaseSegmentsPlaces _ _).trans (rest _).toKeepsPlaces⟩⟩
    · have cleared : (∀ x n, ((y.setCarriage (byteAt body 0) fun w => { w with
          position := some (byteAt body 1), fault := false, order := none, task := none }).carriage
            (byteAt body 0)).order ≠ some ⟨.goto x, n⟩) ∧ ((y.setCarriage (byteAt body 0) fun w => { w with
          position := some (byteAt body 1), fault := false, order := none, task := none }).carriage
            (byteAt body 0)).task = none := by
        simp only [Yard.carriage, Yard.setCarriage_carriages, List.getD_eq_getElem?_getD, List.getElem?_modify, if_true]
        cases y.carriages[byteAt body 0]? <;> simp [freshCarriage]
      exact (rest _).railFits ((f.recorded hc (f.row_onRail (Nat.lt_of_not_le hb)) (fun _ => rfl) (fun _ => rfl)
        cleared.2).releaseSegments _ cleared.1 cleared.2)
    have own := hr.2
    split at own
    · simpa using own
    · simp only [Bool.not_eq_eq_eq_not, Bool.not_true, Bool.not_eq_false, Yard.inOwnSegment] at own
      unfold Yard.inOthersSegment
      cases hs : y.reservation (segmentOf (byteAt body 1)) with
      | none => rfl
      | some v => simpa [hs] using own

end Located

namespace Keeps

variable {y z : Yard}

theorem takeRobotFault (body : List Byte) (y : Yard) : Keeps y (y.takeRobotFault body).1 := by
  unfold Yard.takeRobotFault
  dsimp only
  split
  · exact refuseReport _ _
  · split
    · refine trans ?_ (sendHome _ _ _)
      exact (touchRobot _ _).trans (trans (setRobot _ _ (by intro; exact ⟨rfl, rfl⟩)) (notify _ _ _ _ _))
    · refine trans ?_ (giveUpRow _ _)
      exact (touchRobot _ _).trans (trans (setRobot _ _ (by intro; exact ⟨rfl, rfl⟩)) (notify _ _ _ _ _))

theorem silenceExpires (k : Nat) (y : Yard) : Keeps y (y.silenceExpires k) := by
  unfold Yard.silenceExpires
  exact ite (fun _ => trans (setRobot _ _ (by intro; exact ⟨rfl, rfl⟩)) ((notify _ _ _ _ _).trans (notify _ _ _ _ _))) fun _ => refl _

theorem takeClearRobot (body : List Byte) (y : Yard) : Keeps y (y.takeClearRobot body).1 := by
  unfold Yard.takeClearRobot
  dsimp only
  split
  · exact refl _
  · exact setRobot _ _ fun _ => ⟨rfl, rfl⟩

theorem takeReadFleet (p : Port) (body : List Byte) (y : Yard) : Keeps y (y.takeReadFleet p body).1 := by
  unfold Yard.takeReadFleet
  split
  · exact refl _
  · exact refl _
  · dsimp only
    split
    · exact same
    · exact refl _
  · exact refl _

/-! ### Transfers -/

theorem takeTransfer (p : Port) (body : List Byte) (y : Yard) : Keeps y (y.takeTransfer p body).1 := by
  unfold Yard.takeTransfer
  dsimp only
  split
  · exact refl _
  · split
    · exact requestTransfer arbiterPass _ _ _ _ _ _
    · exact requestTransfer arbiterPass _ _ _ _ _ _
    · exact refl _

theorem takeCancelTransfer (p : Port) (body : List Byte) (y : Yard) : Keeps y (y.takeCancelTransfer p body).1 := by
  unfold Yard.takeCancelTransfer
  split
  · exact refl _
  · split
    · exact refl _
    · split
      · exact refl _
      · rename_i t ht _ hw
        exact (closeWaiting t _ y (List.mem_of_find?_eq_some ht) (by simpa using hw)).trans (judgeHoldoff hand _)

theorem phaseExpires (tag : Nat) (y : Yard) : Keeps y (y.phaseExpires tag) := by
  unfold Yard.phaseExpires
  split
  · split
    · exact failCarriage _ _ _
    · exact refl _
  · exact refl _

theorem nudgeExpires (c : Nat) (y : Yard) : Keeps y (y.nudgeExpires c) := by
  unfold Yard.nudgeExpires
  exact ite (fun _ => failCarriage _ _ _) fun _ => refl _

/-! ### Rounds -/

theorem timerBuild (y : Yard) (g : Nat) : Keeps y (y.timerBuild g).1 := by
  unfold Yard.timerBuild
  split
  · exact build _ _
  · exact refl _

theorem withRoundTimer (y : Yard) (t : Option Nat) : Keeps y { y with rounds := { y.rounds with timer := t } } := same

theorem withRotation (y : Yard) (g : Nat) : Keeps y { y with rounds := { y.rounds with rotation := g } } := same

theorem roundExpires (y : Yard) : Keeps y y.roundExpires := by
  unfold Yard.roundExpires
  split
  · dsimp only
    refine trans ?_ (withRotation _ _)
    refine trans ?_ (notify _ _ _ _ _)
    refine trans ?_ (timerBuild _ _)
    exact (withRoundTimer _ _).trans (pulse _ _)
  · exact refl _

theorem takeRoundBuild (body : List Byte) (y : Yard) : Keeps y (y.takeRoundBuild body).1 := by
  unfold Yard.takeRoundBuild
  dsimp only
  split
  · exact refl _
  · exact build _ _

theorem promoteEntry (y : Yard) (e : Entry) (kind : PassKind) (h : y.entryOf e.row = some e) :
    Keeps y (y.promoteEntry e kind) := by
  unfold Yard.promoteEntry
  refine withList (refl y) (fun hl => ?_) fun hd => ?_
  · have hm : e ∈ y.rounds.list := List.mem_of_find?_eq_some h
    have := (List.length_filter_lt_length_iff_exists (p := fun y => y.row != e.row) (l := y.rounds.list)).2
      ⟨e, hm, by simp⟩
    simp only [Yard.listFits] at hl
    simp only [List.length_cons]
    omega
  · simp only [List.map_cons, List.nodup_cons, List.mem_map, List.mem_filter, bne_iff_ne, not_exists, not_and]
    exact ⟨fun x hx => hx.2, List.Nodup.sublist (List.filter_sublist.map _) hd⟩

theorem takePlantPass (body : List Byte) (y : Yard) : Keeps y (y.takePlantPass body).1 := by
  unfold Yard.takePlantPass
  dsimp only
  split
  · exact refl _
  · repeat' split
    all_goals first
      | exact refl _
      | exact insertHead _ _ ‹_›
      | skip
    rename_i e he _
    have : e.row = byteAt body 0 := by
      have := List.find?_some he
      simpa using this
    exact (promoteEntry y e _ (this ▸ he)).trans (giveAssign _)

theorem takeCancelEntry (body : List Byte) (y : Yard) : Keeps y (y.takeCancelEntry body).1 := by
  unfold Yard.takeCancelEntry
  dsimp only
  repeat' split
  all_goals first
    | exact refl _
    | exact removeEntry _ _

theorem takeReadRounds (p : Port) (body : List Byte) (y : Yard) : Keeps y (y.takeReadRounds p body).1 := by
  unfold Yard.takeReadRounds
  split
  · exact refl _
  · exact refl _
  · dsimp only
    split
    · exact countRounds _ _
    · exact refl _
  · exact refl _

/-! ### Alerts -/

theorem takeTestPulse (body : List Byte) (y : Yard) : Keeps y (y.takeTestPulse body).1 := by
  unfold Yard.takeTestPulse
  dsimp only
  split
  · exact refl _
  · exact hand .test _ y

theorem withLines (y : Yard) (w d : Filter) :
    Keeps y { y with alerts := { y.alerts with lineW := w, lineD := d } } := same

theorem lineTakes (w d : Filter) (i : Nat) (y : Yard) : Keeps y (y.lineTakes w d i) := by
  unfold Yard.lineTakes
  split
  · exact followWith hand 1 (withLines y w y.alerts.lineD)
  · exact followWith hand 2 (withLines y y.alerts.lineW d)

theorem sampleInputs (w d : Bool) (y : Yard) : Keeps y (y.sampleInputs w d) :=
  (withLines y _ _).trans (inFreeOrder _ _ fun i z => lineTakes _ _ i z)

theorem stretchExpires (line : OutLine) (y : Yard) : Keeps y (y.stretchExpires line) := by
  unfold Yard.stretchExpires
  split <;> exact same

theorem withMetSilent (y : Yard) (b : Bool) : Keeps y { y with metSilent := b } := same

theorem metSilence (level : Bool) (y : Yard) : Keeps y (y.metSilence level) := followWith hand 7 (withMetSilent y level)

theorem newFrame (pulsing : List Nat) (y : Yard) : Keeps y (y.newFrame pulsing) :=
  (metSilence false y).trans (inFreeOrder _ _ fun _ z => pulse _ z)

/-! ### The storm -/

theorem takeStowNow (y : Yard) : Keeps y y.takeStowNow.1 := beginRecall _ _ _

theorem deadlinePasses (y : Yard) : Keeps y y.deadlinePasses := by
  unfold Yard.deadlinePasses
  exact ite (fun _ => deadlineExpires _) fun _ => refl _

theorem takeReadStorm (p : Port) (y : Yard) : Keeps y (y.takeReadStorm p).1 := by
  unfold Yard.takeReadStorm
  dsimp only
  split
  · exact countStorm _ _
  · exact refl _

/-! ### Accounts and Fleet Restart -/

theorem writeEstimate (y : Yard) (r loss expected : Nat) : Keeps y (y.writeEstimate r loss expected) := by
  unfold Yard.writeEstimate
  exact ite (fun _ => (setRow _ _ _).trans ((pulse _ _).trans (notify _ _ _ _ _))) fun _ => setRow _ _ _

theorem restartRailPlaces (y : Yard) : KeepsPlaces y y.restartRail where
  toKeepsCore := { (refl y).toKeepsCore with
    segments := by simp [Yard.restartRail]
    nudges := by simp [Yard.restartRail] }
  positions := rfl
  positionsFree := fun f i p hi hp => by
    have fi := f i p hi hp
    simp only [Yard.inOthersSegment, Yard.reservation, Yard.restartRail, List.getD_eq_getElem?_getD,
      List.getElem?_map] at fi ⊢
    cases hg : y.rail.segments[segmentOf p]? with
    | none => simp
    | some u =>
      cases u with
      | none => simp
      | some v =>
        simp only [hg, Option.map_some, Option.getD_some, Option.filter_some] at fi ⊢
        split
        · exact fi
        · rfl

theorem restartCarriagePlaces (c : Nat) (y : Yard) : KeepsPlaces y (y.restartCarriage c) := by
  unfold Yard.restartCarriage
  dsimp only
  split
  · exact (orderCarriagePlaces _ _ _).trans (setCarriagePlaces _ _ _)
  · exact setCarriagePlaces _ _ _

/-- Once every carriage that exists has been told to stay, none has a task or a GOTO, and the rail is at rest. -/
theorem restartRail_rail {y : Yard} (f : y.railFits) {x : Yard} (h : RailEnds y x) :
    (x.overCarriages Yard.restartCarriage).restartRail.railFits := by
  have one (c i : Nat) (z : Yard) : (i ≠ c → (Yard.restartCarriage c z).carriage i = z.carriage i) ∧
      ((Yard.restartCarriage c z).carriage i).position = (z.carriage i).position ∧
      (i = c → (∀ p n, ((Yard.restartCarriage c z).carriage i).order ≠ some ⟨.goto p, n⟩) ∧
        ((Yard.restartCarriage c z).carriage i).task = none) := by
    have e : Yard.restartCarriage c z = if (z.carriage c).order.isSome then z.stayCarriage c
        else z.setCarriage c fun w => { w with task := none } := by
      unfold Yard.restartCarriage Yard.stayCarriage
      dsimp only
      split <;> rfl
    rw [e]
    split
    · refine ⟨fun h => ?_, ?_, fun h => h ▸ Yard.railFits.stayed z c⟩
      · rw [Yard.stayCarriage_eq]
        exact Yard.railFits.carriage_setCarriage z c i _ h
      · exact (RailEnds.stayCarriage z c).position i
    · rename_i ho
      have ho : (z.carriage c).order = none := by simpa using ho
      refine ⟨fun h => Yard.railFits.carriage_setCarriage z c i _ h, ?_, ?_⟩
      · exact RailEnds.carriage_cases (P := fun v w => w.position = v.position) z c _ i (fun _ => rfl) fun _ => rfl
      · rintro rfl
        simp only [Yard.carriage, Yard.setCarriage_carriages, List.getD_eq_getElem?_getD, List.getElem?_modify, if_true] at ho ⊢
        cases hg : z.carriages[i]? <;> simp_all [freshCarriage]
  have walk : ∀ (l : List Nat) (z : Yard) (i : Nat),
      ((l.foldl (fun z c => Yard.restartCarriage c z) z).carriage i).position = (z.carriage i).position ∧
      (i ∈ l ∨ ((∀ p n, (z.carriage i).order ≠ some ⟨.goto p, n⟩) ∧ (z.carriage i).task = none) →
        (∀ p n, ((l.foldl (fun z c => Yard.restartCarriage c z) z).carriage i).order ≠ some ⟨.goto p, n⟩) ∧
          ((l.foldl (fun z c => Yard.restartCarriage c z) z).carriage i).task = none) := by
    intro l
    induction l with
    | nil => exact fun z i => ⟨rfl, fun h => h.elim (fun m => by cases m) id⟩
    | cons c l ih =>
      intro z i
      obtain ⟨o₁, o₂, o₃⟩ := one c i z
      refine ⟨(ih _ i).1.trans o₂, fun h => (ih _ i).2 ?_⟩
      by_cases hi : i = c
      · exact .inr (o₃ hi)
      · rw [o₁ hi]
        exact h.imp_left fun m => (List.mem_cons.1 m).resolve_left hi
  have frame : ∀ (l : List Nat) (z : Yard), (l.foldl (fun z c => Yard.restartCarriage c z) z).settings = z.settings ∧
      (l.foldl (fun z c => Yard.restartCarriage c z) z).rows = z.rows ∧
      (l.foldl (fun z c => Yard.restartCarriage c z) z).rail = z.rail := by
    intro l
    induction l with
    | nil => exact fun z => ⟨rfl, rfl, rfl⟩
    | cons c l ih =>
      intro z
      have o : (Yard.restartCarriage c z).settings = z.settings ∧ (Yard.restartCarriage c z).rows = z.rows ∧
          (Yard.restartCarriage c z).rail = z.rail := by
        unfold Yard.restartCarriage
        dsimp only
        split <;> exact ⟨rfl, rfl, rfl⟩
      exact ⟨(ih _).1.trans o.1, (ih _).2.1.trans o.2.1, (ih _).2.2.trans o.2.2⟩
  have fr := frame x.carriageList x
  have wk := walk x.carriageList x
  unfold Yard.overCarriages
  generalize x.carriageList.foldl (fun z c => Yard.restartCarriage c z) x = w at fr wk
  have pos (c : Nat) : (w.restartRail.carriage c).position = (y.carriage c).position := (wk c).1.trans (h.position c)
  have idle (c : Nat) : (∀ p n, (w.restartRail.carriage c).order ≠ some ⟨.goto p, n⟩) ∧
      (w.restartRail.carriage c).task = none := by
    refine (wk c).2 ?_
    by_cases hc : c < y.settings.carriages
    · exact .inl (by simpa [Yard.carriageList, h.settings] using hc)
    · have absent := f.carriagesAbsent c (Nat.le_of_not_lt hc)
      refine .inr ⟨fun p n e => ?_, (h.task c).elim (fun e => e.trans absent.2) id⟩
      obtain ⟨q, hq, _⟩ := (f.carriagesFit c).1 p n (h.goto c p n e)
      rw [absent.1] at hq
      cases hq
  have segs : w.restartRail.rail.segments.length = y.rail.segments.length := by
    simp [Yard.restartRail, fr.2.2, h.segments]
  have queue : (w.restartRail.rail.queue.map Transfer.work).Sublist (y.rail.queue.map Transfer.work) := by
    show (w.rail.queue.map _).Sublist _
    rw [fr.2.2]
    exact h.queue
  exact {
    rowsOnRail := by
      rw [segs, show w.restartRail.settings = w.settings from rfl, show w.restartRail.rows = w.rows from rfl, fr.1, fr.2.1,
        h.settings, h.rows]
      exact f.rowsOnRail
    positionsOnRail := fun c p e => by rw [segs]; exact f.positionsOnRail c p (pos c ▸ e)
    carriagesAbsent := fun c hc => by
      have hc' : y.settings.carriages ≤ c := by
        rw [show w.restartRail.settings = w.settings from rfl, fr.1, h.settings] at hc
        exact hc
      exact ⟨(pos c).trans (f.carriagesAbsent c hc').1, (idle c).2⟩
    tagsDistinct := by
      have := queue.map Prod.fst
      simp only [List.map_map] at this
      exact f.tagsDistinct.sublist this
    destinationsFixed := fun t ht c => by
      have : t.work ∈ y.rail.queue.map Transfer.work := queue.subset (List.mem_map_of_mem ht)
      obtain ⟨u, mu, eu⟩ := List.mem_map.1 this
      have := f.destinationsFixed u mu c
      rwa [show u.destination = t.destination from congrArg (fun w => w.2.2.1) eu] at this
    carriagesFit := fun c => Yard.railFits.idle_fits (idle c).1 (idle c).2 }

theorem restartRobot (k : Nat) (y : Yard) : Keeps y (y.restartRobot k) := by
  unfold Yard.restartRobot
  dsimp only
  refine trans ?_ (setRobot _ _ fun _ => ⟨rfl, rfl⟩)
  split
  · exact ite (fun _ => sendHome _ _ _) fun _ => refl _
  · exact ite (fun _ => restRobot _ _) fun _ => refl _

theorem restartFleet (y : Yard) : Keeps y y.restartFleet := by
  unfold Yard.restartFleet
  dsimp only
  have k₁ : Keeps y (y.overRows fun r z => z.settleClaimed r).emptyList :=
    (overRows _ fun r z => settleClaimed z r).trans (emptyList _)
  generalize (y.overRows fun r z => z.settleClaimed r).emptyList = y₁ at k₁ ⊢
  have k₂ : KeepsPlaces y₁ (y₁.rail.queue.foldl Yard.restartTransfer y₁) :=
    KeepsPlaces.foldl (fun z t => (closeTransferPlaces t .restarted z).trans (judgeHoldoff handQuiet _).toKeepsPlaces) _
      (refl _).toKeepsPlaces
  have e₂ : RailEnds y₁ (y₁.rail.queue.foldl Yard.restartTransfer y₁) :=
    RailEnds.foldl (fun z t => (RailEnds.closeTransfer t .restarted z).trans (.judgeHoldoffQuiet _)) _ _
  generalize y₁.rail.queue.foldl Yard.restartTransfer y₁ = y₂ at k₂ e₂ ⊢
  have k₃ : Keeps y (y₂.overCarriages Yard.restartCarriage).restartRail := {
    toKeepsPlaces := k₁.toKeepsPlaces.trans (k₂.trans ((KeepsPlaces.foldl (fun z c => restartCarriagePlaces c z) _
      (refl y₂).toKeepsPlaces).trans (restartRailPlaces _)))
    railFits := fun f => restartRail_rail (k₁.railFits f) e₂ }
  exact k₃.trans ((judgeHoldoff handQuiet _).trans (overRobots _ fun k z => restartRobot k z))

end Keeps

end Sys2Proof.Machine
end

