-- ==== Sys2Proof/Laws/Events.lean ====
section
/-! SUPPORT. What a frame, a request, an event and the end of an event can do: one lemma for each case, which a proof about
a meaning cites in place of unfolding them. -/

-- One proof after another: the package as one text would ask for too many threads at once.
set_option Elab.async false

namespace Sys2Proof.Machine

/-! ### Frames and requests (R169, R170) -/

theorem State.frame_judges {s : State} {p : Port} (h : s.judges p) (kind : Byte) (judge : State → State × Reply) :
    s.frame p kind judge = (judge s).1.answered p kind (judge s).2 := by
  simp [State.frame, State.answered, h.1, h.2]

theorem State.frame_marked {s : State} {p : Port} (h : s.resetN = true) (hm : (s.links.get p).frameMarked = true)
    (kind : Byte) (judge : State → State × Reply) : s.frame p kind judge = s.setLink p Link.overrunEnds := by
  simp [State.frame, h, hm]

theorem State.frame_held {s : State} (h : s.resetN = false) (p : Port) (kind : Byte) (judge : State → State × Reply) :
    s.frame p kind judge = s := by simp [State.frame, h]

/-- A taken request is answered by its rule. -/
theorem State.serve_takes {s : State} {k : Kind} {p : Port} {body : List Byte} (h : s.takes k p body)
    (take : State → State × Reply) : s.serve k p body take = (take s).1.answered p k.code (take s).2 := by
  unfold State.serve
  rw [State.frame_judges ⟨h.1, h.2.1⟩]
  simp [h.2.2]

/-- A request that a case of R170 refuses is answered by it, and nothing else happens. -/
theorem State.serve_refused {s : State} {k : Kind} {p : Port} {body : List Byte} {reply : Reply} (h : s.judges p)
    (hr : requestRefusal s.yard.startUp k p body = some reply) (take : State → State × Reply) :
    s.serve k p body take = s.answered p k.code reply := by
  unfold State.serve
  rw [State.frame_judges h]
  simp [hr]

theorem State.onYard_takes {s : State} {k : Kind} {p : Port} {body : List Byte} (h : s.takes k p body)
    (f : Yard → Yard × Reply) :
    s.serve k p body (State.onYard f) = (s.afterEvent (f s.yard).1).answered p k.code (f s.yard).2 :=
  State.serve_takes h _

theorem State.event_running {s : State} (h : s.running = true) (f : Yard → Yard) : s.event f = s.afterEvent (f s.yard) := by
  simp [State.event, State.afterEvent, State.withYard, h]

theorem State.event_idle {s : State} (h : s.running = false) (f : Yard → Yard) : s.event f = s := by
  simp [State.event, h]

/-! ### The end of an event (R90, R100) -/

/-- An event that gives no assignment event ends as it stands. -/
theorem Yard.finishWith_quiet {pass : Yard → Yard} {y : Yard} (ha : y.assign = false) : y.finishWith pass = y := by
  simp [Yard.finishWith, ha]

theorem Yard.finish_same {y : Yard} (ha : y.assign = false) : y.finish = y := Yard.finishWith_quiet ha

/-- An event after which nothing is to be assigned leaves the state as its own effect does. -/
theorem State.afterEvent_same {s : State} {y : Yard} (ha : y.assign = false) : s.afterEvent y = s.withYard y := by
  simp [State.afterEvent, Yard.finish_same ha]

/-- A taken request that its rule refuses, with no effect on the yard, changes nothing but its port's link. -/
theorem State.onYard_refuses {s : State} {k : Kind} {p : Port} {body : List Byte} {f : Yard → Yard × Reply} {reply : Reply}
    (h : s.takes k p body) (hb : s.between) (hf : f s.yard = (s.yard, reply)) :
    s.serve k p body (State.onYard f) = s.answered p k.code reply := by
  rw [State.onYard_takes h, hf]
  exact congrArg (fun t : State => t.answered p k.code reply) (State.afterEvent_same (s := s) hb)

/-- A fleet report that its rule refuses is counted, and changes nothing else but its port's link (R37). -/
theorem State.onYard_refusesReport {s : State} {k : Kind} {p : Port} {body : List Byte} {f : Yard → Yard × Reply}
    {why : Reason} (h : s.takes k p body) (hb : s.between) (hf : f s.yard = s.yard.refuseReport why) :
    s.serve k p body (State.onYard f) = (s.withYard s.yard.countRefused).answered p k.code (.refuse why) := by
  rw [State.onYard_takes h, hf]
  exact congrArg (fun t : State => t.answered p k.code (.refuse why))
    (State.afterEvent_same (s := s) (y := s.yard.countRefused) hb)

/-- After every event the mark of an assignment event is clear. -/
theorem Yard.finishWith_assign (pass : Yard → Yard) (y : Yard) : (y.finishWith pass).assign = false := by
  unfold Yard.finishWith
  split
  · rfl
  · simp_all

theorem Yard.finish_assign (y : Yard) : y.finish.assign = false := Yard.finishWith_assign _ _

/-! ### Records by number after an update -/

theorem Yard.row_setRow_same (y : Yard) {r : Nat} (h : r < y.rows.length) (f : Row → Row) :
    (y.setRow r f).row r = f (y.row r) := by
  simp [Yard.row, List.getD_eq_getElem?_getD, h]

theorem Yard.row_setRow_ne (y : Yard) {r q : Nat} (h : q ≠ r) (f : Row → Row) : (y.setRow r f).row q = y.row q := by
  simp [Yard.row, List.getD_eq_getElem?_getD, Ne.symm h]

theorem Yard.robot_setRobot_same (y : Yard) {k : Nat} (h : k < y.robots.length) (f : Robot → Robot) :
    (y.setRobot k f).robot k = f (y.robot k) := by
  simp [Yard.robot, List.getD_eq_getElem?_getD, h]

theorem Yard.robot_setRobot_ne (y : Yard) {k j : Nat} (h : j ≠ k) (f : Robot → Robot) :
    (y.setRobot k f).robot j = y.robot j := by
  simp [Yard.robot, List.getD_eq_getElem?_getD, Ne.symm h]

theorem Yard.carriage_setCarriage_same (y : Yard) {c : Nat} (h : c < y.carriages.length) (f : Carriage → Carriage) :
    (y.setCarriage c f).carriage c = f (y.carriage c) := by
  simp [Yard.carriage, List.getD_eq_getElem?_getD, h]

theorem Yard.carriage_setCarriage_ne (y : Yard) {c i : Nat} (h : i ≠ c) (f : Carriage → Carriage) :
    (y.setCarriage c f).carriage i = y.carriage i := by
  simp [Yard.carriage, List.getD_eq_getElem?_getD, Ne.symm h]

theorem Yard.dock_setDock_same (y : Yard) {d : Nat} (h : d < y.docks.length) (f : Dock → Dock) :
    (y.setDock d f).dock d = f (y.dock d) := by
  simp [Yard.dock, List.getD_eq_getElem?_getD, h]

/-- The assignment event of a change of a robot's record, read from the record before and after it (R31). -/
theorem Yard.makesAvailable_eq (y : Yard) {k : Nat} (h : k < y.robots.length) (f : Robot → Robot) :
    y.makesAvailable k f = (!(y.robot k).available && (f (y.robot k)).available) := by
  simp [Yard.makesAvailable, Yard.robot, List.getD_eq_getElem?_getD, h]

/-- A change of a robot's record, as the record that it writes. -/
theorem Yard.setRobot_eq (y : Yard) {k : Nat} (h : k < y.robots.length) (f : Robot → Robot) :
    y.setRobot k f = { y with
      robots := y.robots.set k (f (y.robot k))
      assign := y.assign || (!(y.robot k).available && (f (y.robot k)).available) } := by
  have e : y.robots.modify k f = y.robots.set k (f (y.robot k)) := by
    simp [List.modify_eq_set_getElem?, Yard.robot, List.getD_eq_getElem?_getD, h]
  simp only [Yard.setRobot, Yard.makesAvailable_eq y h, e]

/-- A robot with an order is not available (R31). -/
theorem Robot.available_of_order {b : Robot} (h : b.order ≠ none) : b.available = false := by
  cases ho : b.order <;> simp_all [Robot.available]

/-- An enrolled slot is one of the table's. -/
theorem Yard.enrolled_lt {y : Yard} {k : Nat} (h : y.enrolled k = true) : k < y.robots.length := by
  by_contra hc
  simp [Yard.enrolled, Yard.robot, List.getD_eq_getElem?_getD, List.getElem?_eq_none (Nat.le_of_not_lt hc),
    freshRobot] at h

/-! ### Joining the list (R81, R82) -/

/-- The rank reads the rows alone. -/
theorem Yard.ranked_rows {y z : Yard} (h : z.rows = y.rows) (l : List Nat) : z.ranked l = y.ranked l := by
  have e (q : Nat) : z.row q = y.row q := by simp [Yard.row, h]
  have b (p q : Nat) : z.ranksBefore p q = y.ranksBefore p q := by
    unfold Yard.ranksBefore
    rw [e p, e q]
  have i (p : Nat) (l : List Nat) : z.insertRanked p l = y.insertRanked p l := by
    induction l with
    | nil => rfl
    | cons q l ih => simp only [Yard.insertRanked, b, ih]
  induction l with
  | nil => rfl
  | cons p l ih => simp only [Yard.ranked, ih, i]

/-- The list after candidates have been appended. -/
theorem Yard.appendCandidates_list (y : Yard) (o : EntryOrigin) (kindOf : Nat → PassKind) (rows : List Nat) :
    (y.appendCandidates o kindOf rows).1.rounds.list = y.rounds.list ++
      ((y.ranked rows).take (16 - y.rounds.list.length)).map fun r => ⟨r, kindOf r, o, none, .waiting⟩ := by
  unfold Yard.appendCandidates
  simp only
  split <;> rfl

end Sys2Proof.Machine
end

