-- ==== Sys2Proof/Laws/Frames.lean ====
section
/-! SUPPORT. What each command keeps of the yard: `Keeps` for every command but those that configure the part, and for
each of those the yard that `Keeps` starts from. -/

-- One proof after another: the package as one text would ask for too many threads at once.
set_option Elab.async false

namespace Sys2Proof.Machine

/-! ### Frames and events -/

theorem State.frame_keeps {s : State} {p : Port} {kind : Byte} {judge : State → State × Reply}
    (h : Keeps s.yard (judge s).1.yard) : Keeps s.yard (s.frame p kind judge).yard := by
  unfold State.frame
  split
  · exact Keeps.refl _
  · split
    · exact Keeps.refl _
    · exact h

theorem State.serve_keeps {s : State} {k : Kind} {p : Port} {body : List Byte} {take : State → State × Reply}
    (h : Keeps s.yard (take s).1.yard) : Keeps s.yard (s.serve k p body take).yard := by
  apply State.frame_keeps
  split
  · exact Keeps.refl _
  · exact h

theorem State.onYard_keeps {s : State} {k : Kind} {p : Port} {body : List Byte} {f : Yard → Yard × Reply}
    (h : Keeps s.yard (f s.yard).1) : Keeps s.yard (s.serve k p body (State.onYard f)).yard :=
  State.serve_keeps (h.trans (Keeps.finish _))

theorem State.event_keeps {s : State} {f : Yard → Yard} (h : Keeps s.yard (f s.yard)) :
    Keeps s.yard (s.event f).yard := by
  unfold State.event
  split
  · exact h.trans (Keeps.finish _)
  · exact Keeps.refl _

theorem Keeps.withBoxes (y : Yard) (p : Port) (b : NoticeBox)
    (h : (y.boxes.get p).queue.length ≤ 16 → b.queue.length ≤ 16) : Keeps y { y with boxes := y.boxes.set p b } where
  toKeepsCore := { (Keeps.refl y).toKeepsCore with
    noticesFit := fun hf q => by
      simp only [Trio.get_set]
      split
      · exact h (hf p)
      · exact hf q }
  positions := rfl
  positionsFree := id
  railFits := .same .same

theorem Keeps.takeReadStatus (p : Port) (s : State) : Keeps s.yard (s.takeReadStatus p).1.yard :=
  Keeps.withBoxes _ _ _ fun h => h

theorem Keeps.takeReadNotices (p : Port) (body : List Byte) (s : State) : Keeps s.yard (s.takeReadNotices p body).1.yard := by
  unfold State.takeReadNotices
  simp only
  split
  · exact Keeps.refl _
  · exact Keeps.withBoxes _ _ _ fun h => by simp; omega

theorem Keeps.takeEnergyReport (body : List Byte) (s : State) : Keeps s.yard (s.takeEnergyReport body).1.yard := by
  have o : ∀ r q, Keeps s.yard (s.otherInterval r q).1.yard := by
    intro r q
    unfold State.otherInterval
    split <;> exact Keeps.refl _
  unfold State.takeEnergyReport
  simp only
  split
  · exact Keeps.refl _
  · split
    · split
      · refine Keeps.trans ?_ (Keeps.finish _)
        exact Keeps.ite (fun _ => Keeps.writeEstimate _ _ _ _) fun _ => Keeps.refl _
      · exact o _ _
    · exact o _ _

theorem Keeps.endSave (s : State) (b : Bool) : Keeps s.yard (s.endSave b).yard := by
  unfold State.endSave
  split
  · exact Keeps.refl _
  · simp only
    split <;> exact Keeps.notify _ _ _ _ _

theorem Keeps.walkStep (s : State) : Keeps s.yard s.walkStep.yard := by
  unfold State.walkStep
  split
  · simp only
    split
    · exact Keeps.notify _ _ _ _ _
    · exact Keeps.refl _
  · exact Keeps.refl _

theorem Keeps.metJudge (s : State) (seq : Byte) (fields : List Word) (check : Word) :
    Keeps s.yard (s.metJudge seq fields check).yard := by
  unfold State.metJudge
  split
  · exact Keeps.refl _
  · split
    · exact (Keeps.metSilence _ _).trans (Keeps.finish _)
    · exact (Keeps.newFrame _ _).trans (Keeps.finish _)

theorem Keeps.metSilenceExpires (s : State) : Keeps s.yard s.metSilenceExpires.yard := by
  unfold State.metSilenceExpires
  split
  · exact (Keeps.metSilence _ _).trans (Keeps.finish _)
  · exact Keeps.refl _

theorem Keeps.expireInterval (s : State) : Keeps s.yard s.expireInterval.yard := Keeps.notify _ _ _ _ _

theorem Keeps.takeFleetRestart (s : State) : Keeps s.yard s.takeFleetRestart.1.yard := by
  have k : Keeps s.yard { s.yard.restartFleet with assign := false } :=
    (Keeps.restartFleet s.yard).trans (Keeps.clearAssign _)
  unfold State.takeFleetRestart
  split
  · exact k
  · exact Keeps.refl s.yard

theorem Keeps.takeSetPattern (body : List Byte) (s : State) : (s.takeSetPattern body).1.yard = s.yard := by
  unfold State.takeSetPattern
  simp only
  split <;> rfl

theorem Keeps.takeReadMet (p : Port) (body : List Byte) (s : State) : (s.takeReadMet p body).1.yard = s.yard := by
  unfold State.takeReadMet
  split <;> try rfl
  split <;> rfl

theorem Keeps.takeClosePeriod (s : State) : (s.takeClosePeriod).1.yard = s.yard := by
  unfold State.takeClosePeriod
  split <;> rfl

theorem Keeps.takeSaveSettings (s : State) : (s.takeSaveSettings).1.yard = s.yard := by
  unfold State.takeSaveSettings
  split <;> rfl

theorem Keeps.ofEq {y z : Yard} (h : z = y) : Keeps y z := h ▸ Keeps.refl y

/-- The commands that record a carriage's position (R41, R42, R47). -/
def locates : Instr → Bool
  | .orderDone _ _ | .carriagePosition _ _ | .clearCarriage _ _ => true
  | _ => false

/-- The commands that change the configuration, the stamp, the start-up state or end a storm. -/
def configures : Instr → Bool
  | .setFence _ _ | .clearFence _ _ | .enrollRobot _ _ | .writeOffRobot _ _ | .setLane _ _ | .setListener _ _
  | .release _ _ | .writeSetting _ _ | .commitSettings _ _ | .startUpLoadEnd _ _ | .coldReset | .secondEvent
  | .intervalExpiry => true
  | _ => false

/-- Every other command keeps what `Keeps` names. -/
theorem exec_keeps (c : Instr) (s t : State) (h : exec c s = .next t) (hc : configures c = false)
    (hl : locates c = false) : Keeps s.yard t.yard := by
  have e : ∀ {u : State}, (Host.Outcome.next u : Host.Outcome State Fault Refusal) = .next t →
      Keeps s.yard u.yard → Keeps s.yard t.yard := by
    intro u hu k; cases hu; exact k
  cases c <;> simp only [configures, locates, Bool.true_eq_false] at hc hl
  case readStatus => exact e h (State.serve_keeps (Keeps.takeReadStatus _ _))
  case readNotices => exact e h (State.serve_keeps (Keeps.takeReadNotices _ _ _))
  case raiseAlert => exact e h (State.onYard_keeps (Keeps.takeRaiseAlert _ _))
  case readOrders => exact e h (State.serve_keeps (Keeps.refl _))
  case postureReport => exact e h (State.onYard_keeps (Keeps.takePostureReport _ _))
  case energyReport => exact e h (State.serve_keeps (Keeps.takeEnergyReport _ _))
  case readRows => exact e h (State.serve_keeps (Keeps.refl _))
  case readFences => exact e h (State.serve_keeps (Keeps.refl _))
  case robotStatus => exact e h (State.onYard_keeps (Keeps.takeRobotStatus _ _))
  case robotFault => exact e h (State.onYard_keeps (Keeps.takeRobotFault _ _))
  case clearRobot => exact e h (State.onYard_keeps (Keeps.takeClearRobot _ _))
  case readFleet => exact e h (State.serve_keeps (Keeps.takeReadFleet _ _ _))
  case transfer => exact e h (State.onYard_keeps (Keeps.takeTransfer _ _ _))
  case cancelTransfer => exact e h (State.onYard_keeps (Keeps.takeCancelTransfer _ _ _))
  case readTransfers => exact e h (State.serve_keeps (Keeps.refl _))
  case roundBuild => exact e h (State.onYard_keeps (Keeps.takeRoundBuild _ _))
  case sweep => exact e h (State.onYard_keeps (Keeps.makeSweep _))
  case plantPass => exact e h (State.onYard_keeps (Keeps.takePlantPass _ _))
  case cancelEntry => exact e h (State.onYard_keeps (Keeps.takeCancelEntry _ _))
  case readRounds => exact e h (State.serve_keeps (Keeps.takeReadRounds _ _ _))
  case testPulse => exact e h (State.onYard_keeps (Keeps.takeTestPulse _ _))
  case setPattern => exact e h (State.serve_keeps (Keeps.ofEq (Keeps.takeSetPattern _ _)))
  case readAlerts => exact e h (State.serve_keeps (Keeps.refl _))
  case readMet => exact e h (State.serve_keeps (Keeps.ofEq (Keeps.takeReadMet _ _ _)))
  case stowNow => exact e h (State.onYard_keeps (Keeps.takeStowNow _))
  case readStorm => exact e h (State.serve_keeps (Keeps.takeReadStorm _ _))
  case closePeriod => exact e h (State.serve_keeps (Keeps.ofEq (Keeps.takeClosePeriod _)))
  case readAccount => exact e h (State.serve_keeps (Keeps.refl _))
  case readRing => exact e h (State.serve_keeps (Keeps.refl _))
  case readSetting => exact e h (State.serve_keeps (Keeps.refl _))
  case saveSettings => exact e h (State.serve_keeps (Keeps.ofEq (Keeps.takeSaveSettings _)))
  case fleetRestart => exact e h (State.serve_keeps (Keeps.takeFleetRestart _))
  case unknownKindRequest => exact e h (State.frame_keeps (Keeps.refl _))
  case badLengthFrame => exact e h (State.frame_keeps (Keeps.refl _))
  case failedCheckFrame => exact e h (State.frame_keeps (Keeps.refl _))
  case strayByte => exact e h (by split <;> exact Keeps.refl _)
  case frameGapTimeout => exact e h (by split <;> exact Keeps.refl _)
  case framingErrorByte => exact e h (by split <;> exact Keeps.refl _)
  case overrunFrame => exact e h (by split <;> exact Keeps.refl _)
  case answerSent => exact e h (by split <;> exact Keeps.refl _)
  case metFrame => exact e h (by split; exact Keeps.metJudge _ _ _ _; exact Keeps.refl _)
  case metStrayByte => exact e h (by unfold State.metByte; split_ifs <;> exact Keeps.refl _)
  case metFrameGap => exact e h (by split <;> exact Keeps.refl _)
  case metSilenceExpiry => exact e h (Keeps.metSilenceExpires _)
  case alarmInputSample => exact e h (State.event_keeps (Keeps.sampleInputs _ _ _))
  case resetRelease => exact e h (Keeps.refl _)
  case saveComplete => exact e h (Keeps.endSave _ _)
  case saveTimeout => exact e h (Keeps.endSave _ _)
  case flattenTimerExpiry => exact e h (State.event_keeps (Keeps.flattenExpires _ _))
  case holdTimerExpiry => exact e h (State.event_keeps (Keeps.holdExpires _ _))
  case settleTimerExpiry => exact e h (State.event_keeps (Keeps.settleExpires _ _))
  case stowTimerExpiry => exact e h (State.event_keeps (Keeps.stowExpires _ _))
  case minuteEvent => exact e h (State.event_keeps (Keeps.minutePasses _))
  case robotSilenceExpiry => exact e h (State.event_keeps (Keeps.silenceExpires _ _))
  case phaseTimerExpiry => exact e h (State.event_keeps (Keeps.phaseExpires _ _))
  case nudgeTimerExpiry => exact e h (State.event_keeps (Keeps.nudgeExpires _ _))
  case roundTimerExpiry => exact e h (State.event_keeps (Keeps.roundExpires _))
  case passTimerExpiry => exact e h (State.event_keeps (Keeps.passExpires _ _))
  case stretchTimerExpiry => exact e h (State.event_keeps (Keeps.stretchExpires _ _))
  case recallDeadlineExpiry => exact e h (State.event_keeps (Keeps.deadlinePasses _))
  case closeWalkStep => exact e h (Keeps.walkStep _)

/-- A request that may record a position keeps what `Located` names. -/
theorem State.onYard_located {s : State} {k : Kind} {p : Port} {body : List Byte} {f : Yard → Yard × Reply}
    (h : Located s.yard (f s.yard).1) : Located s.yard (s.serve k p body (State.onYard f)).yard := by
  unfold State.serve State.frame
  split
  · exact .of_keeps (Keeps.refl _)
  · split
    · exact .of_keeps (Keeps.refl _)
    · show Located s.yard (Prod.fst (match requestRefusal s.yard.startUp k p body with
        | some reply => (s, reply)
        | none => s.onYard f)).yard
      split
      · exact .of_keeps (Keeps.refl _)
      · exact h.trans (Keeps.finish _)

/-- Every command but those that configure keeps what `Located` names. -/
theorem exec_located (c : Instr) (s t : State) (h : exec c s = .next t) (hc : configures c = false) :
    Located s.yard t.yard := by
  by_cases hl : locates c = false
  · exact .of_keeps (exec_keeps c s t h hc hl)
  · cases c <;> simp only [locates, not_true] at hl
    case orderDone => cases h; exact State.onYard_located (Located.takeOrderDone _ _)
    case carriagePosition => cases h; exact State.onYard_located (Located.takeCarriagePosition _ _)
    case clearCarriage => cases h; exact State.onYard_located (Located.takeClearCarriage _ _)

/-! ### The commands that configure -/

/-- Whatever holds of the yard before a request and after it is taken holds after its frame. -/
theorem State.serve_alters {Q : Yard → Prop} {s : State} {k : Kind} {p : Port} {body : List Byte}
    {take : State → State × Reply} (h₀ : Q s.yard) (h : Q (take s).1.yard) : Q (s.serve k p body take).yard := by
  unfold State.serve State.frame
  split
  · exact h₀
  · split
    · exact h₀
    · show Q (Prod.fst (match requestRefusal s.yard.startUp k p body with
        | some reply => (s, reply)
        | none => take s)).yard
      split
      · exact h₀
      · exact h

theorem execSetFence_keeps (p : Port) (body : List Byte) (s : State) :
    ∃ t, execSetFence p body s = .next t ∧ ∃ fences, Keeps { s.yard with fences := fences } t.yard := by
  refine ⟨_, rfl, State.serve_alters (Q := fun y => ∃ fences, Keeps { s.yard with fences := fences } y)
    ⟨s.yard.fences, Keeps.refl _⟩ ?_⟩
  show ∃ fences, Keeps { s.yard with fences := fences } (s.yard.takeSetFence body).1.finish
  unfold Yard.takeSetFence
  dsimp only
  split
  · exact ⟨s.yard.fences, Keeps.finish _⟩
  · exact ⟨s.yard.fences.set (byteAt body 0) (some (byteAt body 1, byteAt body 2)),
      (Keeps.overRows _ fun r z => Keeps.barByFence _ r z).trans (Keeps.finish _)⟩

theorem execClearFence_keeps (p : Port) (body : List Byte) (s : State) :
    ∃ t, execClearFence p body s = .next t ∧ ∃ fences, Keeps { s.yard with fences := fences } t.yard := by
  refine ⟨_, rfl, State.serve_alters (Q := fun y => ∃ fences, Keeps { s.yard with fences := fences } y)
    ⟨s.yard.fences, Keeps.refl _⟩ ?_⟩
  show ∃ fences, Keeps { s.yard with fences := fences } (s.yard.takeClearFence body).1.finish
  unfold Yard.takeClearFence
  dsimp only
  split
  · exact ⟨s.yard.fences, Keeps.finish _⟩
  · exact ⟨_, Keeps.finish _⟩

/-- The yard with other lane sources. -/
def Yard.withLanes (y : Yard) (lanes : List Nat) : Yard := { y with alerts := { y.alerts with lanes := lanes } }

theorem execSetLane_keeps (p : Port) (body : List Byte) (s : State) :
    ∃ t, execSetLane p body s = .next t ∧ ∃ lanes, Keeps (s.yard.withLanes lanes) t.yard := by
  refine ⟨_, rfl, State.serve_alters (Q := fun y => ∃ lanes, Keeps (s.yard.withLanes lanes) y)
    ⟨s.yard.alerts.lanes, Keeps.refl _⟩ ?_⟩
  show ∃ lanes, Keeps (s.yard.withLanes lanes) (s.yard.takeSetLane body).1.finish
  unfold Yard.takeSetLane
  dsimp only
  split
  · exact ⟨s.yard.alerts.lanes, Keeps.finish _⟩
  · split
    · exact ⟨s.yard.alerts.lanes, Keeps.finish _⟩
    · exact ⟨s.yard.alerts.lanes.set (byteAt body 0) (byteAt body 1),
        (Keeps.ite (fun _ => Keeps.refl _) fun _ => Keeps.hand _ _ _).trans (Keeps.finish _)⟩

theorem Keeps.selectionActs (x : Yard) (i : Nat) (z : Yard) : Keeps z (x.selectionActs i z) := by
  unfold Yard.selectionActs
  split
  · exact Keeps.ite (fun _ => Keeps.refl _) fun _ => Keeps.judgeWatch _
  · exact Keeps.ite (fun _ => Keeps.giveAssign _) fun _ => Keeps.refl _
  · exact Keeps.passAfter _ _ (Keeps.refl _)
  · exact Keeps.same
  · exact Keeps.same
  · exact Keeps.refl _

/-- The yard with other selections. -/
def Yard.withSelections (y : Yard) (chosen : List Nat) : Yard := { y with alerts := { y.alerts with listeners := chosen } }

theorem execSetListener_keeps (p : Port) (body : List Byte) (s : State) :
    ∃ t, execSetListener p body s = .next t ∧ ∃ chosen, Keeps (s.yard.withSelections chosen) t.yard := by
  refine ⟨_, rfl, State.serve_alters (Q := fun y => ∃ chosen, Keeps (s.yard.withSelections chosen) y)
    ⟨s.yard.alerts.listeners, Keeps.refl _⟩ ?_⟩
  show ∃ chosen, Keeps (s.yard.withSelections chosen) (s.yard.takeSetListener body).1.finish
  unfold Yard.takeSetListener
  dsimp only
  split
  · exact ⟨s.yard.alerts.listeners, Keeps.finish _⟩
  · split
    · exact ⟨s.yard.alerts.listeners, Keeps.finish _⟩
    · exact ⟨s.yard.alerts.listeners.set (byteAt body 0) (byteAt body 1),
        (Keeps.selectionActs _ _ _).trans (Keeps.finish _)⟩

/-- The enrolment of one robot may change, and nothing else that `Keeps` names. -/
def EnrolsOne (y z : Yard) : Prop :=
  ∃ x k f, Keeps y x ∧ (y.occupancyTrue → (x.setRobot k f).occupancyTrue) ∧ Keeps (x.setRobot k f) z

theorem EnrolsOne.of_keeps {y z : Yard} (h : Keeps y z) : EnrolsOne y z := by
  have : y.setRobot y.robots.length id = y := by
    simp [Yard.setRobot, Yard.makesAvailable, List.modify_id]
  exact ⟨y, y.robots.length, id, Keeps.refl y, fun o => by rwa [this], by rwa [this]⟩

/-- A robot that leaves its place for UNKNOWN keeps the occupancy law. -/
theorem Yard.vacated_unknown {x : Yard} {k : Nat} {f : Robot → Robot} (hf : ∀ b, (f b).place = .unknown)
    (h : x.occupancyTrue) : ((x.vacate k).setRobot k f).occupancyTrue := by
  intro j hj
  have hj' : j < (x.vacate k).robots.length := by simpa using hj
  have hx : j < x.robots.length := by rwa [Keeps.vacate_robots] at hj'
  show (x.vacate k).fieldsName j _
  by_cases e : j = k
  · subst e
    rw [Yard.robot_setRobot_same _ hj', hf]
    exact Keeps.vacate_nowhere x j (h j hx) _
  · rw [Yard.robot_setRobot_ne _ e]
    exact (Keeps.vacate x k).occupancyTrue h j hj'

theorem execEnrollRobot_keeps (p : Port) (body : List Byte) (s : State) :
    ∃ t, execEnrollRobot p body s = .next t ∧ EnrolsOne s.yard t.yard := by
  refine ⟨_, rfl, State.serve_alters (EnrolsOne.of_keeps (Keeps.refl _)) ?_⟩
  show EnrolsOne s.yard (s.yard.takeEnrollRobot body).1.finish
  unfold Yard.takeEnrollRobot
  dsimp only
  split
  · exact EnrolsOne.of_keeps (Keeps.finish _)
  · split
    · exact EnrolsOne.of_keeps (Keeps.finish _)
    · exact ⟨s.yard.vacate (byteAt body 0), byteAt body 0,
        fun b => freshRobot true b.lastSerial (some s.yard.settings.robotSilence), Keeps.vacate _ _,
        fun o => Yard.vacated_unknown (fun _ => rfl) o, Keeps.finish _⟩

theorem Keeps.writeOffRow (y : Yard) (k : Nat) : Keeps y (y.writeOffRow k) := by
  unfold Yard.writeOffRow
  split
  · exact Keeps.refl _
  · exact (Keeps.exposedFollows (Keeps.ite (fun _ => Keeps.settleRow _ _) fun _ => Keeps.stowRow _ _)).trans
      (Keeps.claimUnassigned _ _)

theorem Keeps.writeOffWork (y : Yard) (k : Nat) : Keeps y (y.writeOffWork k) := by
  unfold Yard.writeOffWork
  refine Keeps.trans ?_ (Keeps.unassignRobot _ _)
  split
  · exact Keeps.passEnds _ _
  · exact Keeps.refl _

/-- A write-off leaves the rail alone until it comes to the robot's transfer. -/
theorem RailSame.writeOff (y : Yard) (k : Nat) : RailSame y ((y.writeOffRow k).writeOffWork k) := by
  refine RailSame.trans (z := y.writeOffRow k) ?_ ?_
  · unfold Yard.writeOffRow
    split
    · exact .refl _
    · exact (RailSame.followStorm 13 (.ite (fun _ => .settleRow _ _) fun _ => .stowRow _ _)).trans (.claimUnassigned _ _)
  · unfold Yard.writeOffWork
    refine RailSame.trans ?_ (.unassignRobot _ _)
    split
    · exact .passEnds _ _
    · exact .refl _

/-- A robot's transfer is the same one where the rail is the same. -/
theorem RailSame.transferOfRobot {y z : Yard} (h : RailSame y z) (k : Nat) :
    (z.transferOfRobot k).map Transfer.work = (y.transferOfRobot k).map Transfer.work := by
  have e (x : Yard) : (x.transferOfRobot k).map Transfer.work =
      (x.rail.queue.map Transfer.work).find? fun w => w.2.1 == k := by
    rw [List.find?_map]
    rfl
  rw [e, e, h.queue]

theorem Keeps.writeOffTransfer (y : Yard) (k : Nat) (h : ∀ t, y.transferOfRobot k = some t → t.phase = .waiting) :
    Keeps y (y.writeOffTransfer k) := by
  unfold Yard.writeOffTransfer
  split
  · rename_i t ht
    exact (Keeps.closeWaiting _ _ _ (List.mem_of_find?_eq_some ht) (h t ht)).trans (Keeps.judgeHoldoff Keeps.handQuiet _)
  · exact Keeps.refl _

theorem execWriteOffRobot_keeps (p : Port) (body : List Byte) (s : State) :
    ∃ t, execWriteOffRobot p body s = .next t ∧ EnrolsOne s.yard t.yard := by
  refine ⟨_, rfl, State.serve_alters (EnrolsOne.of_keeps (Keeps.refl _)) ?_⟩
  show EnrolsOne s.yard (s.yard.takeWriteOffRobot body).1.finish
  unfold Yard.takeWriteOffRobot
  dsimp only
  split
  · exact EnrolsOne.of_keeps (Keeps.finish _)
  · split
    · exact EnrolsOne.of_keeps (Keeps.finish _)
    · rename_i hw
      generalize byteAt body 0 = k at hw
      have waiting : ∀ t, ((s.yard.writeOffRow k).writeOffWork k).transferOfRobot k = some t → t.phase = .waiting := by
        intro t ht
        have e := (RailSame.writeOff s.yard k).transferOfRobot k
        rw [ht] at e
        cases hu : s.yard.transferOfRobot k with
        | none => simp [hu] at e
        | some u =>
          simp only [hu, Option.map_some, Option.some.injEq] at e
          have : t.phase = u.phase := congrArg (fun w => w.2.2.2.1) e
          simpa [hu, this] using hw
      have k₃ := (Keeps.writeOffRow _ k).trans ((Keeps.writeOffWork _ k).trans (Keeps.writeOffTransfer _ k waiting))
      exact ⟨_, k, fun b => freshRobot false b.lastSerial none, k₃.trans (Keeps.vacate _ _),
        fun o => Yard.vacated_unknown (fun _ => rfl) (k₃.occupancyTrue o),
        (Keeps.passAfter _ _ (Keeps.refl _)).trans ((Keeps.judgeTablesClear _).trans (Keeps.finish _))⟩

theorem Keeps.releaseRow (r : Nat) (z : Yard) : Keeps z (Yard.releaseRow r z) := by
  unfold Yard.releaseRow
  split
  · exact (Keeps.settleRow _ _).trans (Keeps.setRow _ _ _)
  · exact (Keeps.settleRow _ _).trans (Keeps.setRow _ _ _)
  · exact Keeps.setCustody _ _ _ (by simp only [‹(z.row r).custody = _›]; rfl)
  · exact Keeps.refl _

/-- What a Release does to the yard: where it is taken, the state changes to CALM in the middle of it. -/
def Released (y z : Yard) : Prop := Keeps y z ∨ ∃ x, Keeps y x ∧ Keeps (x.changeStorm .calm .release none) z

theorem execRelease_keeps (p : Port) (body : List Byte) (s : State) :
    ∃ t, execRelease p body s = .next t ∧ Released s.yard t.yard := by
  refine ⟨_, rfl, State.serve_alters (.inl (Keeps.refl _)) ?_⟩
  show Released s.yard (s.yard.takeRelease.1.finish)
  unfold Yard.takeRelease
  split
  · exact .inl (Keeps.finish _)
  · split
    · exact .inl ((Keeps.countStorm _ _).trans (Keeps.finish _))
    · refine .inr ⟨s.yard.exposedFollows (s.yard.overRows Yard.releaseRow),
        Keeps.exposedFollows (Keeps.overRows _ fun r z => Keeps.releaseRow r z), Keeps.trans ?_ (Keeps.finish _)⟩
      show Keeps _ (Yard.releaseBlock _)
      unfold Yard.releaseBlock
      dsimp only
      generalize s.yard.exposedFollows (s.yard.overRows Yard.releaseRow) = y₁
      generalize y₁.changeStorm .calm .release none = y₂
      have k : Keeps y₂ (Yard.followWith Yard.hand 11 y₁ y₂) := by
        unfold Yard.followWith
        exact Keeps.ite (fun _ => Keeps.refl _) fun _ => Keeps.hand _ _ _
      exact k.trans ((Keeps.pulse _ _).trans (Keeps.giveAssign _))

theorem execCommitSettings_keeps (p : Port) (body : List Byte) (s : State) :
    ∃ t, execCommitSettings p body s = .next t ∧ ∃ u, t.yard = { s.yard with startUp := u } := by
  refine ⟨_, rfl, State.serve_alters (Q := fun z => ∃ u, z = { s.yard with startUp := u }) ⟨s.yard.startUp, rfl⟩ ?_⟩
  unfold State.takeCommitSettings
  dsimp only
  split
  · exact ⟨_, rfl⟩
  · exact ⟨s.yard.startUp, rfl⟩

theorem Keeps.tickYard (y : Yard) : Keeps y (State.tickYard y) :=
  (Keeps.mapRows y (fun w => { w with timer := State.tick w.timer }) (fun _ => ⟨rfl, rfl⟩) fun _ => rfl).trans
    ((Keeps.withRobots _ (l := y.robots.map fun b => { b with silenceTimer := State.tick b.silenceTimer })
      (by simp [Function.comp_def]) (by simp [Function.comp_def])).trans
      (Keeps.same (nudges := by simp [State.tickYard]) (passTimers := by simp [State.tickYard])
        (queue := by simp [State.tickYard, Function.comp_def, Transfer.work])))

/-- What the passing of a second keeps, from the yard whose stamp has counted it. -/
theorem State.secondPasses_keeps (s : State) :
    s.secondPasses.yard = s.yard ∨ Keeps (State.tickStamp s.yard) s.secondPasses.yard := by
  unfold State.secondPasses
  split
  · right
    refine (Keeps.tickYard (State.tickStamp s.yard)).trans ?_
    unfold State.countInterval
    split
    · split
      · exact Keeps.notify _ _ _ _ _
      · exact Keeps.refl _
    · exact Keeps.refl _
  · split
    · right; exact Keeps.refl _
    · left; rfl

theorem execSecondEvent_keeps (s : State) :
    ∃ t, execSecondEvent s = .next t ∧ (t.yard = s.yard ∨ Keeps (State.tickStamp s.yard) t.yard) :=
  ⟨_, rfl, s.secondPasses_keeps⟩

theorem execIntervalExpiry_keeps (s : State) :
    ∃ t, execIntervalExpiry s = .next t ∧ (t.yard = s.yard ∨ Keeps (State.tickStamp s.yard) t.yard) := by
  refine ⟨_, rfl, ?_⟩
  unfold State.intervalExpires
  split
  · split
    · exact s.secondPasses_keeps
    · exact .inl rfl
  · exact .inl rfl

/-- What the law of the rail reads of the settings: the structural ones among them (R189). -/
def Settings.layout (st : Settings) : Nat × Nat × List Nat := (st.rows, st.carriages, st.dockPos)

/-- Only a structural setting changes the layout (R189). -/
theorem Settings.put_layout (st : Settings) (code v : Nat) (h : structuralCode code = false) :
    (st.put code v).layout = st.layout := by
  unfold Settings.put
  split <;> first | rfl | (exact absurd h (by decide))

/-- A setting in its range leaves at most 192 rows (R189). -/
theorem Settings.put_rows (st : Settings) (code v : Nat) (h : st.rows ≤ 192) (hr : st.inRange code v = true) :
    (st.put code v).rows ≤ 192 := by
  unfold Settings.put
  split <;> first | exact h | skip
  simp only [Settings.inRange, Machine.between, decide_eq_true_eq] at hr
  exact hr.2

/-- What a Write Setting does to the yard: nothing, a value that becomes live, or a structural change while the block is
idle. -/
def Rewritten (s : State) (st : Settings) (z : Yard) : Prop :=
  Keeps s.yard z ∨
    (st.crossLimits = true ∧ st.layout = s.yard.settings.layout ∧ Keeps { s.yard with settings := st } z) ∨
    (st.crossLimits = true ∧ s.idle = true ∧ Keeps (Yard.remade { s.yard with settings := st }) z)

theorem execWriteSetting_keeps (p : Port) (body : List Byte) (s : State) :
    ∃ t, execWriteSetting p body s = .next t ∧
      (Keeps s.yard t.yard ∨ (s.yard.settings.inRange (byteAt body 0) (wordAt body 1) = true ∧
        Rewritten s (s.yard.settings.put (byteAt body 0) (wordAt body 1)) t.yard)) := by
  refine ⟨_, rfl, State.serve_alters (Q := fun z => Keeps s.yard z ∨
    (s.yard.settings.inRange (byteAt body 0) (wordAt body 1) = true ∧
      Rewritten s (s.yard.settings.put (byteAt body 0) (wordAt body 1)) z)) (.inl (Keeps.refl _)) ?_⟩
  unfold State.takeWriteSetting
  dsimp only
  split
  · exact .inl (Keeps.refl _)
  · split
    · exact .inl (Keeps.refl _)
    · rename_i _ hr
      have hr₁ : s.yard.settings.inRange (byteAt body 0) (wordAt body 1) = true := by
        by_contra h
        exact hr (.inl (by simpa using h))
      have hr₂ : (s.yard.settings.put (byteAt body 0) (wordAt body 1)).crossLimits = true := by
        by_contra h
        exact hr (.inr (by simpa using h))
      split
      · split
        · exact .inl (Keeps.refl _)
        · split
          · exact .inl (Keeps.refl _)
          · exact .inr ⟨hr₁, .inr (.inr ⟨hr₂, by simp_all, Keeps.refl _⟩)⟩
      · rename_i hs
        refine .inr ⟨hr₁, .inr (.inl ⟨hr₂, Settings.put_layout _ _ _ (by simpa using hs), ?_⟩)⟩
        exact (Keeps.ite (fun _ => Keeps.judgeHoldoff Keeps.hand _) fun _ => Keeps.refl _).trans (Keeps.finish _)

/-- The end of the load applies the chosen image, or does nothing where no load is under way. -/
theorem execStartUpLoadEnd_keeps (w d : Bool) (s : State) :
    ∃ t, execStartUpLoadEnd w d s = .next t ∧ (t = s ∨ ∃ st,
      Keeps (State.startYard s.yard (State.startImage s.loader) st w d) t.yard) := by
  refine ⟨_, rfl, ?_⟩
  split
  · exact .inr ⟨_, Keeps.judgeWatch _⟩
  · exact .inl rfl

/-- Every command answers a next state, in every state: nothing stops the part. -/
theorem exec_answers (c : Instr) (s : State) : ∃ t, exec c s = .next t := by cases c <;> exact ⟨_, rfl⟩

/-- What a lemma says of the state a command answers holds of the state it answered. -/
theorem exec_next {s t : State} {c : Instr} {Q : State → Prop} (h : exec c s = .next t)
    (h' : ∃ u, exec c s = .next u ∧ Q u) : Q t := by
  obtain ⟨u, h₁, h₂⟩ := h'
  rw [h] at h₁
  cases h₁
  exact h₂

end Sys2Proof.Machine
end

