-- ==== Sys2Proof/Laws/AtRest.lean ====
section
/-! SUPPORT. A yard at rest holds every law of the tables: after reset, after start-up and after a structural change; and
a change of the settings that leaves the layout alone keeps the law of the rail. -/

-- One proof after another: the package as one text would ask for too many threads at once.
set_option Elab.async false

namespace Sys2Proof.Machine

namespace Yard

/-- Every row is in TRACK, every table is empty, and the carriages have neither position nor work. -/
structure AtRest (z : Yard) : Prop where
  rows : ∀ w ∈ z.rows, w.custody = .track ∧ w.holder = none ∧ w.garageOccupant = none
  carriages : ∀ c ∈ z.carriages, c.work = (none, none, none) ∧ c.load = none
  docks : z.docks = List.replicate 4 freshDock
  queue : z.rail.queue = []
  segments : z.rail.segments = List.replicate 24 none
  list : z.rounds.list = []

namespace AtRest

variable {z : Yard}

theorem row (a : z.AtRest) (r : Nat) : (z.row r).garageOccupant = none := by
  rw [Yard.row, List.getD_eq_getElem?_getD]
  cases hg : z.rows[r]? with
  | none => rfl
  | some w => exact (a.rows w (List.mem_of_getElem? hg)).2.2

theorem carriage (a : z.AtRest) (c : Nat) : (z.carriage c).work = (none, none, none) ∧ (z.carriage c).load = none := by
  rw [Yard.carriage, List.getD_eq_getElem?_getD]
  cases hg : z.carriages[c]? with
  | none => exact ⟨rfl, rfl⟩
  | some w => exact a.carriages w (List.mem_of_getElem? hg)

theorem position (a : z.AtRest) (c : Nat) : (z.carriage c).position = none := congrArg Prod.fst (a.carriage c).1

theorem order (a : z.AtRest) (c : Nat) : (z.carriage c).order = none := congrArg (fun w => w.2.1) (a.carriage c).1

theorem task (a : z.AtRest) (c : Nat) : (z.carriage c).task = none := congrArg (fun w => w.2.2) (a.carriage c).1

theorem dock (a : z.AtRest) (d : Nat) : (z.dock d).occupant = none := by
  rw [Yard.dock, List.getD_eq_getElem?_getD, a.docks, List.getElem?_replicate]
  split <;> rfl

theorem queueFits (a : z.AtRest) : z.queueFits := by simp [Yard.queueFits, a.queue]

theorem listFits (a : z.AtRest) : z.listFits := by simp [Yard.listFits, a.list]

theorem listDistinct (a : z.AtRest) : z.listDistinct := by simp [Yard.listDistinct, a.list]

theorem holdersFit (a : z.AtRest) : z.holdersFit := fun w h => by
  simp [Row.holderFits, (a.rows w h).1, (a.rows w h).2.1, Custody.hasHolder]

theorem occupancyTrue (a : z.AtRest) : z.occupancyTrue := fun k _ =>
  ⟨by simp [a.row], by simp [a.dock], by simp [(a.carriage _).2]⟩

theorem positionsRise (a : z.AtRest) : z.positionsRise := by simp [Yard.positionsRise, a.position]

theorem positionsFree (a : z.AtRest) : z.positionsFree := by simp [Yard.positionsFree, a.position]

theorem railFits (a : z.AtRest) (h : z.settings.rows ≤ 192) (n : z.rows.length ≤ 192) : z.railFits where
  rowsOnRail := ⟨h, by simpa [a.segments] using n⟩
  positionsOnRail := by simp [a.position]
  carriagesAbsent := by simp [a.position, a.task]
  tagsDistinct := by simp [a.queue]
  destinationsFixed := by simp [a.queue]
  carriagesFit := fun c => railFits.idle_fits (by simp [a.order]) (a.task c)

end AtRest

theorem freshRows_rest (st : Settings) : ∀ w ∈ freshRows st, w.custody = .track ∧ w.holder = none ∧ w.garageOccupant = none :=
  fun w h => by
    rw [List.eq_of_mem_replicate h]
    exact ⟨rfl, rfl, rfl⟩

theorem freshCarriages_rest {n : Nat} :
    ∀ c ∈ List.replicate n (freshCarriage 0), c.work = (none, none, none) ∧ c.load = none := fun c h => by
  rw [List.eq_of_mem_replicate h]
  exact ⟨rfl, rfl⟩

/-- The yard after a cold reset (R27, R49, R77, R103). -/
theorem freshYard_atRest (n : Nat) : (freshYard n).AtRest :=
  ⟨freshRows_rest defaultSettings, freshCarriages_rest, rfl, rfl, rfl, rfl⟩

theorem freshYard_railFits (n : Nat) : (freshYard n).railFits :=
  (freshYard_atRest n).railFits (Nat.le_refl 192)
    (List.length_replicate (n := defaultSettings.rows) (a := freshRow (startAge defaultSettings))).le

/-- The yard as a structural change leaves it (R191). -/
theorem remade_atRest (y : Yard) : y.remade.AtRest where
  rows := freshRows_rest _
  carriages := fun c h => by
    obtain ⟨d, _, rfl⟩ := List.mem_map.1 h
    exact ⟨rfl, rfl⟩
  docks := rfl
  queue := rfl
  segments := rfl
  list := rfl

/-- The yard as start-up leaves it (R198). -/
theorem startYard_atRest (y : Yard) (im : Image) (st : StartUp) (w d : Bool) : (State.startYard y im st w d).AtRest :=
  ⟨freshRows_rest _, freshCarriages_rest, rfl, rfl, rfl, rfl⟩

end Yard

/-- The image that start-up takes has at most 192 rows: a good one by R197, and the defaults. -/
theorem State.startImage_rows (l : Loader) : (State.startImage l).settings.rows ≤ 192 := by
  have good (im : Image) (h : im.good = true) : im.settings.rows ≤ 192 := by
    simp only [Image.good, Bool.and_eq_true, List.all_eq_true] at h
    have := h.1.1.1.1.1.2 1 (by decide)
    simp only [Settings.inRange, Settings.value, Machine.between, decide_eq_true_eq] at this
    exact this.2
  unfold State.startImage Loader.chooseSlot
  cases h₀ : l.slot0.good <;> cases h₁ : l.slot1.good <;> simp only
  · decide
  · exact good _ h₁
  · exact good _ h₀
  · by_cases hn : newerIsOne l.slot0.generation l.slot1.generation = true
    · simp only [hn, if_true]
      exact good _ h₁
    · rw [if_neg hn]
      exact good _ h₀

/-- The law of the rail reads of the settings the layout alone, and with it the laws of R33 and R58. -/
theorem Yard.resettled {y : Yard} {st : Settings} (h : st.layout = y.settings.layout) (f : y.railFits)
    (hr : y.positionsRise) (hf : y.positionsFree) :
    ({ y with settings := st } : Yard).railFits ∧ ({ y with settings := st } : Yard).positionsRise ∧
      ({ y with settings := st } : Yard).positionsFree := by
  simp only [Settings.layout, Prod.mk.injEq] at h
  obtain ⟨h₁, h₂, h₃⟩ := h
  refine ⟨{
    rowsOnRail := ⟨h₁ ▸ f.rowsOnRail.1, f.rowsOnRail.2⟩
    positionsOnRail := f.positionsOnRail
    carriagesAbsent := fun c hc => f.carriagesAbsent c (h₂ ▸ hc)
    tagsDistinct := f.tagsDistinct
    destinationsFixed := f.destinationsFixed
    carriagesFit := fun c => ⟨(f.carriagesFit c).1, fun tag e => ?_, (f.carriagesFit c).2.2⟩ },
    fun i j p q hij hj => hr i j p q hij (h₂ ▸ hj), fun i p hi => hf i p (h₂ ▸ hi)⟩
  obtain ⟨t, mt, tt, ct, pt, p, hp, w⟩ := (f.carriagesFit c).2.1 tag e
  refine ⟨t, mt, tt, ct, pt, p, hp, ?_⟩
  have d : ({ y with settings := st } : Yard).destinationPosition t = y.destinationPosition t := by
    have := f.destinationsFixed t mt
    unfold Yard.destinationPosition Yard.placePosition Yard.dockPosition
    cases hd : t.destination <;> simp_all
  rw [d]
  exact w

end Sys2Proof.Machine
end

