-- ==== Sys2Proof/Laws/Choices.lean ====
section
/-! SUPPORT. What a choice comes to: the nearest of a range of numbered things (R61, R91, R100), the items that no rule orders
(R127), the entry nearest the tail (R81), the next entry of a walk (R90); and what a span, an edge at one listener and the end of
the queue come to (R59, R109, R76). -/

-- One proof after another: the package as one text would ask for too many threads at once.
set_option Elab.async false

namespace Sys2Proof.Machine

/-! ### The nearest -/

/-- The pair that the search for the nearest holds after the first `n` numbers. -/
def nearestUpTo (dist : Nat → Option Nat) (n : Nat) : Option (Nat × Nat) :=
  (List.range n).foldl (fun best i => match dist i with
    | some d => nearerOf best i d
    | none => best) none

theorem nearestUpTo_succ (dist : Nat → Option Nat) (n : Nat) :
    nearestUpTo dist (n + 1) = match dist n with
      | some d => nearerOf (nearestUpTo dist n) n d
      | none => nearestUpTo dist n := by
  simp [nearestUpTo, List.range_succ]

theorem nearestUpTo_none (dist : Nat → Option Nat) (n : Nat) :
    nearestUpTo dist n = none ↔ ∀ j, j < n → dist j = none := by
  induction n with
  | zero => simp [nearestUpTo]
  | succ n ih =>
    rw [nearestUpTo_succ]
    constructor
    · intro h j hj
      cases hd : dist n with
      | some d =>
        simp only [hd] at h
        unfold nearerOf at h
        split at h
        · cases h
        · split at h <;> cases h
      | none =>
        rw [hd] at h
        rcases Nat.lt_succ_iff_lt_or_eq.1 hj with hj | rfl
        · exact ih.1 h j hj
        · exact hd
    · intro h
      rw [h n (Nat.lt_succ_self n)]
      exact ih.2 fun j hj => h j (Nat.lt_succ_of_lt hj)

/-- The nearest of the first `n` numbers, the lower number on a tie. -/
theorem nearestUpTo_some (dist : Nat → Option Nat) (n i d : Nat) :
    nearestUpTo dist n = some (i, d) ↔
      i < n ∧ dist i = some d ∧ ∀ j e, j < n → dist j = some e → d < e ∨ (d = e ∧ i ≤ j) := by
  induction n generalizing i d with
  | zero => simp [nearestUpTo]
  | succ n ih =>
    rw [nearestUpTo_succ]
    cases hd : dist n with
    | none =>
      simp only [ih]
      constructor
      · rintro ⟨h₁, h₂, h₃⟩
        refine ⟨by omega, h₂, fun j e hj he => ?_⟩
        by_cases hjn : j = n
        · subst hjn
          rw [hd] at he
          cases he
        · exact h₃ j e (by omega) he
      · rintro ⟨h₁, h₂, h₃⟩
        have : i ≠ n := fun e => by rw [e, hd] at h₂; cases h₂
        exact ⟨by omega, h₂, fun j e hj he => h₃ j e (by omega) he⟩
    | some a =>
      cases hb : nearestUpTo dist n with
      | none =>
        have hn := (nearestUpTo_none dist n).1 hb
        simp only [nearerOf, Option.some.injEq, Prod.mk.injEq]
        constructor
        · rintro ⟨rfl, rfl⟩
          refine ⟨by omega, hd, fun j e hj he => ?_⟩
          by_cases hjn : j = n
          · subst hjn
            rw [hd] at he
            cases he
            exact Or.inr ⟨rfl, Nat.le_refl _⟩
          · rw [hn j (by omega)] at he
            cases he
        · rintro ⟨h₁, h₂, _⟩
          by_cases hin : i = n
          · subst hin
            rw [hd] at h₂
            cases h₂
            exact ⟨rfl, rfl⟩
          · rw [hn i (by omega)] at h₂
            cases h₂
      | some b =>
        obtain ⟨m, c⟩ := b
        obtain ⟨hm₁, hm₂, hm₃⟩ := (ih m c).1 hb
        simp only [nearerOf]
        by_cases hac : a < c
        · rw [if_pos hac]
          simp only [Option.some.injEq, Prod.mk.injEq]
          constructor
          · rintro ⟨rfl, rfl⟩
            refine ⟨by omega, hd, fun j e hj he => ?_⟩
            by_cases hjn : j = n
            · subst hjn
              rw [hd] at he
              cases he
              exact Or.inr ⟨rfl, Nat.le_refl _⟩
            · rcases hm₃ j e (by omega) he with h | h <;> omega
          · rintro ⟨h₁, h₂, h₃⟩
            have := h₃ n a (by omega) hd
            by_cases hin : i = n
            · subst hin
              rw [hd] at h₂
              cases h₂
              exact ⟨rfl, rfl⟩
            · have := hm₃ i d (by omega) h₂
              omega
        · rw [if_neg hac]
          simp only [Option.some.injEq, Prod.mk.injEq]
          constructor
          · rintro ⟨rfl, rfl⟩
            refine ⟨by omega, hm₂, fun j e hj he => ?_⟩
            by_cases hjn : j = n
            · subst hjn
              rw [hd] at he
              cases he
              omega
            · exact hm₃ j e (by omega) he
          · rintro ⟨h₁, h₂, h₃⟩
            have h := h₃ m c (by omega) hm₂
            by_cases hin : i = n
            · subst hin
              rw [hd] at h₂
              cases h₂
              omega
            · have k := hm₃ i d (by omega) h₂
              omega

theorem nearest_range (dist : Nat → Option Nat) (n : Nat) :
    nearest dist (List.range n) = (nearestUpTo dist n).map Prod.fst := rfl

/-- The nearest of the first `n` numbers: it has the least distance, and the lower number on a tie. -/
theorem nearest_range_some (dist : Nat → Option Nat) (n i : Nat) :
    nearest dist (List.range n) = some i ↔
      i < n ∧ ∃ d, dist i = some d ∧ ∀ j e, j < n → dist j = some e → d < e ∨ (d = e ∧ i ≤ j) := by
  rw [nearest_range, Option.map_eq_some_iff]
  constructor
  · rintro ⟨⟨m, d⟩, h, rfl⟩
    obtain ⟨h₁, h₂⟩ := (nearestUpTo_some dist n m d).1 h
    exact ⟨h₁, d, h₂⟩
  · rintro ⟨h₁, d, h₂⟩
    exact ⟨(i, d), (nearestUpTo_some dist n i d).2 ⟨h₁, h₂⟩, rfl⟩

theorem nearest_range_none (dist : Nat → Option Nat) (n : Nat) :
    nearest dist (List.range n) = none ↔ ∀ j, j < n → dist j = none := by
  rw [nearest_range, Option.map_eq_none_iff, nearestUpTo_none]

/-! ### Items in a free order -/

theorem insertFree_perm (n i : Nat) (l : List Nat) : (insertFree n i l).Perm (i :: l) := by
  induction l with
  | nil => exact .refl _
  | cons j rest ih =>
    unfold insertFree
    split
    · exact .refl _
    · exact (ih.cons j).trans (.swap i j rest)

theorem freeOrder_perm (n : Nat) (l : List Nat) : (freeOrder n l).Perm l := by
  induction l with
  | nil => exact .refl _
  | cons i rest ih => exact (insertFree_perm n i _).trans (ih.cons i)

/-- Items that no rule orders are each acted on once, in some order. -/
theorem Yard.inFreeOrder_spec (y : Yard) (items : List Nat) (act : Nat → Yard → Yard) :
    ∃ (order : List Nat) (draws : Nat), order.Perm items ∧
      y.inFreeOrder items act = order.foldl (fun z i => act i z) { y with freeCount := draws } := by
  match items with
  | [] => exact ⟨[], y.freeCount, .refl _, rfl⟩
  | [i] => exact ⟨[i], y.freeCount, .refl _, rfl⟩
  | i :: j :: rest => exact ⟨_, y.freeCount + 1, freeOrder_perm y.freeCount (i :: j :: rest), rfl⟩

/-! ### Entries of the list -/

/-- The last item of a list that passes a test, by what stands after it. -/
theorem find?_reverse {α : Type} {l front back : List α} {p : α → Bool} {x : α} (h : l = front ++ x :: back)
    (hx : p x = true) (hb : ∀ z ∈ back, p z = false) : l.reverse.find? p = some x := by
  subst h
  rw [List.reverse_append, List.reverse_cons, List.append_assoc, List.find?_append,
    List.find?_eq_none.2 (by simpa using hb)]
  simp [hx]

/-- The next item of a walk, by what stands before it. -/
theorem find?_next {α : Type} {l front back : List α} {p : α → Bool} {x : α} (h : l = front ++ x :: back)
    (hf : ∀ z ∈ front, p z = false) (hx : p x = true) : l.find? p = some x := by
  subst h
  rw [List.find?_append, List.find?_eq_none.2 (by simpa using hf)]
  simp [hx]

/-! ### The walk of the list (R90) -/

/-- Where every entry has been judged, the walk is over. -/
theorem Yard.walkList_done (pass : Yard → Yard) {y : Yard} {judged : List Nat} (h : ∀ e ∈ y.rounds.list, e.row ∈ judged)
    (n : Nat) (full : Bool) : y.walkList pass n full judged = y := by
  cases n with
  | zero => rfl
  | succ n =>
    unfold Yard.walkList
    rw [List.find?_eq_none.2 (by simpa using h)]

/-- The walk judges the first entry that it has not judged yet. -/
theorem Yard.walkList_next (pass : Yard → Yard) {y : Yard} {judged : List Nat} {front back : List Entry} {e : Entry}
    (hl : y.rounds.list = front ++ e :: back) (hf : ∀ x ∈ front, x.row ∈ judged) (he : e.row ∉ judged) (n : Nat)
    (full : Bool) : y.walkList pass (n + 1) full judged =
      (y.judgeEntry pass full e).1.walkList pass n (y.judgeEntry pass full e).2 (e.row :: judged) := by
  rw [Yard.walkList.eq_2, find?_next hl (by simpa using hf) (by simpa using he)]

/-! ### Carriages and spans (R59 to R64) -/

theorem Carriage.restful_iff (w : Carriage) : w.restful = true ↔ w.fault = false ∧ w.order = none := by
  unfold Carriage.restful Carriage.state
  cases w.fault <;> cases h : w.order <;> simp

theorem Carriage.free_iff (w : Carriage) :
    w.free = true ↔ (w.fault = false ∧ w.order = none) ∧ w.load = none ∧ w.task = none := by
  unfold Carriage.free
  simp [Carriage.restful_iff, and_assoc]

theorem Yard.spanFree_iff (y : Yard) (sp : Span) : y.spanFree sp = true ↔
    ∀ s, s < y.rail.segments.length → sp.first ≤ s → s ≤ sp.last → y.reservation s = none := by
  simp only [Yard.spanFree, List.all_eq_true, List.mem_range, Bool.or_eq_true, Bool.not_eq_true', Span.has,
    decide_eq_false_iff_not, Option.isNone_iff_eq_none]
  refine forall₂_congr fun s _ => ⟨fun h h₁ h₂ => h.resolve_left fun n => n ⟨h₁, h₂⟩, fun h => ?_⟩
  by_cases hh : sp.first ≤ s ∧ s ≤ sp.last
  · exact .inr (h hh.1 hh.2)
  · exact .inl hh

theorem Yard.mem_othersInside (y : Yard) (sp : Span) (c i : Nat) : i ∈ y.othersInside sp c ↔
    i < y.settings.carriages ∧ i ≠ c ∧
      ∃ x, (y.carriage i).position = some x ∧ sp.first ≤ x / 8 ∧ x / 8 ≤ sp.last := by
  simp only [Yard.othersInside, Yard.carriageList, List.mem_filter, List.mem_range, Yard.inside, Bool.and_eq_true,
    bne_iff_ne]
  cases (y.carriage i).position with
  | none => simp
  | some v =>
    have : sp.has (segmentOf v) = true ↔ sp.first ≤ v / 8 ∧ v / 8 ≤ sp.last := decide_eq_true_iff
    simp [this]

/-! ### Edges (R109) -/

theorem Yard.stretch_none (y : Yard) {i : Nat} (h₅ : i ≠ 5) (h₆ : i ≠ 6) : y.stretch [i] = y := by
  have a : List.contains [i] 5 = false := by simpa using Ne.symm h₅
  have b : List.contains [i] 6 = false := by simpa using Ne.symm h₆
  unfold Yard.stretch
  rw [a, b]
  simp

/-- An edge at one listener that acts on it in a free order does what that listener does. -/
theorem Yard.hand_one {e : Edge} {i : Nat} (h : e.actsOn i = true) (y : Yard) :
    Yard.hand e [i] y = Yard.listenerActs Yard.stowEdge Yard.arbiterPass e i y := by
  have hi : i ≠ 2 ∧ i ≠ 5 ∧ i ≠ 6 := by
    cases e <;> simp [Edge.actsOn] at h <;> omega
  have hf : e = .fall → i = 0 ∨ i = 4 := by
    rintro rfl
    simpa [Edge.actsOn] using h
  have hs : y.stretch [i] = y := Yard.stretch_none y hi.2.1 hi.2.2
  have two : (e = .fall ∧ [i].contains 2 = true) ↔ False := by simp [Ne.symm hi.1]
  unfold Yard.hand Yard.handWith
  simp only [hs, two, if_false, ite_self]
  by_cases late : i = 4 ∧ y.freezeLast = true
  · obtain ⟨rfl, hl⟩ := late
    have he : e = .fall := by
      cases e <;> simp [Edge.actsOn] at h
      rfl
    subst he
    simp only [List.filter, h, hl]
    rfl
  · have keeps : (e.actsOn i && !(i == 4 && y.freezeLast)) = true := by
      rw [h]
      by_cases h₄ : i = 4
      · have : y.freezeLast = false := by simpa [h₄] using late
        simp [this]
      · simp [h₄]
    have last : (e = .fall ∧ [i].contains 4 = true ∧ y.freezeLast = true) ↔ False := by
      refine ⟨fun ⟨_, b, c⟩ => late ⟨by simpa [eq_comm] using b, c⟩, False.elim⟩
    simp only [List.filter, keeps, last, if_false]
    rfl

/-! ### The end of the queue (R76) -/

theorem closeTransfer_tags (t : Transfer) (result : TransferResult) (y : Yard) :
    (Yard.closeTransfer t result y).rail.queue.map (·.tag) = (y.rail.queue.map (·.tag)).filter (· != t.tag) := by
  have tags (q : List Transfer) : q.map (·.tag) = (q.map Transfer.work).map (·.1) := by
    rw [List.map_map]
    rfl
  have rail : (y.reservePlace t.destination none).rail = y.rail := by
    unfold Yard.reservePlace
    split <;> rfl
  have e : (Yard.closeTransfer t result y).rail.queue.map Transfer.work =
      ((y.rail.queue.filter fun x => x.tag != t.tag).map Transfer.work) := by
    unfold Yard.closeTransfer
    dsimp only
    refine RailSame.queue ((RailSame.restRobot _ _).trans ((RailSame.notify _ _ _ _ _).trans
      ((RailSame.linkedEnd _ _ _).trans (.giveAssign _)))) |>.trans ?_
    rw [rail]
  rw [tags, e, ← tags, List.filter_map]
  rfl

/-- The entries that a storm ends leave the queue, each with its tag. -/
theorem endEach_empty (l : List Transfer) (y : Yard) (h : ∀ n ∈ y.rail.queue.map (·.tag), n ∈ l.map (·.tag)) :
    (l.foldl (fun z t => (Yard.abortTransfer t z).judgeHoldoff Yard.handStorm) y).rail.queue = [] := by
  induction l generalizing y with
  | nil => simpa [List.eq_nil_iff_forall_not_mem] using h
  | cons t l ih =>
    refine ih _ fun n hn => ?_
    have tags (q : List Transfer) : q.map (·.tag) = (q.map Transfer.work).map (·.1) := by
      rw [List.map_map]
      rfl
    rw [tags, (RailSame.judgeHoldoffStorm (Yard.abortTransfer t y)).queue, ← tags] at hn
    have left : (Yard.abortTransfer t y).rail.queue.map (·.tag) = (y.rail.queue.map (·.tag)).filter (· != t.tag) := by
      unfold Yard.abortTransfer
      dsimp only
      rw [closeTransfer_tags]
      split <;> rfl
    rw [left, List.mem_filter] at hn
    have := h n hn.1
    simp only [List.map_cons, List.mem_cons] at this
    rcases this with rfl | this
    · simp at hn
    · exact this

theorem Yard.endQueue_empty (y : Yard) : y.endQueue.rail.queue = [] := endEach_empty _ _ fun _ h => h

end Sys2Proof.Machine
end

