-- ==== Sys2Proof/Laws/Entries.lean ====
section
/-! SUPPORT. What removal and unassignment of a round-list entry can do (R80): the list, the link of a robot, and the
assignment event of a robot that no place makes available. -/

-- One proof after another: the package as one text would ask for too many threads at once.
set_option Elab.async false

namespace Sys2Proof.Machine

/-- An entry as unassignment leaves it (R80). -/
def Entry.free (e : Entry) : Entry := { e with robot := none, stage := .waiting }

namespace Yard

/-! ### The list -/

theorem unlink_rounds (y : Yard) (o : Option Nat) : (y.unlink o).rounds = y.rounds := by
  unfold unlink
  split <;> rfl

theorem removeEntry_list (y : Yard) (r : Nat) :
    (y.removeEntry r).rounds.list = y.rounds.list.filter fun x => x.row != r := by
  unfold removeEntry
  split
  · next h => exact (List.filter_eq_self.2 fun x hx => by simpa using Keeps.entryOf_none h x hx).symm
  · simp [unlink_rounds]

theorem unassign_list (y : Yard) (r : Nat) :
    (y.unassign r).rounds.list = y.rounds.list.map fun x => if x.row = r then x.free else x := by
  unfold unassign
  split
  · next h => exact ((List.map_congr_left fun x hx => if_neg (Keeps.entryOf_none h x hx)).trans (List.map_id' _)).symm
  · simp only [dropLinks_rounds, unlink_rounds]
    rfl

/-- The entry of another row stands. -/
theorem entryOf_unassign_ne (y : Yard) {r q : Nat} (h : q ≠ r) : (y.unassign r).entryOf q = y.entryOf q := by
  unfold entryOf
  rw [unassign_list, List.find?_map]
  have same : ((fun e : Entry => e.row == q) ∘ fun x : Entry => if x.row = r then x.free else x) = fun e => e.row == q := by
    funext x
    simp only [Function.comp]
    split <;> rfl
  rw [same]
  cases f : y.rounds.list.find? (fun e => e.row == q) with
  | none => rfl
  | some x =>
    have hx : x.row = q := by simpa using List.find?_some f
    simp [hx, h]

/-- The entry of the row goes back to WAITING without a robot. -/
theorem entryOf_unassign_same {y : Yard} {r : Nat} {e : Entry} (h : y.entryOf r = some e) :
    (y.unassign r).entryOf r = some e.free := by
  unfold entryOf at h ⊢
  rw [unassign_list, List.find?_map]
  have same : ((fun e : Entry => e.row == r) ∘ fun x : Entry => if x.row = r then x.free else x) = fun e => e.row == r := by
    funext x
    simp only [Function.comp]
    split <;> rfl
  have hx : e.row = r := by simpa using List.find?_some h
  rw [same, h]
  simp [hx]

theorem entryOf_removeEntry_same (y : Yard) (r : Nat) : (y.removeEntry r).entryOf r = none := by
  unfold entryOf
  rw [removeEntry_list]
  simp

theorem entryOf_removeEntry_ne (y : Yard) {r q : Nat} (h : q ≠ r) : (y.removeEntry r).entryOf q = y.entryOf q := by
  unfold entryOf
  rw [removeEntry_list, List.find?_filter]
  congr 1
  funext x
  by_cases hx : x.row = q <;> simp [hx, h]

/-- Where no two entries are for one row, the entry of a robot is the entry of its row. -/
theorem entryOf_of_robot {y : Yard} {k : Nat} {e : Entry} (d : y.listDistinct) (h : y.entryOfRobot k = some e) :
    y.entryOf e.row = some e := by
  have mem := List.mem_of_find?_eq_some h
  unfold listDistinct at d
  unfold entryOf
  generalize y.rounds.list = l at mem d ⊢
  induction l with
  | nil => simp at mem
  | cons a l ih =>
    simp only [List.map_cons, List.nodup_cons] at d
    rcases List.mem_cons.1 mem with rfl | hm
    · simp
    · have : a.row ≠ e.row := fun hc => d.1 (hc ▸ List.mem_map_of_mem hm)
      simp [this, ih hm d.2]

theorem entryOfRobot_robot {y : Yard} {k : Nat} {e : Entry} (h : y.entryOfRobot k = some e) : e.robot = some k := by
  simpa using List.find?_some h

/-- The entry of a robot stands where another row's entry is unassigned. -/
theorem entryOfRobot_unassign_ne {y : Yard} {k r : Nat} {e : Entry} (h : y.entryOfRobot k = some e) (hr : e.row ≠ r) :
    (y.unassign r).entryOfRobot k = some e := by
  unfold entryOfRobot at h ⊢
  rw [unassign_list]
  generalize y.rounds.list = l at h ⊢
  induction l with
  | nil => simp at h
  | cons a l ih =>
    rw [List.find?_cons] at h
    rw [List.map_cons, List.find?_cons]
    split at h
    · next ha =>
      cases h
      simp [hr, ha]
    · next ha =>
      have : ((if a.row = r then a.free else a).robot == some k) = false := by
        split
        · rfl
        · exact ha
      rw [this]
      exact ih h

/-! ### The link of a robot -/

theorem robot_absent {y : Yard} {k : Nat} (h : ¬k < y.robots.length) : y.robot k = freshRobot false 0 none := by
  simp [robot, List.getD_eq_getElem?_getD, List.getElem?_eq_none (Nat.le_of_not_lt h)]

theorem setRobot_unlinked {y : Yard} {k : Nat} (h : (y.robot k).roundLink = none) (j : Nat) {f : Robot → Robot}
    (hf : ∀ b, b.roundLink = none → (f b).roundLink = none) : ((y.setRobot j f).robot k).roundLink = none := by
  by_cases hk : k < y.robots.length
  · by_cases hj : k = j
    · subst hj
      rw [robot_setRobot_same y hk]
      exact hf _ h
    · rw [robot_setRobot_ne y hj]
      exact h
  · rw [robot_absent (by simpa using hk)]
    rfl

theorem unlink_unlinked {y : Yard} {k : Nat} (h : (y.robot k).roundLink = none) (o : Option Nat) :
    ((y.unlink o).robot k).roundLink = none := by
  unfold unlink
  split
  · exact setRobot_unlinked h _ fun _ _ => rfl
  · exact h

theorem unlink_same (y : Yard) (k : Nat) : ((y.unlink (some k)).robot k).roundLink = none := by
  by_cases hk : k < y.robots.length
  · exact congrArg Robot.roundLink (robot_setRobot_same y hk _)
  · rw [robot_absent (by simpa [unlink] using hk)]
    rfl

theorem unassign_unlinked {y : Yard} {k : Nat} (h : (y.robot k).roundLink = none) (r : Nat) :
    ((y.unassign r).robot k).roundLink = none := by
  unfold unassign
  split
  · exact h
  · next e _ =>
    exact unlink_unlinked (y := y.setEntry r fun x => { x with robot := none, stage := .waiting }) h _

theorem removeEntry_unlinked {y : Yard} {k : Nat} (h : (y.robot k).roundLink = none) (r : Nat) :
    ((y.removeEntry r).robot k).roundLink = none := by
  unfold removeEntry
  split
  · exact h
  · next e _ =>
    exact unlink_unlinked
      (y := { y with rounds := { y.rounds with list := y.rounds.list.filter fun x => x.row != r } }) h _

/-- Unassignment clears the link of the entry's robot. -/
theorem unassign_unlinks {y : Yard} {r k : Nat} {e : Entry} (h : y.entryOf r = some e) (hk : e.robot = some k) :
    ((y.unassign r).robot k).roundLink = none := by
  unfold unassign
  simp only [h, hk]
  exact unlink_same (y.setEntry r fun x => { x with robot := none, stage := .waiting }) k

/-- Removal clears the link of the entry's robot. -/
theorem removeEntry_unlinks {y : Yard} {r k : Nat} {e : Entry} (h : y.entryOf r = some e) (hk : e.robot = some k) :
    ((y.removeEntry r).robot k).roundLink = none := by
  unfold removeEntry
  simp only [h, hk]
  exact unlink_same { y with rounds := { y.rounds with list := y.rounds.list.filter fun x => x.row != r } } k

/-! ### What removal leaves -/

theorem removeEntry_rows (y : Yard) (r : Nat) : (y.removeEntry r).rows = y.rows := by
  unfold removeEntry unlink
  split
  · rfl
  · split <;> rfl

/-- Removal of an entry leaves every order as it is. -/
theorem removeEntry_order (y : Yard) (r k : Nat) : ((y.removeEntry r).robot k).order = (y.robot k).order := by
  have keeps (z : Yard) (j : Nat) :
      ((z.setRobot j fun b => { b with roundLink := none }).robot k).order = (z.robot k).order := by
    by_cases hj : k = j
    · subst hj
      by_cases hk : k < z.robots.length
      · rw [robot_setRobot_same z hk]
      · rw [robot_absent hk, robot_absent (by simpa using hk)]
    · rw [robot_setRobot_ne z hj]
  unfold removeEntry unlink
  split
  · rfl
  · split
    · next z _ j _ => exact keeps { y with rounds := { y.rounds with list := y.rounds.list.filter fun x => x.row != r } } j
    · rfl

/-! ### A robot on a table gives no assignment event (R31) -/

/-- No change that leaves robot `k` on a table makes it available. -/
theorem makesAvailable_onTable {y : Yard} {k r : Nat} {f : Robot → Robot}
    (h : (f (y.robot k)).place = .midrow r) : y.makesAvailable k f = false := by
  unfold makesAvailable
  cases g : y.robots[k]? with
  | none => rfl
  | some b =>
    have hb : y.robot k = b := by simp [robot, List.getD_eq_getElem?_getD, g]
    rw [hb] at h
    simp [Robot.available, h]

/-- The removal of an entry whose robot is on a table gives no assignment event. -/
theorem removeEntry_assign_onTable {y : Yard} {k r q : Nat} {e : Entry} (he : y.entryOf r = some e)
    (hk : e.robot = some k) (hp : (y.robot k).place = .midrow q) : (y.removeEntry r).assign = y.assign := by
  have quiet : makesAvailable { y with rounds := { y.rounds with list := y.rounds.list.filter fun x => x.row != r } } k
      (fun b => { b with roundLink := none }) = false := makesAvailable_onTable (r := q) hp
  unfold removeEntry
  simp only [he, hk, unlink, dropLinks_assign, setRobot_assign, quiet, Bool.or_false]

end Yard

end Sys2Proof.Machine
end

