-- ==== Sys2Proof/WellFormed.lean ====
section
/-! DEFINITION. When a command is one that its row describes. The meanings are total: a command outside these checks
still has an outcome, but no event of the part sends it. -/

namespace Sys2Proof

/-- A body fits a frame: 0 to 40 bytes (R183). -/
def bodyFits (body : List Byte) : Bool := decide (body.length ≤ 40)

/-- The command's operands are those its row admits. -/
def Instr.wellFormed : Instr → Bool
  | .readStatus _ b | .readNotices _ b | .raiseAlert _ b | .readOrders _ b | .postureReport _ b
  | .energyReport _ b | .readRows _ b | .setFence _ b | .clearFence _ b | .readFences _ b
  | .robotStatus _ b | .orderDone _ b | .carriagePosition _ b | .robotFault _ b | .enrollRobot _ b
  | .clearRobot _ b | .writeOffRobot _ b | .clearCarriage _ b | .readFleet _ b | .transfer _ b
  | .cancelTransfer _ b | .readTransfers _ b | .roundBuild _ b | .sweep _ b | .plantPass _ b
  | .cancelEntry _ b | .readRounds _ b | .setLane _ b | .setListener _ b | .testPulse _ b
  | .setPattern _ b | .readAlerts _ b | .readMet _ b | .stowNow _ b | .release _ b | .readStorm _ b
  | .closePeriod _ b | .readAccount _ b | .readRing _ b | .writeSetting _ b | .readSetting _ b
  | .commitSettings _ b | .saveSettings _ b | .fleetRestart _ b => bodyFits b
  | .unknownKindRequest _ kind b => bodyFits b && (Kind.ofCode kind).isNone
  | .badLengthFrame _ l => decide (l.toNat = 0 ∨ 41 < l.toNat)
  | .failedCheckFrame _ kind b check => bodyFits b && decide (check ≠ frameCheck (requestCovered kind b))
  | .metFrame _ fields _ => decide (fields.length = 8)
  | .flattenTimerExpiry r | .holdTimerExpiry r | .settleTimerExpiry r | .stowTimerExpiry r => decide (r < 192)
  | .robotSilenceExpiry k | .passTimerExpiry k => decide (k < 12)
  | .phaseTimerExpiry t => decide (t < 256)
  | .nudgeTimerExpiry c => decide (c < 3)
  | .strayByte _ _ | .frameGapTimeout _ | .framingErrorByte _ | .overrunFrame _ | .answerSent _
  | .metStrayByte _ | .metFrameGap | .metSilenceExpiry | .alarmInputSample _ _ | .coldReset | .resetRelease
  | .startUpLoadEnd _ _ | .saveComplete _ | .saveTimeout | .minuteEvent | .roundTimerExpiry
  | .stretchTimerExpiry _ | .recallDeadlineExpiry | .secondEvent | .intervalExpiry | .closeWalkStep => true

end Sys2Proof
end

