-- ==== Sys2Proof/Tests/Slice0.lean ====
section
/-! SUPPORT. Tests on a small block of 24 rows: the well-formedness checks, frames and their checks, effects of commands, and
for each statement with hypotheses a witness: a state and operands that meet them, clause by clause. -/

namespace Sys2Proof.Tests

open Sys2Proof Sys2Proof.Machine

/-! ### The small block -/

/-- Settings of a block of 24 rows. -/
def smallSettings : Settings := { defaultSettings with rows := 24, dockPos := [0, 23, 8, 16] }

/-- A block of 24 rows with no robot and unknown carriage positions, in a start-up state. -/
def bare (st : StartUp) : State :=
  { State.reset with
    yard := { freshYard 0 with settings := smallSettings, startUp := st, rows := freshRows smallSettings }
    accounts := { freshAccounts smallSettings with timer := some 900, intervalLength := 900 } }

/-- Change the yard of a state. -/
def on (s : State) (f : Yard → Yard) : State := s.withYard (f s.yard)

/-- An enrolled robot with nothing to do. -/
def ready (pl : Place) : Robot :=
  { freshRobot true 0 (some 60) with place := pl, charge := 95, chargeOverMin := true, chargeOverReady := true }

/-- The yard put between two events. -/
def rested (y : Yard) : Yard := { y with assign := false }

/-- READY and CALM: robot 0 in GARAGE 2, robot 1 in DOCK 0, carriages at positions 1 and 22. -/
def small : State :=
  on (bare .ready) fun y => rested (((((y.setRobot 0 fun _ => ready (.garage 2)).setRobot 1 fun _ => ready (.dock 0)).setRow 2
    fun w => { w with garageOccupant := some 0 }).setDock 0 fun d => { d with occupant := some 1 }).setCarriage 0
      (fun w => { w with position := some 1 }) |>.setCarriage 1 fun w => { w with position := some 22 })

/-- Row 2 with another custody, holder and timer. -/
def rowTwo (c : Custody) (holder : Option Nat) : State :=
  on small fun y => y.setRow 2 fun w => { w with custody := c, holder := holder, timer := some 5 }

/-- Robot 0 on the table of row 2 with a PASS order of serial 7 in force. -/
def passing : State :=
  on (rowTwo .open (some 0)) fun y => ((y.setRobot 0 fun b => { b with
    place := .midrow 2, order := some ⟨.pass 2 .survey, 7⟩, lastSerial := 7, task := .pass 2 .survey }).setRow 2
      fun w => { w with garageOccupant := none }).setPassTimer 0 (some 2400)

/-- The storm state set. -/
def stormy (t : StormState) (s : State) : State := on s fun y => { y with storm := { y.storm with state := t } }

/-- A transfer of robot 0 to DOCK 1 in the queue. -/
def entry (phase : Phase) (carriage : Option Nat) : Transfer :=
  ⟨9, .plant, .move, 0, .garage 2, .dock 1, phase, carriage, none, carriage.map fun _ => 100, none⟩

/-- The queue holds one transfer. -/
def queued (phase : Phase) (carriage : Option Nat) : State :=
  on small fun y => ({ y with rail := { y.rail with queue := [entry phase carriage] } } : Yard)

/-- The round list holds one entry for row 2. -/
def listed (robot : Option Nat) (stage : Stage) (s : State) : State :=
  on s fun y => { y with rounds := { y.rounds with list := [⟨2, .clean, .build, robot, stage⟩] } }

/-- A value of the accounts' row 2 pending record. -/
def pendingTwo (g : Gathered) : State :=
  { small with accounts := { small.accounts with seq := 4 }.setRow 2 fun a => { a with pending := some g } }

/-! ### Well-formed commands -/

theorem test_wf_longBody : (Instr.readStatus .plant (List.replicate 41 0)).wellFormed = false := by decide
theorem test_wf_knownKind : (Instr.unknownKindRequest .plant 0x01 []).wellFormed = false := by decide
theorem test_wf_goodLength : (Instr.badLengthFrame .plant 41).wellFormed = false := by decide
theorem test_wf_goodCheck :
    (Instr.failedCheckFrame .plant 1 [] (frameCheck (requestCovered 1 []))).wellFormed = false := by decide +kernel
theorem test_wf_sevenFields : (Instr.metFrame 0 (List.replicate 7 0) 0).wellFormed = false := by decide
theorem test_wf_row : (Instr.flattenTimerExpiry 192).wellFormed = false := by decide
theorem test_wf_robot : (Instr.passTimerExpiry 12).wellFormed = false := by decide
theorem test_wf_tag : (Instr.phaseTimerExpiry 256).wellFormed = false := by decide
theorem test_wf_carriage : (Instr.nudgeTimerExpiry 3).wellFormed = false := by decide

/-! ### Frames -/

/-- The check of R182 over the nine ASCII digits 1 to 9 is 29B1h, the known value of this polynomial and start. -/
theorem test_check : frameCheck [0x31, 0x32, 0x33, 0x34, 0x35, 0x36, 0x37, 0x38, 0x39] = 0x29B1 := by decide +kernel

theorem test_frame_posture :
    frameCommand .tracker (requestFrame 0x11 [2, 1]) = some (.postureReport .tracker [2, 1]) := by decide +kernel
theorem test_frame_unknown : frameCommand .plant (requestFrame 0x7F []) = some (.unknownKindRequest .plant 0x7F []) := by decide +kernel
theorem test_frame_badLength : frameCommand .plant [0xA5, 0] = some (.badLengthFrame .plant 0) := by decide
theorem test_frame_badCheck :
    frameCommand .plant [0xA5, 1, 1, 0, 0] = some (.failedCheckFrame .plant 1 [] 0) := by decide +kernel

/-- The answer frame to a Sweep: length, kind, status, reason, body, check (R183). -/
theorem test_answer_frame : (Answer.mk 0x41 (.ok [3, 0])).frame.take 7 = [0x5A, 5, 0x41, 0, 0, 3, 0] := by decide

/-! ### Effects -/

/-- The state after some commands, each run by `exec`. -/
def after (cs : List Instr) (s : State) : State :=
  cs.foldl (fun s c => match exec c s with
    | .next t => t
    | _ => s) s

theorem test_boot : (after [.startUpLoadEnd false false] State.reset).yard.startUp = .unconfigured := by decide

theorem test_posture_clears :
    (after [.postureReport .tracker [2, 1]] small).yard.rowOrderPending 2 = false := by decide

theorem test_claim_flow :
    let t := after [.plantPass .plant [2, 0]] small
    (t.yard.row 2).custody = .flattening ∧ (t.yard.row 2).holder = some 0 := by decide

theorem test_flat_gives_pass :
    let t := after [.plantPass .plant [2, 0], .answerSent .plant, .postureReport .tracker [2, 2]] small
    (t.yard.row 2).custody = .open ∧ (t.yard.robot 0).place = .midrow 2 ∧
      (t.yard.robot 0).order = some ⟨.pass 2 .clean, 1⟩ := by decide

theorem test_pass_done :
    let t := after [.orderDone .fleet [0, 7, 0, 1, 0]] passing
    (t.yard.row 2).soiling = some 256 ∧ (t.yard.row 2).custody = .settle ∧ (t.yard.robot 0).place = .garage 2 := by
  decide

theorem test_transfer_granted :
    let t := after [.transfer .plant [0, 2, 3]] small
    t.yard.rail.queue.map (·.phase) = [.fetch] ∧ (t.yard.carriage 0).order = some ⟨.goto 2, 1⟩ := by decide

theorem test_second_answer_overrun :
    let t := after [.readFences .plant [], .readFences .plant []] small
    t.links.plant.overrun = 1 := by decide

theorem test_stow_now_stows :
    let t := after [.stowNow .plant []] small
    t.yard.storm.state = .stowing ∧ (t.yard.row 2).custody = .stowPending := by
  decide +kernel

theorem test_release :
    let t := after [.release .plant []] (stormy .parked (rowTwo .stowed none))
    t.yard.storm.state = .calm ∧ (t.yard.row 2).custody = .settle := by decide +kernel

theorem test_interval_closes :
    (after [.secondEvent] (on small id |> fun s => { s with accounts := { s.accounts with timer := some 1 } })).accounts.seq
      = 1 := by decide

/-- INTERVAL_EXPIRY ends no interval that has seconds to come, and counts its last second where it is due (log 7). -/
theorem test_interval_expiry_waits :
    (after [.intervalExpiry] small).accounts.seq = 0 ∧
    (after [.intervalExpiry] { small with accounts := { small.accounts with timer := some 1 } }).yard.stamp = 1 ∧
    (after [.secondEvent, .intervalExpiry] { small with accounts := { small.accounts with timer := some 1 } }).accounts.seq
      = 1 := by decide

theorem test_met_frame_counts :
    let fields : List Word := List.replicate 8 7
    (after [.metFrame 5 fields (frameCheck (metCovered 5 fields))] small).met.counters.goodFrames = 1 := by decide +kernel

theorem test_settings_write :
    (after [.writeSetting .plant [0x20, 1, 0]] small).yard.settings.settleTime = 256 := by decide

theorem test_save :
    (after [.saveSettings .plant [], .saveComplete true] small).loader.current = some 0 := by decide

theorem test_cold_reset : (after [.coldReset, .readStatus .plant []] small).links.plant.transmitter = .idle := by decide

/-! ### Witnesses: a state and operands that meet the hypotheses of each statement -/

theorem takes_of {s : State} {k : Kind} {p : Port} {body : List Byte}
    (h : (s.resetN && !(s.links.get p).frameMarked && (requestRefusal s.yard.startUp k p body).isNone) = true) :
    s.takes k p body := by
  simp only [Bool.and_eq_true, Bool.not_eq_true', Option.isNone_iff_eq_none] at h
  exact ⟨h.1.1, h.1.2, h.2⟩

theorem judges_of {s : State} {p : Port} (h : (s.resetN && !(s.links.get p).frameMarked) = true) : s.judges p := by
  simp only [Bool.and_eq_true, Bool.not_eq_true'] at h
  exact h

/-- The plant port is still sending its last answer. -/
def sending : State := small.answered .plant 0x16 (.ok [])

/-- The plant port's receiver is inside a frame. -/
def receiving : State := small.setLink .plant fun l => { l with receiver := .receiving false }

theorem test_witness_RequestsRefused :
    (small.judges .plant ∧ ([0] : List Byte).length ≠ Kind.readStatus.bodyLength) ∧
    (([2, 1] : List Byte).length = Kind.postureReport.bodyLength ∧ Kind.postureReport.permitted .plant = false) ∧
    (State.reset.judges .plant ∧ State.reset.yard.startUp = .starting ∧ Kind.readNotices ≠ .readStatus ∧
      ([1] : List Byte).length = Kind.readNotices.bodyLength ∧ Kind.readNotices.permitted .plant = true) ∧
    (bare .unconfigured).judges .plant ∧ (bare .unconfigured).yard.startUp = .unconfigured ∧
      ([] : List Byte).length = Kind.release.bodyLength ∧ Kind.release.permitted .plant = true ∧
      Kind.release.takenUnconfigured .plant = false :=
  ⟨⟨judges_of (by decide), by decide⟩, by decide, ⟨judges_of (by decide), by decide⟩, judges_of (by decide), by decide⟩

theorem test_witness_FramesWithoutRequest : small.judges .fleet := judges_of (by decide)

theorem test_witness_AnswersOnTheirPort :
    Port.fleet ≠ .plant ∧ ∃ t, exec (Kind.readFences.command .plant []) small = .next t := ⟨by decide, _, rfl⟩

theorem test_witness_OverrunDiscarded : sending.resetN = true ∧ (sending.links.get .plant).frameMarked = true := by decide

theorem test_witness_LinkEvents :
    (small.resetN = true ∧ (small.links.get .plant).receiver = .hunting ∧ (0xA4 : Byte) ≠ 0xA5) ∧
    receiving.resetN = true ∧ (receiving.links.get .plant).frameMarked = false := by decide

theorem test_witness_FrameReadBack : (List.replicate 40 (0 : Byte)).length ≤ 40 := by decide

theorem test_witness_ReadStatusTaken : State.reset.takes .readStatus .plant [] := takes_of (by decide)

theorem test_witness_ReadNoticesTaken :
    (small.takes .readNotices .plant [0] ∧ byteAt [0] 0 = 0) ∧ (small.takes .readNotices .plant [5] ∧ 4 < byteAt [5] 0) ∧
    (small.takes .readNotices .plant [1] ∧ 1 ≤ byteAt [1] 0) ∧ small.takes .readNotices .plant [4] ∧ byteAt [4] 0 ≤ 4 :=
  ⟨⟨takes_of (by decide), by decide⟩, ⟨takes_of (by decide), by decide⟩, ⟨takes_of (by decide), by decide⟩,
    takes_of (by decide), by decide⟩

/-- A yard whose plant queue is full. -/
def fullBox : Yard := { small.yard with boxes := small.yard.boxes.set .plant ⟨List.replicate 16 ⟨.holdoff, (0, 0, 0), 0, 0⟩, 0⟩ }

theorem test_witness_NoticesAndAttention :
    (small.yard.boxes.get .plant).queue.length < 16 ∧ 16 ≤ (fullBox.boxes.get .plant).queue.length ∧
      Port.fleet ≠ .plant := by decide

/-- Robot 0 in GARAGE 2, carriages with unknown positions: the state from which carriage 0 is sent for it. -/
def stationed : State := on (bare .ready) fun y => y.setRobot 0 fun _ => ready (.garage 2)

/-- Carriages reported at positions 1 and 22, and carriage 0 sent for robot 0. -/
def moving : State :=
  after [.carriagePosition .fleet [0, 1], .answerSent .fleet, .carriagePosition .fleet [1, 22],
    .transfer .plant [0, 2, 3]] stationed

/-- What commands that do not configure keep, they keep one after the other. -/
theorem located_after (cs : List Instr) (s : State) (hc : ∀ c ∈ cs, configures c = false)
    (h : s.yard.railFits ∧ s.yard.positionsRise ∧ s.yard.positionsFree ∧ s.yard.holdersFit ∧ s.yard.occupancyTrue) :
    let y := (after cs s).yard
    y.railFits ∧ y.positionsRise ∧ y.positionsFree ∧ y.holdersFit ∧ y.occupancyTrue := by
  induction cs generalizing s with
  | nil => exact h
  | cons c cs ih =>
    obtain ⟨t, ht⟩ := exec_answers c s
    have l := exec_located c s t ht (hc c List.mem_cons_self)
    have e : after (c :: cs) s = after cs t := by
      simp only [after, List.foldl_cons, ht]
    rw [e]
    obtain ⟨f, hr, hf, hh, ho⟩ := h
    exact ih t (fun c m => hc c (List.mem_cons_of_mem _ m))
      ⟨l.1 f, l.positionsRise f hr hf, l.positionsFree f hr hf, l.core.holdersFit hh, l.core.occupancyTrue ho⟩

/-- Carriage 0 of `moving` has a GOTO and a transfer, and the laws of the tables and of the rail hold there. -/
theorem test_witness_QueuesFitKept :
    (∃ t, step moving = .next t) ∧
    ((moving.yard.carriage 0).order = some ⟨.goto 2, 1⟩ ∧ (moving.yard.carriage 0).task = some (.transfer 0) ∧
      (moving.yard.carriage 1).position = some 22) ∧
    moving.yard.railFits ∧ moving.yard.positionsRise ∧ moving.yard.positionsFree ∧ moving.yard.holdersFit ∧
      moving.yard.occupancyTrue := by
  refine ⟨⟨_, rfl⟩, by decide, located_after _ _ (by decide) ?_⟩
  have a : stationed.yard.AtRest := ⟨Yard.freshRows_rest _, Yard.freshCarriages_rest, rfl, rfl, rfl, rfl⟩
  exact ⟨a.railFits (by decide) (by decide), a.positionsRise, a.positionsFree, a.holdersFit, a.occupancyTrue⟩

theorem test_witness_invariants :
    (∃ t, step small = .next t) ∧ small.yard.noticesFit ∧ small.yard.queueFits ∧ small.yard.listFits ∧
      small.yard.listDistinct ∧ small.yard.settings.legal ∧ small.between := by
  refine ⟨⟨_, rfl⟩, fun p => by cases p <;> decide, ?_, ?_, List.nodup_nil, ⟨by decide, by decide⟩, rfl⟩
  · show small.yard.rail.queue.length ≤ 8
    decide
  · show small.yard.rounds.list.length ≤ 16
    decide

theorem test_witness_AccountsWholeKept : small.accounts.whole := by
  intro x hx
  have e : x = freshRowAccount 0 := (List.mem_replicate.1 hx).2
  subst e
  exact ⟨by unfold Period.whole; decide, by unfold Period.whole; decide, by decide⟩

theorem test_witness_ReadsChangeNothing :
    (small.takes .readOrders .tracker [23] ∧ byteAt [23] 0 < small.yard.rows.length) ∧
    (small.takes .readOrders .fleet [14] ∧ byteAt [14] 0 ≤ 14) ∧
    (small.takes .readRows .plant [23] ∧ byteAt [23] 0 < small.yard.rows.length) ∧ small.takes .readFences .tracker [] ∧
    (small.takes .readTransfers .plant [2] ∧ byteAt [2] 0 ≤ 2) ∧ small.takes .readAlerts .plant [] ∧
    (small.takes .readAccount .plant [23, 2] ∧ byteAt [23, 2] 1 ≤ 2 ∧ small.accounts.walk = none) ∧
    (small.takes .readRing .plant [0, 15] ∧ byteAt [0, 15] 1 ≤ 15) ∧
    small.takes .readSetting .plant [0x32] ∧ small.codeValue (byteAt [0x32] 0) = some 65535 :=
  ⟨⟨takes_of (by decide), by decide⟩, ⟨takes_of (by decide), by decide⟩, ⟨takes_of (by decide), by decide⟩,
    takes_of (by decide), ⟨takes_of (by decide), by decide⟩, takes_of (by decide), ⟨takes_of (by decide), by decide⟩,
    ⟨takes_of (by decide), by decide⟩, takes_of (by decide), by decide⟩

/-- A close walk in flight, cursors and selectors one beyond their range, and a code that names nothing. -/
theorem test_witness_ReadsChangeNothing_refused :
    let busy : State := { small with accounts := { small.accounts with walk := some ⟨0, 0, 24⟩ } }
    (small.takes .readOrders .tracker [24] ∧ small.yard.rows.length ≤ byteAt [24] 0 ∧
      small.takes .readOrders .fleet [15] ∧ 14 < byteAt [15] 0 ∧ small.takes .readRows .plant [24]) ∧
    (small.takes .readTransfers .plant [3] ∧ 2 < byteAt [3] 0 ∧ (queued .waiting none).yard.rail.queue[0]? =
      some (entry .waiting none) ∧ small.yard.rail.queue.length ≤ 0) ∧
    (busy.takes .readAccount .plant [23, 2] ∧ busy.takes .readRing .plant [23, 15] ∧ busy.accounts.walk ≠ none) ∧
    (small.takes .readAccount .plant [0, 3] ∧ small.takes .readRing .plant [0, 16] ∧ 2 < byteAt [0, 3] 1 ∧
      15 < byteAt [0, 16] 1) ∧
    small.takes .readSetting .plant [9] ∧ small.codeValue (byteAt [9] 0) = none :=
  ⟨⟨takes_of (by decide), by decide, takes_of (by decide), by decide, takes_of (by decide)⟩,
    ⟨takes_of (by decide), by decide⟩, ⟨takes_of (by decide), takes_of (by decide), by decide⟩,
    ⟨takes_of (by decide), takes_of (by decide), by decide⟩, takes_of (by decide), by decide⟩

/-- Read Orders starts after its cursor and comes round to it (R6): every row of a fresh block has a pending order. -/
theorem test_orders_after_cursor :
    small.yard.readOrders .tracker 22 =
      .ok [8, 23, 0, 0, 0, 1, 0, 2, 0, 3, 0, 4, 0, 5, 0, 6, 0] := by decide +kernel

theorem test_witness_ReadsThatClear :
    (∀ a ∈ [(0 : Byte), 1, 2, 3], (small.takes .readFleet .plant [a] ∧ small.takes .readRounds .plant [a]) ∧
      small.takes .readMet .plant [a]) ∧
    (byteAt [0] 0 = 0 ∧ byteAt [1] 0 = 1 ∧ byteAt [2] 0 = 2 ∧ 2 < byteAt [3] 0) ∧
    (small.takes .readFleet .fleet [2] ∧ Port.fleet ≠ .plant) ∧ small.takes .readStorm .plant [] := by
  refine ⟨fun a h => ?_, by decide, ⟨takes_of (by decide), by decide⟩, takes_of (by decide)⟩
  simp only [List.mem_cons, List.not_mem_nil, or_false] at h
  rcases h with rfl | rfl | rfl | rfl <;>
    exact ⟨⟨takes_of (by decide), takes_of (by decide)⟩, takes_of (by decide)⟩

theorem test_witness_PostureReportTaken :
    (small.takes .postureReport .tracker [23, 1] ∧ small.between ∧ byteAt [23, 1] 0 < small.yard.rows.length) ∧
    ((listed (some 0) .flattening (rowTwo .flattening (some 0))).takes .postureReport .tracker [2, 2] ∧
      ((listed (some 0) .flattening (rowTwo .flattening (some 0))).yard.row 2).custody = .flattening ∧
      (listed (some 0) .flattening (rowTwo .flattening (some 0))).yard.entryOf 2 =
        some ⟨2, .clean, .build, some 0, .flattening⟩) ∧
    ((rowTwo .stowPending none).takes .postureReport .tracker [2, 3] ∧
      ((rowTwo .stowPending none).yard.row 2).custody = .stowPending ∧
      ((rowTwo .stowed none).yard.row 2).custody = .stowed) ∧
    (small.takes .postureReport .tracker [2, 4] ∧ (rowTwo .open (some 0)).yard.heldOpen 2 = true) ∧
    (passing.yard.onTable 2 = true ∧ (passing.yard.row 2).holder = some 0 ∧
      (passing.yard.robot 0).order = some ⟨.pass 2 .survey, 7⟩) ∧
    byteAt [2, 0] 1 = 0 ∧ 4 < byteAt [2, 5] 1 ∧ small.yard.rows.length ≤ byteAt [24, 1] 0 :=
  ⟨⟨takes_of (by decide), rfl, by decide⟩, ⟨takes_of (by decide), by decide⟩, ⟨takes_of (by decide), by decide⟩,
    ⟨takes_of (by decide), by decide⟩, by decide, by decide⟩

/-- FAULT for the row of a robot on its table that is already ordered home (R18, fourth line). -/
theorem test_witness_PostureReportTaken_home :
    let s := on passing fun y => y.setRobot 0 fun b => { b with order := some ⟨.toGarage 2, 8⟩ }
    s.takes .postureReport .tracker [2, 4] ∧ s.yard.onTable 2 = true ∧ (s.yard.row 2).holder = some 0 ∧
      (s.yard.robot 0).order = some ⟨.toGarage 2, 8⟩ ∧ 2 < s.yard.rows.length :=
  ⟨takes_of (by decide), by decide⟩

theorem test_witness_FencesTaken :
    (small.between ∧ small.takes .setFence .plant [7, 23, 23] ∧ byteAt [7, 23, 23] 0 ≤ 7 ∧
      byteAt [7, 23, 23] 2 < small.yard.rows.length) ∧
    (small.takes .setFence .plant [8, 0, 0] ∧ small.takes .setFence .plant [0, 1, 0] ∧ small.takes .setFence .plant [0, 0, 24]) ∧
    (small.takes .clearFence .plant [7] ∧ small.takes .clearFence .plant [8]) ∧
    let fenced : Yard := { (rowTwo .open (some 0)).yard with fences := [some (2, 2)] }
    2 < fenced.rows.length ∧ fenced.barred 2 = true ∧ small.yard.barred 2 = false ∧ fenced.heldOpen 2 = true :=
  ⟨⟨rfl, takes_of (by decide), by decide⟩, ⟨takes_of (by decide), takes_of (by decide), takes_of (by decide)⟩,
    ⟨takes_of (by decide), takes_of (by decide)⟩, by decide⟩

theorem test_witness_RowTimerExpiries :
    ((rowTwo .flattening (some 0)).running = true ∧ (rowTwo .flattening (some 0)).between ∧
      ((rowTwo .flattening (some 0)).yard.row 2).timer.isSome = true) ∧
    (rowTwo .open (some 0)).yard.heldOpen 2 = true ∧ ((rowTwo .settle none).yard.row 2).custody = .settle ∧
      ((rowTwo .stowPending none).yard.row 2).custody = .stowPending ∧
    (small.running = true ∧ (small.yard.row 2).timer = none) := ⟨⟨rfl, rfl, by decide⟩, by decide⟩

theorem test_witness_ClaimChecks :
    (small.yard.row 2).custody = .track ∧ (rowTwo .open (some 0)).yard.heldOpenBy 2 0 = true ∧
      small.yard.claimRefusal 2 0 = none := by decide

/-- A full queue: eight transfers of no robot of the block. -/
def crowded : Yard :=
  let filler : Transfer := ⟨200, .plant, .move, 11, .garage 20, .dock 3, .fetch, none, none, none, none⟩
  { small.yard with rail := { small.yard.rail with queue := List.replicate 8 filler } }

/-- Robot 0 at fault. -/
def faulty : Yard := small.yard.setRobot 0 fun b => { b with fault := true }

/-- Robot 0 in need of charge, in GARAGE 2. -/
def drained (y : Yard) : Yard := y.setRobot 0 fun b => { b with charge := 0, chargeOverMin := false }

/-- An entry for row `r` in a stage, with or without a robot. -/
def listedFor (r : Nat) (robot : Option Nat) (stage : Stage) : Entry := ⟨r, .clean, .build, robot, stage⟩

/-- The walk, the choices for a WAITING entry, and what its request is answered. -/
theorem test_witness_ClaimChecks_waiting :
    (small.yard.assign = false ∧ small.yard.giveAssign.assign = true) ∧
    ((listed none .waiting small).yard.rounds.list = [] ++ listedFor 2 none .waiting :: [] ∧
      (listedFor 2 none .waiting).row ∉ ([] : List Nat) ∧ (listedFor 2 none .waiting).row ∈ [2]) ∧
    (faulty.available 0 = false ∧ faulty.assign = false ∧
      (faulty.setRobot 0 fun b => { b with fault := false }).assign = true) ∧
    (small.yard.takeable 2 = true ∧ small.yard.chooseRobot 2 = some 0 ∧ (small.yard.robot 0).place = .garage 2) ∧
    ((rowTwo .stowed none).yard.takeable 2 = false ∧ (bare .ready).yard.chooseRobot 3 = none) ∧
    ((small.yard.row 23).garageOccupant = none ∧ small.yard.takeable 23 = true ∧ small.yard.chooseRobot 23 = some 0 ∧
      small.yard.rail.holdoff = false) ∧
    (small.yard.requestTransfer Yard.arbiterPass .round .round 0 (.garage 23) (some 23)).2.status = .accepted ∧
    (crowded.takeable 23 = true ∧ crowded.chooseRobot 23 = some 0 ∧
      (crowded.requestTransfer Yard.arbiterPass .round .round 0 (.garage 23) (some 23)).2.status = .full) ∧
    let fenced : Yard := { small.yard with fences := [some (23, 23)] }
    fenced.takeable 23 = true ∧ fenced.chooseRobot 23 = some 0 ∧
      (fenced.requestTransfer Yard.arbiterPass .round .round 0 (.garage 23) (some 23)).2.status = .refused := by decide +kernel

/-- The claim of a CLAIMING entry, and the robots and docks of a recharge try. -/
theorem test_witness_ClaimChecks_claiming :
    (small.yard.robot 0).place = .garage 2 ∧ (small.yard.row 2).holder = none ∧
    ((passing.yard.robot 0).place ≠ .garage 2 ∧ (listedFor 2 (some 0) .claiming).robot = some 0 ∧
      (listedFor 2 (some 0) .passing).stage ≠ .claiming) ∧
    ((rowTwo .settle none).yard.heldOpenBy 2 0 = false ∧ ((rowTwo .settle none).yard.row 2).custody ≠ .track) ∧
    ((rowTwo .open (some 0)).yard.heldOpenBy 2 0 = true ∧ (rowTwo .open (some 0)).yard.claimRefusal 2 0 = none) ∧
    (({ small.yard with fences := [some (2, 2)] } : Yard).claimRefusal 2 0 = some (.refuse .barred) ∧
      (stormy .warned small).yard.claimRefusal 2 0 = some (.refuse .state)) ∧
    ((drained small.yard).needsCharge 0 = true ∧ small.yard.needsCharge 0 = false ∧ small.yard.mild = true ∧
      (stormy .parked small).yard.mild = false) ∧
    (1 < small.yard.settings.docks ∧ small.yard.dockFree 1 = true ∧ small.yard.dockFree 0 = false ∧
      (small.yard.setDock 1 fun d => { d with occupant := some 7 }).dockFree 1 = false) ∧
    (((drained small.yard).requestTransfer Yard.arbiterPass .round .recharge 0 (.dock 1) none).2.status = .accepted ∧
      ((drained crowded).requestTransfer Yard.arbiterPass .round .recharge 0 (.dock 1) none).2.status = .full ∧
      ((drained (stormy .stowing small).yard).requestTransfer Yard.arbiterPass .round .recharge 0 (.dock 1) none).2.status =
        .refused) := by decide +kernel

/-- A robot that a report makes available and then unavailable has given its assignment event all the same (R31, R44): robot 0,
silent in its garage, reports a fault, and the entry of row 23 is judged in that event and given robot 1. -/
theorem test_silence_cleared_assigns :
    let silent := on small fun y => y.setRobot 0 fun b => { b with silent := true }
    let t := after [.robotFault .fleet [0]] (on silent fun y => { y with rounds := { y.rounds with
      list := [listedFor 23 none .waiting] } })
    (t.yard.rounds.list = [⟨23, .clean, .build, some 1, .moving⟩] ∧ (t.yard.robot 1).roundLink = some 23) ∧
      (t.yard.robot 0).fault = true := by decide +kernel

/-- The yard of `passing` under policy HOLD. -/
def holding : Yard :=
  { passing.yard with settings := { passing.yard.settings with rowPolicy := .hold, holdLimit := 1 } }

theorem test_witness_PassesAndHomecomings :
    (2 < passing.yard.rows.length ∧ 0 < passing.yard.robots.length ∧ passing.yard.mild = true ∧
      passing.yard.settings.rowPolicy = .close ∧ (passing.yard.row 2).custody = .open ∧
      (passing.yard.row 2).holder = some 0) ∧
    (holding.settings.rowPolicy = .hold ∧ 0 < holding.settings.holdLimit ∧ holding.barred 2 = false ∧
      (holding.robot 0).fault = false ∧ (holding.row 2).holder = some 0 ∧ (holding.row 2).custody = .open ∧
      holding.mild = true) ∧
    ((stormy .recall passing).yard.mild = false ∧ ((stormy .recall passing).yard.row 2).holder = some 0) ∧
    ((rowTwo .exposed (some 0)).yard.row 2).custody = .exposed ∧ (stormy .parked small).yard.mild = false := by decide

/-- A survey of row 2 that comes home with and without an entry, dirty and not. -/
theorem test_witness_PassesAndHomecomings_survey :
    let finished := fun (y : Yard) (measured : Nat) =>
      (((((y.setRobot 0 fun b => { b with order := none, task := .idle }).moveRobot 0 (.garage 2)).passResult 2 .survey
        measured).holderArrives 2 0).setPassTimer 0 none).countRounds fun n =>
          { n with passesDone := min (n.passesDone + 1) 65535 }
    let working := (listed (some 0) .passing passing).yard
    (finished passing.yard 30).entryOfRobot 0 = none ∧
    (finished working 30).entryOfRobot 0 = some ⟨2, .clean, .build, some 0, .passing⟩ ∧
    (let z := (finished working 30).removeEntry 2
     z.settings.dirtyLimit ≤ min 30 1000 ∧ z.storm.state = .calm ∧ z.barred 2 = false ∧ z.entryOf 2 = none) ∧
    ¬((finished passing.yard 29).settings.dirtyLimit ≤ min 29 1000) := by decide

theorem test_witness_OccupancyMoves :
    (0 < small.yard.robots.length ∧ 23 < small.yard.rows.length ∧ 3 < small.yard.docks.length ∧
      2 < small.yard.carriages.length) ∧
    ((small.yard.robot 1).place = .dock 0 ∧ Place.dock 3 ≠ .dock 0) ∧
    ((small.yard.robot 0).place = .garage 2 ∧ Place.garage 23 ≠ .garage 2) ∧
    let aboard := (small.yard.setRobot 2 fun _ => ready (.aboard 1)).setCarriage 1 fun c => { c with load := some 2 }
    (aboard.robot 2).place = .aboard 1 ∧ Place.aboard 2 ≠ .aboard 1 := by decide

theorem test_witness_OrdersAndSerials :
    11 < small.yard.robots.length ∧ 2 < small.yard.carriages.length ∧
    (0 < passing.yard.rounds.passTimers.length ∧ (passing.yard.robot 0).order = some ⟨.pass 2 .survey, 7⟩) ∧
    ((small.yard.setRobot 0 fun b => { b with order := some ⟨.toGarage 2, 7⟩ }).robot 0).order = some ⟨.toGarage 2, 7⟩ ∧
    (small.yard.robot 0).place = .garage 2 := by
  decide

theorem test_witness_RobotStatusTaken :
    (small.takes .robotStatus .fleet [0, 2, 2, 100] ∧ small.between ∧ small.yard.enrolled 0 = true ∧
      byteAt [0, 2, 2, 100] 3 ≤ 100 ∧ ¬(byteAt [0, 2, 2, 100] 3 < small.yard.settings.chargeMin) ∧
      placeOf 2 2 = some (small.yard.robot 0).place ∧ small.yard.placeExists (small.yard.robot 0).place = true) ∧
    (placeOf 1 1 = some (.dock 1) ∧ Place.dock 1 ≠ (small.yard.robot 0).place ∧ small.yard.placeExists (.dock 1) = true ∧
      (small.yard.robot 0).order = none ∧ small.yard.transferOfRobot 0 = none ∧
      (small.yard.writeCharge 0 100).placeTaken 0 (.dock 1) = true ∧
      (small.yard.writeCharge 0 100).placeTaken 0 (.dock 0) = false) ∧
    (small.takes .robotStatus .fleet [0, 2, 2, 101] ∧ 100 < byteAt [0, 2, 2, 101] 3) ∧
    small.takes .robotStatus .fleet [11, 2, 2, 101] ∧ small.yard.enrolled (byteAt [11, 2, 2, 101] 0) = false :=
  ⟨⟨takes_of (by decide), rfl, by decide⟩, by decide, ⟨takes_of (by decide), by decide⟩, takes_of (by decide), by decide⟩

/-- The charge that falls to 0, and another place reported of a robot with an order or in a transfer. -/
theorem test_witness_RobotStatusTaken_low :
    let told := ((small.yard.setRobot 0 fun b =>
      { b with silent := false, silenceTimer := some small.yard.settings.robotSilence }).writeCharge 0 0).robotLow 0
    (0 < small.yard.settings.chargeMin ∧ small.yard.settings.chargeMin ≤ (small.yard.robot 0).charge) ∧
    (small.takes .robotStatus .fleet [0, 2, 2, 0] ∧ placeOf 2 2 = some (told.robot 0).place ∧
      told.placeExists (told.robot 0).place = true) ∧
    (((small.yard.pulse 14).robot 0).place = .garage 2 ∧ ((small.yard.pulse 14).robot 1).place = .dock 0) ∧
    ((passing.yard.robot 0).order.isSome = true ∧ ((queued .waiting none).yard.transferOfRobot 0).isSome = true) :=
  ⟨by decide, ⟨takes_of (by decide), by decide⟩, by decide⟩

/-- Places that do not exist; a falling charge with another place, of a robot in a dock and of one that the recharge try has
sent; and the rows that refuse an adoption. -/
theorem test_witness_RobotStatusTaken_places :
    let told := fun k : Nat => ((small.yard.setRobot k fun b =>
      { b with silent := false, silenceTimer := some small.yard.settings.robotSilence }).writeCharge k 0).robotLow k
    (small.takes .robotStatus .fleet [1, 1, 1, 0] ∧ placeOf 1 1 = some (.dock 1) ∧ (told 1).placeExists (.dock 1) = true ∧
      Place.dock 1 ≠ ((told 1).robot 1).place ∧ ((told 1).robot 1).order = none) ∧
    ((told 1).transferOfRobot 1 = none ∧ (told 1).placeTaken 1 (.dock 1) = true ∧
      (told 1).placeTaken 1 (.garage 2) = false) ∧
    ((told 0).transferOfRobot 0).isSome = true ∧
    (small.takes .robotStatus .fleet [0, 5, 0, 90] ∧ placeOf 5 0 = none ∧
      small.takes .robotStatus .fleet [0, 3, 24, 90] ∧ placeOf 3 24 = some (.midrow 24) ∧
      small.yard.placeExists (.midrow 24) = false) ∧
    (rowTwo .flattening (some 0)).yard.adoptionCustody 2 1 = none ∧
      (rowTwo .flattening (some 0)).yard.adoptionCustody 2 0 = some .open :=
  ⟨⟨takes_of (by decide), by decide⟩, by decide, by decide,
    ⟨takes_of (by decide), by decide, takes_of (by decide), by decide⟩, by decide⟩

/-- Adoption in a mild state and in STOWING, and a robot that leaves the row it holds and its entry. -/
theorem test_witness_RobotStatusTaken_moves :
    (small.yard.adoptionCustody 23 0 = some .open ∧ (stormy .stowing small).yard.adoptionCustody 23 0 = some .exposed ∧
      0 < small.yard.robots.length ∧ 23 < small.yard.rows.length) ∧
    let s := listed (some 0) .claiming (rowTwo .open (some 0))
    s.yard.rowHeldBy 0 = some 2 ∧ s.yard.heldOpen 2 = true ∧ Place.dock 1 ≠ .garage 2 ∧
      s.yard.entryOfRobot 0 = some ⟨2, .clean, .build, some 0, .claiming⟩ ∧ s.yard.listDistinct :=
  ⟨by decide, by decide, by decide, by decide, by decide, List.nodup_singleton _⟩

/-- A charge written for a robot in a dock and for one at work, and the tasks of a robot at rest. -/
theorem test_witness_RobotStatusTaken_charge :
    (1 < small.yard.robots.length ∧ (small.yard.robot 1).task = .idle ∧ (small.yard.robot 1).place = .dock 0 ∧
      (small.yard.robot 1).chargeOverReady = true ∧ (drained small.yard |>.robot 0).place = .garage 2) ∧
    ((small.yard.setRobot 1 fun b => { b with task := .charging, chargeOverReady := false }).robot 1).task = .charging ∧
    (passing.yard.robot 0).task ≠ .idle ∧ (passing.yard.robot 0).task ≠ .charging := by decide

/-- A charge that reaches CHARGE_READY in a dock makes the robot IDLE and available, and one below it CHARGING (R32, R31). -/
theorem test_charge_in_dock :
    let charging := on small fun y => rested (y.setRobot 1 fun b => { b with task := .charging, chargeOverReady := false })
    ((charging.yard.writeCharge 1 90).robot 1).task = .idle ∧ (charging.yard.writeCharge 1 90).assign = true ∧
      ((charging.yard.writeCharge 1 89).robot 1).task = .charging ∧ (charging.yard.writeCharge 1 89).assign = false := by
  decide

/-- Robot 0 holds row 2 in FLATTENING, its entry and its link with it. -/
def flattening : State :=
  listed (some 0) .flattening (on (rowTwo .flattening (some 0)) fun y =>
    y.setRobot 0 fun b => { b with roundLink := some 2 })

/-- The claims that an adoption ends: the robot's own on the row, and its entry for another row. -/
theorem test_witness_RobotStatusTaken_claims :
    (flattening.yard.adoptionCustody 2 0 = some .open ∧ (flattening.yard.row 2).custody ≠ .exposed ∧
      flattening.yard.listDistinct ∧ flattening.yard.entryOfRobot 0 = some ⟨2, .clean, .build, some 0, .flattening⟩ ∧
      flattening.yard.rowHeldBy 0 = some 2) ∧
    let s := listed (some 0) .claiming small
    s.yard.adoptionCustody 23 0 = some .open ∧ (s.yard.row 23).custody ≠ .exposed ∧
      s.yard.entryOfRobot 0 = some ⟨2, .clean, .build, some 0, .claiming⟩ ∧ s.yard.listDistinct :=
  ⟨⟨by decide, by decide, List.nodup_singleton _, by decide, by decide⟩, by decide, by decide, by decide,
    List.nodup_singleton _⟩

/-- The holder of a FLATTENING row that reports itself on that row's table is adopted, its claim ends after its place has
changed, and no assignment event is given (R24, steps 2 and 3; R31); a CLAIMING robot adopted on another row gives one at its
old place (log 44). -/
theorem test_adopted_holder :
    let t := (after [.robotStatus .fleet [0, 3, 2, 95]] flattening).yard
    ((t.row 2).custody = .open ∧ (t.row 2).holder = some 0 ∧ t.rounds.list = []) ∧
      ((t.robot 0).place = .midrow 2 ∧ (t.robot 0).roundLink = none) ∧
      (flattening.yard.takeMove 0 (.midrow 2)).assign = false ∧
      ((on (listed (some 0) .claiming small) fun y =>
        rested (y.setRobot 0 fun b => { b with roundLink := some 2 })).yard.takeMove 0 (.midrow 23)).assign = true := by
  decide +kernel

/-- Robot 0 sent home to row 2; carriage 1 with an order. -/
def ordered (o : CarriageOrder) : State :=
  on passing fun y => (y.setRobot 0 fun b => { b with order := some ⟨.toGarage 2, 8⟩ }).setCarriage 1
    fun c => { c with order := some ⟨o, 3⟩ }

theorem test_witness_OrderDoneTaken :
    ((ordered .stay).takes .orderDone .fleet [0, 8, 1, 0, 0] ∧ (ordered .stay).between ∧ (ordered .stay).yard.enrolled 0 = true ∧
      ((ordered .stay).yard.robot 0).order = some ⟨.toGarage 2, byteAt [0, 8, 1, 0, 0] 1⟩ ∧
      ((ordered .stay).yard.row 2).garageReserved = none ∧ ((ordered .stay).yard.row 2).garageOccupant = none) ∧
    (passing.takes .orderDone .fleet [0, 7, 0, 3, 232] ∧
      (passing.yard.robot 0).order = some ⟨.pass 2 .survey, byteAt [0, 7, 0, 3, 232] 1⟩) ∧
    ((passing.yard.setRow 2 fun w => { w with garageReserved := some 9 }).row 2).garageReserved.isSome = true ∧
    (byteAt [0, 8, 4, 0, 0] 2 = 4 ∧ byteAt [0, 8, 5, 0, 0] 2 = 5 ∧ wordAt [0, 8, 2, 0, 24] 3 = 24 ∧
      passing.yard.rows.length = 24) ∧ (small.yard.robot 0).order = none ∧
    (12 ≤ byteAt [13, 3, 2, 0, 23] 0 ∧ 13 - 12 < small.yard.settings.carriages ∧
      ((ordered (.goto 23)).yard.carriage 1).order = some ⟨.goto 23, byteAt [13, 3, 2, 0, 23] 1⟩ ∧
      wordAt [13, 3, 2, 0, 23] 3 = 23 ∧ wordAt [13, 3, 2, 0, 22] 3 ≠ 23 ∧ 23 < (ordered (.goto 23)).yard.rows.length) ∧
    (((ordered (.board 0)).yard.carriage 1).order = some ⟨.board 0, 3⟩ ∧
      ((ordered (.alight 0 (.dock 1))).yard.carriage 1).order = some ⟨.alight 0 (.dock 1), 3⟩) ∧
    (((ordered .stay).yard.carriage 1).order = some ⟨.stay, 3⟩ ∧ (ordered .stay).yard.keepsOrder 1 2 = true ∧
      (ordered .stay).yard.inOthersSegment 1 2 = false ∧ (ordered .stay).yard.keepsOrder 1 1 = false) ∧
    (small.yard.carriage 1).order = none :=
  ⟨⟨takes_of (by decide), rfl, by decide⟩, ⟨takes_of (by decide), by decide⟩, by decide⟩

/-- Subjects of an Order Done that do not exist: a slot not enrolled, the carriage beyond the last, and numbers above 14. -/
theorem test_witness_OrderDoneTaken_nobody :
    (small.takes .orderDone .fleet [11, 0, 0, 0, 0] ∧ small.between ∧ small.yard.enrolled (byteAt [11, 0, 0, 0, 0] 0) = false) ∧
    (small.takes .orderDone .fleet [14, 0, 2, 0, 0] ∧ small.yard.settings.carriages ≤ byteAt [14, 0, 2, 0, 0] 0 - 12) ∧
    small.takes .orderDone .fleet [15, 0, 0, 0, 0] ∧ 14 < byteAt [15, 0, 0, 0, 0] 0 :=
  ⟨⟨takes_of (by decide), rfl, by decide⟩, ⟨takes_of (by decide), by decide⟩, takes_of (by decide), by decide⟩

/-- A transfer in each phase is the task of carriage 0, and a nudge that of carriage 1. -/
theorem test_witness_OrderDoneTaken_tasks :
    let y := fun phase => (queued phase (some 0)).yard.setCarriage 0 fun c => { c with task := some (.transfer 9) }
    (∀ phase ∈ [Phase.fetch, .board, .carry, .alight], ((y phase).carriage 0).task = some (.transfer 9) ∧
      (y phase).transferOf 9 = some (entry phase (some 0)) ∧
      ((((y phase).carriageFaults 0).keepSegmentsFaulted 0).transferOf 9) = some (entry phase (some 0))) ∧
    ((y .board).carriage 0).position ≠ some ((y .board).destinationPosition (entry .board (some 0))) ∧
    (((y .board).setCarriage 0 fun c => { c with position := some 23 }).carriage 0).position =
      some ((y .board).destinationPosition (entry .board (some 0))) ∧
    ((small.yard.setCarriage 1 fun c => { c with task := some .nudge }).carriage 1).task = some .nudge ∧
    (small.yard.carriage 1).task = none := by decide

theorem test_witness_FleetReportsTaken :
    (small.takes .carriagePosition .fleet [1, 23] ∧ 1 < small.yard.settings.carriages ∧ 23 < small.yard.rows.length ∧
      small.yard.positionRefused 1 23 = false ∧ (small.yard.carriage 1).order = none ∧
      (small.yard.carriage 1).position ≠ none) ∧
    ((bare .ready).takes .carriagePosition .fleet [0, 0] ∧ (bare .ready).yard.positionRefused 0 0 = false ∧
      ((bare .ready).yard.carriage 0).position = none) ∧
    (passing.takes .robotFault .fleet [0] ∧ passing.yard.enrolled 0 = true ∧
      (passing.yard.robot 0).order = some ⟨.pass 2 .survey, 7⟩) ∧ (small.yard.robot 0).order = none :=
  ⟨⟨takes_of (by decide), by decide⟩, ⟨takes_of (by decide), by decide⟩, ⟨takes_of (by decide), by decide⟩, by decide⟩

/-- Carriage Positions that R42 refuses: out of range, out of carriage order, and with another order in force. -/
theorem test_witness_FleetReportsTaken_refused :
    (small.takes .carriagePosition .fleet [2, 0] ∧ small.yard.settings.carriages ≤ byteAt [2, 0] 0 ∧
      small.takes .carriagePosition .fleet [0, 24] ∧ small.yard.rows.length ≤ byteAt [0, 24] 1 ∧ small.between) ∧
    (small.takes .carriagePosition .fleet [0, 22] ∧ small.yard.positionRefused 0 22 = true ∧
      small.yard.keepsOrder 0 22 = false ∧ small.yard.keepsOrder 0 21 = true) ∧
    small.takes .robotFault .fleet [11] ∧ small.yard.enrolled (byteAt [11] 0) = false :=
  ⟨⟨takes_of (by decide), by decide, takes_of (by decide), by decide, rfl⟩, ⟨takes_of (by decide), by decide⟩,
    takes_of (by decide), by decide⟩

theorem test_witness_FleetRequestsTaken :
    (small.between ∧ small.takes .enrollRobot .plant [11] ∧ byteAt [11] 0 ≤ 11 ∧ small.yard.enrolled 11 = false) ∧
    (small.takes .clearRobot .plant [0] ∧ small.yard.enrolled 0 = true) ∧
    (small.takes .writeOffRobot .plant [0] ∧ small.yard.transferOfRobot 0 = none ∧ small.yard.enrolled 11 = false) ∧
    ((queued .waiting none).yard.transferOfRobot 0 = some (entry .waiting none) ∧ (entry .waiting none).phase = .waiting ∧
      (queued .fetch (some 0)).yard.transferOfRobot 0 = some (entry .fetch (some 0))) ∧
    ((rowTwo .flattening (some 0)).yard.rowHeldBy 0 = some 2 ∧ small.yard.rowHeldBy 0 = none ∧
      (listed (some 0) .flattening (rowTwo .flattening (some 0))).yard.entryOf 2 =
        some ⟨2, .clean, .build, some 0, .flattening⟩) ∧
    (let aboard := (small.yard.setRobot 2 fun _ => ready (.aboard 1)).setCarriage 1 fun c => { c with load := some 2 }
     (aboard.robot 2).place = .aboard 1 ∧ aboard.carriageRests 1 = true ∧ (small.yard.robot 0).place = .garage 2) ∧
    let s := on small fun y => y.setCarriage 1 fun c => { c with fault := true }
    s.takes .clearCarriage .plant [1, 23] ∧ 1 < s.yard.settings.carriages ∧ (s.yard.carriage 1).fault = true ∧
      23 < s.yard.rows.length ∧ s.yard.clearRefused 1 23 = false :=
  ⟨⟨rfl, takes_of (by decide), by decide⟩, ⟨takes_of (by decide), by decide⟩, ⟨takes_of (by decide), by decide⟩,
    by decide, by decide, by decide, takes_of (by decide), by decide⟩

/-- Requests on the fleet that are refused, and a carriage in FAULT with a segment of its own and with none. -/
theorem test_witness_FleetRequestsTaken_refused :
    let s := on small fun y => y.setCarriage 1 fun c => { c with fault := true }
    let own := on s fun y => y.reserveSpan ⟨2, 2⟩ 1 .fault
    (small.takes .clearCarriage .plant [2, 0] ∧ small.yard.settings.carriages ≤ byteAt [2, 0] 0 ∧
      small.takes .clearCarriage .plant [1, 24] ∧ (small.yard.carriage 1).fault = false) ∧
    (s.takes .clearCarriage .plant [1, 24] ∧ s.yard.rows.length ≤ byteAt [1, 24] 1 ∧
      s.takes .clearCarriage .plant [1, 1] ∧ s.yard.clearRefused 1 1 = true ∧ s.yard.reservation 2 = none) ∧
    (own.yard.reservation 2 = some ⟨1, .fault⟩ ∧ own.yard.clearRefused 1 23 = false ∧ own.yard.clearRefused 1 8 = true) ∧
    (small.takes .enrollRobot .plant [12] ∧ 11 < byteAt [12] 0 ∧ small.takes .enrollRobot .plant [0] ∧
      small.yard.enrolled (byteAt [0] 0) = true) ∧
    small.takes .clearRobot .plant [11] ∧ small.yard.enrolled (byteAt [11] 0) = false :=
  ⟨⟨takes_of (by decide), by decide, takes_of (by decide), by decide⟩,
    ⟨takes_of (by decide), by decide, takes_of (by decide), by decide⟩, by decide,
    ⟨takes_of (by decide), by decide, takes_of (by decide), by decide⟩, takes_of (by decide), by decide⟩

theorem test_witness_RobotTimerExpiries :
    (small.running = true ∧ small.between ∧ small.yard.enrolled 0 = true ∧
      (small.yard.robot 0).silenceTimer.isSome = true) ∧
    (passing.yard.rounds.passTimers.getD 0 none).isSome = true ∧
      (passing.yard.robot 0).order = some ⟨.pass 2 .survey, 7⟩ := ⟨⟨rfl, rfl, by decide⟩, by decide⟩

/-- Each check of R54 failing where those before it pass, by its number. -/
theorem test_witness_TransferChecks :
    small.yard.transferRefusal .plant 5 (.dock 1) = some (.refuse .range) ∧
    passing.yard.transferRefusal .plant 0 (.dock 1) = some (.refuse .robotBusy) ∧
    (queued .waiting none).yard.transferRefusal .plant 0 (.dock 1) = some (.refuse .robotBusy) ∧
    (small.yard.setRobot 0 fun b => { b with roundLink := some 2 }).transferRefusal .plant 0 (.dock 1) =
      some (.refuse .robotBusy) ∧
    small.yard.transferRefusal .plant 0 (.garage 24) = some (.refuse .range) ∧
    ({ small.yard with fences := [some (3, 3)] } : Yard).transferRefusal .plant 0 (.garage 3) = some (.refuse .barred) ∧
    small.yard.transferRefusal .plant 0 (.dock 0) = some (.refuse .place) ∧
    ({ small.yard with rail := { small.yard.rail with holdoff := true } } : Yard).transferRefusal .round 0 (.dock 1) =
      some (.plain .full) ∧
    small.yard.transferRefusal .plant 0 (.garage 23) = none ∧
    (stormy .warned small).yard.transferRefusal .plant 0 (.dock 1) = none ∧
    (stormy .warned small).yard.transferRefusal .plant 0 (.garage 3) = some (.refuse .alertActive) ∧
    (stormy .stowing small).yard.transferRefusal .plant 0 (.dock 1) = some (.refuse .state) ∧
    (stormy .parked small).yard.transferRefusal .plant 0 (.dock 1) = some (.plain .ignored) := by decide

theorem test_witness_TransferTaken :
    (small.takes .transfer .plant [0, 2, 23] ∧ small.between ∧ placeOf 2 23 = some (.garage 23) ∧
      small.yard.transferRefusal (Yard.portOrigin .plant) 0 (.garage 23) = none) ∧
    small.takes .transfer .plant [11, 1, 0] ∧ placeOf 1 0 = some (.dock 0) ∧
      small.yard.transferRefusal (Yard.portOrigin .plant) 11 (.dock 0) = some (.refuse .range) ∧
      small.yard.transferRefusal .round 0 (.garage 23) = none :=
  ⟨⟨takes_of (by decide), rfl, by decide⟩, takes_of (by decide), by decide⟩

/-- A slot above 11, and destinations that are neither a garage nor a dock. -/
theorem test_witness_TransferTaken_kinds :
    (small.takes .transfer .plant [12, 2, 3] ∧ 11 < byteAt [12, 2, 3] 0 ∧ small.between) ∧
    (small.takes .transfer .fleet [0, 3, 2] ∧ placeOf (byteAt [0, 3, 2] 1) (byteAt [0, 3, 2] 2) = some (.midrow 2)) ∧
    small.takes .transfer .plant [0, 5, 0] ∧ placeOf (byteAt [0, 5, 0] 1) (byteAt [0, 5, 0] 2) = none :=
  ⟨⟨takes_of (by decide), by decide, rfl⟩, ⟨takes_of (by decide), by decide⟩, takes_of (by decide), by decide⟩

theorem test_witness_FreshTagFree : (queued .waiting none).yard.queueFits :=
  show (queued .waiting none).yard.rail.queue.length ≤ 8 by decide

theorem test_witness_CancelTransferTaken :
    (small.takes .cancelTransfer .plant [9] ∧ small.between ∧ small.yard.transferOf 9 = none) ∧
    ((queued .waiting none).takes .cancelTransfer .fleet [9] ∧
      (queued .waiting none).yard.transferOf 9 = some (entry .waiting none) ∧
      (entry .waiting none).origin ≠ Yard.portOrigin .fleet) ∧
    ((entry .fetch (some 0)).origin = Yard.portOrigin .plant ∧ (entry .fetch (some 0)).phase ≠ .waiting) ∧
      (entry .waiting none).phase = .waiting ∧
    (({ entry .waiting none with destination := .garage 23 }).destination = .garage 23 ∧
      (entry .waiting none).destination = .dock 1 ∧ (entry .waiting none).roundLink = none ∧
      (entry .waiting none).robot < small.yard.robots.length) ∧
    (({ entry .waiting none with roundLink := some 2 }).roundLink = some 2 ∧
      (listed (some 0) .moving small).yard.entryOf 2 = some ⟨2, .clean, .build, some 0, .moving⟩) :=
  ⟨⟨takes_of (by decide), rfl, by decide⟩, ⟨takes_of (by decide), by decide⟩, by decide⟩

theorem test_witness_RailTimerExpiries :
    let s := on (queued .fetch (some 0)) fun y => y.setCarriage 0 fun c => { c with task := some (.transfer 9) }
    let n := on small fun y => (y.setCarriage 1 fun c => { c with task := some .nudge }).setNudge 1 (some ⟨23, 0⟩)
    (s.running = true ∧ s.yard.transferOf 9 = some (entry .fetch (some 0)) ∧
      (entry .fetch (some 0)).phaseTimer = some 100 ∧ (s.yard.carriage 0).task = some (.transfer 9)) ∧
    (n.yard.rail.nudges.getD 1 none).isSome = true ∧ (n.yard.carriage 1).task = some .nudge ∧
      2 < small.yard.carriages.length := by decide

theorem test_witness_SpanReserved :
    let y := small.yard.reserveSpan ⟨0, 2⟩ 1 .nudge
    (23 < y.rail.segments.length ∧ y.reservation 2 = some ⟨1, .nudge⟩) ∧ y.reservation 3 = none := by decide

theorem test_witness_ArbiterHolds :
    let frozen : Yard := { small.yard with metSilent := true, alerts := { small.yard.alerts with
      lanes := [7, 0, 0, 0, 0, 0, 0, 0], listeners := [0, 0, 0, 0, 1, 0, 0, 0, 0, 0] } }
    frozen.seen 4 = true ∧ (0 < (bare .ready).yard.settings.carriages ∧ ((bare .ready).yard.carriage 0).position = none) ∧
      (stormy .recall small).yard.mild = false := by decide

/-- A transfer of robot 1 from DOCK 0 to GARAGE 5, waiting. -/
def fromDock : Transfer := ⟨10, .plant, .move, 1, .dock 0, .garage 5, .waiting, none, none, none, none⟩

/-- The choice of a carriage, the span, and the ways a WAITING entry is judged. -/
theorem test_witness_ArbiterHolds_judged :
    let aboard : Transfer := { fromDock with source := .aboard 1 }
    let y := small.yard
    (y.seen 4 = false ∧ (∀ c, c < y.settings.carriages → (y.carriage c).position.isSome = true) ∧ y.mild = true) ∧
    ((queued .waiting none).yard.transferOf 9 = some (entry .waiting none) ∧ y.transferOf 9 = none ∧
      (queued .fetch (some 0)).yard.transferOf 9 = some (entry .fetch (some 0))) ∧
    (y.chooseCarriage aboard = some 1 ∧ (bare .ready).yard.chooseCarriage aboard = none ∧
      (bare .ready).yard.placePosition aboard.source = none) ∧
    (y.chooseCarriage fromDock = some 0 ∧ y.placePosition fromDock.source = some 0 ∧
      y.candidateSpan fromDock (some 0) = some ⟨0, 0⟩) ∧
    ((bare .ready).yard.chooseCarriage fromDock = none ∧ (bare .ready).yard.candidateSpan fromDock none = some ⟨0, 0⟩) ∧
    (y.spanFree ⟨0, 0⟩ = true ∧ y.othersInside ⟨0, 0⟩ 0 = [] ∧ (⟨0, 0⟩ : Span).meets ⟨0, 2⟩ = true ∧
      (y.reserveSpan ⟨0, 1⟩ 1 .nudge).spanFree ⟨0, 0⟩ = false) ∧
    (y.othersInside ⟨1, 2⟩ 0 = [1] ∧ (y.carriage 1).free = true ∧
      ((y.setCarriage 1 fun c => { c with load := some 7 }).carriage 1).free = false) := by decide

/-- The first phases of a grant, and a nudge that passes and one that does not. -/
theorem test_witness_ArbiterHolds_begun :
    let y := small.yard
    ((y.carriage 0).position ≠ some 0 ∧ fromDock.destination = .garage 5 ∧
      ((y.setCarriage 0 fun c => { c with position := some 0 }).carriage 0).position = some 0 ∧
      ((y.setCarriage 0 fun c => { c with position := some 5 }).carriage 0).position =
        some ((y.placePosition fromDock.destination).getD 0)) ∧
    (y.nudgeMove ⟨0, 1⟩ 1 0 = none ∧
      (y.setCarriage 1 fun c => { c with position := some 12 }).nudgeMove ⟨0, 1⟩ 0 1 = some (16, ⟨1, 2⟩) ∧
      (y.setCarriage 0 fun c => { c with position := some 9 }).nudgeMove ⟨1, 2⟩ 1 0 = some (7, ⟨0, 1⟩)) ∧
    (y.holdoffLevel = y.rail.holdoff ∧
      ({ y with settings := { y.settings with holdoffCount := 0 } } : Yard).holdoffLevel = true ∧ y.rail.holdoff = false) := by
  decide

theorem test_witness_BuildCount :
    (stormy .warned small).yard.roundsTaken = false ∧ small.yard.roundsTaken = true ∧
      (0 < small.yard.settings.surveyEvery ∧ small.yard.settings.surveyEvery ≤ 15) ∧
      small.yard.surveyDecision 0 = (false, 1) ∧
      ({ small.yard with rounds := { small.yard.rounds with buildCounts := [3, 0, 0, 0] } } : Yard).surveyDecision 0 =
        (true, 0) ∧
      ({ small.yard with settings := { small.yard.settings with surveyEvery := 0 } } : Yard).settings.surveyEvery = 0 := by
  decide

theorem test_witness_BuildCandidates :
    small.yard.roundsTaken = true ∧ (small.yard.row 2).soiling = none ∧ (small.yard.surveyDecision 0).1 = false ∧
      ((small.yard.setRow 2 fun w => { w with soiling := some 30 }).row 2).soiling = some 30 := by decide

theorem test_witness_RoundEvents :
    (small.between ∧ small.takes .roundBuild .plant [1] ∧ 1 < small.yard.settings.groups ∧
      small.yard.storm.state = .calm ∧ small.yard.startUp = .ready) ∧
    ((stormy .parked small).takes .roundBuild .plant [1] ∧ (stormy .parked small).yard.storm.state ≠ .calm) ∧
    (small.takes .sweep .plant [] ∧ (stormy .parked small).takes .sweep .plant []) ∧
    (small.takes .plantPass .plant [23, 1] ∧ passKindOf 1 = some .survey ∧ small.yard.barred 23 = false ∧
      small.yard.entryOf 23 = none ∧ small.yard.rounds.list.length < 16) ∧
    ((listed none .waiting small).takes .plantPass .plant [2, 0] ∧
      (listed none .waiting small).yard.entryOf 2 = some ⟨2, .clean, .build, none, .waiting⟩ ∧
      (listed (some 0) .claiming small).yard.entryOf 2 = some ⟨2, .clean, .build, some 0, .claiming⟩) ∧
    (listed none .waiting small).takes .cancelEntry .plant [2] ∧
    let s := on small fun y => { y with rounds := { y.rounds with timer := some 1 } }
    s.running = true ∧ s.yard.rounds.timer.isSome = true :=
  ⟨⟨rfl, takes_of (by decide), by decide⟩, ⟨takes_of (by decide), by decide⟩, ⟨takes_of (by decide), takes_of (by decide)⟩,
    ⟨takes_of (by decide), by decide⟩, ⟨takes_of (by decide), by decide⟩, takes_of (by decide), by decide⟩

/-- Requests on rounds that are refused: out of range, out of CALM, of a barred row, and of a row with no entry. -/
theorem test_witness_RoundEvents_refused :
    let fenced := on small fun y => { y with fences := [some (23, 23)] }
    (small.takes .roundBuild .plant [2] ∧ small.yard.settings.groups = 2 ∧
      (stormy .parked small).takes .roundBuild .plant [2] ∧ small.between) ∧
    (small.takes .plantPass .plant [0, 2] ∧ passKindOf (byteAt [0, 2] 1) = none ∧ small.takes .plantPass .plant [24, 0] ∧
      small.yard.rows.length = 24) ∧
    ((stormy .parked small).takes .plantPass .plant [23, 0] ∧ (stormy .warned small).takes .plantPass .plant [23, 0] ∧
      (stormy .recall small).takes .plantPass .plant [23, 0] ∧ (stormy .stowing small).takes .plantPass .plant [23, 0]) ∧
    (fenced.takes .plantPass .plant [23, 0] ∧ fenced.yard.storm.state = .calm ∧ fenced.yard.barred 23 = true) ∧
    (small.takes .cancelEntry .plant [24] ∧ small.takes .cancelEntry .plant [23] ∧ small.yard.entryOf 23 = none) :=
  ⟨⟨takes_of (by decide), by decide, takes_of (by decide), rfl⟩,
    ⟨takes_of (by decide), by decide, takes_of (by decide), by decide⟩,
    ⟨takes_of (by decide), takes_of (by decide), takes_of (by decide), takes_of (by decide)⟩,
    ⟨takes_of (by decide), by decide⟩, takes_of (by decide), takes_of (by decide), by decide⟩

/-- A list of 16 with one WAITING entry, and one of 16 assigned. -/
def packed (robot : Option Nat) (stage : Stage) : List Entry :=
  (List.range 14).map (fun r => listedFor (r + 4) (some 7) .moving) ++
    [listedFor 18 robot stage, listedFor 19 (some 7) .moving]

theorem test_witness_RoundEvents_full :
    let s := fun l => on small fun y => { y with rounds := { y.rounds with list := l } }
    ((s (packed none .waiting)).takes .plantPass .plant [23, 1] ∧ (s (packed none .waiting)).yard.entryOf 23 = none ∧
      16 ≤ (s (packed none .waiting)).yard.rounds.list.length) ∧
    (packed none .waiting = (packed none .waiting).take 14 ++ listedFor 18 none .waiting :: [listedFor 19 (some 7) .moving] ∧
      (listedFor 19 (some 7) .moving).stage ≠ .waiting) ∧
    ((s (packed (some 7) .moving)).takes .plantPass .plant [23, 1] ∧
      ∀ e ∈ (s (packed (some 7) .moving)).yard.rounds.list, e.stage ≠ .waiting) ∧
    ((small.yard.build 0).2.isSome = true ∧ small.yard.settings.roundSource = .timer ∧
      ((stormy .parked small).yard.build 0).2 = none ∧
      ({ small.yard with settings := { small.yard.settings with roundSource := .request } } : Yard).settings.roundSource =
        .request) ∧
    ((listed (some 0) .moving small).yard.entryOf 2 = some ⟨2, .clean, .build, some 0, .moving⟩ ∧
      0 < small.yard.robots.length) :=
  ⟨⟨takes_of (by decide), by decide⟩, by decide, ⟨takes_of (by decide), by decide⟩, by decide, by decide⟩

theorem test_witness_AlertRequests :
    let silent := on small fun y => { y with metSilent := true }
    let wired : Yard := { silent.yard with alerts := { silent.yard.alerts with lanes := silent.yard.alerts.lanes.set 3 7 } }
    (small.between ∧ small.takes .raiseAlert .fleet []) ∧
    (small.takes .setLane .plant [7, 17] ∧ silent.takes .setLane .plant [3, 7]) ∧
    (silent.yard.laneLevel 3 = false ∧ wired.laneLevel 3 = true) ∧
    (small.takes .setLane .plant [8, 0] ∧ small.takes .setLane .plant [0, 18] ∧ small.takes .setLane .plant [4, 7]) ∧
    (small.takes .setListener .plant [9, 8] ∧ small.yard.selection 9 ≠ byteAt [9, 8] 1 ∧
      small.yard.selection 9 = byteAt [9, 0] 1) ∧
    (small.takes .setListener .plant [0, 1] ∧ small.takes .setListener .plant [2, 1] ∧
      small.takes .setListener .plant [4, 1] ∧ small.takes .setListener .plant [5, 8] ∧
      small.takes .setListener .plant [6, 8] ∧ small.takes .setListener .plant [10, 0] ∧
      small.takes .setListener .plant [0, 9]) ∧
    small.takes .testPulse .plant [7] ∧ small.takes .testPulse .plant [8] ∧ 7 < byteAt [8] 0 :=
  ⟨⟨rfl, takes_of (by decide)⟩, ⟨takes_of (by decide), takes_of (by decide)⟩, by decide,
    ⟨takes_of (by decide), takes_of (by decide), takes_of (by decide)⟩, ⟨takes_of (by decide), by decide⟩,
    ⟨takes_of (by decide), takes_of (by decide), takes_of (by decide), takes_of (by decide), takes_of (by decide),
      takes_of (by decide), takes_of (by decide)⟩, takes_of (by decide), takes_of (by decide), by decide⟩

/-- WATCH's states, a row that a rise settles, and sources that rise, fall and stay. -/
theorem test_witness_AlertRequests_levels :
    let silent : Yard := { small.yard with metSilent := true }
    (small.yard.storm.state = .calm ∧ (stormy .warned small).yard.storm.state = .warned) ∧
    (2 < small.yard.rows.length ∧ (small.yard.row 2).custody ≠ .flattening ∧
      (listed (some 0) .flattening (rowTwo .flattening (some 0))).yard.entryOf 2 =
        some ⟨2, .clean, .build, some 0, .flattening⟩ ∧ ((rowTwo .flattening (some 0)).yard.row 2).custody = .flattening) ∧
    (small.yard.sourceLevel 7 = false ∧ silent.sourceLevel 7 = true ∧ small.yard.sourceLevel 1 = silent.sourceLevel 1) := by
  decide

/-- Both edges of a source that changes twice in one event reach WATCH, the fall first (R105): HOLDOFF, on the lane of WATCH
and FREEZE, falls as a WAITING transfer is cancelled, the pass of the FREEZE fall grants another, and HOLDOFF rises again. -/
theorem test_two_edges :
    let s := stormy .warned (on small fun y => { y with
      settings := { y.settings with holdoffCount := 2, holdoffSegments := 1 }
      rail := { y.rail with holdoff := true, queue := [entry .waiting none,
        ⟨10, .plant, .move, 1, .dock 0, .garage 5, .waiting, none, none, none, none⟩] }
      alerts := { y.alerts with lanes := [10, 0, 0, 0, 0, 0, 0, 0], listeners := [1, 0, 0, 0, 1, 0, 0, 0, 0, 0] } })
    let t := after [.cancelTransfer .plant [9]] s
    (t.yard.boxes.tracker.queue.map fun n => (n.kind, n.subject.1)) = [(.stowState, 0), (.stowState, 1)] ∧
      t.yard.storm.state = .warned ∧ t.yard.rail.holdoff = true ∧ t.yard.rail.queue.map (·.phase) = [.fetch] := by
  decide +kernel

theorem test_witness_AlertTime :
    let f : Filter := ⟨false, true, true⟩
    let s := on small fun y => { y with alerts := { y.alerts with lineW := f, lineD := f } }
    (small.running = true ∧ small.between ∧ s.running = true ∧ s.between) ∧
    ((small.yard.alerts.lineW.take true).level = small.yard.alerts.lineW.level ∧
      small.yard.alerts.lineW.take true = ⟨false, true, true⟩) ∧
    (f.take true).level ≠ f.level ∧ (f.take false).level = f.level := ⟨⟨rfl, rfl, rfl, rfl⟩, by decide⟩

/-- Input D alone, and both inputs, change after two samples that differ (R106). -/
theorem test_two_samples :
    let d := after [.alarmInputSample false true, .alarmInputSample false true] small
    let both := after [.alarmInputSample true true] small
    (d.yard.alerts.lineD = ⟨true, true, false⟩ ∧ d.yard.alerts.lineW = ⟨false, false, false⟩) ∧
      both.yard.alerts.lineW = ⟨false, true, true⟩ ∧ both.yard.alerts.lineD = ⟨false, true, true⟩ := by decide +kernel

theorem test_witness_PatternRun :
    let pt : Pattern := ⟨bitsOf 1, List.replicate 8 5, bitsOf 0, 2, 0⟩
    pt.meets [5] = true ∧ pt.meets [4] = false ∧ pt.runCounter + 1 < pt.runLength ∧
      (pt.judge [5]).runCounter + 1 = pt.runLength ∧ ((pt.judge [5]).judge [5]).runCounter = pt.runLength := by decide

theorem test_witness_MetEvents :
    let fields : List Word := List.replicate 8 7
    let heard := after [.metFrame 5 fields (frameCheck (metCovered 5 fields))] small
    (small.resetN = true ∧ (0 : Word) ≠ frameCheck (metCovered 5 fields)) ∧ heard.met.last = some ⟨5, List.replicate 8 7, 0⟩ ∧
    (small.met.last = none ∧ small.met.inFrame = false) ∧ ((5 + 1) % 256 ≠ 5) ∧
    (heard.running = true ∧ heard.met.timer.isSome = true) := by decide +kernel

theorem test_witness_MetEvents_pulsing :
    let pt : Pattern := ⟨bitsOf 1, List.replicate 8 5, bitsOf 0, 1, 0⟩
    ({ small.met with patterns := [pt, freshPattern, pt, freshPattern] } : Met).pulsing [5] = [0, 2] := by decide

theorem test_witness_SetPattern :
    small.takes .setPattern .plant ([3, 0] ++ List.replicate 17 0 ++ [15]) ∧
    byteAt ([3, 0] ++ List.replicate 17 0 ++ [15]) 19 = 15 ∧
    small.takes .setPattern .plant ([4, 0] ++ List.replicate 17 0 ++ [1]) ∧
    byteAt ([0, 0] ++ List.replicate 17 0 ++ [16]) 19 = 16 :=
  ⟨takes_of (by decide), by decide, takes_of (by decide), by decide⟩

theorem test_witness_StormRequests :
    (small.between ∧ small.takes .stowNow .plant [] ∧ small.yard.mild = true) ∧
    ((stormy .recall small).takes .stowNow .plant [] ∧ (stormy .recall small).yard.mild = false) ∧
    (small.takes .release .plant [] ∧ small.yard.storm.state ≠ .parked) ∧
    ((stormy .parked small).takes .release .plant [] ∧ (stormy .parked small).yard.seen 0 = false ∧
      (stormy .parked small).yard.seen 1 = false) ∧
    let high := on (stormy .parked small) fun y => { y with metSilent := true, alerts := { y.alerts with
      lanes := [7, 0, 0, 0, 0, 0, 0, 0], listeners := [1, 1, 0, 0, 0, 0, 0, 0, 0, 0] } }
    high.takes .release .plant [] ∧ high.yard.seen 0 = true :=
  ⟨⟨rfl, takes_of (by decide), by decide⟩, ⟨takes_of (by decide), by decide⟩, ⟨takes_of (by decide), by decide⟩,
    ⟨takes_of (by decide), by decide⟩, takes_of (by decide), by decide⟩

theorem test_witness_StormOnsets :
    let s := on (stormy .recall passing) fun y => { y with storm := { y.storm with deadline := some 0 } }
    (s.running = true ∧ s.yard.storm.state = .recall ∧ s.yard.storm.deadline.isSome = true) ∧
    (2 < s.yard.rows.length ∧ (s.yard.row 2).custody = .open ∧ s.yard.heldOpen 2 = false) ∧
    ((rowTwo .stowed none).yard.row 2).custody = .stowed ∧ ((rowTwo .exposed (some 0)).yard.row 2).custody = .exposed ∧
      (rowTwo .open (some 0)).yard.heldOpen 2 = true := by decide

/-- An onset with the tables clear and one with a robot out, what it ends, and the conditions of STOWING and PARKED. -/
theorem test_witness_StormOnsets_steps :
    (small.yard.mild = true ∧ (stormy .stowing small).yard.mild = false ∧ small.yard.tablesClear = true ∧
      passing.yard.tablesClear = false) ∧
    ((Yard.beginRecall .stowNow none small.yard).storm.state = .stowing ∧
      (Yard.beginRecall .stowNow none passing.yard).storm.deadline.isSome = true) ∧
    ((entry .waiting none).carriage = none ∧ (entry .fetch (some 0)).carriage = some 0 ∧ (entry .board (some 0)).phase ≠ .waiting ∧
      (entry .board (some 0)).phase ≠ .fetch) ∧
    (small.yard.rail.nudges.getD 1 none = none ∧
      ((small.yard.setNudge 1 (some ⟨23, 0⟩)).rail.nudges.getD 1 none).isSome = true) ∧
    (passing.yard.enrolled 0 = true ∧ (passing.yard.robot 0).place = .midrow 2 ∧ small.yard.enrolled 11 = false) ∧
    ((stormy .recall small).yard.storm.state = .recall ∧ (stormy .stowing small).yard.storm.state = .stowing ∧
      ({ small.yard with rows := small.yard.rows.map fun w => { w with custody := .stowed } } : Yard).allStowed = true ∧
      small.yard.allStowed = false) ∧
    (passing.yard.onTable 2 = true ∧ (passing.yard.row 2).holder = some 0 ∧ small.yard.onTable 2 = false) := by
  decide +kernel

theorem test_witness_OnlyReleaseEndsAStorm :
    (∃ t, exec .minuteEvent (stormy .parked small) = .next t) ∧ (stormy .parked small).yard.mild = false ∧
      Instr.minuteEvent ≠ .coldReset := ⟨⟨_, rfl⟩, by decide⟩

theorem test_witness_SecondCharged :
    (State.reset.resetN = true ∧ State.reset.yard.startUp = .starting) ∧
    (small.resetN = true ∧ small.yard.startUp ≠ .starting ∧ small.accounts.timer = some 900 ∧ 1 < 900) ∧
    ({ small.accounts with timer := some 1 } : Accounts).timer = some 1 ∧
    ({ small.accounts with timer := none } : Accounts).timer = none := by decide

/-- A barred row in TRACK, and one in each other custody. -/
theorem test_witness_SecondCharged_classes :
    let fenced : Yard := { small.yard with fences := [some (2, 2)] }
    (fenced.rowClass 2 = .fence ∧ fenced.barred 2 = true ∧ fenced.rowClass 3 = .soil ∧ fenced.barred 3 = false) ∧
    ((rowTwo .settle none).yard.rowClass 2 = .soil ∧ (rowTwo .open (some 0)).yard.rowClass 2 = .hold) ∧
      (rowTwo .stowed none).yard.rowClass 2 = .stow ∧ (rowTwo .exposed (some 0)).yard.rowClass 2 = .exposed := by decide

theorem test_witness_IntervalExpiryTaken :
    let last : State := { small with accounts := { small.accounts with timer := some 1 } }
    (last.running = true ∧ last.accounts.timer = some 1 ∧ last.accounts.expiryTaken = false) ∧
    (small.running = true ∧ small.accounts.timer = some 900 ∧ 1 < 900) ∧
    ((after [.secondEvent] last).accounts.timer = some 900 ∧ (after [.secondEvent] last).accounts.expiryTaken = true) ∧
      (freshRowAccount 0).pending = none ∧ ((freshRowAccount 0).expire 1).pending = some (freshGathered 0) := by decide

theorem test_witness_EnergyReports :
    let soil := pendingTwo ⟨3, 900, 0, 0, 0, 0⟩
    let hold := pendingTwo ⟨3, 0, 0, 900, 0, 0⟩
    (soil.takes .energyReport .tracker [2, 0, 3, 0, 100, 0, 80] ∧ soil.between ∧ 2 < soil.yard.rows.length ∧
      (soil.accounts.row 2).pending = some ⟨3, 900, 0, 0, 0, 0⟩ ∧ wordAt [2, 0, 3, 0, 100, 0, 80] 1 = 3 ∧
      (⟨900, 0, 0, 0, 0⟩ : PerClass).chosen = .soil ∧ 0 < wordAt [2, 0, 3, 0, 100, 0, 80] 3) ∧
    ((hold.accounts.row 2).pending = some ⟨3, 0, 0, 900, 0, 0⟩ ∧ (⟨0, 0, 900, 0, 0⟩ : PerClass).chosen ≠ .soil) ∧
    (soil.takes .energyReport .tracker [2, 0, 4, 0, 0, 0, 0] ∧ soil.accounts.seq = 4) ∧
    (soil.takes .energyReport .tracker [2, 0, 2, 0, 0, 0, 0] ∧ wordAt [2, 0, 2, 0, 0, 0, 0] 1 ≠ soil.accounts.seq) ∧
    (soil.takes .energyReport .tracker [24, 0, 3, 0, 0, 0, 0] ∧ soil.yard.rows.length ≤ byteAt [24, 0, 3, 0, 0, 0, 0] 0) ∧
    (freshPeriod.intervals < 65535 ∧ 65535 ≤ ({ freshPeriod with intervals := 65535 } : Period).intervals) :=
  ⟨⟨takes_of (by decide), rfl, by decide⟩, by decide, ⟨takes_of (by decide), by decide⟩,
    ⟨takes_of (by decide), by decide⟩, ⟨takes_of (by decide), by decide⟩, by decide⟩

/-- An estimate that reaches DIRTY_LIMIT from unknown, one that does not, and a row that was there already. -/
theorem test_witness_EnergyReports_estimate :
    (small.yard.row 2).soiling = none ∧ small.yard.settings.dirtyLimit = 30 ∧ estimate none 3 100 = 30 ∧
      estimate none 2 100 = 20 ∧ ((small.yard.setRow 2 fun w => { w with soiling := some 30 }).row 2).soiling = some 30 := by
  decide

theorem test_witness_PeriodClosing :
    let walking : State := { small with accounts := { small.accounts with walk := some ⟨0, 16, 24⟩ } }
    (small.takes .closePeriod .plant [] ∧ small.accounts.walk = none) ∧
    (walking.takes .closePeriod .plant [] ∧ walking.accounts.walk.isSome = true ∧ walking.running = true ∧ 24 ≤ 16 + 8) ∧
    ({ small.accounts with walk := some ⟨0, 8, 24⟩ } : Accounts).walk = some ⟨0, 8, 24⟩ :=
  ⟨⟨takes_of (by decide), by decide⟩, ⟨takes_of (by decide), by decide⟩, by decide⟩

theorem test_witness_WriteSettingTaken :
    let saving : State := { small with loader := { small.loader with save := some ⟨blankImage, 0⟩ } }
    (saving.takes .writeSetting .plant [0x20, 0, 30] ∧ saving.loader.save.isSome = true) ∧
    (small.takes .writeSetting .plant [0x20, 0, 29] ∧ small.between ∧ small.yard.settings.inRange 0x20 29 = false ∧
      (small.yard.settings.put 0x15 15).crossLimits = false) ∧
    (small.loader.save = none ∧ small.yard.settings.inRange 0x01 192 = true ∧
      (small.yard.settings.put 0x01 192).crossLimits = true ∧ small.idle = true ∧
      small.yard.settings.value 0x01 ≠ 192 ∧ small.yard.settings.value 0x01 = 24 ∧
      (stormy .warned small).idle = false) ∧
    (small.takes .writeSetting .plant [0x01, 0, 192] ∧ small.yard.settings.inRange 0x08 23 = true ∧
      (small.yard.settings.put 0x08 23).crossLimits = true ∧ small.yard.settings.value 0x08 ≠ 23) ∧
    (small.takes .writeSetting .plant [0x29, 1, 44] ∧ small.yard.settings.inRange 0x29 300 = true ∧
      (small.yard.settings.put 0x29 300).crossLimits = true ∧ 0x29 < 0x2A) ∧
    small.takes .writeSetting .plant [0x2A, 0, 1] ∧ small.yard.settings.inRange 0x2A 1 = true ∧
      (small.yard.settings.put 0x2A 1).crossLimits = true ∧ small.yard.settings.inRange 0x2B 1 = true ∧
      (small.yard.settings.put 0x2B 1).crossLimits = true :=
  ⟨⟨takes_of (by decide), by decide⟩, ⟨takes_of (by decide), rfl, by decide⟩, by decide,
    ⟨takes_of (by decide), by decide⟩, ⟨takes_of (by decide), by decide⟩, takes_of (by decide), by decide⟩

/-- A faulted carriage holds 16 segments, HOLDOFF is high and its lane drives OUT_A: a structural change frees the segments and
lowers the level with no notice (R191), and OUT_A follows its lane. -/
theorem test_structural_change_is_silent :
    let s := on small fun y => { y with
      rail := { y.rail with holdoff := true, segments := List.replicate 16 (some ⟨0, .fault⟩) ++ List.replicate 8 none }
      carriages := y.carriages.modify 0 fun w => { w with fault := true }
      alerts := { y.alerts with lanes := [10, 0, 0, 0, 0, 0, 0, 0], listeners := [0, 0, 0, 0, 0, 1, 0, 0, 0, 1] } }
    let t := after [.writeSetting .plant [0x01, 0, 192]] s
    s.takes .writeSetting .plant [0x01, 0, 192] ∧ s.between ∧ s.idle = true ∧ s.yard.holdoffLevel = true ∧
      s.yard.outLevel .a = true ∧ t.yard.settings.rows = 192 ∧ t.yard.rail = freshRail ∧ t.yard.boxes = s.yard.boxes ∧
      t.yard.alerts = s.yard.alerts ∧ t.yard.outLevel .a = false :=
  ⟨takes_of (by decide), rfl, by decide +kernel⟩

theorem test_witness_SettingsSaved :
    ((bare .unconfigured).takes .commitSettings .plant [] ∧ (bare .unconfigured).yard.startUp = .unconfigured) ∧
    (small.takes .commitSettings .plant [] ∧ small.yard.startUp = .ready) ∧
    (small.takes .saveSettings .plant [] ∧ small.loader.save = none) ∧
    let saving := after [.saveSettings .plant [], .answerSent .plant] small
    saving.takes .saveSettings .plant [] ∧ saving.loader.save = some ⟨small.liveImage 1, 0⟩ ∧
      (small.liveImage 1).good = true :=
  ⟨⟨takes_of (by decide), by decide⟩, ⟨takes_of (by decide), by decide⟩, ⟨takes_of (by decide), by decide⟩,
    takes_of (by decide), by decide +kernel⟩

theorem test_witness_SlotChosen :
    let good := small.liveImage
    blankImage.good = false ∧ (good 65535).good = true ∧ (good 0).good = true ∧
      (0 : Nat) = (65535 + 1) % 65536 := by decide +kernel

theorem test_witness_FleetRestartTaken :
    (small.takes .fleetRestart .plant [] ∧ small.yard.mild = true) ∧
    ((stormy .parked small).takes .fleetRestart .plant [] ∧ (stormy .parked small).yard.mild = false) ∧
    (((rowTwo .flattening (some 0)).yard.row 2).custody = .flattening ∧ (rowTwo .open (some 0)).yard.heldOpen 2 = true ∧
      (small.yard.row 2).custody = .track ∧ small.yard.heldOpen 2 = false) ∧
    (((ordered .stay).yard.carriage 1).order = some ⟨.stay, 3⟩ ∧ (small.yard.carriage 2).order = none ∧
      2 < small.yard.carriages.length) ∧
    ((passing.yard.robot 0).place = .midrow 2 ∧ (passing.yard.robot 0).order = some ⟨.pass 2 .survey, 7⟩ ∧
      ((ordered .stay).yard.robot 0).place = .midrow 2 ∧ ((ordered .stay).yard.robot 0).order = some ⟨.toGarage 2, 8⟩) ∧
    (small.yard.robot 1).place = .dock 0 ∧ small.yard.enrolled 1 = true ∧ 11 < small.yard.robots.length :=
  ⟨⟨takes_of (by decide), by decide⟩, ⟨takes_of (by decide), by decide⟩, by decide⟩

/-- Fleet Restart of a part with a transfer under way: the transfer ends, its carriage stays, its segments are free. -/
theorem test_fleet_restart :
    let t := after [.answerSent .plant, .fleetRestart .plant []] moving
    t.yard.rail.queue = [] ∧ (t.yard.carriage 0).order = some ⟨.stay, 2⟩ ∧ (t.yard.carriage 0).task = none ∧
      t.yard.reservation 0 = none ∧ t.yard.rounds.counters.rechargesSent = 0 := by decide +kernel

theorem test_witness_StartUpTaken :
    let saving : State := { small with loader := { small.loader with save := some ⟨blankImage, 1⟩ } }
    (small.loader.save = none ∧ State.reset.resetN = true ∧ State.reset.yard.startUp = .starting ∧
      State.reset.loader.chooseSlot = none) ∧
    saving.loader.save = some ⟨blankImage, 1⟩ ∧ (small.coldReset).resetN = false ∧
    ({ State.reset.loader with slot1 := small.liveImage 1 } : Loader).chooseSlot = some 1 ∧
    ({ State.reset.loader with slot0 := small.liveImage 1 } : Loader).chooseSlot = some 0 := by decide +kernel

/-- The load ends with W asserted and WATCH on a lane of LINE_W: the filtered level is set with no delay and the state is
WARNED (R106, R122, R141); out of STARTING the command is nothing. -/
theorem test_start_with_watch_high :
    let im := { small.liveImage 1 with lanes := [1, 0, 0, 0, 0, 0, 0, 0], listeners := [1, 0, 0, 0, 0, 0, 0, 0, 0, 0] }
    let t := after [.startUpLoadEnd true false] { State.reset with loader := { State.reset.loader with slot0 := im } }
    (t.yard.storm.state = .warned ∧ t.yard.alerts.lineW = ⟨true, true, false⟩ ∧ t.yard.alerts.lineD.level = false) ∧
      t.yard.startUp = .ready ∧ small.yard.startUp ≠ .starting := by decide +kernel

theorem test_witness_ConfigurationFrame :
    (∃ t, exec .minuteEvent small = .next t) ∧ Instr.minuteEvent ≠ .coldReset ∧ Instr.minuteEvent ≠ .secondEvent :=
  ⟨⟨_, rfl⟩, by decide⟩

end Sys2Proof.Tests
end

/-! SUPPORT. What a wanted posture asks of a reported one, and when a row's order is pending (R3). -/

namespace Sys2Proof.Machine

/-! ### The matching pairs of R3: one reported posture for each wanted one -/

namespace Posture

@[simp] theorem meets_free_iff (p : Posture) : p.meets .free = true ↔ p = .tracking := by
  cases p <;> simp [meets]

@[simp] theorem meets_flat_iff (p : Posture) : p.meets .flat = true ↔ p = .flat := by
  cases p <;> simp [meets]

@[simp] theorem meets_stow_iff (p : Posture) : p.meets .stow = true ↔ p = .stowed := by
  cases p <;> simp [meets]

@[simp] theorem meets_hold_iff (p : Posture) : p.meets .hold = true ↔ p = .flat := by
  cases p <;> simp [meets]

theorem meets_iff (p : Posture) (w : Wanted) : p.meets w = true ↔
    (w = .free ∧ p = .tracking) ∨ (w = .flat ∧ p = .flat) ∨ (w = .stow ∧ p = .stowed) ∨ (w = .hold ∧ p = .flat) := by
  cases w with
  | free => simp
  | flat => simp
  | stow => simp
  | hold => simp

end Posture

theorem Yard.rowOrderPending_iff (y : Yard) (r : Nat) :
    y.rowOrderPending r = true ↔ (y.row r).reported.meets (y.row r).custody.wanted = false := by
  simp [Yard.rowOrderPending, Yard.wanted]

/-! ### The statement -/

/-- Settles O14: each custody's wanted posture is an equation of the model, and the two equivalences are the lemmas
above. -/
theorem wantedPosture : Obligations.WantedPosture :=
  ⟨⟨rfl, rfl, rfl, rfl, rfl, rfl, rfl⟩, Posture.meets_iff, Yard.rowOrderPending_iff⟩

end Sys2Proof.Machine

/-! SUPPORT. The nine checks of a Transfer request (R54): each check as a condition on the yard, the judging of a request as
the chain of the nine, and what a refusal leaves. -/

namespace Sys2Proof.Machine

/-! ### The checks of R54 -/

/-- Check 2: the robot's place is neither UNKNOWN nor MIDROW. -/
def Robot.collectable (b : Robot) : Prop := b.place ≠ .unknown ∧ ∀ r, b.place ≠ .midrow r

namespace Yard

variable (y : Yard) (origin : TransferOrigin) (k : Nat) (d : Place)

/-- Check 3: the robot is in no transfer and on no pass, and has no fault. -/
def unengaged : Prop :=
  y.transferOfRobot k = none ∧ (∀ r kind, (y.robot k).task ≠ .pass r kind) ∧ (y.robot k).fault = false

/-- Check 4: only the Round Scheduler moves a robot that its list holds. -/
def linkAdmits : Prop := origin = .round ∨ (y.robot k).roundLink = none

/-- Check 5: the destination exists, and the robot is not there already. -/
def destinationStands : Prop :=
  (∀ r, d = .garage r → r < y.rows.length) ∧ (∀ n, d = .dock n → n < y.settings.docks) ∧ d ≠ (y.robot k).place

/-- Check 6: the row of a garage destination is not barred. -/
def destinationUnbarred : Prop := ∀ r, d = .garage r → y.barred r = false

/-- Check 7: the destination is free (R29). -/
def destinationVacant : Prop :=
  (∀ r, d = .garage r →
    (y.row r).garageOccupant = none ∧ (y.row r).garageReserved = none ∧ (y.row r).holder = none) ∧
  ∀ n, d = .dock n → (y.dock n).occupant = none ∧ (y.dock n).reservedFor = none

/-- Check 8: the queue has room, and the hold-off level does not hold the request back. -/
def queueAdmits : Prop := y.rail.queue.length < 8 ∧ ¬(origin = .round ∧ y.rail.holdoff = true)

theorem destinationStands_iff (hd : (∃ r, d = .garage r) ∨ ∃ n, d = .dock n) :
    y.destinationStands k d ↔ y.placeExists d = true ∧ d ≠ (y.robot k).place := by
  obtain ⟨r, rfl⟩ | ⟨n, rfl⟩ := hd <;> simp [destinationStands, placeExists]

theorem destinationUnbarred_iff : y.destinationUnbarred d ↔ y.destinationBarred d = false := by
  cases d <;> simp [destinationUnbarred, destinationBarred]

theorem destinationVacant_iff (hd : (∃ r, d = .garage r) ∨ ∃ n, d = .dock n) :
    y.destinationVacant d ↔ y.destinationFree d = true := by
  obtain ⟨r, rfl⟩ | ⟨n, rfl⟩ := hd
  · simp [destinationVacant, destinationFree, garageFree, and_assoc]
  · simp [destinationVacant, destinationFree, dockFree]

open Classical in
/-- R54 as a chain: the first check that fails gives the answer, and the storm check judges what passes the other eight. -/
theorem transferRefusal_eq (hd : (∃ r, d = .garage r) ∨ ∃ n, d = .dock n) : y.transferRefusal origin k d =
    if ¬(y.robot k).enrolled = true then some (.refuse .range)
    else if ¬(y.robot k).collectable then some (.refuse .robotBusy)
    else if ¬y.unengaged k then some (.refuse .robotBusy)
    else if ¬y.linkAdmits origin k then some (.refuse .robotBusy)
    else if ¬y.destinationStands k d then some (.refuse .range)
    else if ¬y.destinationUnbarred d then some (.refuse .barred)
    else if ¬y.destinationVacant d then some (.refuse .place)
    else if ¬y.queueAdmits origin then some (.plain .full)
    else y.stormReply d := by
  unfold transferRefusal
  refine if_congr ?enrolled rfl <| if_congr ?collectable rfl <| if_congr ?unengaged rfl <| if_congr ?link rfl <|
    if_congr ?stands rfl <| if_congr ?unbarred rfl <| if_congr ?vacant rfl <| if_congr ?queue rfl rfl
  case enrolled => simp
  case collectable => cases h : (y.robot k).place <;> simp [Robot.collectable, h]
  case unengaged => cases h : (y.robot k).task <;> simp [unengaged, h, ← Option.ne_none_iff_isSome, imp_iff_not_or]
  case link => simp [linkAdmits, ← Option.ne_none_iff_isSome]
  case stands => rw [y.destinationStands_iff k d hd]; simp [imp_iff_not_or]
  case unbarred => rw [y.destinationUnbarred_iff d]; simp
  case vacant => rw [y.destinationVacant_iff d hd]; simp
  case queue => simp [queueAdmits, imp_iff_not_or]

/-! ### The storm check -/

section Storm

variable {y}

theorem stormReply_calm (h : y.storm.state = .calm) : y.stormReply d = none := by
  simp [stormReply, h]

theorem stormReply_warned_dock (h : y.storm.state = .warned) (n : Nat) : y.stormReply (.dock n) = none := by
  simp [stormReply, h]

theorem stormReply_warned_garage (h : y.storm.state = .warned) (r : Nat) :
    y.stormReply (.garage r) = some (.refuse .alertActive) := by
  simp [stormReply, h]

theorem stormReply_storm (h : y.storm.state = .recall ∨ y.storm.state = .stowing) :
    y.stormReply d = some (.refuse .state) := by
  obtain h | h := h <;> simp [stormReply, h]

theorem stormReply_parked (h : y.storm.state = .parked) : y.stormReply d = some (.plain .ignored) := by
  simp [stormReply, h]

end Storm

/-! ### A refusal changes nothing -/

theorem requestTransfer_of_refusal {y : Yard} {origin : TransferOrigin} {k : Nat} {d : Place} {reply : Reply}
    (h : y.transferRefusal origin k d = some reply) (pass : Yard → Yard) (purpose : Purpose) (link : Option Nat) :
    y.requestTransfer pass origin purpose k d link = (y, reply) := by
  simp [requestTransfer, h]

end Yard

/-! ### The statement -/

/-- Settles O27: each clause follows the chain of R54 up to its own check; past the eighth, the answer is that of the storm
check. -/
theorem transferChecks : Obligations.TransferChecks := by
  intro y origin k d hd b answer c1 c2 c3 c4 c5 c6 c7 c8
  have chain : answer = _ := y.transferRefusal_eq origin k d hd
  have past1 (h₁ : c1) : answer = _ := chain.trans (if_neg (not_not_intro h₁))
  have past2 (h₁ : c1) (h₂ : c2) : answer = _ := (past1 h₁).trans (if_neg (not_not_intro h₂))
  have past3 (h₁ : c1) (h₂ : c2) (h₃ : c3) : answer = _ := (past2 h₁ h₂).trans (if_neg (not_not_intro h₃))
  have past4 (h₁ : c1) (h₂ : c2) (h₃ : c3) (h₄ : c4) : answer = _ :=
    (past3 h₁ h₂ h₃).trans (if_neg (not_not_intro h₄))
  have past5 (h₁ : c1) (h₂ : c2) (h₃ : c3) (h₄ : c4) (h₅ : c5) : answer = _ :=
    (past4 h₁ h₂ h₃ h₄).trans (if_neg (not_not_intro h₅))
  have past6 (h₁ : c1) (h₂ : c2) (h₃ : c3) (h₄ : c4) (h₅ : c5) (h₆ : c6) : answer = _ :=
    (past5 h₁ h₂ h₃ h₄ h₅).trans (if_neg (not_not_intro h₆))
  have past7 (h₁ : c1) (h₂ : c2) (h₃ : c3) (h₄ : c4) (h₅ : c5) (h₆ : c6) (h₇ : c7) : answer = _ :=
    (past6 h₁ h₂ h₃ h₄ h₅ h₆).trans (if_neg (not_not_intro h₇))
  refine ⟨fun f => chain.trans (if_pos f), fun h₁ f => (past1 h₁).trans (if_pos f),
    fun h₁ h₂ f => (past2 h₁ h₂).trans (if_pos f), fun h₁ h₂ h₃ f => (past3 h₁ h₂ h₃).trans (if_pos f),
    fun h₁ h₂ h₃ h₄ f => (past4 h₁ h₂ h₃ h₄).trans (if_pos f),
    fun h₁ h₂ h₃ h₄ h₅ f => (past5 h₁ h₂ h₃ h₄ h₅).trans (if_pos f),
    fun h₁ h₂ h₃ h₄ h₅ h₆ f => (past6 h₁ h₂ h₃ h₄ h₅ h₆).trans (if_pos f),
    fun h₁ h₂ h₃ h₄ h₅ h₆ h₇ f => (past7 h₁ h₂ h₃ h₄ h₅ h₆ h₇).trans (if_pos f),
    fun h₁ h₂ h₃ h₄ h₅ h₆ h₇ h₈ => ?storm,
    fun pass purpose _ _ refused => Yard.requestTransfer_of_refusal refused pass purpose _⟩
  case storm =>
    have judged : answer = y.stormReply d := (past7 h₁ h₂ h₃ h₄ h₅ h₆ h₇).trans (if_neg (not_not_intro h₈))
    rw [judged]
    refine ⟨Yard.stormReply_calm d, ?_, ?_, Yard.stormReply_storm d, Yard.stormReply_parked d⟩
    · rintro h n rfl
      exact Yard.stormReply_warned_dock h n
    · rintro h r rfl
      exact Yard.stormReply_warned_garage h r

end Sys2Proof.Machine

/-! SUPPORT. The rank of R82 as a linear order, and what a build does to the build counts (R84). -/

namespace Sys2Proof.Machine

namespace Yard

/-! ### The rank (R82) -/

/-- The four tests of R82, each applied to rows left tied by the tests before it. -/
theorem ranksBefore_iff (y : Yard) (a b : Nat) : y.ranksBefore a b = true ↔
    ((y.row a).soiling = none ∧ (y.row b).soiling ≠ none) ∨
    (∃ m n, (y.row a).soiling = some m ∧ (y.row b).soiling = some n ∧ n < m) ∨
    ((y.row a).soiling = (y.row b).soiling ∧ (y.row b).age < (y.row a).age) ∨
    ((y.row a).soiling = (y.row b).soiling ∧ (y.row a).age = (y.row b).age ∧ a < b) := by
  have tie : (if (y.row a).age ≠ (y.row b).age then decide ((y.row b).age < (y.row a).age) else decide (a < b)) = true ↔
      (y.row b).age < (y.row a).age ∨ (y.row a).age = (y.row b).age ∧ a < b := by
    split <;> simp <;> omega
  unfold ranksBefore
  match (y.row a).soiling, (y.row b).soiling with
  | none, some _ => simp
  | some _, none => simp
  | none, none => simpa using tie
  | some m, some n =>
    obtain rfl | differ := eq_or_ne m n
    · simpa using tie
    · simp [differ]

/-- What the rank compares, the row of the greatest key first: the soiling, with none above every value, then the age, then
the index, the lower one above. -/
def rankKey (y : Yard) (r : Nat) : WithTop Nat ×ₗ Nat ×ₗ Natᵒᵈ :=
  toLex ((y.row r).soiling.elim ⊤ (↑), toLex ((y.row r).age, OrderDual.toDual r))

theorem ranksBefore_iff_rankKey_lt (y : Yard) (a b : Nat) :
    y.ranksBefore a b = true ↔ y.rankKey b < y.rankKey a := by
  rw [ranksBefore_iff]
  simp only [rankKey, Prod.Lex.toLex_lt_toLex, OrderDual.toDual_lt_toDual]
  match (y.row a).soiling, (y.row b).soiling with
  | none, none => simp [eq_comm]
  | none, some _ => simp
  | some _, none => simp
  | some m, some n => simp [eq_comm, and_or_left]

theorem ranksBefore_eq_false_iff (y : Yard) (a b : Nat) :
    y.ranksBefore a b = false ↔ y.rankKey a ≤ y.rankKey b := by
  rw [← Bool.not_eq_true, ranksBefore_iff_rankKey_lt, not_lt]

/-- No two rows tie at the last test. -/
theorem rankKey_injective (y : Yard) : Function.Injective y.rankKey := by
  intro a b h
  simp only [rankKey, EmbeddingLike.apply_eq_iff_eq, Prod.mk.injEq] at h
  exact h.2.2

theorem ranksBefore_iff_of_ne (y : Yard) {a b : Nat} (h : a ≠ b) :
    y.ranksBefore a b = true ↔ y.ranksBefore b a = false := by
  rw [ranksBefore_iff_rankKey_lt, ranksBefore_eq_false_iff]
  exact ⟨le_of_lt, fun le => lt_of_le_of_ne le (y.rankKey_injective.ne h.symm)⟩

/-! ### Rows in rank order -/

theorem insertRanked_pairwise (y : Yard) (a : Nat) (l : List Nat)
    (h : l.Pairwise fun p q => y.rankKey q ≤ y.rankKey p) :
    (y.insertRanked a l).Pairwise fun p q => y.rankKey q ≤ y.rankKey p := by
  induction l with
  | nil => exact List.pairwise_singleton _ a
  | cons b l ih =>
    obtain ⟨first, rest⟩ := List.pairwise_cons.1 h
    rw [insertRanked]
    split
    next before =>
      have le : y.rankKey b ≤ y.rankKey a := ((y.ranksBefore_iff_rankKey_lt a b).1 before).le
      exact h.cons (List.forall_mem_cons.2 ⟨le, fun q hq => (first q hq).trans le⟩)
    next behind =>
      have le : y.rankKey a ≤ y.rankKey b := (y.ranksBefore_eq_false_iff a b).1 (Bool.eq_false_of_not_eq_true behind)
      have all : ∀ q ∈ a :: l, y.rankKey q ≤ y.rankKey b := List.forall_mem_cons.2 ⟨le, first⟩
      exact (ih rest).cons fun q hq => all q ((Keeps.insertRanked_perm y a l).mem_iff.1 hq)

theorem ranked_pairwise (y : Yard) (l : List Nat) :
    (y.ranked l).Pairwise fun p q => y.rankKey q ≤ y.rankKey p := by
  induction l with
  | nil => exact List.Pairwise.nil
  | cons a l ih => exact y.insertRanked_pairwise a _ ih

/-! ### The build counts (R84) -/

@[simp] theorem appendCandidates_buildCounts (y : Yard) (o : EntryOrigin) (kindOf : Nat → PassKind) (rows : List Nat) :
    (y.appendCandidates o kindOf rows).1.rounds.buildCounts = y.rounds.buildCounts := by
  unfold appendCandidates
  dsimp only
  split <;> rfl

@[simp] theorem missRound_buildCounts (y : Yard) : y.missRound.rounds.buildCounts = y.rounds.buildCounts := rfl

theorem build_buildCounts (y : Yard) (g : Nat) : (y.build g).1.rounds.buildCounts =
    if y.roundsTaken then y.rounds.buildCounts.set g (y.surveyDecision g).2 else y.rounds.buildCounts := by
  unfold build
  split <;> simp

theorem makeSweep_buildCounts (y : Yard) : y.makeSweep.1.rounds.buildCounts = y.rounds.buildCounts := by
  unfold makeSweep
  split <;> simp

theorem surveyDecision_of_reached {y : Yard} {g : Nat} (on : 0 < y.settings.surveyEvery) (fits : y.settings.surveyEvery ≤ 15)
    (reached : y.settings.surveyEvery ≤ y.rounds.buildCounts.getD g 0 + 1) : y.surveyDecision g = (true, 0) :=
  if_pos ⟨on, le_min reached fits⟩

theorem surveyDecision_of_below {y : Yard} {g : Nat} (fits : y.settings.surveyEvery ≤ 15)
    (below : y.rounds.buildCounts.getD g 0 + 1 < y.settings.surveyEvery) :
    y.surveyDecision g = (false, y.rounds.buildCounts.getD g 0 + 1) := by
  have count : min (y.rounds.buildCounts.getD g 0 + 1) 15 = y.rounds.buildCounts.getD g 0 + 1 :=
    min_eq_left (below.le.trans fits)
  simp only [surveyDecision, count]
  exact if_neg fun survey => absurd survey.2 (not_le.2 below)

theorem surveyDecision_of_off {y : Yard} {g : Nat} (off : y.settings.surveyEvery = 0) :
    y.surveyDecision g = (false, min (y.rounds.buildCounts.getD g 0 + 1) 15) := by
  simp [surveyDecision, off]

end Yard

/-! ### The statements -/

/-- Settles O34: the rank compares keys in a linear order that no two rows share, and insertion keeps a list sorted by them. -/
theorem rankOrder : Obligations.RankOrder := by
  intro y rows
  refine ⟨Keeps.ranked_perm y rows, ?sorted, fun _ _ => y.ranksBefore_iff_of_ne, y.ranksBefore_iff,
    fun o kindOf => y.appendCandidates_list o kindOf rows⟩
  case sorted => simpa only [Yard.ranksBefore_eq_false_iff] using y.ranked_pairwise rows

/-- Settles O35: what a build and a sweep leave of the counts, and the three cases of the survey decision. -/
theorem buildCount : Obligations.BuildCount := by
  intro y g old every
  refine ⟨fun missed => ?_, y.makeSweep_buildCounts, fun taken => ?_, Yard.surveyDecision_of_reached,
    fun _ => Yard.surveyDecision_of_below, Yard.surveyDecision_of_off⟩
  · simp [Yard.build_buildCounts, missed]
  · simp [Yard.build_buildCounts, taken]

end Sys2Proof.Machine

/-! SUPPORT. The class of a closed interval as the first class of the tie order that holds the most seconds (R152). -/

namespace Sys2Proof.Machine

/-! ### The tie order (R152) -/

namespace Class

/-- The classes in the order in which a tie is decided (R152). -/
def tieOrder : List Class := [.stow, .exposed, .hold, .fence, .soil]

theorem mem_tieOrder (c : Class) : c ∈ tieOrder := by
  cases c <;> decide

end Class

/-! ### The class chosen -/

namespace PerClass

/-- The walk of the model, which holds a class until a later one has more, is `argmax` over the tie order. -/
theorem argmax_tieOrder_eq_chosen (n : PerClass) : Class.tieOrder.argmax n.of = some n.chosen := by
  have keeps (best c : Class) : List.argAux (fun b a => n.of a < n.of b) (some best) c =
      some (if n.of best < n.of c then c else best) := (apply_ite some (n.of best < n.of c) c best).symm
  exact List.foldl_hom some keeps

theorem of_le_of_chosen (n : PerClass) (c : Class) : n.of c ≤ n.of n.chosen :=
  List.le_of_mem_argmax c.mem_tieOrder n.argmax_tieOrder_eq_chosen

/-- A class with as many seconds as the chosen one stands at or after it in the tie order. -/
theorem chosen_mem_take_of_tied {n : PerClass} {c : Class} (tied : n.of c = n.of n.chosen) :
    n.chosen ∈ Class.tieOrder.take (Class.tieOrder.idxOf c + 1) := by
  have first : Class.tieOrder.idxOf n.chosen ≤ Class.tieOrder.idxOf c :=
    List.index_of_argmax n.argmax_tieOrder_eq_chosen c.mem_tieOrder tied.ge
  exact (List.mem_take_iff_idxOf_lt n.chosen.mem_tieOrder).2 (Nat.lt_succ_of_le first)

end PerClass

/-! ### The statement -/

/-- Settles O49: the class chosen is the first largest of the tie order, so a tied class leaves only those up to itself. -/
theorem classChosen : Obligations.ClassChosen := by
  intro n
  refine ⟨n.of_le_of_chosen, fun stow => ?_, fun exposed => ?_, fun hold => ?_, fun fence soil => ?_⟩
  · have upTo : n.chosen ∈ [Class.stow] := PerClass.chosen_mem_take_of_tied stow
    simpa using upTo
  · have upTo : n.chosen ∈ [Class.stow, .exposed] := PerClass.chosen_mem_take_of_tied exposed
    simpa using upTo
  · have upTo : n.chosen ∈ [Class.stow, .exposed, .hold] := PerClass.chosen_mem_take_of_tied hold
    simpa using upTo
  · have upTo : n.chosen ∈ [Class.stow, .exposed, .hold, .fence] := PerClass.chosen_mem_take_of_tied fence
    simp [soil] at upTo

end Sys2Proof.Machine

/-! SUPPORT. What Read Notices does once it is taken (R178): the two ranges of its maximum count. -/

namespace Sys2Proof.Machine

namespace State

variable {p : Port} {body : List Byte} {s : State}

theorem takeReadNotices_of_out_of_range (outside : byteAt body 0 = 0 ∨ 4 < byteAt body 0) :
    s.takeReadNotices p body = (s, .refuse .range) :=
  if_pos outside

/-- `n` of R178 stands for the maximum count: past the length of the queue, a larger count removes and keeps the same. -/
theorem takeReadNotices_of_in_range (low : 1 ≤ byteAt body 0) (high : byteAt body 0 ≤ 4) :
    let queue := (s.yard.boxes.get p).queue
    let n := min (byteAt body 0) queue.length
    s.takeReadNotices p body =
      (s.withYard { s.yard with boxes := s.yard.boxes.set p ⟨queue.drop n, (s.yard.boxes.get p).lost⟩ },
        .ok ([byte n, byte (queue.length - n)] ++ ((queue.take n).map Notice.bytes).flatten)) := by
  intro queue n
  have inside : ¬(byteAt body 0 = 0 ∨ 4 < byteAt body 0) := by omega
  have held : (s.yard.boxes.get p).queue = queue := rfl
  have removed : queue.take (byteAt body 0) = queue.take n := List.take_eq_take_iff.2 (by simp [n])
  have kept : queue.drop (byteAt body 0) = queue.drop n := List.drop_eq_drop_iff.2 (by simp [n])
  have returned : (queue.take n).length = n := List.length_take_of_le (min_le_right _ _)
  rw [takeReadNotices, if_neg inside]
  simp only [held, removed, kept, returned, List.length_drop, withYard]

end State

/-! ### The statement -/

/-- Settles O9: a taken request is answered by its rule, which refuses a count outside 1 to 4 and serves one inside. -/
theorem readNoticesTaken : Obligations.ReadNoticesTaken := by
  intro p body s taken most queue n
  have answer : exec (.readNotices p body) s =
      .next ((s.takeReadNotices p body).1.answered p 0x02 (s.takeReadNotices p body).2) :=
    congrArg Host.Outcome.next (State.serve_takes taken _)
  rw [answer]
  refine ⟨fun outside => ?refused, fun low high => ?served⟩
  case refused => rw [State.takeReadNotices_of_out_of_range outside]
  case served => rw [State.takeReadNotices_of_in_range low high]

end Sys2Proof.Machine

/-! SUPPORT. Which of two slots the start-up load chooses (R195). -/

namespace Sys2Proof.Machine

/-! ### The newer of two generations: a successor modulo 65536, else the greater -/

section Newer

variable {g0 g1 : Nat}

/-- The order in which the model asks the two questions of R195 does not matter: no two generations are each the other's
successor, since two steps modulo 65536 never lead back. -/
theorem not_successor_of_successor (successor : g0 = (g1 + 1) % 65536) : g1 ≠ (g0 + 1) % 65536 := by
  omega

theorem newerIsOne_of_one_successor (successor : g1 = (g0 + 1) % 65536) : newerIsOne g0 g1 = true :=
  if_pos successor

theorem newerIsOne_of_zero_successor (successor : g0 = (g1 + 1) % 65536) : newerIsOne g0 g1 = false :=
  (if_neg (not_successor_of_successor successor)).trans (if_pos successor)

theorem newerIsOne_of_no_successor (one : g1 ≠ (g0 + 1) % 65536) (zero : g0 ≠ (g1 + 1) % 65536) :
    newerIsOne g0 g1 = decide (g0 < g1) :=
  (if_neg one).trans (if_neg zero)

end Newer

namespace Loader

variable {l : Loader}

/-! ### The slot chosen, by which slots are good -/

theorem chooseSlot_of_both_bad (bad0 : l.slot0.good = false) (bad1 : l.slot1.good = false) : l.chooseSlot = none := by
  rw [chooseSlot, bad0, bad1]

theorem chooseSlot_of_zero_alone (good0 : l.slot0.good = true) (bad1 : l.slot1.good = false) :
    l.chooseSlot = some 0 := by
  rw [chooseSlot, good0, bad1]

theorem chooseSlot_of_one_alone (bad0 : l.slot0.good = false) (good1 : l.slot1.good = true) :
    l.chooseSlot = some 1 := by
  rw [chooseSlot, bad0, good1]

theorem chooseSlot_of_both_good (good0 : l.slot0.good = true) (good1 : l.slot1.good = true) :
    l.chooseSlot = if newerIsOne l.slot0.generation l.slot1.generation then some 1 else some 0 := by
  rw [chooseSlot, good0, good1]

end Loader

/-! ### The statement -/

/-- Settles O54: one good slot is chosen as it stands; of two, the choice is that of the newer generation, whose tests
exclude each other. -/
theorem slotChosen : Obligations.SlotChosen := by
  intro l g0 g1
  refine ⟨Loader.chooseSlot_of_both_bad, Loader.chooseSlot_of_zero_alone, Loader.chooseSlot_of_one_alone,
    fun good0 good1 _ _ => ?_⟩
  have chosen : l.chooseSlot = if newerIsOne g0 g1 then some 1 else some 0 := Loader.chooseSlot_of_both_good good0 good1
  rw [chosen]
  refine ⟨fun successor => ?oneSuccessor, fun successor => ?zeroSuccessor, fun one zero greater => ?oneGreater,
    fun one zero notGreater => ?zeroElse⟩
  case oneSuccessor => simp [newerIsOne_of_one_successor successor]
  case zeroSuccessor => simp [newerIsOne_of_zero_successor successor]
  case oneGreater => simp [newerIsOne_of_no_successor one zero, greater]
  case zeroElse => simp [newerIsOne_of_no_successor one zero, notGreater]

end Sys2Proof.Machine

/-! SUPPORT. Requests as one: each kind's rule, its frame judged by R170, and what a request leaves of the links; with the
frames that are no request and the other events of a link (R168 to R171, R174). -/

namespace Sys2Proof.Machine

/-! ### The rule of each kind -/

/-- What a taken request of this kind does, and its answer: the rule that its meaning hands to `State.serve`. -/
def requestRule (k : Kind) (p : Port) (body : List Byte) : State → State × Reply :=
  match k with
  | .readStatus => State.takeReadStatus p
  | .readNotices => State.takeReadNotices p body
  | .raiseAlert => State.onYard (Yard.takeRaiseAlert p)
  | .readOrders => State.reading fun s => s.yard.readOrders p (byteAt body 0)
  | .postureReport => State.onYard (Yard.takePostureReport body)
  | .energyReport => State.takeEnergyReport body
  | .readRows => State.reading fun s => s.yard.readRows (byteAt body 0)
  | .setFence => State.onYard (Yard.takeSetFence body)
  | .clearFence => State.onYard (Yard.takeClearFence body)
  | .readFences => State.reading fun s => .ok (s.yard.fences.map Yard.fenceBytes).flatten
  | .robotStatus => State.onYard (Yard.takeRobotStatus body)
  | .orderDone => State.onYard (Yard.takeOrderDone body)
  | .carriagePosition => State.onYard (Yard.takeCarriagePosition body)
  | .robotFault => State.onYard (Yard.takeRobotFault body)
  | .enrollRobot => State.onYard (Yard.takeEnrollRobot body)
  | .clearRobot => State.onYard (Yard.takeClearRobot body)
  | .writeOffRobot => State.onYard (Yard.takeWriteOffRobot body)
  | .clearCarriage => State.onYard (Yard.takeClearCarriage body)
  | .readFleet => State.readingYard (Yard.takeReadFleet p body)
  | .transfer => State.onYard (Yard.takeTransfer p body)
  | .cancelTransfer => State.onYard (Yard.takeCancelTransfer p body)
  | .readTransfers => State.reading fun s => s.yard.readTransfers (byteAt body 0)
  | .roundBuild => State.onYard (Yard.takeRoundBuild body)
  | .sweep => State.onYard Yard.takeSweep
  | .plantPass => State.onYard (Yard.takePlantPass body)
  | .cancelEntry => State.onYard (Yard.takeCancelEntry body)
  | .readRounds => State.readingYard (Yard.takeReadRounds p body)
  | .setLane => State.onYard (Yard.takeSetLane body)
  | .setListener => State.onYard (Yard.takeSetListener body)
  | .testPulse => State.onYard (Yard.takeTestPulse body)
  | .setPattern => State.takeSetPattern body
  | .readAlerts => State.reading fun s => s.yard.readAlerts
  | .readMet => State.takeReadMet p body
  | .stowNow => State.onYard Yard.takeStowNow
  | .release => State.onYard Yard.takeRelease
  | .readStorm => State.readingYard (Yard.takeReadStorm p)
  | .closePeriod => State.takeClosePeriod
  | .readAccount => State.reading (State.readAccount body)
  | .readRing => State.reading (State.readRing body)
  | .writeSetting => State.takeWriteSetting body
  | .readSetting => State.reading (State.readSetting body)
  | .commitSettings => State.takeCommitSettings
  | .saveSettings => State.takeSaveSettings
  | .fleetRestart => State.takeFleetRestart

/-- Each request command is the serving of its kind by its rule. -/
theorem exec_command (k : Kind) (p : Port) (body : List Byte) (s : State) :
    exec (k.command p body) s = .next (s.serve k p body (requestRule k p body)) := by
  cases k <;> rfl

/-- A taken request is answered by the rule of its kind. -/
theorem exec_command_takes {k : Kind} {p : Port} {body : List Byte} {s : State} (h : s.takes k p body) :
    exec (k.command p body) s =
      .next ((requestRule k p body s).1.answered p k.code (requestRule k p body s).2) := by
  rw [exec_command, State.serve_takes h]

/-- A request that a case of R170 refuses is answered by it. -/
theorem exec_command_refused {k : Kind} {p : Port} {body : List Byte} {s : State} {reply : Reply} (h : s.judges p)
    (refused : requestRefusal s.yard.startUp k p body = some reply) :
    exec (k.command p body) s = .next (s.answered p k.code reply) := by
  rw [exec_command, State.serve_refused h refused]

/-- A request whose frame is marked overrun is discarded. -/
theorem exec_command_marked {k : Kind} {p : Port} {body : List Byte} {s : State} (on : s.resetN = true)
    (marked : (s.links.get p).frameMarked = true) :
    exec (k.command p body) s = .next (s.setLink p Link.overrunEnds) := by
  rw [exec_command]
  exact congrArg _ (State.frame_marked on marked _ _)

/-! ### The cases of R170 -/

section Refusals

variable {st : StartUp} {k : Kind} {p : Port} {body : List Byte}

theorem requestRefusal_of_length (h : body.length ≠ k.bodyLength) :
    requestRefusal st k p body = some (.plain .malformed) :=
  if_pos h

theorem requestRefusal_of_port (h : body.length = k.bodyLength) (denied : k.permitted p = false) :
    requestRefusal st k p body = some (.plain .notPermitted) :=
  (if_neg (not_not_intro h)).trans (if_pos denied)

theorem requestRefusal_of_permitted (h : body.length = k.bodyLength) (permitted : k.permitted p = true) :
    requestRefusal st k p body = startUpRefusal st k p := by
  simp [requestRefusal, h, permitted]

theorem startUpRefusal_eq_none_iff : startUpRefusal st k p = none ↔
    st = .ready ∨ (st = .starting ∧ k = .readStatus) ∨ (st = .unconfigured ∧ k.takenUnconfigured p = true) := by
  cases st <;> simp [startUpRefusal]

theorem requestRefusal_eq_none_iff : requestRefusal st k p body = none ↔
    body.length = k.bodyLength ∧ k.permitted p = true ∧
      (st = .ready ∨ (st = .starting ∧ k = .readStatus) ∨ (st = .unconfigured ∧ k.takenUnconfigured p = true)) := by
  rw [← startUpRefusal_eq_none_iff]
  by_cases length : body.length = k.bodyLength
  · by_cases permitted : k.permitted p = true
    · simp [requestRefusal_of_permitted length permitted, length, permitted]
    · simp [requestRefusal_of_port length (Bool.eq_false_of_not_eq_true permitted), permitted]
  · simp [requestRefusal_of_length length, length]

end Refusals

/-! ### What a request leaves of the links -/

/-- A property that every change of a link keeps holds after a frame where its judging keeps it. -/
theorem State.frame_induction {P : State → Prop} {s : State} {p : Port} {kind : Byte} {judge : State → State × Reply}
    (link : ∀ u f, P u → P (u.setLink p f)) (before : P s) (after : P (judge s).1) : P (s.frame p kind judge) := by
  unfold State.frame
  split_ifs
  · exact before
  · exact link _ _ before
  · exact link _ _ after

/-- A property that every change of a link keeps holds after a request where its rule keeps it. -/
theorem State.serve_induction {P : State → Prop} {s : State} {k : Kind} {p : Port} {body : List Byte}
    {take : State → State × Reply} (link : ∀ u f, P u → P (u.setLink p f)) (before : P s) (after : P (take s).1) :
    P (s.serve k p body take) := by
  refine State.frame_induction link before ?_
  split
  · exact before
  · exact after

theorem takeEnergyReport_links (body : List Byte) (s : State) : (s.takeEnergyReport body).1.links = s.links := by
  have other (r seq : Nat) : (s.otherInterval r seq).1.links = s.links := by
    unfold State.otherInterval
    split <;> rfl
  unfold State.takeEnergyReport
  dsimp only
  split
  · rfl
  · split
    · split
      · rfl
      · exact other _ _
    · exact other _ _

/-- The rule of a request touches no link, but for Read Status, which clears the counters of its own port. -/
theorem requestRule_links (k : Kind) {p q : Port} (body : List Byte) (s : State) (other : q ≠ p) :
    (requestRule k p body s).1.links.get q = s.links.get q := by
  cases k
  case readStatus => exact State.setLink_get_ne _ _ other
  case readNotices =>
    change (s.takeReadNotices p body).1.links.get q = _
    unfold State.takeReadNotices
    dsimp only
    split <;> rfl
  case energyReport => exact congrArg (Trio.get · q) (takeEnergyReport_links body s)
  case setPattern =>
    change (s.takeSetPattern body).1.links.get q = _
    unfold State.takeSetPattern
    dsimp only
    split <;> rfl
  case readMet =>
    change (s.takeReadMet p body).1.links.get q = _
    unfold State.takeReadMet
    split
    · split <;> rfl
    all_goals rfl
  case closePeriod =>
    change s.takeClosePeriod.1.links.get q = _
    unfold State.takeClosePeriod
    split <;> rfl
  case writeSetting =>
    change (s.takeWriteSetting body).1.links.get q = _
    unfold State.takeWriteSetting
    dsimp only
    split_ifs <;> rfl
  case saveSettings =>
    change s.takeSaveSettings.1.links.get q = _
    unfold State.takeSaveSettings
    split <;> rfl
  case commitSettings =>
    change s.takeCommitSettings.1.links.get q = _
    unfold State.takeCommitSettings
    dsimp only
    split <;> rfl
  case fleetRestart =>
    change s.takeFleetRestart.1.links.get q = _
    unfold State.takeFleetRestart
    split <;> rfl
  all_goals rfl

/-! ### The statements -/

/-- Settles O1: it is the step's own equation on a queue that is not empty. -/
theorem stepRunsFront : Obligations.StepRunsFront := fun _ _ _ => rfl

/-- Settles O2: the three cases in their order, and the part that R174 leaves. -/
theorem requestsRefused : Obligations.RequestsRefused := by
  intro k p body s judges
  refine ⟨fun length => exec_command_refused judges (requestRefusal_of_length length),
    fun length denied => exec_command_refused judges (requestRefusal_of_port length denied),
    fun length permitted state other => exec_command_refused judges ?starting,
    fun length permitted state untaken => exec_command_refused judges ?unconfigured, ?taken⟩
  case starting => simp [requestRefusal_of_permitted length permitted, state, startUpRefusal, other]
  case unconfigured => simp [requestRefusal_of_permitted length permitted, state, startUpRefusal, untaken]
  case taken =>
    rw [← requestRefusal_eq_none_iff]
    exact ⟨fun taken => taken.2.2, fun passes => ⟨judges.1, judges.2, passes⟩⟩

/-- Settles O3: each of the three frames is judged to one fixed answer. -/
theorem framesWithoutRequest : Obligations.FramesWithoutRequest := fun _ _ _ _ _ _ judges =>
  ⟨congrArg _ (State.frame_judges judges _ _), congrArg _ (State.frame_judges judges _ _),
    congrArg _ (State.frame_judges judges _ _)⟩

/-- Settles O4: an answer is one change of its port's link, and no rule of a request changes another port's. -/
theorem answersOnTheirPort : Obligations.AnswersOnTheirPort := by
  refine ⟨fun s p kind reply => ⟨?link, rfl, rfl, rfl, rfl, rfl⟩, fun k p q body s t other run => ?others⟩
  case link => simp [State.answered, Link.answer]
  case others =>
    rw [exec_command] at run
    cases run
    refine State.serve_induction (P := fun u => u.links.get q = s.links.get q) (fun u f same => ?_) rfl
      (requestRule_links k body s other)
    rwa [State.setLink_get_ne _ _ other]

/-- Settles O5: a marked frame is discarded before it is judged, whatever it is, and so are the ends that are no frame. -/
theorem overrunDiscarded : Obligations.OverrunDiscarded := by
  intro p s on lost
  have discarded (marked : (s.links.get p).frameMarked = true) : s.setLink p Link.discard = lost := by
    simp [State.setLink, Link.discard, marked, Link.overrunEnds, lost]
  refine ⟨congrArg _ (if_pos on), fun marked => ⟨fun k body => exec_command_marked on marked,
    fun kind body => congrArg _ (State.frame_marked on marked _ _),
    fun kind body check => congrArg _ (State.frame_marked on marked _ _),
    fun length => congrArg _ (State.frame_marked on marked _ _), congrArg _ ((if_pos on).trans (discarded marked)),
    congrArg _ ((if_pos on).trans (discarded marked))⟩⟩

/-- Settles O6: each event is one change of the port's link, by what the receiver and the mark say. -/
theorem linkEvents : Obligations.LinkEvents := by
  intro p s on
  refine ⟨fun b hunting stray => congrArg Host.Outcome.next ?stray, fun hunting => congrArg Host.Outcome.next ?sync,
    fun unmarked => ?cut, congrArg _ (if_pos on)⟩
  case stray =>
    rw [if_pos (by simp [on, hunting, Receiver.isHunting])]
    exact congrArg (fun l => { s with links := s.links.set p l }) (if_neg stray)
  case sync =>
    rw [if_pos (by simp [on, hunting, Receiver.isHunting])]
    exact congrArg (fun l => { s with links := s.links.set p l }) (if_pos rfl)
  case cut =>
    have discarded : s.setLink p Link.discard =
        s.setLink p fun l => { l with receiver := .hunting, truncated := bump l.truncated } := by
      simp [State.setLink, Link.discard, unmarked]
    exact ⟨congrArg _ ((if_pos on).trans discarded), congrArg _ ((if_pos on).trans discarded)⟩

end Sys2Proof.Machine

/-! SUPPORT. The laws of the tables and of the rail through a step: what a change keeps of them, and the yards that a
command of the configuration starts from (R2, R29, R33, R51, R58, R79, R175). -/

namespace Sys2Proof.Machine

/-- A step idles, or runs the command at the front of the queue with the queue's rest. -/
theorem step_run {s t : State} (h : step s = .next t) :
    t = s ∨ ∃ c rest, exec c { s with pending := rest } = .next t := by
  unfold step at h
  split at h
  next => cases h; exact .inl rfl
  next c rest _ => exact .inr ⟨c, rest, h⟩

/-- The laws of the queues, of the tables and of the rail that hold of `y` hold of `z`. -/
structure LawsKept (y z : Yard) : Prop where
  noticesFit : y.noticesFit → z.noticesFit
  queueFits : y.queueFits → z.queueFits
  listFits : y.listFits → z.listFits
  listDistinct : y.listDistinct → z.listDistinct
  holdersFit : y.holdersFit → z.holdersFit
  occupancyTrue : y.occupancyTrue → z.occupancyTrue
  rail : y.railFits → y.positionsRise → y.positionsFree → z.railFits ∧ z.positionsRise ∧ z.positionsFree

namespace LawsKept

variable {y z w : Yard}

theorem trans (h : LawsKept y z) (k : LawsKept z w) : LawsKept y w where
  noticesFit := k.noticesFit ∘ h.noticesFit
  queueFits := k.queueFits ∘ h.queueFits
  listFits := k.listFits ∘ h.listFits
  listDistinct := k.listDistinct ∘ h.listDistinct
  holdersFit := k.holdersFit ∘ h.holdersFit
  occupancyTrue := k.occupancyTrue ∘ h.occupancyTrue
  rail := fun fits rise free =>
    let ⟨fits', rise', free'⟩ := h.rail fits rise free
    k.rail fits' rise' free'

theorem of_located (h : Located y z) : LawsKept y z where
  noticesFit := h.core.noticesFit
  queueFits := h.core.queueFits
  listFits := h.core.listFits
  listDistinct := h.core.listDistinct
  holdersFit := h.core.holdersFit
  occupancyTrue := h.core.occupancyTrue
  rail := fun fits rise free => ⟨h.1 fits, h.positionsRise fits rise free, h.positionsFree fits rise free⟩

theorem of_keeps (h : Keeps y z) : LawsKept y z := of_located (.of_keeps h)

theorem refl (y : Yard) : LawsKept y y := of_keeps (Keeps.refl y)

/-- The laws read the settings, the tables, the rail, the list and the notice queues, and of the robots the place alone. -/
theorem of_same (settings : z.settings = y.settings := by rfl) (rows : z.rows = y.rows := by rfl)
    (carriages : z.carriages = y.carriages := by rfl) (rail : z.rail = y.rail := by rfl)
    (list : z.rounds.list = y.rounds.list := by rfl) (boxes : z.boxes = y.boxes := by rfl)
    (occupancyTrue : y.occupancyTrue → z.occupancyTrue := by exact id) : LawsKept y z where
  noticesFit := by simp [Yard.noticesFit, boxes]
  queueFits := by simp [Yard.queueFits, rail]
  listFits := by simp [Yard.listFits, list]
  listDistinct := by simp [Yard.listDistinct, list]
  holdersFit := by simp [Yard.holdersFit, rows]
  occupancyTrue := occupancyTrue
  rail := fun fits rise free =>
    ⟨.same ⟨settings, by rw [rows], by rw [carriages], by rw [rail], by rw [rail]⟩ fits,
      by simpa [Yard.positionsRise, Yard.carriage, carriages, settings] using rise,
      by simpa [Yard.positionsFree, Yard.inOthersSegment, Yard.reservation, Yard.carriage, carriages, settings,
        rail] using free⟩

theorem of_enrolsOne (h : EnrolsOne y z) : LawsKept y z := by
  obtain ⟨x, k, f, before, occupancy, after⟩ := h
  have kept : LawsKept y x := of_keeps before
  have enrolled : LawsKept y (x.setRobot k f) := { kept with
    occupancyTrue := occupancy
    rail := fun fits rise free => (kept.rail fits rise free).imp_left (.same .same) }
  exact enrolled.trans (of_keeps after)

theorem changeStorm (y : Yard) (new : StormState) (cause : StormCause) (lane : Option CauseLane) :
    LawsKept y (y.changeStorm new cause lane) := by
  refine trans (z := { y with storm := { y.storm with
    state := new, enteredAt := y.stamp, lastCause := cause, causeLane := lane } }) of_same (of_keeps ?_)
  exact (Keeps.notify _ _ _ _ _).trans ((Keeps.notify _ _ _ _ _).trans (Keeps.notify _ _ _ _ _))

theorem of_released (h : Released y z) : LawsKept y z := by
  obtain k | ⟨x, before, after⟩ := h
  · exact of_keeps k
  · exact (of_keeps before).trans ((changeStorm x _ _ _).trans (of_keeps after))

/-- A yard at rest holds every law, whatever yard it comes from. -/
theorem of_atRest (rest : z.AtRest) (notices : y.noticesFit → z.noticesFit)
    (rows : y.railFits → z.settings.rows ≤ 192 ∧ z.rows.length ≤ 192) : LawsKept y z where
  noticesFit := notices
  queueFits := fun _ => rest.queueFits
  listFits := fun _ => rest.listFits
  listDistinct := fun _ => rest.listDistinct
  holdersFit := fun _ => rest.holdersFit
  occupancyTrue := fun _ => rest.occupancyTrue
  rail := fun fits _ _ => ⟨rest.railFits (rows fits).1 (rows fits).2, rest.positionsRise, rest.positionsFree⟩

theorem freshYard_noticesFit (n : Nat) : (Machine.freshYard n).noticesFit := fun p => by
  cases p <;> exact Nat.zero_le 16

theorem freshYard (y : Yard) (n : Nat) : LawsKept y (freshYard n) :=
  of_atRest (Yard.freshYard_atRest n) (fun _ => freshYard_noticesFit n)
    fun _ => (Yard.freshYard_railFits n).rowsOnRail.imp_right fun fits => by simpa [Machine.freshYard, freshRail] using fits

theorem startYard (y : Yard) (l : Loader) (st : StartUp) (w d : Bool) :
    LawsKept y (State.startYard y (State.startImage l) st w d) :=
  of_atRest (Yard.startYard_atRest _ _ _ _ _) id fun _ =>
    ⟨State.startImage_rows l, List.length_replicate.trans_le (State.startImage_rows l)⟩

/-- A structural change leaves a yard at rest; its rows are in range with the new value (R189). -/
theorem remade {st : Settings} (rows : y.settings.rows ≤ 192 → st.rows ≤ 192) :
    LawsKept y (Yard.remade { y with settings := st }) :=
  of_atRest (Yard.remade_atRest _) id fun fits =>
    ⟨rows fits.rowsOnRail.1, List.length_replicate.trans_le (rows fits.rowsOnRail.1)⟩

theorem of_rewritten {s : State} {code v : Nat} (range : s.yard.settings.inRange code v = true)
    (h : Rewritten s (s.yard.settings.put code v) z) : LawsKept s.yard z := by
  obtain k | ⟨_, layout, k⟩ | ⟨_, _, k⟩ := h
  · exact of_keeps k
  · refine trans ?_ (of_keeps k)
    exact ⟨id, id, id, id, id, id, Yard.resettled layout⟩
  · exact (remade fun rows => Settings.put_rows _ _ _ rows range).trans (of_keeps k)

end LawsKept

/-- Every command keeps the laws: those of the configuration from the yard that each of them starts from. -/
theorem exec_lawsKept {c : Instr} {s t : State} (h : exec c s = .next t) : LawsKept s.yard t.yard := by
  by_cases conf : configures c = false
  · exact .of_located (exec_located c s t h conf)
  · cases c <;> simp only [configures, not_true_eq_false] at conf
    case setFence p body =>
      obtain ⟨fences, k⟩ := exec_next h (execSetFence_keeps p body s)
      exact .trans .of_same (.of_keeps k)
    case clearFence p body =>
      obtain ⟨fences, k⟩ := exec_next h (execClearFence_keeps p body s)
      exact .trans .of_same (.of_keeps k)
    case setLane p body =>
      obtain ⟨lanes, k⟩ := exec_next h (execSetLane_keeps p body s)
      exact .trans .of_same (.of_keeps k)
    case setListener p body =>
      obtain ⟨chosen, k⟩ := exec_next h (execSetListener_keeps p body s)
      exact .trans .of_same (.of_keeps k)
    case enrollRobot p body => exact .of_enrolsOne (exec_next h (execEnrollRobot_keeps p body s))
    case writeOffRobot p body => exact .of_enrolsOne (exec_next h (execWriteOffRobot_keeps p body s))
    case release p body => exact .of_released (exec_next h (execRelease_keeps p body s))
    case commitSettings p body =>
      obtain ⟨u, e⟩ := exec_next h (execCommitSettings_keeps p body s)
      rw [e]
      exact .of_same
    case writeSetting p body =>
      obtain k | ⟨range, k⟩ := exec_next h (execWriteSetting_keeps p body s)
      · exact .of_keeps k
      · exact .of_rewritten range k
    case startUpLoadEnd w d =>
      obtain rfl | ⟨st, k⟩ := exec_next h (execStartUpLoadEnd_keeps w d s)
      · exact .refl _
      · exact .trans (.startYard _ _ _ _ _) (.of_keeps k)
    case coldReset => cases h; exact .freshYard _ _
    case secondEvent =>
      obtain e | k := exec_next h (execSecondEvent_keeps s)
      · exact e ▸ .refl _
      · exact .trans .of_same (.of_keeps k)
    case intervalExpiry =>
      obtain e | k := exec_next h (execIntervalExpiry_keeps s)
      · exact e ▸ .refl _
      · exact .trans .of_same (.of_keeps k)

/-! ### The statement -/

/-- Settles O11: each command keeps the laws together, those of the rail jointly with the order of the carriages. -/
theorem queuesFitKept : Obligations.QueuesFitKept := by
  intro s t h
  have kept : LawsKept s.yard t.yard := by
    obtain rfl | ⟨c, rest, run⟩ := step_run h
    · exact .refl _
    · exact exec_lawsKept (s := { s with pending := rest }) run
  exact ⟨kept.noticesFit, kept.queueFits, kept.listFits, kept.listDistinct, kept.holdersFit, kept.occupancyTrue, kept.rail⟩

end Sys2Proof.Machine

/-! SUPPORT. The commands by what they do, and the laws that read the storm state, the mark of an assignment event and the
configuration (R90, R123, R137, R189). -/

namespace Sys2Proof.Machine

/-! ### The commands by what they do -/

/-- Every command is a request, a frame that is no request, a change of one link, an event of the yard, the end of a save,
or one of ten others. -/
theorem command_cases {motive : Instr → Prop} (request : ∀ k p body, motive (Kind.command k p body))
    (frame : ∀ c p kind reply, (∀ s, exec c s = .next (s.frame p kind fun s => (s, reply))) → motive c)
    (link : ∀ c p f, (∀ s, exec c s = .next s ∨ exec c s = .next (s.setLink p f)) → motive c)
    (event : ∀ c f, (∀ s, exec c s = .next (s.event f)) → motive c)
    (saveEnds : ∀ c good, (∀ s, exec c s = .next (s.endSave good)) → motive c)
    (metFrame : ∀ seq fields check, motive (.metFrame seq fields check))
    (metStrayByte : ∀ b, motive (.metStrayByte b)) (metFrameGap : motive .metFrameGap)
    (metSilenceExpiry : motive .metSilenceExpiry) (coldReset : motive .coldReset) (resetRelease : motive .resetRelease)
    (startUpLoadEnd : ∀ w d, motive (.startUpLoadEnd w d)) (secondEvent : motive .secondEvent)
    (intervalExpiry : motive .intervalExpiry) (closeWalkStep : motive .closeWalkStep) (c : Instr) : motive c := by
  have linked {s u : State} {on : Prop} [Decidable on] :
      Host.Outcome.next (if on then u else s) = (.next s : Host.Outcome State Fault Refusal) ∨
        Host.Outcome.next (if on then u else s) = (.next u : Host.Outcome State Fault Refusal) := by
    split
    · exact .inr rfl
    · exact .inl rfl
  cases c
  case unknownKindRequest p kind body => exact frame _ p kind (.plain .notPermitted) fun _ => rfl
  case failedCheckFrame p kind body check => exact frame _ p kind (.plain .malformed) fun _ => rfl
  case badLengthFrame p length => exact frame _ p 0 (.plain .malformed) fun _ => rfl
  case strayByte p b => exact link _ p (fun l => l.hunt b) fun _ => linked
  case frameGapTimeout p => exact link _ p Link.discard fun _ => linked
  case framingErrorByte p => exact link _ p (fun l => l.discard) fun _ => linked
  case overrunFrame p => exact link _ p Link.overrunEnds fun _ => linked
  case answerSent p => exact link _ p (fun l => { l with transmitter := .idle }) fun _ => linked
  case metFrame => exact metFrame _ _ _
  case metStrayByte => exact metStrayByte _
  case metFrameGap => exact metFrameGap
  case metSilenceExpiry => exact metSilenceExpiry
  case coldReset => exact coldReset
  case resetRelease => exact resetRelease
  case startUpLoadEnd => exact startUpLoadEnd _ _
  case secondEvent => exact secondEvent
  case intervalExpiry => exact intervalExpiry
  case closeWalkStep => exact closeWalkStep
  case saveComplete good => exact saveEnds _ good fun _ => rfl
  case saveTimeout => exact saveEnds _ false fun _ => rfl
  case alarmInputSample w d => exact event _ (Yard.sampleInputs w d) fun _ => rfl
  case flattenTimerExpiry r => exact event _ (Yard.flattenExpires r) fun _ => rfl
  case holdTimerExpiry r => exact event _ (Yard.holdExpires r) fun _ => rfl
  case settleTimerExpiry r => exact event _ (Yard.settleExpires r) fun _ => rfl
  case stowTimerExpiry r => exact event _ (Yard.stowExpires r) fun _ => rfl
  case minuteEvent => exact event _ Yard.minutePasses fun _ => rfl
  case robotSilenceExpiry k => exact event _ (Yard.silenceExpires k) fun _ => rfl
  case phaseTimerExpiry tag => exact event _ (Yard.phaseExpires tag) fun _ => rfl
  case nudgeTimerExpiry i => exact event _ (Yard.nudgeExpires i) fun _ => rfl
  case roundTimerExpiry => exact event _ Yard.roundExpires fun _ => rfl
  case passTimerExpiry k => exact event _ (Yard.passExpires k) fun _ => rfl
  case stretchTimerExpiry line => exact event _ (Yard.stretchExpires line) fun _ => rfl
  case recallDeadlineExpiry => exact event _ Yard.deadlinePasses fun _ => rfl
  case readStatus p body => exact request .readStatus p body
  case readNotices p body => exact request .readNotices p body
  case raiseAlert p body => exact request .raiseAlert p body
  case readOrders p body => exact request .readOrders p body
  case postureReport p body => exact request .postureReport p body
  case energyReport p body => exact request .energyReport p body
  case readRows p body => exact request .readRows p body
  case setFence p body => exact request .setFence p body
  case clearFence p body => exact request .clearFence p body
  case readFences p body => exact request .readFences p body
  case robotStatus p body => exact request .robotStatus p body
  case orderDone p body => exact request .orderDone p body
  case carriagePosition p body => exact request .carriagePosition p body
  case robotFault p body => exact request .robotFault p body
  case enrollRobot p body => exact request .enrollRobot p body
  case clearRobot p body => exact request .clearRobot p body
  case writeOffRobot p body => exact request .writeOffRobot p body
  case clearCarriage p body => exact request .clearCarriage p body
  case readFleet p body => exact request .readFleet p body
  case transfer p body => exact request .transfer p body
  case cancelTransfer p body => exact request .cancelTransfer p body
  case readTransfers p body => exact request .readTransfers p body
  case roundBuild p body => exact request .roundBuild p body
  case sweep p body => exact request .sweep p body
  case plantPass p body => exact request .plantPass p body
  case cancelEntry p body => exact request .cancelEntry p body
  case readRounds p body => exact request .readRounds p body
  case setLane p body => exact request .setLane p body
  case setListener p body => exact request .setListener p body
  case testPulse p body => exact request .testPulse p body
  case setPattern p body => exact request .setPattern p body
  case readAlerts p body => exact request .readAlerts p body
  case readMet p body => exact request .readMet p body
  case stowNow p body => exact request .stowNow p body
  case release p body => exact request .release p body
  case readStorm p body => exact request .readStorm p body
  case closePeriod p body => exact request .closePeriod p body
  case readAccount p body => exact request .readAccount p body
  case readRing p body => exact request .readRing p body
  case writeSetting p body => exact request .writeSetting p body
  case readSetting p body => exact request .readSetting p body
  case commitSettings p body => exact request .commitSettings p body
  case saveSettings p body => exact request .saveSettings p body
  case fleetRestart p body => exact request .fleetRestart p body

/-! ### The mark of an assignment event (R90) -/

namespace State

variable {s : State}

theorem onYard_between (f : Yard → Yard × Reply) : (s.onYard f).1.between := Yard.finish_assign _

theorem event_between (h : s.between) (f : Yard → Yard) : (s.event f).between := by
  unfold event
  split
  · exact Yard.finish_assign _
  · exact h

theorem endSave_between (h : s.between) (good : Bool) : (s.endSave good).between := by
  unfold endSave
  split
  · exact h
  · dsimp only
    split <;> exact h

theorem takeEnergyReport_between (h : s.between) (body : List Byte) : (s.takeEnergyReport body).1.between := by
  have other (r seq : Nat) : (s.otherInterval r seq).1.between := by
    unfold otherInterval
    split <;> exact h
  unfold takeEnergyReport
  dsimp only
  split
  · exact h
  · split
    · split
      · exact Yard.finish_assign _
      · exact other _ _
    · exact other _ _

theorem takeReadNotices_between (h : s.between) (p : Port) (body : List Byte) :
    (s.takeReadNotices p body).1.between := by
  unfold takeReadNotices
  dsimp only
  split <;> exact h

theorem takeWriteSetting_between (h : s.between) (body : List Byte) : (s.takeWriteSetting body).1.between := by
  unfold takeWriteSetting
  dsimp only
  split
  · exact h
  · split
    · exact h
    · split
      · split
        · exact h
        · split <;> exact h
      · exact Yard.finish_assign _

theorem takeCommitSettings_between (h : s.between) : s.takeCommitSettings.1.between := by
  unfold takeCommitSettings
  dsimp only
  split <;> exact h

theorem takeFleetRestart_between (h : s.between) : s.takeFleetRestart.1.between := by
  unfold takeFleetRestart
  split
  · rfl
  · exact h

theorem between_of_yard {t : State} (h : s.between) (same : t.yard = s.yard) : t.between :=
  (congrArg Yard.assign same).trans h

theorem walkStep_between (h : s.between) : s.walkStep.between := by
  unfold walkStep
  split
  · dsimp only
    split <;> exact h
  · exact h

theorem secondPasses_between (h : s.between) : s.secondPasses.between := by
  have counted (u : State) (hu : u.between) : u.countInterval.between := by
    unfold countInterval
    split
    · split <;> exact hu
    · exact hu
  unfold secondPasses
  split
  · exact counted _ h
  · split <;> exact h

theorem intervalExpires_between (h : s.between) : s.intervalExpires.between := by
  unfold intervalExpires
  split
  · split
    · exact secondPasses_between h
    · exact h
  · exact h

theorem metJudge_between (h : s.between) (seq : Byte) (fields : List Word) (check : Word) :
    (s.metJudge seq fields check).between := by
  unfold metJudge
  split
  · exact h
  · split <;> exact Yard.finish_assign _

theorem metByte_between (h : s.between) (b : Byte) : (s.metByte b).between := by
  unfold metByte
  split_ifs <;> exact h

theorem metSilenceExpires_between (h : s.between) : s.metSilenceExpires.between := by
  unfold metSilenceExpires
  split
  · exact Yard.finish_assign _
  · exact h

end State

/-- No rule of a request leaves an assignment event over: one that may give one ends with the end of its event. -/
theorem requestRule_between {s : State} (h : s.between) (k : Kind) (p : Port) (body : List Byte) :
    (requestRule k p body s).1.between := by
  cases k
  case readStatus | readOrders | readRows | readFences | readTransfers | readAlerts | readAccount | readRing
      | readSetting => exact h
  case readNotices => exact State.takeReadNotices_between h p body
  case energyReport => exact State.takeEnergyReport_between h body
  case readFleet =>
    change (s.yard.takeReadFleet p body).1.assign = false
    unfold Yard.takeReadFleet
    split
    case h_3 => split <;> exact h
    all_goals exact h
  case readRounds =>
    change (s.yard.takeReadRounds p body).1.assign = false
    unfold Yard.takeReadRounds
    split
    case h_3 => split <;> exact h
    all_goals exact h
  case readStorm =>
    change (s.yard.takeReadStorm p).1.assign = false
    unfold Yard.takeReadStorm
    dsimp only
    split <;> exact h
  case setPattern => exact State.between_of_yard h (Keeps.takeSetPattern body s)
  case readMet => exact State.between_of_yard h (Keeps.takeReadMet p body s)
  case closePeriod => exact State.between_of_yard h (Keeps.takeClosePeriod s)
  case saveSettings => exact State.between_of_yard h (Keeps.takeSaveSettings s)
  case writeSetting => exact State.takeWriteSetting_between h body
  case commitSettings => exact State.takeCommitSettings_between h
  case fleetRestart => exact State.takeFleetRestart_between h
  all_goals exact State.onYard_between _

/-- The judging of the watch at start-up gives no assignment event: it finds CALM, where only a rise acts (R124). -/
theorem judgeWatch_assign_of_calm {y : Yard} (calm : y.storm.state = .calm) (h : y.assign = false) :
    y.judgeWatch.assign = false := by
  have ended (r : Nat) (z : Yard) : (Yard.endFlatten r z).assign = z.assign := by
    unfold Yard.endFlatten
    split <;> rfl
  have walked (l : List Nat) (z : Yard) : (l.foldl (fun z r => Yard.endFlatten r z) z).assign = z.assign := by
    induction l generalizing z with
    | nil => rfl
    | cons r l ih => exact (ih _).trans (ended r z)
  unfold Yard.judgeWatch
  split
  · rw [Yard.watchRises, if_pos calm]
    exact (walked _ _).trans h
  · rw [Yard.watchFalls, if_neg (by simp [calm])]
    exact h

/-- Every command leaves no assignment event over. -/
theorem exec_between {c : Instr} {s t : State} (run : exec c s = .next t) (h : s.between) : t.between := by
  induction c using command_cases
  case request k p body =>
    rw [exec_command] at run
    cases run
    exact State.serve_induction (P := State.between) (fun _ _ => id) h (requestRule_between h k p body)
  case frame p kind reply e =>
    rw [e] at run
    cases run
    exact State.frame_induction (P := State.between) (fun _ _ => id) h h
  case link p f e => obtain e | e := e s <;> rw [e] at run <;> cases run <;> exact h
  case event f e => rw [e] at run; cases run; exact State.event_between h f
  case saveEnds good e => rw [e] at run; cases run; exact State.endSave_between h good
  case metFrame => cases run; split; exacts [State.metJudge_between h _ _ _, h]
  case metStrayByte => cases run; split; exacts [State.metByte_between h _, h]
  case metFrameGap => cases run; split <;> exact h
  case metSilenceExpiry => cases run; exact State.metSilenceExpires_between h
  case coldReset => cases run; rfl
  case resetRelease => cases run; exact h
  case startUpLoadEnd w d => cases run; split; exacts [judgeWatch_assign_of_calm rfl rfl, h]
  case secondEvent => cases run; exact State.secondPasses_between h
  case intervalExpiry => cases run; exact State.intervalExpires_between h
  case closeWalkStep => cases run; exact State.walkStep_between h

/-! ### The storm state -/

theorem Rewritten.stormLasts {s : State} {st : Settings} {z : Yard} (h : Rewritten s st z) (storm : s.yard.mild = false) :
    z.mild = false := by
  obtain k | ⟨_, _, k⟩ | ⟨_, idle, _⟩ := h
  · exact k.stormLasts storm
  · exact k.stormLasts storm
  · have calm : s.yard.storm.state = .calm := by
      simp only [State.idle, Bool.and_eq_true, beq_iff_eq] at idle
      obtain ⟨⟨⟨⟨⟨calm, _⟩, _⟩, _⟩, _⟩, _⟩ := idle
      exact calm
    simp [Yard.mild, calm] at storm

/-! ### The configuration -/

/-- What only named commands change: the settings, the fences, the wiring of the alerts, the enrolment, the stamp and the
carriages' recorded positions. -/
structure Configuration where
  settings : Settings
  fences : List (Option (Nat × Nat))
  lanes : List Nat
  listeners : List Nat
  enrolled : List Bool
  stamp : Nat
  positions : List (Option Nat)

/-- The configuration as the yard holds it. -/
def Yard.configuration (y : Yard) : Configuration where
  settings := y.settings
  fences := y.fences
  lanes := y.alerts.lanes
  listeners := y.alerts.listeners
  enrolled := y.robots.map (·.enrolled)
  stamp := y.stamp
  positions := y.carriages.map (·.position)

theorem KeepsCore.configuration {y z : Yard} (h : KeepsCore y z) :
    z.configuration = { y.configuration with positions := z.configuration.positions } := by
  simp [Yard.configuration, h.settings, h.fences, h.lanes, h.listeners, h.enrolled, h.stamp]

theorem Keeps.configuration {y z : Yard} (h : Keeps y z) : z.configuration = y.configuration := by
  rw [h.toKeepsCore.configuration]
  exact congrArg (fun positions => { y.configuration with positions := positions }) h.positions

theorem EnrolsOne.configuration {y z : Yard} (h : EnrolsOne y z) :
    z.configuration = { y.configuration with enrolled := z.configuration.enrolled } := by
  obtain ⟨x, k, f, before, _, after⟩ := h
  have enrolled : (x.setRobot k f).configuration =
      { x.configuration with enrolled := (x.setRobot k f).configuration.enrolled } := rfl
  rw [after.configuration, enrolled, before.configuration]

theorem Released.configuration {y z : Yard} (h : Released y z) : z.configuration = y.configuration := by
  obtain k | ⟨x, before, after⟩ := h
  · exact k.configuration
  · exact after.configuration.trans before.configuration

theorem Rewritten.configuration {s : State} {st : Settings} {z : Yard} (h : Rewritten s st z) :
    ∃ settings fences positions, z.configuration =
      { s.yard.configuration with settings := settings, fences := fences, positions := positions } := by
  obtain k | ⟨_, _, k⟩ | ⟨_, _, k⟩ := h
  · exact ⟨_, _, _, k.configuration⟩
  · exact ⟨st, _, _, k.configuration⟩
  · refine ⟨st, fencesWithin s.yard.fences st.rows, s.yard.carriages.map fun _ => none, k.configuration.trans ?_⟩
    simp [Yard.configuration, Yard.remade, Robot.remade, freshRobot, freshCarriage, Function.comp_def]

theorem Yard.carriage_position (y : Yard) (i : Nat) :
    (y.carriage i).position = y.configuration.positions.getD i none := by
  simp [Yard.carriage, Yard.configuration, List.getD_eq_getElem?_getD, List.getElem?_map]
  cases y.carriages[i]? <;> rfl

/-! ### The statements -/

/-- Settles O58: every command ends its event, or gives no assignment event at all. -/
theorem betweenKept : Obligations.BetweenKept := by
  intro s t h between
  obtain rfl | ⟨c, rest, run⟩ := step_run h
  · exact between
  · exact exec_between run between

/-- Settles O44: of the commands that configure, those that are not excepted leave the storm state as it is. -/
theorem onlyReleaseEndsAStorm : Obligations.OnlyReleaseEndsAStorm := by
  intro c s t run storm notRelease notReset notLoad
  by_cases conf : configures c = false
  · exact (exec_located c s t run conf).core.stormLasts storm
  · cases c <;> simp only [configures, not_true_eq_false] at conf
    case setFence p body =>
      obtain ⟨fences, k⟩ := exec_next run (execSetFence_keeps p body s)
      exact k.stormLasts storm
    case clearFence p body =>
      obtain ⟨fences, k⟩ := exec_next run (execClearFence_keeps p body s)
      exact k.stormLasts storm
    case setLane p body =>
      obtain ⟨lanes, k⟩ := exec_next run (execSetLane_keeps p body s)
      exact k.stormLasts storm
    case setListener p body =>
      obtain ⟨chosen, k⟩ := exec_next run (execSetListener_keeps p body s)
      exact k.stormLasts storm
    case enrollRobot p body =>
      obtain ⟨x, k, f, before, _, after⟩ := exec_next run (execEnrollRobot_keeps p body s)
      exact after.stormLasts (before.stormLasts storm)
    case writeOffRobot p body =>
      obtain ⟨x, k, f, before, _, after⟩ := exec_next run (execWriteOffRobot_keeps p body s)
      exact after.stormLasts (before.stormLasts storm)
    case release p body => exact absurd rfl (notRelease p body)
    case commitSettings p body =>
      obtain ⟨u, e⟩ := exec_next run (execCommitSettings_keeps p body s)
      exact e ▸ storm
    case writeSetting p body =>
      obtain k | ⟨_, k⟩ := exec_next run (execWriteSetting_keeps p body s)
      · exact k.stormLasts storm
      · exact k.stormLasts storm
    case startUpLoadEnd w d => exact absurd rfl (notLoad w d)
    case coldReset => exact absurd rfl notReset
    case secondEvent =>
      obtain e | k := exec_next run (execSecondEvent_keeps s)
      · exact e ▸ storm
      · exact k.stormLasts storm
    case intervalExpiry =>
      obtain e | k := exec_next run (execIntervalExpiry_keeps s)
      · exact e ▸ storm
      · exact k.stormLasts storm

end Sys2Proof.Machine

/-! SUPPORT. The configuration through every command, and the values and the laws right after reset. -/

namespace Sys2Proof.Machine

/-- What command `c` may write of a configuration: everything else in `new` is as in `old`. -/
structure ConfigurationFrame (c : Instr) (old new : Configuration) : Prop where
  settings : (∀ p body, c ≠ .writeSetting p body) → new.settings = old.settings
  fences : (∀ p body, c ≠ .writeSetting p body) → (∀ p body, c ≠ .setFence p body) →
    (∀ p body, c ≠ .clearFence p body) → new.fences = old.fences
  lanes : (∀ p body, c ≠ .setLane p body) → new.lanes = old.lanes
  listeners : (∀ p body, c ≠ .setListener p body) → new.listeners = old.listeners
  enrolled : (∀ p body, c ≠ .enrollRobot p body) → (∀ p body, c ≠ .writeOffRobot p body) → new.enrolled = old.enrolled
  stamp : c ≠ .secondEvent → c ≠ .intervalExpiry → new.stamp = old.stamp
  positions : (∀ p body, c ≠ .orderDone p body) → (∀ p body, c ≠ .carriagePosition p body) →
    (∀ p body, c ≠ .clearCarriage p body) → (∀ p body, c ≠ .writeSetting p body) → new.positions = old.positions

namespace ConfigurationFrame

variable {c : Instr} {old new : Configuration}

theorem of_eq (same : new = old) : ConfigurationFrame c old new := by
  subst same
  exact ⟨fun _ => rfl, fun _ _ _ => rfl, fun _ => rfl, fun _ => rfl, fun _ _ => rfl, fun _ _ => rfl, fun _ _ _ _ => rfl⟩

/-- A command that records positions may write them alone. -/
theorem of_locates (locates : locates c = true) {positions : List (Option Nat)}
    (same : new = { old with positions := positions }) : ConfigurationFrame c old new := by
  subst same
  refine { (of_eq rfl : ConfigurationFrame c old old) with positions := fun done position clear _ => ?_ }
  cases c <;> simp only [Machine.locates, Bool.false_eq_true] at locates
  case orderDone => exact absurd rfl (done _ _)
  case carriagePosition => exact absurd rfl (position _ _)
  case clearCarriage => exact absurd rfl (clear _ _)

theorem of_second (second : c = .secondEvent ∨ c = .intervalExpiry) {stamp : Nat}
    (same : new = { old with stamp := stamp }) : ConfigurationFrame c old new := by
  subst same
  exact { (of_eq rfl : ConfigurationFrame c old old) with
    stamp := fun notSecond notInterval => (second.elim notSecond notInterval).elim }

end ConfigurationFrame

/-- Every command but a reset and the end of the load writes of the configuration what it is named for. -/
theorem exec_configurationFrame {c : Instr} {s t : State} (run : exec c s = .next t) (notReset : c ≠ .coldReset)
    (notLoad : ∀ w d, c ≠ .startUpLoadEnd w d) :
    ConfigurationFrame c s.yard.configuration t.yard.configuration := by
  by_cases conf : configures c = false
  · by_cases loc : locates c = false
    · exact .of_eq (exec_keeps c s t run conf loc).configuration
    · exact .of_locates (Bool.eq_true_of_not_eq_false loc) (exec_located c s t run conf).core.configuration
  · have whole : ConfigurationFrame c s.yard.configuration s.yard.configuration := .of_eq rfl
    cases c <;> simp only [configures, not_true_eq_false] at conf
    case setFence p body =>
      obtain ⟨fences, k⟩ := exec_next run (execSetFence_keeps p body s)
      rw [k.configuration]
      exact { whole with fences := fun _ no _ => absurd rfl (no p body) }
    case clearFence p body =>
      obtain ⟨fences, k⟩ := exec_next run (execClearFence_keeps p body s)
      rw [k.configuration]
      exact { whole with fences := fun _ _ no => absurd rfl (no p body) }
    case setLane p body =>
      obtain ⟨lanes, k⟩ := exec_next run (execSetLane_keeps p body s)
      rw [k.configuration]
      exact { whole with lanes := fun no => absurd rfl (no p body) }
    case setListener p body =>
      obtain ⟨chosen, k⟩ := exec_next run (execSetListener_keeps p body s)
      rw [k.configuration]
      exact { whole with listeners := fun no => absurd rfl (no p body) }
    case enrollRobot p body =>
      rw [(exec_next run (execEnrollRobot_keeps p body s)).configuration]
      exact { whole with enrolled := fun no _ => absurd rfl (no p body) }
    case writeOffRobot p body =>
      rw [(exec_next run (execWriteOffRobot_keeps p body s)).configuration]
      exact { whole with enrolled := fun _ no => absurd rfl (no p body) }
    case release p body => exact .of_eq (exec_next run (execRelease_keeps p body s)).configuration
    case commitSettings p body =>
      obtain ⟨u, e⟩ := exec_next run (execCommitSettings_keeps p body s)
      exact .of_eq (e ▸ rfl)
    case writeSetting p body =>
      obtain k | ⟨_, k⟩ := exec_next run (execWriteSetting_keeps p body s)
      · exact .of_eq k.configuration
      · obtain ⟨settings, fences, positions, same⟩ := k.configuration
        rw [same]
        exact { whole with
          settings := fun no => absurd rfl (no p body)
          fences := fun no => absurd rfl (no p body)
          positions := fun _ _ _ no => absurd rfl (no p body) }
    case startUpLoadEnd w d => exact absurd rfl (notLoad w d)
    case coldReset => exact absurd rfl notReset
    case secondEvent =>
      obtain e | k := exec_next run (execSecondEvent_keeps s)
      · exact .of_eq (congrArg Yard.configuration e)
      · exact .of_second (.inl rfl) k.configuration
    case intervalExpiry =>
      obtain e | k := exec_next run (execIntervalExpiry_keeps s)
      · exact .of_eq (congrArg Yard.configuration e)
      · exact .of_second (.inr rfl) k.configuration

/-! ### Right after reset -/

theorem freshPeriod_whole : freshPeriod.whole := by unfold Period.whole; decide

theorem freshRowAccount_whole (seq : Nat) : (freshRowAccount seq).whole :=
  ⟨freshPeriod_whole, freshPeriod_whole, Nat.zero_le 16⟩

theorem freshAccounts_whole (st : Settings) : (freshAccounts st).whole := fun x h => by
  rw [List.eq_of_mem_replicate h]
  exact freshRowAccount_whole 0

theorem defaultSettings_legal : defaultSettings.legal := by unfold Settings.legal; decide

/-! ### The statements -/

/-- Settles O57: each part of the configuration is read off the frame of the command. -/
theorem configurationFrame : Obligations.ConfigurationFrame := by
  intro c s t run notReset notLoad
  have frame := exec_configurationFrame run notReset notLoad
  refine ⟨frame.settings, frame.fences, frame.lanes, frame.listeners, frame.enrolled, frame.stamp,
    fun done position clear write i => ?_⟩
  rw [Yard.carriage_position, Yard.carriage_position, frame.positions done position clear write]

/-- Settles O60: the yard is at rest, its queues are empty and its settings are the defaults. -/
theorem lawsAtReset : Obligations.LawsAtReset :=
  have rest : State.reset.yard.AtRest := Yard.freshYard_atRest 0
  ⟨LawsKept.freshYard_noticesFit 0, rest.queueFits, rest.listFits, freshAccounts_whole _, defaultSettings_legal, rfl,
    rest.listDistinct, rest.holdersFit, rest.occupancyTrue, Yard.freshYard_railFits 0, rest.positionsRise,
    rest.positionsFree⟩

/-- Settles O59: the reset state is written out block by block; what is computed from it is evaluated. -/
theorem resetValues : Obligations.ResetValues := by
  refine ⟨⟨rfl, rfl, fun r hr => ?wanted⟩, ⟨rfl, rfl, by decide, rfl, rfl, rfl⟩, rfl, rfl,
    ⟨rfl, by decide, rfl, by decide, rfl, rfl, ?lines, rfl, rfl, rfl⟩, rfl, ⟨rfl, rfl⟩, ⟨rfl, rfl, rfl, rfl, rfl⟩,
    fun p => ⟨?link, ?box, ?attention⟩, ⟨rfl, by decide, rfl, rfl, rfl, rfl⟩, rfl⟩
  case wanted =>
    have fresh : State.reset.yard.row r = freshRow (startAge defaultSettings) := List.getD_replicate _ hr
    exact congrArg (fun w : Row => w.custody.wanted) fresh
  case lines => intro line; cases line <;> rfl
  case link => cases p <;> rfl
  case box => cases p <;> rfl
  case attention => cases p <;> rfl

end Sys2Proof.Machine

/-! SUPPORT. The live settings in their ranges and within the cross-limits (R189, R190): the ranges that read no other
setting, and what a value that passes its checks leaves of them. -/

namespace Sys2Proof.Machine

namespace Settings

/-- The range of a setting, as far as it reads no other setting: what is left of it is one of the cross-limits. -/
def bound (code v : Nat) : Prop :=
  match code with
  | 0x01 => 8 ≤ v ∧ v ≤ 192
  | 0x02 => v = 1 ∨ v = 2 ∨ v = 4
  | 0x03 => 1 ≤ v ∧ v ≤ 3
  | 0x04 => 1 ≤ v ∧ v ≤ 4
  | 0x05 | 0x06 | 0x07 | 0x08 => v ≤ 191
  | 0x10 | 0x11 => v ≤ 1
  | 0x12 => 10 ≤ v ∧ v ≤ 1440
  | 0x13 => 1 ≤ v ∧ v ≤ 720
  | 0x14 => v ≤ 15
  | 0x15 => 1 ≤ v ∧ v ≤ 500
  | 0x16 => 1 ≤ v
  | 0x17 => True
  | 0x18 => 10 ≤ v ∧ v ≤ 90
  | 0x19 => v ≤ 100
  | 0x20 => 30 ≤ v ∧ v ≤ 1800
  | 0x21 => 30 ≤ v ∧ v ≤ 900
  | 0x22 => v ≤ 3600
  | 0x23 => 300 ≤ v ∧ v ≤ 7200
  | 0x24 => 20 ≤ v ∧ v ≤ 900
  | 0x25 | 0x26 => 30 ≤ v ∧ v ≤ 900
  | 0x27 => 10 ≤ v ∧ v ≤ 600
  | 0x28 => 5 ≤ v ∧ v ≤ 300
  | 0x29 => v = 300 ∨ v = 600 ∨ v = 900
  | 0x2A => 1 ≤ v ∧ v ≤ 8
  | 0x2B => 1 ≤ v ∧ v ≤ 24
  | _ => False

/-- Every setting is within its bound. -/
structure InBounds (st : Settings) : Prop where
  rows : bound 0x01 st.rows
  groups : bound 0x02 st.groups
  carriages : bound 0x03 st.carriages
  docks : bound 0x04 st.docks
  dockPos : ∀ i, i < 4 → st.dockPos.getD i 0 ≤ 191
  roundPeriod : bound 0x12 st.roundPeriod
  cleanInterval : bound 0x13 st.cleanInterval
  surveyEvery : bound 0x14 st.surveyEvery
  dirtyLimit : bound 0x15 st.dirtyLimit
  sweepLimit : bound 0x16 st.sweepLimit
  chargeMin : bound 0x18 st.chargeMin
  chargeReady : bound 0x19 st.chargeReady
  settleTime : bound 0x20 st.settleTime
  flattenLimit : bound 0x21 st.flattenLimit
  holdLimit : bound 0x22 st.holdLimit
  passLimit : bound 0x23 st.passLimit
  phaseLimit : bound 0x24 st.phaseLimit
  stowDeadline : bound 0x25 st.stowDeadline
  stowLimit : bound 0x26 st.stowLimit
  robotSilence : bound 0x27 st.robotSilence
  metSilence : bound 0x28 st.metSilence
  interval : bound 0x29 st.interval
  holdoffCount : bound 0x2A st.holdoffCount
  holdoffSegments : bound 0x2B st.holdoffSegments

variable {st : Settings} {code v : Nat}

theorem crossLimits_iff : st.crossLimits = true ↔
    st.residual < st.sweepLimit ∧ st.sweepLimit < st.dirtyLimit ∧ st.chargeMin < st.chargeReady ∧
      (∀ p ∈ st.docksInUse, p < st.rows) ∧ st.docksInUse.Nodup := by
  simp [crossLimits, and_assoc]

/-- A value in its range is within its bound, where the rows are. -/
theorem bound_of_inRange (rows : st.rows ≤ 192) (h : st.inRange code v = true) : bound code v := by
  have dock {use : Prop} [Decidable use] (h : (if use then decide (v < st.rows) else decide (v ≤ 191)) = true) :
      v ≤ 191 := by
    split at h <;> simp at h <;> omega
  unfold inRange at h
  unfold bound
  split at h
  case h_5 | h_6 | h_7 | h_8 => exact dock h
  all_goals simp_all [between, or_assoc]

/-- A position of a dock in use lies on the rows, where the cross-limits hold. -/
theorem dock_lt_rows (cross : st.crossLimits = true) (rows : 0 < st.rows) {i : Nat} (use : i < st.docks) :
    st.dockPos.getD i 0 < st.rows := by
  obtain ⟨_, _, _, inRows, _⟩ := crossLimits_iff.1 cross
  by_cases listed : i < st.dockPos.length
  · refine inRows _ (List.mem_take_iff_getElem.2 ⟨i, by omega, ?_⟩)
    simp [List.getD_eq_getElem?_getD, listed]
  · simpa [List.getD_eq_getElem?_getD, List.getElem?_eq_none (Nat.le_of_not_lt listed)] using rows

/-- Settings that are legal are within their bounds. -/
theorem InBounds.of_legal (h : st.legal) : st.InBounds := by
  obtain ⟨ranges, _⟩ := h
  have rows : bound 0x01 st.rows := by simpa [inRange, value, between, bound] using ranges 0x01 (by decide)
  have at' (code : Nat) (mem : code ∈ settingCodes) : bound code (st.value code) :=
    bound_of_inRange rows.2 (ranges code mem)
  exact {
    rows := rows
    groups := at' 0x02 (by decide)
    carriages := at' 0x03 (by decide)
    docks := at' 0x04 (by decide)
    dockPos := fun i hi => by
      interval_cases i
      exacts [at' 0x05 (by decide), at' 0x06 (by decide), at' 0x07 (by decide), at' 0x08 (by decide)]
    roundPeriod := at' 0x12 (by decide)
    cleanInterval := at' 0x13 (by decide)
    surveyEvery := at' 0x14 (by decide)
    dirtyLimit := at' 0x15 (by decide)
    sweepLimit := at' 0x16 (by decide)
    chargeMin := at' 0x18 (by decide)
    chargeReady := at' 0x19 (by decide)
    settleTime := at' 0x20 (by decide)
    flattenLimit := at' 0x21 (by decide)
    holdLimit := at' 0x22 (by decide)
    passLimit := at' 0x23 (by decide)
    phaseLimit := at' 0x24 (by decide)
    stowDeadline := at' 0x25 (by decide)
    stowLimit := at' 0x26 (by decide)
    robotSilence := at' 0x27 (by decide)
    metSilence := at' 0x28 (by decide)
    interval := at' 0x29 (by decide)
    holdoffCount := at' 0x2A (by decide)
    holdoffSegments := at' 0x2B (by decide) }

/-- Settings within their bounds and the cross-limits are legal. -/
theorem InBounds.legal (h : st.InBounds) (cross : st.crossLimits = true) : st.legal := by
  obtain ⟨residual, sweep, charge, _, _⟩ := crossLimits_iff.1 cross
  have dock (i : Nat) (hi : i < 4) : (if i < st.docks then decide (st.dockPos.getD i 0 < st.rows)
      else decide (st.dockPos.getD i 0 ≤ 191)) = true := by
    split
    · exact decide_eq_true (dock_lt_rows cross (by have := h.rows.1; omega) ‹_›)
    · exact decide_eq_true (h.dockPos i hi)
  have policy : st.rowPolicy.code ≤ 1 := by cases st.rowPolicy <;> decide
  have source : st.roundSource.code ≤ 1 := by cases st.roundSource <;> decide
  refine ⟨?_, cross⟩
  simp only [settingCodes, List.cons_append, List.nil_append, List.forall_mem_cons]
  simp only [inRange, value, between, decide_eq_true_eq, Bool.or_eq_true, beq_iff_eq, or_assoc]
  exact ⟨h.rows, h.groups, h.carriages, h.docks, dock 0 (by decide), dock 1 (by decide), dock 2 (by decide),
    dock 3 (by decide), policy, source, h.roundPeriod, h.cleanInterval, h.surveyEvery, h.dirtyLimit,
    ⟨h.sweepLimit, sweep⟩, residual, h.chargeMin, ⟨charge, h.chargeReady⟩, h.settleTime, h.flattenLimit, h.holdLimit,
    h.passLimit, h.phaseLimit, h.stowDeadline, h.stowLimit, h.robotSilence, h.metSilence, h.interval, h.holdoffCount,
    h.holdoffSegments, by simp⟩

/-- A value in its range keeps the settings within their bounds. -/
theorem InBounds.put (h : st.InBounds) (range : st.inRange code v = true) : (st.put code v).InBounds := by
  have bounded : bound code v := bound_of_inRange h.rows.2 range
  have dock (d : Nat) (le : v ≤ 191) (i : Nat) (hi : i < 4) : (st.dockPos.set d v).getD i 0 ≤ 191 := by
    have old := h.dockPos i hi
    simp only [List.getD_eq_getElem?_getD, List.getElem?_set] at old ⊢
    split
    · split
      · exact le
      · exact Nat.zero_le _
    · exact old
  unfold Settings.put
  split
  case h_1 => exact { h with rows := bounded }
  case h_2 => exact { h with groups := bounded }
  case h_3 => exact { h with carriages := bounded }
  case h_4 => exact { h with docks := bounded }
  case h_5 | h_6 | h_7 | h_8 => exact { h with dockPos := dock _ bounded }
  case h_9 | h_10 => exact { h with }
  case h_11 => exact { h with roundPeriod := bounded }
  case h_12 => exact { h with cleanInterval := bounded }
  case h_13 => exact { h with surveyEvery := bounded }
  case h_14 => exact { h with dirtyLimit := bounded }
  case h_15 => exact { h with sweepLimit := bounded }
  case h_16 => exact { h with }
  case h_17 => exact { h with chargeMin := bounded }
  case h_18 => exact { h with chargeReady := bounded }
  case h_19 => exact { h with settleTime := bounded }
  case h_20 => exact { h with flattenLimit := bounded }
  case h_21 => exact { h with holdLimit := bounded }
  case h_22 => exact { h with passLimit := bounded }
  case h_23 => exact { h with phaseLimit := bounded }
  case h_24 => exact { h with stowDeadline := bounded }
  case h_25 => exact { h with stowLimit := bounded }
  case h_26 => exact { h with robotSilence := bounded }
  case h_27 => exact { h with metSilence := bounded }
  case h_28 => exact { h with interval := bounded }
  case h_29 => exact { h with holdoffCount := bounded }
  case h_30 => exact { h with holdoffSegments := bounded }
  case h_31 => exact h

/-- A value that passes the checks of R190 leaves legal settings legal. -/
theorem legal_put (h : st.legal) (range : st.inRange code v = true) (cross : (st.put code v).crossLimits = true) :
    (st.put code v).legal :=
  ((InBounds.of_legal h).put range).legal cross

end Settings

/-- The image that the start-up load applies has legal settings: a good one by R194, and the defaults. -/
theorem startImage_legal (l : Loader) : (State.startImage l).settings.legal := by
  have good (im : Image) (h : im.good = true) : im.settings.legal := by
    simp only [Image.good, Bool.and_eq_true, List.all_eq_true] at h
    obtain ⟨⟨⟨⟨⟨⟨_, ranges⟩, cross⟩, _⟩, _⟩, _⟩, _⟩ := h
    exact ⟨ranges, cross⟩
  unfold State.startImage
  cases good0 : l.slot0.good <;> cases good1 : l.slot1.good
  · rw [Loader.chooseSlot_of_both_bad good0 good1]
    exact defaultSettings_legal
  · rw [Loader.chooseSlot_of_one_alone good0 good1]
    exact good _ good1
  · rw [Loader.chooseSlot_of_zero_alone good0 good1]
    exact good _ good0
  · rw [Loader.chooseSlot_of_both_good good0 good1]
    cases newerIsOne l.slot0.generation l.slot1.generation
    · exact good _ good0
    · exact good _ good1

theorem Rewritten.settings {s : State} {st : Settings} {z : Yard} (h : Rewritten s st z) :
    z.settings = s.yard.settings ∨ (st.crossLimits = true ∧ z.settings = st) := by
  obtain k | ⟨cross, _, k⟩ | ⟨cross, _, k⟩ := h
  · exact .inl k.settings
  · exact .inr ⟨cross, k.settings⟩
  · exact .inr ⟨cross, k.settings⟩

/-- Every command keeps the live settings legal: a Write Setting by its checks, a reset and the end of the load by what
they apply. -/
theorem exec_settingsLegal {c : Instr} {s t : State} (run : exec c s = .next t) (h : s.yard.settings.legal) :
    t.yard.settings.legal := by
  by_cases reset : c = .coldReset
  · subst reset
    cases run
    exact defaultSettings_legal
  by_cases load : ∃ w d, c = .startUpLoadEnd w d
  · obtain ⟨w, d, rfl⟩ := load
    obtain rfl | ⟨st, k⟩ := exec_next run (execStartUpLoadEnd_keeps w d s)
    · exact h
    · rw [k.settings]
      exact startImage_legal _
  by_cases write : ∃ p body, c = .writeSetting p body
  · obtain ⟨p, body, rfl⟩ := write
    obtain k | ⟨range, k⟩ := exec_next run (execWriteSetting_keeps p body s)
    · rwa [k.settings]
    · obtain same | ⟨cross, new⟩ := k.settings
      · rwa [same]
      · rw [new]
        exact Settings.legal_put h range cross
  · have frame := exec_configurationFrame run reset (by simpa using load)
    have same : t.yard.settings = s.yard.settings := frame.settings (by simpa using write)
    rwa [same]

/-! ### The statement -/

/-- Settles O51: an idle step leaves the settings, and every command keeps them legal. -/
theorem settingsLegalKept : Obligations.SettingsLegalKept := by
  intro s t h legal
  obtain rfl | ⟨c, rest, run⟩ := step_run h
  · exact legal
  · exact exec_settingsLegal run legal

end Sys2Proof.Machine

/-! SUPPORT. The Account Unit: what each of its operations leaves of an account's sums (R145, R146, R156), the second event and
the interval expiry (R144, R147 to R149), energy reports (R150 to R155) and the close walk (R158 to R160). -/

namespace Sys2Proof.Machine

/-- A taken request whose rule gives this state and this answer. -/
theorem exec_takes {k : Kind} {p : Port} {body : List Byte} {s t : State} {reply : Reply} (h : s.takes k p body)
    (rule : requestRule k p body s = (t, reply)) :
    exec (k.command p body) s = .next (t.answered p k.code reply) := by
  rw [exec_command_takes h, rule]

/-! ### The sums of an account -/

namespace PerClass

theorem plus_total (n : PerClass) (c : Class) (k : Nat) : (n.plus c k).total = n.total + k := by
  cases c <;> simp only [plus, total] <;> omega

end PerClass

namespace Period

variable {p : Period}

theorem addLoss_whole (h : p.whole) (c : Class) (loss : Nat) : (p.addLoss c loss).whole := by
  obtain ⟨sum, top, rest⟩ := h
  refine ⟨?_, ?_, rest⟩
  · simp only [addLoss, PerClass.plus_total, sum]
  · simp only [addLoss]
    omega

theorem addEnergy_whole (h : p.whole) (expected actual : Nat) : (p.addEnergy expected actual).whole := by
  obtain ⟨sum, top, _, _, rest⟩ := h
  exact ⟨sum, top, min_le_right _ _, min_le_right _ _, rest⟩

theorem countReported_whole (h : p.whole) : p.countReported.whole := by
  unfold countReported
  split
  · obtain ⟨sum, top, expected, actual, intervals, _, late⟩ := h
    refine ⟨sum, top, expected, actual, ?_, ?_, late⟩ <;> dsimp only <;> omega
  · exact h

theorem countMissing_whole (h : p.whole) : p.countMissing.whole := by
  unfold countMissing
  split
  · obtain ⟨sum, top, expected, actual, intervals, _, late⟩ := h
    refine ⟨sum, top, expected, actual, ?_, ?_, late⟩ <;> dsimp only <;> omega
  · exact h

end Period

namespace RowAccount

variable {a : RowAccount}

theorem record_ring_length (a : RowAccount) (x : RingRecord) : (a.record x).ring.length ≤ 16 :=
  List.length_take_le 16 _

theorem closeMissing_whole (h : a.whole) (g : Gathered) : (a.closeMissing g).whole :=
  let ⟨period, snapshot, _⟩ := h
  ⟨Period.countMissing_whole period, snapshot, a.record_ring_length _⟩

theorem closeReported_whole (h : a.whole) (g : Gathered) (expected actual : Nat) :
    (a.closeReported g expected actual).whole :=
  let ⟨period, snapshot, _⟩ := h
  ⟨Period.countReported_whole (Period.addEnergy_whole (Period.addLoss_whole period _ _) _ _), snapshot,
    a.record_ring_length _⟩

theorem expire_whole (h : a.whole) (next : Nat) : (a.expire next).whole := by
  unfold expire
  split
  · exact closeMissing_whole h _
  · exact h

theorem close_whole (h : a.whole) (period : Nat) : (a.close period).whole :=
  let ⟨current, _, ring⟩ := h
  ⟨freshPeriod_whole, current, ring⟩

theorem late_whole (h : a.whole) :
    ({ a with period := { a.period with lateReports := bump a.period.lateReports } } : RowAccount).whole := by
  obtain ⟨⟨sum, top, expected, actual, intervals, count, _⟩, snapshot, ring⟩ := h
  exact ⟨⟨sum, top, expected, actual, intervals, count, min_le_right _ _⟩, snapshot, ring⟩

end RowAccount

namespace Accounts

variable {a : Accounts}

/-- The accounts of the rows are whole where every row's is: the other fields do not matter. -/
theorem whole_of_rows {b : Accounts} (h : a.whole) (same : b.rows = a.rows) : b.whole := by
  unfold whole
  rwa [same]

theorem setRow_whole (h : a.whole) (r : Nat) {f : RowAccount → RowAccount} (keeps : ∀ x, x.whole → (f x).whole) :
    (a.setRow r f).whole := by
  intro x mem
  obtain ⟨i, get⟩ := List.mem_iff_getElem?.1 mem
  simp only [setRow, List.getElem?_modify] at get
  obtain ⟨y, old, rfl⟩ := Option.map_eq_some_iff.1 get
  have whole : y.whole := h y (List.mem_of_getElem? old)
  split
  · exact keeps y whole
  · exact whole

theorem mapIdx_whole (h : a.whole) {f : Nat → RowAccount → RowAccount} (keeps : ∀ i x, x.whole → (f i x).whole) :
    ({ a with rows := a.rows.mapIdx f } : Accounts).whole := by
  intro x mem
  obtain ⟨i, hi, rfl⟩ := List.mem_mapIdx.1 mem
  exact keeps i _ (h _ (List.getElem_mem hi))

theorem map_whole (h : a.whole) {f : RowAccount → RowAccount} (keeps : ∀ x, x.whole → (f x).whole) :
    ({ a with rows := a.rows.map f } : Accounts).whole :=
  List.forall_mem_map.2 fun x mem => keeps x (h x mem)

theorem resize_whole (h : a.whole) (rows : Nat) : (a.resize rows).whole := by
  intro x mem
  obtain old | new := List.mem_append.1 mem
  · exact h x (List.mem_of_mem_take old)
  · rw [List.eq_of_mem_replicate new]
    exact freshRowAccount_whole _

end Accounts

namespace State

variable {s : State}

theorem takeEnergyReport_whole (h : s.accounts.whole) (body : List Byte) : (s.takeEnergyReport body).1.accounts.whole := by
  have other (r seq : Nat) : (s.otherInterval r seq).1.accounts.whole := by
    unfold otherInterval
    split
    · exact h
    · exact Accounts.setRow_whole h r fun _ => RowAccount.late_whole
  unfold takeEnergyReport
  dsimp only
  split
  · exact h
  · split
    · split
      · exact Accounts.setRow_whole h _ fun _ whole => RowAccount.closeReported_whole whole _ _ _
      · exact other _ _
    · exact other _ _

theorem takeClosePeriod_whole (h : s.accounts.whole) : s.takeClosePeriod.1.accounts.whole := by
  unfold takeClosePeriod
  split <;> exact h

theorem takeWriteSetting_whole (h : s.accounts.whole) (body : List Byte) : (s.takeWriteSetting body).1.accounts.whole := by
  unfold takeWriteSetting
  dsimp only
  split
  · exact h
  · split
    · exact h
    · split
      · split
        · exact h
        · split
          · exact h
          · exact Accounts.resize_whole h _
      · exact h

theorem walkStep_whole (h : s.accounts.whole) : s.walkStep.accounts.whole := by
  unfold walkStep
  split
  · have closed : ∀ w : Walk, ({ s.accounts with rows := walkRows s.accounts w } : Accounts).whole := fun w =>
      Accounts.mapIdx_whole h fun i x whole => by
        split
        · exact RowAccount.close_whole whole _
        · exact whole
    dsimp only
    split <;> exact closed _
  · exact h

theorem expireInterval_whole (h : s.accounts.whole) : s.expireInterval.accounts.whole :=
  Accounts.map_whole h fun _ whole => RowAccount.expire_whole whole _

theorem chargeRows_whole (h : s.accounts.whole) (y : Yard) : (chargeRows y s.accounts).whole :=
  Accounts.mapIdx_whole h fun _ _ whole => whole

theorem countInterval_whole (h : s.accounts.whole) : s.countInterval.accounts.whole := by
  unfold countInterval
  split
  · split
    · exact expireInterval_whole h
    · exact h
  · exact h

theorem secondPasses_whole (h : s.accounts.whole) : s.secondPasses.accounts.whole := by
  unfold secondPasses
  split
  · exact countInterval_whole (chargeRows_whole h _)
  · split <;> exact h

theorem intervalExpires_whole (h : s.accounts.whole) : s.intervalExpires.accounts.whole := by
  unfold intervalExpires
  split
  · split
    · exact secondPasses_whole h
    · exact h
  · exact h

end State

/-- Three requests change the accounts, and each keeps the sums. -/
theorem requestRule_whole {s : State} (h : s.accounts.whole) (k : Kind) (p : Port) (body : List Byte) :
    (requestRule k p body s).1.accounts.whole := by
  cases k
  case energyReport => exact State.takeEnergyReport_whole h body
  case closePeriod => exact State.takeClosePeriod_whole h
  case writeSetting => exact State.takeWriteSetting_whole h body
  case readNotices =>
    change (s.takeReadNotices p body).1.accounts.whole
    unfold State.takeReadNotices
    dsimp only
    split <;> exact h
  case setPattern =>
    change (s.takeSetPattern body).1.accounts.whole
    unfold State.takeSetPattern
    dsimp only
    split <;> exact h
  case readMet =>
    change (s.takeReadMet p body).1.accounts.whole
    unfold State.takeReadMet
    split
    · split <;> exact h
    all_goals exact h
  case saveSettings =>
    change s.takeSaveSettings.1.accounts.whole
    unfold State.takeSaveSettings
    split <;> exact h
  case commitSettings =>
    change s.takeCommitSettings.1.accounts.whole
    unfold State.takeCommitSettings
    dsimp only
    split <;> exact h
  case fleetRestart =>
    change s.takeFleetRestart.1.accounts.whole
    unfold State.takeFleetRestart
    split <;> exact h
  all_goals exact h

/-- Every command keeps the sums of the accounts. -/
theorem exec_whole {c : Instr} {s t : State} (run : exec c s = .next t) (h : s.accounts.whole) : t.accounts.whole := by
  induction c using command_cases
  case request k p body =>
    rw [exec_command] at run
    cases run
    exact State.serve_induction (P := fun u => u.accounts.whole) (fun _ _ => id) h (requestRule_whole h k p body)
  case frame p kind reply e =>
    rw [e] at run
    cases run
    exact State.frame_induction (P := fun u => u.accounts.whole) (fun _ _ => id) h h
  case link p f e => obtain e | e := e s <;> rw [e] at run <;> cases run <;> exact h
  case event f e =>
    rw [e] at run
    cases run
    unfold State.event
    split <;> exact h
  case saveEnds good e =>
    rw [e] at run
    cases run
    unfold State.endSave
    split
    · exact h
    · dsimp only
      split <;> exact h
  case metFrame =>
    cases run
    unfold State.metJudge
    split_ifs <;> exact h
  case metStrayByte =>
    cases run
    unfold State.metByte
    split_ifs <;> exact h
  case metFrameGap => cases run; split <;> exact h
  case metSilenceExpiry =>
    cases run
    unfold State.metSilenceExpires
    split <;> exact h
  case coldReset => cases run; exact freshAccounts_whole _
  case resetRelease => cases run; exact h
  case startUpLoadEnd w d => cases run; split; exacts [freshAccounts_whole _, h]
  case secondEvent => cases run; exact State.secondPasses_whole h
  case intervalExpiry => cases run; exact State.intervalExpires_whole h
  case closeWalkStep => cases run; exact State.walkStep_whole h

/-! ### The second event and the interval -/

namespace State

variable {s : State}

theorem secondPasses_of_starting (on : s.resetN = true) (starting : s.yard.startUp = .starting) :
    s.secondPasses = s.withYard (tickStamp s.yard) := by
  simp [secondPasses, running, on, starting, withYard]

theorem secondPasses_of_running (h : s.running = true) : s.secondPasses = countInterval { s with
    yard := tickYard (tickStamp s.yard)
    met := { s.met with timer := tick s.met.timer }
    accounts := { chargeRows s.yard s.accounts with expiryTaken := false } } :=
  if_pos h

theorem running_of_started (on : s.resetN = true) (started : s.yard.startUp ≠ .starting) : s.running = true := by
  simp [running, on, started]

theorem countInterval_of_stopped (h : s.accounts.timer = none) : s.countInterval = s := by
  simp [countInterval, h]

theorem countInterval_of_more {n : Nat} (h : s.accounts.timer = some n) (more : 1 < n) :
    s.countInterval = { s with accounts := { s.accounts with timer := some (n - 1) } } := by
  simp [countInterval, h, Nat.not_le.2 more]

theorem countInterval_of_last {n : Nat} (h : s.accounts.timer = some n) (last : n ≤ 1) :
    s.countInterval =
      { s.expireInterval with accounts := { s.expireInterval.accounts with expiryTaken := true } } := by
  simp [countInterval, h, last]

end State

theorem RowAccount.expire_of_none {a : RowAccount} (h : a.pending = none) (next : Nat) :
    a.expire next = { a with pending := some a.gathering, gathering := freshGathered next } := by
  simp [expire, h]

theorem RowAccount.expire_of_pending {a : RowAccount} {g : Gathered} (h : a.pending = some g) (next : Nat) :
    a.expire next =
      { a.closeMissing g with pending := some a.gathering, gathering := freshGathered next } := by
  simp [expire, h, closeMissing, record]

/-! ### The statements -/

/-- Settles O50: an idle step leaves the accounts, and every command keeps their sums. -/
theorem accountsWholeKept : Obligations.AccountsWholeKept := by
  intro s t h whole
  obtain rfl | ⟨c, rest, run⟩ := step_run h
  · exact whole
  · exact exec_whole run whole

/-- Settles O45: the second is charged and the timers moved before the interval timer counts it; each class is a case of the
row's custody. -/
theorem secondCharged : Obligations.SecondCharged := by
  refine ⟨?charge, ?classes, ?second⟩
  case charge =>
    intro s on y less ticked charged next
    have passes (started : s.yard.startUp ≠ .starting) := State.secondPasses_of_running (State.running_of_started on started)
    refine ⟨fun starting => ?starting, fun started stopped => ?stopped, fun started n timer more => ?more,
      fun started n timer last => ?last⟩
    case starting => exact congrArg Host.Outcome.next (State.secondPasses_of_starting on starting)
    case stopped =>
      exact congrArg Host.Outcome.next ((passes started).trans (State.countInterval_of_stopped stopped))
    case more => exact congrArg Host.Outcome.next ((passes started).trans (State.countInterval_of_more timer more))
    case last => exact congrArg Host.Outcome.next ((passes started).trans (State.countInterval_of_last timer last))
  case classes =>
    intro y r custody
    refine ⟨fun c b => ?_, fun c b => ?_, fun c => ?_, fun c => ?_, fun c => ?_, fun c => ?_⟩
    · simp [Yard.rowClass, custody, c, b]
    · simp [Yard.rowClass, show (y.row r).custody = _ from c, b]
    · simp [Yard.rowClass, show (y.row r).custody = _ from c]
    · obtain c | c := c <;> simp [Yard.rowClass, show (y.row r).custody = _ from c]
    · obtain c | c := c <;> simp [Yard.rowClass, show (y.row r).custody = _ from c]
    · simp [Yard.rowClass, show (y.row r).custody = _ from c]
  case second => intro a c n; cases c <;> rfl

/-- Settles O46: the expiry is the second event of the interval's last second, or nothing but the mark that it was taken. -/
theorem intervalExpiryTaken : Obligations.IntervalExpiryTaken := by
  refine ⟨?last, ?other, fun a next => ⟨?pending, ?gathering, ?snapshot, fun none => ?quiet, fun g pending => ?closed⟩⟩
  case last =>
    intro s n running timer last untaken charged next
    have expires : s.intervalExpires =
        { s.secondPasses with accounts := { s.secondPasses.accounts with expiryTaken := false } } := by
      simp [State.intervalExpires, running, timer, last, untaken]
    have passes := (State.secondPasses_of_running running).trans (State.countInterval_of_last timer last)
    refine congrArg Host.Outcome.next (expires.trans ?_)
    rw [passes]
    simp [State.expireInterval, charged, next, untaken, State.chargeRows, State.tickStamp, State.wordSubject,
      State.tick, State.tickYard, Yard.notify]
  case other =>
    intro s n running timer other
    have pass : ¬(n ≤ 1 ∧ s.accounts.expiryTaken = false) := by
      rintro ⟨last, untaken⟩
      obtain more | taken := other
      · omega
      · simp [untaken] at taken
    exact congrArg Host.Outcome.next (by simp only [State.intervalExpires, running, timer, if_neg pass])
  case pending => rfl
  case gathering => rfl
  case snapshot => cases pending : a.pending <;> simp [RowAccount.expire, pending, RowAccount.closeMissing, RowAccount.record]
  case quiet => rw [RowAccount.expire_of_none none]; exact ⟨rfl, rfl⟩
  case closed => rw [RowAccount.expire_of_pending pending]; exact ⟨rfl, rfl⟩

/-! ### Energy reports -/

namespace State

variable {s : State} {body : List Byte}

theorem takeEnergyReport_of_pending {g : Gathered} (row : byteAt body 0 < s.yard.rows.length)
    (pending : (s.accounts.row (byteAt body 0)).pending = some g) (named : g.seq = wordAt body 1) :
    s.takeEnergyReport body = (s.closeInterval (byteAt body 0) g (wordAt body 3) (wordAt body 5), .ok []) := by
  simp [takeEnergyReport, Nat.not_le.2 row, pending, named]

theorem takeEnergyReport_of_other (row : byteAt body 0 < s.yard.rows.length)
    (other : ∀ g, (s.accounts.row (byteAt body 0)).pending = some g → g.seq ≠ wordAt body 1) :
    s.takeEnergyReport body = s.otherInterval (byteAt body 0) (wordAt body 1) := by
  simp only [takeEnergyReport, if_neg (Nat.not_le.2 row)]
  cases pending : (s.accounts.row (byteAt body 0)).pending with
  | none => rfl
  | some g => exact if_neg (other g pending)

/-- A close that takes no sample gives no event beyond the account's. -/
theorem closeInterval_of_quiet {r expected actual : Nat} {g : Gathered} (between : s.between)
    (quiet : g.secs.chosen ≠ .soil ∨ expected = 0) : s.closeInterval r g expected actual =
      { s with accounts := s.accounts.setRow r fun a => a.closeReported g expected actual } := by
  have noSample : ¬(g.secs.chosen = .soil ∧ 0 < expected) := by
    rintro ⟨soil, sampled⟩
    obtain other | none := quiet
    · exact other soil
    · omega
  simp [closeInterval, noSample, Yard.finish_same between]

theorem closeInterval_of_sample {r expected actual : Nat} {g : Gathered} (soil : g.secs.chosen = .soil)
    (sampled : 0 < expected) : s.closeInterval r g expected actual =
      { s.afterEvent (s.yard.writeEstimate r (expected - actual) expected) with
        accounts := s.accounts.setRow r fun a => a.closeReported g expected actual } := by
  simp [closeInterval, soil, sampled, afterEvent, withYard]

end State

/-- Settles O47: a report closes the pending record that it names, or is one of another interval; the estimate and the
additions are the model's, opened. -/
theorem energyReports : Obligations.EnergyReports := by
  refine ⟨?taken, ?range, ?estimate, ?written, ?added⟩
  case taken =>
    intro p body s taken between r seq expected actual account close late row
    have exec_is {t : State} {reply : Reply} (rule : s.takeEnergyReport body = (t, reply)) :
        exec (.energyReport p body) s = .next (t.answered p 0x12 reply) := exec_takes (k := .energyReport) taken rule
    refine ⟨fun g pending named quiet => ?quiet, fun g pending named soil sampled => ?soil,
      fun other now => ?early, fun other past => ?late⟩
    case quiet =>
      refine exec_is ((State.takeEnergyReport_of_pending row pending named).trans ?_)
      rw [State.closeInterval_of_quiet between quiet]
      rfl
    case soil =>
      refine exec_is ((State.takeEnergyReport_of_pending row pending named).trans ?_)
      rw [State.closeInterval_of_sample soil sampled]
      rfl
    case early =>
      refine exec_is ((State.takeEnergyReport_of_other row other).trans ?_)
      exact if_pos now
    case late =>
      refine exec_is ((State.takeEnergyReport_of_other row other).trans ?_)
      exact if_neg past
  case range =>
    intro p body s taken outside
    exact exec_takes (k := .energyReport) taken (if_pos outside)
  case estimate =>
    intro old loss expected _
    exact ⟨fun none => by rw [none]; rfl, fun v some => by rw [some]; rfl⟩
  case written =>
    intro y r loss expected old new written
    refine ⟨fun reached below => if_pos ⟨reached, ?below⟩, fun not => if_neg ?not⟩
    case below =>
      cases soiling : (y.row r).soiling with
      | none => rfl
      | some v => exact decide_eq_true (below v soiling)
    case not =>
      rintro ⟨reached, below⟩
      obtain low | ⟨v, soiling, high⟩ := not
      · exact absurd reached (Nat.not_le.2 low)
      · rw [show (y.row r).soiling = some v from soiling] at below
        simp only [Option.all_some, decide_eq_true_eq] at below
        omega
  case added =>
    intro p c loss expected actual amount
    refine ⟨?_, rfl, fun room => if_pos room, fun full => if_neg (Nat.not_lt.2 full)⟩
    cases c <;> rfl

/-! ### The close walk -/

theorem State.walkStep_of_walk {s : State} {w : Walk} (running : s.running = true) (walk : s.accounts.walk = some w) :
    s.walkStep = if w.rows ≤ w.next + 8 then
      { s with
        accounts := { s.accounts with rows := walkRows s.accounts w, walk := none }
        yard := s.yard.notify .plant .periodClosed (wordSubject w.period) w.rows }
    else { s with accounts :=
      { s.accounts with rows := walkRows s.accounts w, walk := some { w with next := w.next + 8 } } } := by
  simp only [walkStep, running, walk]

/-- Settles O48: Close Period is BUSY during a walk, and a step of the walk is its last where eight rows end it. -/
theorem periodClosing : Obligations.PeriodClosing := by
  refine ⟨fun p body s taken => ⟨fun walking => ?busy, fun none => ?begun⟩, ?step⟩
  case busy => exact exec_takes (k := .closePeriod) taken (if_pos walking)
  case begun => exact exec_takes (k := .closePeriod) taken (if_neg (by simp [none]))
  case step =>
    intro s w running walk zero rows
    have step := State.walkStep_of_walk running walk
    exact ⟨fun more => congrArg Host.Outcome.next (step.trans (if_neg (Nat.not_le.2 more))),
      fun last => congrArg Host.Outcome.next (step.trans (if_pos last))⟩

end Sys2Proof.Machine

/-! SUPPORT. The Settings Loader: writing a setting (R190 to R192), saving (R196, R199), cold reset, and the end of the start-up
load (R188, R197, R198, R202). -/

namespace Sys2Proof.Machine

/-! ### Write Setting (R190 to R192) -/

theorem structuralCode_iff (code : Nat) : structuralCode code = true ↔ 1 ≤ code ∧ code ≤ 8 := by
  simp [structuralCode]

namespace State

variable {s : State} {body : List Byte}

/-- What a Write Setting comes to once neither a save nor a range refuses it. -/
theorem takeWriteSetting_of_fits (idle : s.loader.save = none)
    (range : s.yard.settings.inRange (byteAt body 0) (wordAt body 1) = true)
    (cross : (s.yard.settings.put (byteAt body 0) (wordAt body 1)).crossLimits = true) :
    s.takeWriteSetting body =
      if structuralCode (byteAt body 0) then
        if s.idle = false then (s, .refuse .state)
        else if s.yard.settings.value (byteAt body 0) = wordAt body 1 then (s, .ok [])
        else (s.changeStructure (s.yard.settings.put (byteAt body 0) (wordAt body 1)), .ok [])
      else (s.changeFree (byteAt body 0) (s.yard.settings.put (byteAt body 0) (wordAt body 1)), .ok []) := by
  simp [takeWriteSetting, idle, range, cross]

/-- A free setting that is no hold-off limit becomes live, and nothing else happens. -/
theorem changeFree_of_plain (between : s.between) {code : Nat} (plain : holdoffCode code = false) (st : Settings) :
    s.changeFree code st = s.withYard { s.yard with settings := st } := by
  simp only [changeFree, plain, Bool.false_eq_true, if_false]
  exact afterEvent_same (y := { s.yard with settings := st }) between

theorem changeFree_of_holdoff {code : Nat} (holdoff : holdoffCode code = true) (st : Settings) :
    s.changeFree code st = s.afterEvent (Yard.judgeHoldoff Yard.hand { s.yard with settings := st }) := by
  simp only [changeFree, holdoff, if_true]
  rfl

end State

theorem fencesWithin_eq_filter (fences : List (Option (Nat × Nat))) (rows : Nat) :
    fencesWithin fences rows = fences.map fun f => f.filter fun range => decide (range.2 < rows) := by
  refine List.map_congr_left fun f _ => ?_
  cases f with
  | none => rfl
  | some range => simp [Option.filter]

/-- Settles O52: the cases of R190 in their order, a structural change written out, and a free value with or without the
judging of the hold-off level. -/
theorem writeSettingTaken : Obligations.WriteSettingTaken := by
  intro p body s taken between code v st put fits
  have exec_is {t : State} {reply : Reply} (rule : s.takeWriteSetting body = (t, reply)) :
      exec (.writeSetting p body) s = .next (t.answered p 0x80 reply) := exec_takes (k := .writeSetting) taken rule
  have judged (h : fits) : s.takeWriteSetting body = _ := State.takeWriteSetting_of_fits h.1 h.2.1 h.2.2
  have structural (low : 1 ≤ code) (high : code ≤ 8) : structuralCode code = true := (structuralCode_iff code).2 ⟨low, high⟩
  have free (low : 9 ≤ code) : ¬structuralCode code = true := by rw [structuralCode_iff]; omega
  refine ⟨fun saving => exec_is (if_pos saving), fun idle outside => exec_is ?range,
    fun h low high busy => exec_is ((judged h).trans ?state), fun h low high idle same => exec_is ((judged h).trans ?same),
    fun h low high idle differs => ?remade, fun h low high => exec_is ((judged h).trans ?plain),
    fun h holdoff => exec_is ((judged h).trans ?holdoff)⟩
  case range => exact (if_neg (by simp [idle])).trans (if_pos outside)
  case state => exact (if_pos (structural low high)).trans (if_pos busy)
  case same => exact (if_pos (structural low high)).trans ((if_neg (by simp [idle])).trans (if_pos same))
  case remade =>
    have changed : s.takeWriteSetting body = (s.changeStructure put, .ok []) :=
      (judged h).trans ((if_pos (structural low high)).trans ((if_neg (by simp [idle])).trans (if_neg differs)))
    rw [exec_is changed, State.changeStructure, Yard.remade]
    simp only [fencesWithin_eq_filter]
    rfl
  case plain =>
    have noLevel : State.holdoffCode code = false := by simp [State.holdoffCode]; omega
    rw [if_neg (free low), State.changeFree_of_plain between noLevel]
  case holdoff =>
    have level : State.holdoffCode code = true := by simpa [State.holdoffCode] using holdoff
    have low : 9 ≤ code := by omega
    rw [if_neg (free low), State.changeFree_of_holdoff level]

/-! ### Saving (R196, R199) -/

theorem Loader.writeSlot_eq (l : Loader) (n : Nat) (im : Image) : l.writeSlot n im =
    { l with slot0 := if n = 0 then im else l.slot0, slot1 := if n = 0 then l.slot1 else im } := by
  unfold writeSlot
  split <;> rfl

theorem State.endSave_good {s : State} {v : Save} (saving : s.loader.save = some v) (good : v.image.good = true) :
    s.endSave true = { s with
      loader := { ({ s.loader with save := none } : Loader).writeSlot v.slot v.image with
        current := some v.slot, generation := v.image.generation }
      yard := s.yard.notify .plant .settingsSaved (0, 0, 0) 0 } := by
  simp [endSave, saving, good]

theorem State.endSave_failed {s : State} {v : Save} (saving : s.loader.save = some v) :
    s.endSave false = { s with
      loader := ({ s.loader with save := none } : Loader).writeSlot v.slot v.image.spoiled
      yard := s.yard.notify .plant .settingsSaved (0, 0, 0) 1 } := by
  simp [endSave, saving]

/-- Settles O53: Commit Settings and Save Settings by their conditions, and the two ends of a save. -/
theorem settingsSaved : Obligations.SettingsSaved := by
  refine ⟨fun p body s => ⟨fun taken waiting => exec_takes (k := .commitSettings) taken ?commit,
    fun taken ready => exec_takes (k := .commitSettings) taken ?committed,
    fun taken saving => exec_takes (k := .saveSettings) taken (if_pos saving),
    fun taken idle => exec_takes (k := .saveSettings) taken (if_neg (by simp [idle]))⟩, ?ends⟩
  case commit => exact congrArg (·, Reply.ok []) (if_pos waiting)
  case committed => exact congrArg (·, Reply.ok []) (if_neg (by simp [ready]))
  case ends =>
    intro s image slot saving bad saved failed
    have failing : s.endSave false = failed := by
      rw [State.endSave_failed saving, Loader.writeSlot_eq]
      rfl
    refine ⟨fun good => congrArg Host.Outcome.next ?_, congrArg Host.Outcome.next failing,
      congrArg Host.Outcome.next failing⟩
    rw [State.endSave_good saving good, Loader.writeSlot_eq]

/-! ### Cold reset (R188, R202) -/

theorem State.memoryAtReset_of_idle {s : State} (idle : s.loader.save = none) : s.memoryAtReset = s.loader := by
  simp [memoryAtReset, idle]

/-- A cold reset that stops a save leaves the target slot in one of three ways (R196). -/
theorem State.memoryAtReset_of_save {s : State} {v : Save} (saving : s.loader.save = some v) :
    s.memoryAtReset = s.loader.writeSlot v.slot v.image.spoiled ∨ s.memoryAtReset = s.loader.writeSlot v.slot v.image ∨
      s.memoryAtReset = s.loader := by
  simp only [memoryAtReset, saving]
  split
  · exact .inl rfl
  · exact .inr (.inr rfl)
  · exact .inr (.inl rfl)

/-! ### The end of the load (R197, R198) -/

/-- Acting on every row changes nothing where no one row's act does. -/
theorem Yard.overRows_fixed {y : Yard} {f : Nat → Yard → Yard} (fixed : ∀ r, f r y = y) : y.overRows f = y :=
  List.foldl_fixed' (f := fun z r => f r z) fixed _

theorem Yard.row_custody_track {y : Yard} (track : ∀ w ∈ y.rows, w.custody = .track) (r : Nat) :
    (y.row r).custody = .track := by
  rw [Yard.row, List.getD_eq_getElem?_getD]
  cases get : y.rows[r]? with
  | none => rfl
  | some w => exact track w (List.mem_of_getElem? get)

/-- In CALM and with every row in TRACK, the judging of the watch is the change to WARNED or nothing (R124). -/
theorem judgeWatch_of_track {y : Yard} (calm : y.storm.state = .calm) (track : ∀ w ∈ y.rows, w.custody = .track) :
    y.judgeWatch = if y.seen 0 then y.changeStorm .warned .watchRise none else y := by
  have rests (r : Nat) : Yard.endFlatten r (y.changeStorm .warned .watchRise none) = y.changeStorm .warned .watchRise none :=
    if_neg (by
      have custody := Yard.row_custody_track (y := y.changeStorm .warned .watchRise none) track r
      simp [custody])
  unfold Yard.judgeWatch
  congr 1
  · rw [Yard.watchRises, if_pos calm, Yard.overRows_fixed rests]
  · exact if_neg (by simp [calm])

/-- The state after the load, with the image and the start-up state that the choice of the slot gives. -/
theorem State.loadEnds_eq (s : State) (w d : Bool) :
    let im := startImage s.loader
    let found := startYard s.yard im (if s.loader.chooseSlot.isSome then .ready else .unconfigured) w d
    s.loadEnds w d = { s with
      yard := if found.seen 0 then found.changeStorm .warned .watchRise none else found
      met := { s.met with
        timer := some im.settings.metSilence, patterns := im.patterns.map fun pt => { pt with runCounter := 0 } }
      accounts := { freshAccounts im.settings with
        timer := some im.settings.interval, intervalLength := im.settings.interval }
      loader := { s.loader with
        current := s.loader.chooseSlot, generation := if s.loader.chooseSlot.isSome then im.generation else 0 } } := by
  intro im found
  have watched : found.judgeWatch = if found.seen 0 then found.changeStorm .warned .watchRise none else found :=
    judgeWatch_of_track rfl fun w mem => (Yard.freshRows_rest _ w mem).1
  rw [← watched]
  rfl

theorem State.coldReset_eq (s : State) : s.coldReset = { State.reset with
    yard := { State.reset.yard with freeCount := s.yard.freeCount + if s.loader.save.isSome then 1 else 0 }
    loader := freshLoader s.memoryAtReset.slot0 s.memoryAtReset.slot1
    resetN := false
    pending := s.pending } :=
  rfl

/-- Settles O56: a cold reset writes the reset state, whose outputs are evaluated; the end of the load writes the fresh yard
with the chosen image, of which the watch is judged. -/
theorem startUpTaken : Obligations.StartUpTaken := by
  intro s w d
  have held (t : State) (low : t.resetN = false) : t.spiCsHigh = true ∧ ∀ p, t.transmitLineIdle p = true :=
    ⟨by simp [State.spiCsHigh, low], fun p => by simp [State.transmitLineIdle, low]⟩
  refine ⟨?idle, ?saving, ?outputs, held s, rfl, ?load, ?idles⟩
  case idle =>
    intro saving slots
    refine congrArg Host.Outcome.next ?_
    rw [State.coldReset_eq, State.memoryAtReset_of_idle saving, saving]
    rfl
  case saving =>
    intro image slot saving written
    refine ⟨freshLoader s.memoryAtReset.slot0 s.memoryAtReset.slot1, ?_, congrArg Host.Outcome.next ?_⟩
    · obtain left | left | left := State.memoryAtReset_of_save saving
      · exact .inl (by rw [left, Loader.writeSlot_eq]; rfl)
      · exact .inr (.inl (by rw [left, Loader.writeSlot_eq]; rfl))
      · exact .inr (.inr (by rw [left]; rfl))
    · rw [State.coldReset_eq, saving]
      rfl
  case outputs =>
    intro t run
    cases run
    refine ⟨(held s.coldReset rfl).1, rfl, rfl, fun p => ⟨(held s.coldReset rfl).2 p, by cases p <;> rfl⟩⟩
  case load =>
    intro on starting loaded
    have ends : exec (.startUpLoadEnd w d) s = .next (s.loadEnds w d) :=
      congrArg Host.Outcome.next (if_pos (by simp [on, starting]))
    rw [ends, State.loadEnds_eq]
    refine ⟨fun slot chosen => ?_, fun none => ?_⟩
    · have image : State.startImage s.loader = s.loader.slot slot := by simp only [State.startImage, chosen]
      intro im
      have slots : s.loader.slot slot = im := rfl
      rw [image, chosen, slots]
      rfl
    · simp only [State.startImage, none]
      rfl
  case idles =>
    intro none
    refine congrArg Host.Outcome.next (if_neg ?_)
    obtain low | started := none
    · simp [low]
    · simp [started]

end Sys2Proof.Machine

/-! SUPPORT. Notices and attention lines (R175, R176, R179), the frame of a request (R182, R183), Read Status (R180), and the
reading requests: what each answers, and the counters that four of them clear (R6, R7, R36, R48, R52, R102, R121, R140). -/

namespace Sys2Proof.Machine

/-! ### Notices and attention -/

theorem NoticeBox.give_of_room {b : NoticeBox} (room : b.queue.length < 16) (n : Notice) :
    b.give n = ⟨b.queue ++ [n], b.lost⟩ :=
  if_pos room

theorem NoticeBox.give_of_full {b : NoticeBox} (full : 16 ≤ b.queue.length) (n : Notice) :
    b.give n = ⟨b.queue, bump b.lost⟩ :=
  if_neg (Nat.not_lt.2 full)

theorem Yard.notify_get (y : Yard) (p : Port) (kind : NoticeKind) (subject : Nat × Nat × Nat) (detail : Nat) :
    (y.notify p kind subject detail).boxes.get p = (y.boxes.get p).give ⟨kind, subject, detail, y.stamp⟩ :=
  Trio.get_set_same _ _ _

/-- Settles O10: the notice is given to its own port's queue, and each attention line is its definition opened. -/
theorem noticesAndAttention : Obligations.NoticesAndAttention := by
  refine ⟨fun y p kind subject detail => ⟨fun room => ?_, fun full => ?_, fun q other => Trio.get_set_ne _ _ other⟩,
    fun y => ⟨?plant, ?tracker, ?fleet⟩⟩
  · rw [Yard.notify_get, NoticeBox.give_of_room room]
  · rw [Yard.notify_get, NoticeBox.give_of_full full]
    rfl
  case plant => simp [Yard.attention, Trio.get]
  case tracker => simp [Yard.attention, Trio.get, Yard.rowList]
  case fleet => simp [Yard.attention, Trio.get, Yard.fleetOrderPending, Yard.carriageList]

/-! ### The frame of a request -/

theorem byte_toNat {n : Nat} (h : n < 256) : (byte n).toNat = n := by
  simp [byte, Nat.mod_eq_of_lt h]

theorem wordAt_twoBytes (front : List Byte) (w : Word) :
    BitVec.ofNat 16 (wordAt (front ++ twoBytes w.toNat) front.length) = w := by
  have small : w.toNat < 65536 := w.isLt
  have high : byteAt (front ++ twoBytes w.toNat) front.length = w.toNat / 256 := by
    simp [byteAt, twoBytes, List.getD_eq_getElem?_getD, byte]
    omega
  have low : byteAt (front ++ twoBytes w.toNat) (front.length + 1) = w.toNat % 256 := by
    simp [byteAt, twoBytes, List.getD_eq_getElem?_getD, byte]
  have whole : w.toNat / 256 * 256 + w.toNat % 256 = w.toNat := by omega
  rw [wordAt, high, low, whole, BitVec.ofNat_toNat, BitVec.setWidth_eq]

theorem kindOf_code (k : Kind) : Kind.ofCode k.code = some k := by
  cases k <;> decide

/-- Settles O7: the length byte gives the body back, the check matches, and no two kinds have one code. -/
theorem frameReadBack : Obligations.FrameReadBack := by
  intro k p body short
  have length : (byte (body.length + 1)).toNat = body.length + 1 := byte_toNat (by omega)
  have frame : requestFrame k.code body = 165#8 :: byte (body.length + 1) :: k.code ::
      (body ++ twoBytes (frameCheck (requestCovered k.code body)).toNat) := rfl
  have check := wordAt_twoBytes body (frameCheck (requestCovered k.code body))
  have taken : (body ++ twoBytes (frameCheck (requestCovered k.code body)).toNat).take body.length = body :=
    List.take_left' rfl
  rw [frame, frameCommand]
  simp only [length, Nat.add_sub_cancel, taken, check, kindOf_code]
  rw [if_neg (by omega), if_pos (by simp [twoBytes]), if_pos trivial]

/-! ### Reading -/

/-- A taken request that only reads answers what it reads. -/
theorem exec_reads {k : Kind} {p : Port} {body : List Byte} {s : State} (taken : s.takes k p body) {f : State → Reply}
    (rule : requestRule k p body = State.reading f) {reply : Reply} (answer : f s = reply) :
    exec (k.command p body) s = .next (s.answered p k.code reply) :=
  exec_takes taken (by rw [rule, State.reading, answer])

/-- A taken request that reads the yard and may clear what it has read. -/
theorem exec_readsYard {k : Kind} {p : Port} {body : List Byte} {s : State} (taken : s.takes k p body)
    {f : Yard → Yard × Reply} (rule : requestRule k p body = State.readingYard f) {z : Yard} {reply : Reply}
    (read : f s.yard = (z, reply)) : exec (k.command p body) s = .next ((s.withYard z).answered p k.code reply) :=
  exec_takes taken (by rw [rule, State.readingYard, read]; rfl)

/-- The search of Read Orders: the numbers after the cursor, then those up to it (R6, R36). -/
theorem searchAfter_eq {cursor n : Nat} (h : cursor < n) :
    Yard.searchAfter cursor n = List.range' (cursor + 1) (n - 1 - cursor) ++ List.range (cursor + 1) := by
  have parts : List.range n = List.range (cursor + 1) ++ List.range' (cursor + 1) (n - 1 - cursor) := by
    have whole : List.range n = List.range ((cursor + 1) + (n - 1 - cursor)) := by congr 1; omega
    rw [whole, List.range_add, ← List.range'_eq_map_range]
  have after : (List.range n).filter (fun i => cursor < i) = List.range' (cursor + 1) (n - 1 - cursor) := by
    rw [parts, List.filter_append, List.filter_eq_nil_iff.2, List.filter_eq_self.2, List.nil_append]
    · intro i mem; simp [List.mem_range'_1] at mem ⊢; omega
    · intro i mem; simp at mem ⊢; omega
  have upTo : (List.range n).filter (fun i => i ≤ cursor) = List.range (cursor + 1) := by
    rw [parts, List.filter_append, List.filter_eq_self.2, List.filter_eq_nil_iff.2, List.append_nil]
    · intro i mem; simp [List.mem_range'_1] at mem ⊢; omega
    · intro i mem; simp at mem ⊢; omega
  rw [Yard.searchAfter, after, upTo]

theorem codeValue_eq_none_iff (s : State) (code : Nat) : s.codeValue code = none ↔
    ¬((1 ≤ code ∧ code ≤ 0x08) ∨ (0x10 ≤ code ∧ code ≤ 0x19) ∨ (0x20 ≤ code ∧ code ≤ 0x2B) ∨
      (0x30 ≤ code ∧ code ≤ 0x32)) := by
  have codes : settingCodes.contains code = true ↔
      (1 ≤ code ∧ code ≤ 0x08) ∨ (0x10 ≤ code ∧ code ≤ 0x19) ∨ (0x20 ≤ code ∧ code ≤ 0x2B) := by
    simp [settingCodes]
    omega
  unfold State.codeValue
  split
  · next setting =>
    have := codes.1 setting
    simp only [reduceCtorEq, false_iff]
    omega
  · next other =>
    rw [codes] at other
    split
    case h_4 noMask noGeneration noSlot =>
      have : code ≠ 0x30 := noMask
      have : code ≠ 0x31 := noGeneration
      have : code ≠ 0x32 := noSlot
      simp only [true_iff]
      omega
    all_goals simp

/-! ### The eight reads -/

theorem rowFlags_eq_sum (first n : Nat) (flag : Nat → Bool) :
    Yard.rowFlags first n flag = byte ((List.range n).map fun i => if flag (first + i) then 2 ^ i else 0).sum := by
  rw [Yard.rowFlags, List.sum_eq_foldl, List.foldl_map]

/-- One order item of Read Orders on a fleet port, order by order (R36, R184). -/
theorem subjectOrder_eq (y : Yard) (n : Nat) : y.subjectOrder n =
    if n < 12 then if y.enrolled n then (y.robot n).order.map fun o => match o.kind with
        | .pass r kind => [byte n, 1, byte o.serial, byte r, byte kind.code, 0]
        | .toGarage r => [byte n, 2, byte o.serial, byte r, 0, 0]
      else none
    else if n - 12 < y.settings.carriages then (y.carriage (n - 12)).order.map fun o => match o.kind with
        | .goto x => [byte n, 3, byte o.serial, byte x, 0, 0]
        | .board k => [byte n, 4, byte o.serial, byte k, 0, 0]
        | .alight k pl => [byte n, 5, byte o.serial, byte k] ++ placeBytes pl
        | .stay => [byte n, 6, byte o.serial, 0, 0, 0]
      else none := by
  have robots (o : Order RobotOrder) : [byte n, byte o.kind.code, byte o.serial] ++ o.kind.params = match o.kind with
      | .pass r kind => [byte n, 1, byte o.serial, byte r, byte kind.code, 0]
      | .toGarage r => [byte n, 2, byte o.serial, byte r, 0, 0] := by
    cases o.kind <;> rfl
  have carriages (o : Order CarriageOrder) : [byte n, byte o.kind.code, byte o.serial] ++ o.kind.params =
      match o.kind with
      | .goto x => [byte n, 3, byte o.serial, byte x, 0, 0]
      | .board k => [byte n, 4, byte o.serial, byte k, 0, 0]
      | .alight k pl => [byte n, 5, byte o.serial, byte k] ++ placeBytes pl
      | .stay => [byte n, 6, byte o.serial, 0, 0, 0] := by
    cases o.kind <;> rfl
  simp only [Yard.subjectOrder, robots, carriages, Yard.carriageExists, decide_eq_true_eq]

/-- The entries from position `first` on, whichever of the two halves of the queue is read. -/
theorem readTransfers_of_large {y : Yard} {part : Nat} (h : 2 < part) : y.readTransfers part = .refuse .range := by
  unfold Yard.readTransfers
  split
  case h_4 => rfl
  all_goals omega

theorem flagByte_structuralCode (code : Nat) : flagByte (structuralCode code) = if 1 ≤ code ∧ code ≤ 8 then 1 else 0 := by
  simp [flagByte, structuralCode_iff]

/-- The three parts of Read Account (R164). -/
theorem accountBytes_eq (s : State) {r part : Nat} (h : part ≤ 2) :
    let x := s.accounts.row r
    let absent : List Byte := [1]
    s.accountBytes r part =
      if part = 0 then twoBytes s.accounts.periodNumber ++ State.periodBytes x.period
      else if part = 1 then (match x.snapshotOf with | some n => twoBytes n | none => absent) ++ State.periodBytes x.snapshot
      else twoBytes s.accounts.seq ++ timerBytes s.accounts.timer ++ State.gatheredBytes x.gathering ++
        (match x.pending with | some g => State.gatheredBytes g | none => absent) ++ [byte (s.yard.rowClass r).code] := by
  intro x absent
  interval_cases part
  · rfl
  · change State.orMark twoBytes x.snapshotOf ++ State.periodBytes x.snapshot = _
    cases x.snapshotOf <;> rfl
  · change twoBytes s.accounts.seq ++ timerBytes s.accounts.timer ++ State.gatheredBytes x.gathering ++
      State.orMark State.gatheredBytes x.pending ++ [byte (s.yard.rowClass r).code] = _
    cases x.pending <;> rfl

/-- Settles O12: each read is served by its rule, which is the items of its answer or a refusal. -/
theorem readsChangeNothing : Obligations.ReadsChangeNothing := by
  refine ⟨?reads, fun s => ⟨codeValue_eq_none_iff s, rfl, rfl⟩, fun y r => ?summary, fun y i => ⟨fun past => ?past, fun t at' => ?entry⟩⟩
  case reads =>
    intro p body s a b y rows after answer flags
    have search {n : Nat} (h : a < n) : Yard.searchAfter a n = after (n - 1) := searchAfter_eq h
    refine ⟨fun taken port => ⟨fun inside => ?rows, fun outside => ?noRow⟩,
      fun taken port => ⟨fun inside => ?fleet, fun outside => ?noSubject⟩,
      fun taken => ⟨fun inside => ?summaries, fun outside => exec_reads (k := .readRows) taken rfl ?noSummary⟩,
      fun taken => exec_reads (k := .readFences) taken rfl ?fences, fun taken => ?transfers,
      fun taken => exec_reads (k := .readAlerts) taken rfl rfl,
      fun taken => ⟨fun inside part idle => exec_reads (k := .readAccount) taken rfl ?account,
        fun inside part walking => exec_reads (k := .readAccount) taken rfl ?accountBusy,
        fun outside => exec_reads (k := .readAccount) taken rfl (if_pos outside)⟩,
      fun taken => ⟨fun inside part idle => exec_reads (k := .readRing) taken rfl ?ring,
        fun inside part walking => exec_reads (k := .readRing) taken rfl ?ringBusy,
        fun outside => exec_reads (k := .readRing) taken rfl (if_pos outside)⟩,
      fun taken => ⟨fun v given => exec_reads (k := .readSetting) taken rfl ?setting,
        fun none => exec_reads (k := .readSetting) taken rfl ?noSetting⟩⟩
    case rows =>
      subst port
      refine exec_reads (k := .readOrders) taken rfl ?_
      have found : y.rowOrders a = ((after (rows - 1)).filter y.rowOrderPending).take 8 := by
        rw [Yard.rowOrders, search inside]
      exact (if_pos inside).trans (by rw [found]; rfl)
    case noRow =>
      subst port
      exact exec_reads (k := .readOrders) taken rfl (if_neg (Nat.not_lt.2 outside))
    case fleet =>
      intro item found
      have items : y.subjectOrder = item := funext fun n => subjectOrder_eq y n
      have serves : y.readOrders p a = y.readFleetOrders a := by cases p <;> first | rfl | exact absurd rfl port
      refine exec_reads (k := .readOrders) taken rfl (serves.trans ((if_pos inside).trans ?_))
      rw [search (n := 15) (by omega), items]
    case noSubject =>
      have serves : y.readOrders p a = y.readFleetOrders a := by cases p <;> first | rfl | exact absurd rfl port
      exact exec_reads (k := .readOrders) taken rfl (serves.trans (if_neg (Nat.not_le.2 outside)))
    case summaries =>
      intro n
      refine exec_reads (k := .readRows) taken rfl ((if_pos inside).trans ?_)
      simp only [rowFlags_eq_sum]
      rfl
    case noSummary => exact if_neg (Nat.not_lt.2 outside)
    case fences => exact congrArg (fun f => Reply.ok (y.fences.map f).flatten) (funext fun f => by cases f <;> rfl)
    case transfers =>
      have exec_is {reply : Reply} (answered : y.readTransfers a = reply) :
          exec (.readTransfers p body) s = answer 0x32 reply := exec_reads (k := .readTransfers) taken rfl answered
      refine ⟨fun part => exec_is ?_, fun part => exec_is ?_, fun part => exec_is ?_,
        fun part => exec_is (readTransfers_of_large part)⟩
      · rw [part]; simp [Yard.readTransfers]
      · rw [part]; simp [Yard.readTransfers, Nat.add_comm]
      · rw [part]; rfl
    case account =>
      refine (if_neg (not_or.2 ⟨Nat.not_le.2 inside, Nat.not_lt.2 part⟩)).trans
        ((if_neg (by simp [idle])).trans ?_)
      exact congrArg Reply.ok (accountBytes_eq s part)
    case accountBusy =>
      exact (if_neg (not_or.2 ⟨Nat.not_le.2 inside, Nat.not_lt.2 part⟩)).trans (if_pos (Option.isSome_iff_ne_none.2 walking))
    case ring => exact (if_neg (not_or.2 ⟨Nat.not_le.2 inside, Nat.not_lt.2 part⟩)).trans (if_neg (by simp [idle]))
    case ringBusy => exact (if_neg (not_or.2 ⟨Nat.not_le.2 inside, Nat.not_lt.2 part⟩)).trans (if_pos (Option.isSome_iff_ne_none.2 walking))
    case setting => rw [State.readSetting, given, flagByte_structuralCode]
    case noSetting => rw [State.readSetting, none]
  case summary => rfl
  case past => simp [Yard.queueItem, List.getElem?_eq_none past]
  case entry => simp only [Yard.queueItem, at', Yard.transferBytes]

/-! ### Read Status, and the reads that clear -/

/-- Settles O8: the answer is formed of the state before the port's counters are cleared. -/
theorem readStatusTaken : Obligations.ReadStatusTaken := by
  intro p body s taken
  have cleared : s.clearPort p = { s with
      yard := { s.yard with boxes := s.yard.boxes.set p ⟨(s.yard.boxes.get p).queue, 0⟩ }
      links := s.links.set p ⟨(s.links.get p).receiver, (s.links.get p).transmitter, 0, 0, 0, 0⟩ } := rfl
  exact exec_takes (k := .readStatus) taken (by rw [← cleared]; rfl)

theorem takeReadFleet_of_large {p : Port} {body : List Byte} {y : Yard} (h : 2 < byteAt body 0) :
    y.takeReadFleet p body = (y, .refuse .range) := by
  unfold Yard.takeReadFleet
  split
  case h_4 => rfl
  all_goals omega

theorem takeReadRounds_of_large {p : Port} {body : List Byte} {y : Yard} (h : 2 < byteAt body 0) :
    y.takeReadRounds p body = (y, .refuse .range) := by
  unfold Yard.takeReadRounds
  split
  case h_4 => rfl
  all_goals omega

theorem takeReadMet_of_large {p : Port} {body : List Byte} {s : State} (h : 2 < byteAt body 0) :
    s.takeReadMet p body = (s, .refuse .range) := by
  unfold State.takeReadMet
  split
  case h_4 => rfl
  all_goals omega

/-- Settles O13: each part of each read is one arm of its rule, and the plant port alone clears. -/
theorem readsThatClear : Obligations.ReadsThatClear := by
  intro p body s a y robots entries
  refine ⟨fun taken => ?fleet, fun taken => ?rounds, fun taken => ?met, fun taken => ?storm⟩
  case fleet =>
    have exec_is {z : Yard} {reply : Reply} (read : y.takeReadFleet p body = (z, reply)) :
        exec (.readFleet p body) s = .next ((s.withYard z).answered p 0x28 reply) :=
      exec_readsYard (k := .readFleet) taken rfl read
    refine ⟨fun part => exec_is ?_, fun part => exec_is ?_, fun part => exec_is ?_, fun part => exec_is ?_⟩
    · simp only [Yard.takeReadFleet, show byteAt body 0 = _ from part]; rfl
    · simp only [Yard.takeReadFleet, show byteAt body 0 = _ from part]; rfl
    · simp only [Yard.takeReadFleet, show byteAt body 0 = _ from part]; rfl
    · exact takeReadFleet_of_large part
  case rounds =>
    have exec_is {z : Yard} {reply : Reply} (read : y.takeReadRounds p body = (z, reply)) :
        exec (.readRounds p body) s = .next ((s.withYard z).answered p 0x44 reply) :=
      exec_readsYard (k := .readRounds) taken rfl read
    refine ⟨fun part => exec_is ?_, fun part => exec_is ?_, fun part => exec_is ?_, fun part => exec_is ?_⟩
    · simp only [Yard.takeReadRounds, show byteAt body 0 = _ from part]; rfl
    · simp only [Yard.takeReadRounds, show byteAt body 0 = _ from part]; rfl
    · simp only [Yard.takeReadRounds, show byteAt body 0 = _ from part]; rfl
    · exact takeReadRounds_of_large part
  case met =>
    have exec_is {t : State} {reply : Reply} (read : s.takeReadMet p body = (t, reply)) :
        exec (.readMet p body) s = .next (t.answered p 0x55 reply) := exec_takes (k := .readMet) taken read
    refine ⟨fun part => exec_is ?_, fun part => exec_is ?_, fun part => exec_is ?_, fun part => exec_is ?_⟩
    · simp only [State.takeReadMet, show byteAt body 0 = _ from part]
      split <;> rfl
    · simp only [State.takeReadMet, show byteAt body 0 = _ from part]
    · simp only [State.takeReadMet, show byteAt body 0 = _ from part]
    · exact takeReadMet_of_large part
  case storm => exact exec_readsYard (k := .readStorm) taken rfl rfl

end Sys2Proof.Machine

/-! SUPPORT. Events of the yard taken as one, the met link and its patterns (R116 to R120), and the Stow Sequencer: Stow Now,
Release, and the onsets of a storm (R20, R22, R23, R75, R76, R123, R126, R128 to R132, R134, R137). -/

namespace Sys2Proof.Machine

/-! ### Requests and events of the yard -/

section Yards

variable {k : Kind} {p : Port} {body : List Byte} {s : State} {f : Yard → Yard × Reply} {z : Yard} {reply : Reply}

/-- A taken request whose rule acts on the yard: its effect, and the end of its event. -/
theorem exec_onYard (taken : s.takes k p body) (rule : requestRule k p body = State.onYard f)
    (effect : f s.yard = (z, reply)) :
    exec (k.command p body) s = .next ((s.afterEvent z).answered p k.code reply) :=
  exec_takes taken (by rw [rule, State.onYard, effect]; rfl)

/-- A taken request whose effect on the yard gives no assignment event. -/
theorem exec_onYard_quiet (taken : s.takes k p body) (rule : requestRule k p body = State.onYard f)
    (effect : f s.yard = (z, reply)) (quiet : z.assign = false) :
    exec (k.command p body) s = .next ((s.withYard z).answered p k.code reply) := by
  rw [exec_onYard taken rule effect, State.afterEvent_same quiet]

/-- A taken request that leaves the yard as it is. -/
theorem exec_onYard_same (taken : s.takes k p body) (rule : requestRule k p body = State.onYard f) (between : s.between)
    (effect : f s.yard = (s.yard, reply)) : exec (k.command p body) s = .next (s.answered p k.code reply) :=
  exec_onYard_quiet taken rule effect between

/-- A fleet report that is refused is counted, and nothing else happens to the yard (R37). -/
theorem exec_onYard_refuses {why : Reason} (taken : s.takes k p body) (rule : requestRule k p body = State.onYard f)
    (between : s.between) (effect : f s.yard = s.yard.refuseReport why) : exec (k.command p body) s =
      .next ((s.withYard { s.yard with refusedReports := bump s.yard.refusedReports }).answered p k.code (.refuse why)) :=
  exec_onYard_quiet taken rule effect between

end Yards

/-! ### Patterns (R119) -/

namespace Pattern

variable {pt : Pattern} {fields : List Nat}

theorem meets_iff : pt.meets fields = true ↔ (∃ i, i < 8 ∧ pt.inSet.getD i false = true) ∧
    ∀ i, i < 8 → pt.inSet.getD i false = true →
      (pt.below.getD i false = true ∧ fields.getD i 0 ≤ pt.thresholds.getD i 0) ∨
      (pt.below.getD i false = false ∧ pt.thresholds.getD i 0 ≤ fields.getD i 0) := by
  have field (i : Nat) : pt.fieldMeets fields i = true ↔
      (pt.below.getD i false = true ∧ fields.getD i 0 ≤ pt.thresholds.getD i 0) ∨
      (pt.below.getD i false = false ∧ pt.thresholds.getD i 0 ≤ fields.getD i 0) := by
    unfold fieldMeets
    cases pt.below.getD i false <;> simp
  simp only [meets, Bool.and_eq_true, List.any_eq_true, List.all_eq_true, List.mem_range, Bool.or_eq_true,
    Bool.not_eq_true', field]
  refine and_congr Iff.rfl (forall₂_congr fun i _ => ?_)
  cases pt.inSet.getD i false <;> simp

end Pattern

/-- Settles O40: the counter's table follows where the counter stands below its run length. -/
theorem patternRun : Obligations.PatternRun := by
  intro pt fields
  refine ⟨Pattern.meets_iff, fun fails => ?_, fun meets more => ?_, fun meets last => ?_, fun meets full => ?_⟩
  · simp [Pattern.judge, Pattern.pulses, fails]
  · have below : pt.runCounter < pt.runLength := by omega
    simp [Pattern.judge, Pattern.pulses, meets, below]
    omega
  · have below : pt.runCounter < pt.runLength := by omega
    simp [Pattern.judge, Pattern.pulses, meets, last]
    omega
  · simp [Pattern.judge, Pattern.pulses, meets, full]

/-! ### Met frames (R116 to R118, R120) -/

theorem Met.duplicate_iff (m : Met) (seq : Nat) : m.duplicate seq = true ↔ ∃ r, m.last = some r ∧ r.seq = seq := by
  cases h : m.last <;> simp [duplicate, h]

theorem Met.afterGap_iff (m : Met) (seq : Nat) :
    m.afterGap seq = true ↔ ∃ r, m.last = some r ∧ (r.seq + 1) % 256 ≠ seq := by
  cases h : m.last <;> simp [afterGap, h]

namespace State

variable {s : State} {seq : Byte} {fields : List Word} {check : Word}

theorem metJudge_of_bad (bad : check ≠ frameCheck (metCovered seq fields)) : s.metJudge seq fields check = s.metBad :=
  if_pos bad

theorem metJudge_of_duplicate (good : check = frameCheck (metCovered seq fields))
    (same : s.met.duplicate seq.toNat = true) : s.metJudge seq fields check = s.metDuplicate :=
  (if_neg (not_not_intro good)).trans (if_pos same)

theorem metJudge_of_new (good : check = frameCheck (metCovered seq fields))
    (new : ¬s.met.duplicate seq.toNat = true) :
    s.metJudge seq fields check = s.metNew seq.toNat (fields.map BitVec.toNat) :=
  (if_neg (not_not_intro good)).trans (if_neg new)

end State

/-- Settles O41: a frame is bad, a duplicate or new; the other events of the met link each write one thing, and the patterns
that pulse do so in a free order. -/
theorem metEvents : Obligations.MetEvents := by
  refine ⟨?link, fun m values i => ⟨List.nodup_range.filter _, by simp [Met.pulsing]⟩, fun y level pulsing => ⟨rfl, ?pulses⟩⟩
  case link =>
    intro seq fields check s on m n good values timer same
    have exec_is {t : State} (judged : s.metJudge seq fields check = t) :
        exec (.metFrame seq fields check) s = .next t := congrArg Host.Outcome.next ((if_pos on).trans judged)
    refine ⟨fun bad => exec_is (State.metJudge_of_bad bad),
      fun fine duplicate => exec_is (State.metJudge_of_duplicate fine ((m.duplicate_iff _).2 duplicate)),
      fun fine new => ?new, fun b hunting stray => ?stray, fun hunting => ?sync, congrArg _ (if_pos on),
      fun running runs => ?silence, fun p body taken => ?pattern⟩
    case new =>
      intro gap
      refine ⟨(s.metNew seq.toNat values).met.counters, rfl, rfl, fun after => if_pos ((m.afterGap_iff _).2 after),
        fun notAfter => if_neg (notAfter ∘ (m.afterGap_iff _).1), rfl, rfl, rfl,
        exec_is (State.metJudge_of_new fine (new ∘ (m.duplicate_iff _).1))⟩
    case stray =>
      exact congrArg Host.Outcome.next ((if_pos on).trans ((if_neg (Bool.eq_false_iff.1 hunting)).trans (if_neg stray)))
    case sync =>
      exact congrArg Host.Outcome.next ((if_pos on).trans ((if_neg (Bool.eq_false_iff.1 hunting)).trans (if_pos rfl)))
    case silence => exact congrArg Host.Outcome.next (if_pos (Bool.and_eq_true_iff.2 ⟨running, runs⟩))
    case pattern =>
      intro entry written
      refine ⟨fun index low high => exec_takes (k := .setPattern) taken (if_neg (by omega)),
        fun outside => exec_takes (k := .setPattern) taken (if_pos (by omega))⟩
  case pulses =>
    obtain ⟨order, draws, perm, drawn⟩ := (y.metSilence false).inFreeOrder_spec pulsing fun i z => z.pulse (i + 3)
    exact ⟨order, draws, perm, drawn⟩

/-! ### Stow Now and Release (R126, R137) -/

theorem beginRecall_of_storm {y : Yard} (storm : y.mild = false) (cause : StormCause) (lane : Option CauseLane) :
    Yard.beginRecall cause lane y = y :=
  if_neg (by simp [storm])

/-- Settles O42: Stow Now begins a recall in CALM and WARNED alone; Release is judged by the state, then by the two lanes. -/
theorem stormRequests : Obligations.StormRequests := by
  intro p body s between refused
  refine ⟨fun taken mild => ⟨_, Keeps.beginRecall_storm _ _ _, rfl, exec_onYard (k := .stowNow) taken rfl rfl⟩,
    fun taken storm => exec_onYard_same (k := .stowNow) taken rfl between ?stowed,
    fun taken notParked => exec_onYard_same (k := .release) taken rfl between (if_pos notParked),
    fun taken parked high => exec_onYard_quiet (k := .release) taken rfl ?alert between,
    fun taken parked watch stow => exec_onYard (k := .release) taken rfl ?released⟩
  case stowed => rw [Yard.takeStowNow, beginRecall_of_storm storm]
  case alert => exact (if_neg (not_not_intro parked)).trans (if_pos (by simpa using high))
  case released => exact (if_neg (not_not_intro parked)).trans (if_neg (by simp [watch, stow]))

/-! ### The onsets of a storm -/

theorem Yard.tablesClear_iff (y : Yard) : y.tablesClear = true ↔
    (∀ b ∈ y.robots, b.enrolled = true → ∀ r, b.place ≠ .midrow r) ∧
      ∀ c, c < y.settings.carriages → (y.carriage c).load = none := by
  have robot (b : Robot) : (!b.enrolled || match b.place with | .midrow _ => false | _ => true) = true ↔
      (b.enrolled = true → ∀ r, b.place ≠ .midrow r) := by
    cases b.enrolled <;> cases b.place <;> simp
  simp only [tablesClear, Bool.and_eq_true, List.all_eq_true, carriageList, List.mem_range, Option.isNone_iff_eq_none]
  exact and_congr (forall₂_congr fun b _ => robot b) Iff.rfl

theorem Yard.allStowed_iff (y : Yard) :
    y.allStowed = true ↔ ∀ w ∈ y.rows, w.custody = .stowed ∨ w.custody = .exposed := by
  simp [allStowed]

theorem changeStorm_boxes (y : Yard) (new : StormState) (cause : StormCause) (lane : Option CauseLane) (p : Port) :
    (y.changeStorm new cause lane).boxes.get p = (y.boxes.get p).give
      ⟨.stowState, (new.code, 0, 0), Yard.stowDetail y.storm.state cause lane, y.stamp⟩ := by
  cases p <;> rfl

section Rows

variable {y : Yard} {r : Nat}

theorem Yard.row_settleRow (h : r < y.rows.length) : (y.settleRow r).row r =
    { y.row r with custody := .settle, holder := none, timer := some y.settings.settleTime } :=
  y.row_setRow_same h _

theorem Yard.row_settleRow_ne {q : Nat} (h : q ≠ r) : (y.settleRow r).row q = y.row q := y.row_setRow_ne h _

theorem Yard.row_stowRow (h : r < y.rows.length) : (y.stowRow r).row r =
    { y.row r with custody := .stowPending, holder := none, timer := some y.settings.stowLimit } :=
  y.row_setRow_same h _

theorem Yard.row_stowRow_ne {q : Nat} (h : q ≠ r) : (y.stowRow r).row q = y.row q := y.row_setRow_ne h _

/-- A held-open row is OPEN. -/
theorem Yard.custody_of_heldOpen (h : y.heldOpen r = true) : (y.row r).custody = .open := by
  simp only [Yard.heldOpen, Bool.and_eq_true, beq_iff_eq] at h
  exact h.1

theorem releaseRow_of_stowed (h : (y.row r).custody = .stowed ∨ (y.row r).custody = .stowPending) :
    Yard.releaseRow r y = (y.settleRow r).setRow r fun w => { w with unconfirmed := false } := by
  obtain h | h := h <;> simp only [Yard.releaseRow, h]

theorem releaseRow_of_exposed (h : (y.row r).custody = .exposed) :
    Yard.releaseRow r y = y.setRow r fun w => { w with custody := .open, timer := none } := by
  simp only [Yard.releaseRow, h]

theorem releaseRow_ne {q : Nat} (h : q ≠ r) : (Yard.releaseRow r y).row q = y.row q := by
  unfold Yard.releaseRow
  split
  case h_4 => rfl
  case h_3 => exact y.row_setRow_ne h _
  all_goals exact (Yard.row_setRow_ne _ h _).trans (y.row_setRow_ne h _)

theorem recallRow_of_claimed (h : (y.row r).custody = .track ∨ (y.row r).custody = .settle ∨
    (y.row r).custody = .flattening ∨ y.heldOpen r = true) : Yard.recallRow r y = y.stowRow r := by
  obtain h | h | h | h := h
  · simp only [Yard.recallRow, h]
  · simp only [Yard.recallRow, h]
  · simp only [Yard.recallRow, h]
  · simp only [Yard.recallRow, Yard.custody_of_heldOpen h, h, if_true]

theorem recallRow_ne {q : Nat} (h : q ≠ r) : (Yard.recallRow r y).row q = y.row q := by
  unfold Yard.recallRow
  split
  case h_4 => split; exacts [Yard.row_stowRow_ne h, rfl]
  all_goals first | rfl | exact Yard.row_stowRow_ne h

end Rows

/-- The yard after the first five steps of a recall, before the deadline starts (R128). -/
def Yard.called (cause : StormCause) (lane : Option CauseLane) (y : Yard) : Yard :=
  let begun := (y.changeStorm .recall cause lane).recordRecall cause lane
  let ended := begun.emptyList.rail.queue.foldl (fun z t => Yard.recallTransfer t z) begun.emptyList
  ((ended.overCarriages Yard.abortNudge).overRows Yard.recallRow).overRobots Yard.recallRobot

theorem beginRecall_of_mild {y : Yard} (mild : y.mild = true) (cause : StormCause) (lane : Option CauseLane) :
    Yard.beginRecall cause lane y = if (y.called cause lane).tablesClear then (y.called cause lane).judgeTablesClear
      else { y.called cause lane with storm := { (y.called cause lane).storm with
        deadline := some (y.called cause lane).settings.stowDeadline } } := by
  unfold Yard.beginRecall Yard.called
  rw [if_pos mild]

theorem beginRecall_of_clear {y : Yard} {cause : StormCause} {lane : Option CauseLane} (mild : y.mild = true)
    (clear : (y.called cause lane).tablesClear = true) :
    Yard.beginRecall cause lane y = (y.called cause lane).judgeTablesClear := by
  rw [beginRecall_of_mild mild, if_pos clear]

theorem beginRecall_of_notClear {y : Yard} {cause : StormCause} {lane : Option CauseLane} (mild : y.mild = true)
    (notClear : (y.called cause lane).tablesClear = false) :
    Yard.beginRecall cause lane y = { y.called cause lane with storm := { (y.called cause lane).storm with
      deadline := some (y.called cause lane).settings.stowDeadline } } := by
  rw [beginRecall_of_mild mild, if_neg (Bool.eq_false_iff.1 notClear)]

/-- Settles O43: the onsets as chains of the model's steps, each step by its condition. -/
theorem stormOnsets : Obligations.StormOnsets := by
  refine ⟨?deadline, ?change, ?onset, ?steps, ?conditions, ?rows⟩
  case deadline =>
    intro s running recalled runs y stopped
    have passes : y.deadlinePasses = y.deadlineExpires := if_pos ⟨recalled, runs⟩
    refine congrArg Host.Outcome.next ((State.event_running running _).trans ?_)
    rw [passes]
    rfl
  case change =>
    intro y new cause lane z said
    refine ⟨rfl, fun p => (changeStorm_boxes y new cause lane p).trans ?_, rfl⟩
    cases lane <;> rfl
  case onset =>
    intro y cause lane begun ended called
    have same : y.called cause lane = called := rfl
    clear_value called
    subst same
    exact ⟨fun storm => beginRecall_of_storm storm cause lane, beginRecall_of_clear, beginRecall_of_notClear⟩
  case steps =>
    intro y t n
    refine ⟨fun _ _ => rfl, fun early => if_pos early, fun notWaiting notFetch => if_neg (not_or.2 ⟨notWaiting, notFetch⟩), ?_⟩
    intro stays
    refine ⟨fun carried => ?_, fun c carried => ?_, fun quiet => ?_, fun nudged => if_pos nudged, fun r enrolled place => ?_, fun other => ?_⟩
    · simp only [Yard.abortTransfer, carried]
    · simp only [Yard.abortTransfer, carried]
      rfl
    · exact if_neg (by rw [show y.rail.nudges.getD n none = none from quiet]; exact Bool.false_ne_true)
    · simp only [Yard.recallRobot, place, enrolled, if_true]
    · unfold Yard.recallRobot
      split
      case h_2 => rfl
      case h_1 r place =>
        exact if_neg (Bool.eq_false_iff.1 (other.resolve_right fun elsewhere => elsewhere r place))
  case conditions =>
    intro y clear stowed stopped
    refine ⟨y.tablesClear_iff, fun recalled tables => ?_, fun other => ?_, fun stowing rows => ?_, fun other => ?_, y.endQueue_empty, rfl⟩
    · exact if_pos ⟨recalled, y.tablesClear_iff.2 tables⟩
    · exact if_neg fun ⟨recalled, tables⟩ => other.elim (· recalled) (· (y.tablesClear_iff.1 tables))
    · exact if_pos ⟨stowing, y.allStowed_iff.2 rows⟩
    · exact if_neg fun ⟨stowing, rows⟩ => other.elim (· stowing) (· (y.allStowed_iff.1 rows))
  case rows =>
    intro y r h w
    refine ⟨fun away => if_neg (Bool.eq_false_iff.1 away), fun k table holder => ?_, fun stowed => ?_, fun exposed => ?_,
      fun claimed => ?_, fun opened notHeld => ?_, fun q other => ⟨releaseRow_ne other, recallRow_ne other⟩⟩
    · have named : (y.row r).holder.getD 255 = k := by simp [show (y.row r).holder = some k from holder]
      unfold Yard.exposeRow
      rw [if_pos table, named]
      rfl
    · rw [releaseRow_of_stowed stowed, Yard.row_setRow_same _ (by simpa [Yard.settleRow] using h), Yard.row_settleRow h]
    · rw [releaseRow_of_exposed exposed, Yard.row_setRow_same _ h]
    · rw [recallRow_of_claimed claimed, Yard.row_stowRow h]
    · simp [Yard.recallRow, show (y.row r).custody = .open from opened, notHeld]

end Sys2Proof.Machine

/-! SUPPORT. The Row Table: posture reports (R5, R9, R18, R21), fences (R16, R17), row timer expiries (R10, R13, R15, R21, R26),
passes and homecomings (R11, R12, R40, R96, R97), and the occupancy that follows a robot's place (R29). -/

namespace Sys2Proof.Machine

namespace Yard

variable {y : Yard} {r : Nat}

/-! ### A row's record after a change -/

theorem setRow_setRow (y : Yard) (r : Nat) (f g : Row → Row) : (y.setRow r f).setRow r g = y.setRow r fun w => g (f w) := by
  simp only [setRow, List.modify_modify_eq]
  rfl

/-- A change of a row keeps what it does not write. -/
theorem row_setRow_keeps {α : Type} {g : Row → α} {f : Row → Row} (keeps : ∀ w, g (f w) = g w) (y : Yard) (r q : Nat) :
    g ((y.setRow r f).row q) = g (y.row q) := by
  by_cases h : q = r
  · subst h
    by_cases there : q < y.rows.length
    · rw [row_setRow_same y there, keeps]
    · have absent : (y.setRow q f).row q = y.row q := by simp [row, List.getD_eq_getElem?_getD, there]
      rw [absent]
  · rw [row_setRow_ne y h]

theorem row_removeEntry (y : Yard) (r q : Nat) : (y.removeEntry r).row q = y.row q :=
  congrArg (List.getD · q (freshRow 0)) (y.removeEntry_rows r)

/-! ### Where the holder of an OPEN row is (R2) -/

theorem heldOpen_iff : y.heldOpen r = true ↔
    (y.row r).custody = .open ∧ ∃ k, (y.row r).holder = some k ∧ (y.robot k).place = .garage r := by
  cases h : (y.row r).holder <;> simp [heldOpen, h]

theorem onTable_iff : y.onTable r = true ↔
    (y.row r).custody = .open ∧ ∃ k, (y.row r).holder = some k ∧ (y.robot k).place = .midrow r := by
  cases h : (y.row r).holder <;> simp [onTable, h]

theorem heldOpen_of_onTable (h : y.onTable r = true) : y.heldOpen r = false := by
  obtain ⟨_, k, holder, midrow⟩ := onTable_iff.1 h
  refine Bool.eq_false_iff.2 fun held => ?_
  obtain ⟨_, j, holder', garage⟩ := heldOpen_iff.1 held
  cases holder.symm.trans holder'
  cases midrow.symm.trans garage

/-- A change of a row that keeps its custody and holder keeps every row held open and on table. -/
theorem heldOpen_setRow {f : Row → Row} (custody : ∀ w, (f w).custody = w.custody) (holder : ∀ w, (f w).holder = w.holder)
    (y : Yard) (r q : Nat) : (y.setRow r f).heldOpen q = y.heldOpen q := by
  unfold heldOpen
  rw [row_setRow_keeps (g := Row.custody) custody, row_setRow_keeps (g := Row.holder) holder]
  rfl

theorem onTable_setRow {f : Row → Row} (custody : ∀ w, (f w).custody = w.custody) (holder : ∀ w, (f w).holder = w.holder)
    (y : Yard) (r q : Nat) : (y.setRow r f).onTable q = y.onTable q := by
  unfold onTable
  rw [row_setRow_keeps (g := Row.custody) custody, row_setRow_keeps (g := Row.holder) holder]
  rfl

/-! ### Barring (R17, R18) -/

theorem settleClaimed_of_claimed (h : (y.row r).custody = .flattening ∨ y.heldOpen r = true) :
    y.settleClaimed r = y.settleRow r := if_pos h

theorem settleClaimed_of_unclaimed (flat : (y.row r).custody ≠ .flattening) (held : y.heldOpen r = false) :
    y.settleClaimed r = y := if_neg (not_or.2 ⟨flat, Bool.eq_false_iff.1 held⟩)

theorem barByFault_of_offTable (h : y.onTable r = false) : y.barByFault r = (y.settleClaimed r).removeEntry r := by
  unfold barByFault
  cases (y.row r).holder <;> simp [h]

theorem barByFault_of_pass {k q serial : Nat} {kind : PassKind} (h : y.onTable r = true) (holder : (y.row r).holder = some k)
    (order : (y.robot k).order = some ⟨.pass q kind, serial⟩) : y.barByFault r = (y.sendHome k r).removeEntry r := by
  have kept : y.settleClaimed r = y :=
    settleClaimed_of_unclaimed (by simp [(onTable_iff.1 h).1]) (heldOpen_of_onTable h)
  simp only [barByFault, kept, holder, h, order, if_true]

theorem barByFault_of_noPass {k : Nat} (h : y.onTable r = true) (holder : (y.row r).holder = some k)
    (order : ∀ q kind serial, (y.robot k).order ≠ some ⟨.pass q kind, serial⟩) : y.barByFault r = y.removeEntry r := by
  have kept : y.settleClaimed r = y :=
    settleClaimed_of_unclaimed (by simp [(onTable_iff.1 h).1]) (heldOpen_of_onTable h)
  simp only [barByFault, kept, holder, h, if_true]

theorem barByFault_of_claimed (h : (y.row r).custody = .flattening ∨ y.heldOpen r = true) :
    y.barByFault r = (y.settleRow r).removeEntry r := by
  have off : y.onTable r = false := by
    refine Bool.eq_false_iff.2 fun on => ?_
    obtain flat | held := h
    · simp [(onTable_iff.1 on).1] at flat
    · simp [heldOpen_of_onTable on] at held
  rw [barByFault_of_offTable off, settleClaimed_of_claimed h]

theorem barByFault_of_notOpen (flat : (y.row r).custody ≠ .flattening) (notOpen : (y.row r).custody ≠ .open) :
    y.barByFault r = y.removeEntry r := by
  have off : y.onTable r = false := Bool.eq_false_iff.2 fun on => notOpen (onTable_iff.1 on).1
  have closed : y.heldOpen r = false := Bool.eq_false_iff.2 fun held => notOpen (heldOpen_iff.1 held).1
  rw [barByFault_of_offTable off, settleClaimed_of_unclaimed flat closed]

/-! ### Posture reports (R5) -/

/-- The yard after the update of a posture report, before its further effects (R5). -/
def tell (y : Yard) (r : Nat) (x : Posture) : Yard := y.setRow r fun w => { w with reported := x }

theorem tell_custody (y : Yard) (r : Nat) (x : Posture) (q : Nat) : ((y.tell r x).row q).custody = (y.row q).custody :=
  row_setRow_keeps (g := Row.custody) (f := fun w => { w with reported := x }) (fun _ => rfl) y r q

theorem tell_holder (y : Yard) (r : Nat) (x : Posture) (q : Nat) : ((y.tell r x).row q).holder = (y.row q).holder :=
  row_setRow_keeps (g := Row.holder) (f := fun w => { w with reported := x }) (fun _ => rfl) y r q

theorem tell_heldOpen (y : Yard) (r : Nat) (x : Posture) (q : Nat) : (y.tell r x).heldOpen q = y.heldOpen q :=
  heldOpen_setRow (f := fun w => { w with reported := x }) (fun _ => rfl) (fun _ => rfl) y r q

theorem tell_onTable (y : Yard) (r : Nat) (x : Posture) (q : Nat) : (y.tell r x).onTable q = y.onTable q :=
  onTable_setRow (f := fun w => { w with reported := x }) (fun _ => rfl) (fun _ => rfl) y r q

theorem takePostureReport_of_posture {body : List Byte} {x : Posture} (h : byteAt body 0 < y.rows.length)
    (posture : postureOf (byteAt body 1) = some x) :
    y.takePostureReport body = ((y.tell (byteAt body 0) x).postureEffect (byteAt body 0) x, .ok []) := by
  simp only [takePostureReport, posture]
  exact if_pos h

theorem takePostureReport_of_range {body : List Byte}
    (h : postureOf (byteAt body 1) = none ∨ y.rows.length ≤ byteAt body 0) :
    y.takePostureReport body = (y, .refuse .range) := by
  unfold takePostureReport
  dsimp only
  split
  case h_2 => rfl
  case h_1 x posture =>
    obtain none | outside := h
    · simp [none] at posture
    · exact if_neg (Nat.not_lt.2 outside)

theorem completeStow_of_pending (h : (y.row r).custody = .stowPending) : y.completeStow r =
    (y.setRow r fun w => { w with custody := .stowed, timer := none, unconfirmed := false }).judgeAllStowed := by
  simp only [completeStow, h]

theorem completeStow_of_stowed (h : (y.row r).custody = .stowed) :
    y.completeStow r = y.setRow r fun w => { w with unconfirmed := false } := by
  simp only [completeStow, h]

theorem completeStow_of_other (pending : (y.row r).custody ≠ .stowPending) (stowed : (y.row r).custody ≠ .stowed) :
    y.completeStow r = y := by
  unfold completeStow
  split
  case h_1 h => exact absurd h pending
  case h_2 h => exact absurd h stowed
  case h_3 => rfl

end Yard

/-- A byte that names no posture (R184). -/
theorem postureOf_none {v : Nat} (h : v = 0 ∨ 4 < v) : postureOf v = none := by
  unfold postureOf
  split <;> first | omega | rfl

/-- Settles O15: the update, then the effect of the posture that the report names. -/
theorem postureReportTaken : Obligations.PostureReportTaken := by
  intro p body s taken between r v custody told
  have reports {x : Posture} {z : Yard} (inside : r < s.yard.rows.length) (posture : postureOf v = some x)
      (effect : (s.yard.tell r x).postureEffect r x = z) :
      exec (.postureReport p body) s = .next ((s.afterEvent z).answered p 0x11 (.ok [])) :=
    exec_onYard (k := .postureReport) taken rfl
      ((Yard.takePostureReport_of_posture inside posture).trans (congrArg (·, Reply.ok []) effect))
  have reportsQuiet {x : Posture} {z : Yard} (inside : r < s.yard.rows.length) (posture : postureOf v = some x)
      (effect : (s.yard.tell r x).postureEffect r x = z) (quiet : z.assign = false) :
      exec (.postureReport p body) s = .next ((s.withYard z).answered p 0x11 (.ok [])) :=
    (reports inside posture effect).trans (by rw [State.afterEvent_same quiet])
  have custodyTold (x : Posture) : ((s.yard.tell r x).row r).custody = custody := s.yard.tell_custody r x r
  have bars {z : Yard} (inside : r < s.yard.rows.length) (fault : v = 4) (effect : (s.yard.tell r .fault).barByFault r = z) :
      exec (.postureReport p body) s = .next ((s.afterEvent z).answered p 0x11 (.ok [])) :=
    reports (x := .fault) inside (congrArg postureOf fault) effect
  refine ⟨fun inside => ⟨fun tracking => ?tracking, fun flat other => ?flat, fun flat flattening k kind o st entry => ?opens,
    fun stowed pending => ?stows, fun stowed again => ?stowedAgain, fun stowed notPending notStowed => ?stowed,
    fun fault notFlat notOpen => ?barred, fun fault claimed => ?settles, fun fault on k q kind serial holder order => ?home,
    fun fault on k holder order => ?left⟩, fun outside => ?range⟩
  case tracking => exact reportsQuiet (x := .tracking) inside (congrArg postureOf tracking) rfl between
  case flat =>
    refine reportsQuiet (x := .flat) inside (congrArg postureOf flat) (if_neg ?_) between
    rw [custodyTold]
    exact other
  case opens =>
    intro opened given
    refine reports (x := .flat) inside (congrArg postureOf flat) ((if_pos ((custodyTold .flat).trans flattening)).trans ?_)
    have entryTold : (s.yard.tell r .flat).entryOf r = some ⟨r, kind, o, some k, st⟩ := entry
    simp only [Yard.endFlattenFlat, entryTold]
    rw [Yard.tell, Yard.setRow_setRow]
  case stows =>
    intro stowed
    refine reports (x := .stowed) inside (congrArg postureOf ‹v = 3›) ?_
    refine (Yard.completeStow_of_pending ((custodyTold .stowed).trans pending)).trans ?_
    rw [Yard.tell, Yard.setRow_setRow]
  case stowedAgain =>
    refine reportsQuiet (x := .stowed) inside (congrArg postureOf stowed) ?_ between
    refine (Yard.completeStow_of_stowed ((custodyTold .stowed).trans again)).trans ?_
    rw [Yard.tell, Yard.setRow_setRow]
  case stowed =>
    refine reportsQuiet (x := .stowed) inside (congrArg postureOf stowed) (Yard.completeStow_of_other ?_ ?_) between
    all_goals rw [custodyTold]; assumption
  case barred =>
    refine bars inside fault (Yard.barByFault_of_notOpen ?_ ?_)
    all_goals rw [custodyTold]; assumption
  case settles =>
    intro settled
    refine bars inside fault (Yard.barByFault_of_claimed ?_)
    rwa [custodyTold, Yard.tell_heldOpen]
  case home =>
    exact bars inside fault (Yard.barByFault_of_pass ((s.yard.tell_onTable r _ r).trans on)
      ((s.yard.tell_holder r _ r).trans holder) order)
  case left =>
    intro left
    have record : left.row r = { s.yard.row r with reported := .fault } :=
      (Yard.row_removeEntry _ _ _).trans (Yard.row_setRow_same _ inside _)
    refine ⟨bars inside fault (Yard.barByFault_of_noPass ((s.yard.tell_onTable r _ r).trans on)
      ((s.yard.tell_holder r _ r).trans holder) order), record, ?_, Yard.removeEntry_order _ _ _,
      Yard.entryOf_removeEntry_same _ _⟩
    rw [record]
    exact (Yard.onTable_iff.1 on).1
  case range =>
    refine exec_onYard_same (k := .postureReport) taken rfl between (Yard.takePostureReport_of_range ?_)
    obtain zero | large | outside := outside
    · exact .inl (postureOf_none (.inl zero))
    · exact .inl (postureOf_none (.inr large))
    · exact .inr outside

/-! ### Fences (R16, R17) -/

namespace Yard

variable {before y : Yard} {r : Nat}

theorem fenced_iff : y.fenced r = true ↔ ∃ first last, some (first, last) ∈ y.fences ∧ first ≤ r ∧ r ≤ last := by
  simp only [fenced, List.any_eq_true]
  constructor
  · rintro ⟨f, mem, inside⟩
    obtain _ | ⟨first, last⟩ := f
    · cases inside
    · exact ⟨first, last, mem, of_decide_eq_true inside⟩
  · rintro ⟨first, last, mem, inside⟩
    exact ⟨_, mem, decide_eq_true inside⟩

theorem barred_iff : y.barred r = true ↔ (∃ first last, some (first, last) ∈ y.fences ∧ first ≤ r ∧ r ≤ last) ∨
    (y.row r).reported = .fault := by
  rw [barred, Bool.or_eq_true, fenced_iff, beq_iff_eq]

theorem barByFence_of_barred (now : y.barred r = true) (notBefore : before.barred r = false) :
    barByFence before r y = (y.settleClaimed r).removeEntry r := if_pos (by simp [now, notBefore])

theorem row_settleClaimed_ne {q : Nat} (h : q ≠ r) : (y.settleClaimed r).row q = y.row q := by
  unfold settleClaimed
  split
  · exact row_settleRow_ne h
  · rfl

end Yard

/-- Settles O16: a fence is written and judged by each row, a row newly barred giving up its claim or hold and its entry. -/
theorem fencesTaken : Obligations.FencesTaken := by
  refine ⟨fun p body s between => ?taken, fun before y r inside now notBefore => ?bars, fun y r =>
    ⟨Yard.barred_iff, Yard.heldOpen_iff, Yard.onTable_iff⟩⟩
  case taken =>
    intro i first last
    refine ⟨fun taken index ordered there => ?_, fun taken outside => ?_, fun taken index => ?_, fun taken outside => ?_⟩
    · exact exec_onYard (k := .setFence) taken rfl
        (if_neg (not_or.2 ⟨Nat.not_lt.2 index, not_or.2 ⟨Nat.not_lt.2 ordered, Nat.not_le.2 there⟩⟩))
    · exact exec_onYard_same (k := .setFence) taken rfl between (if_pos outside)
    · exact exec_onYard_quiet (k := .clearFence) taken rfl (if_neg (Nat.not_lt.2 index)) between
    · exact exec_onYard_same (k := .clearFence) taken rfl between (if_pos outside)
  case bars =>
    rw [Yard.barByFence_of_barred now notBefore]
    refine ⟨fun claimed => ?_, fun flat held => ?_, Yard.entryOf_removeEntry_same _ _, fun q other => ?_⟩
    · rw [Yard.row_removeEntry, Yard.settleClaimed_of_claimed claimed, Yard.row_settleRow inside]
    · rw [Yard.row_removeEntry, Yard.settleClaimed_of_unclaimed flat held]
    · rw [Yard.row_removeEntry, Yard.row_settleClaimed_ne other]

/-! ### Row timers (R10, R13, R15, R21, R26) -/

/-- An event while the part runs, by its effect on the yard. -/
theorem State.event_effect {s : State} {f : Yard → Yard} {z : Yard} (running : s.running = true) (effect : f s.yard = z) :
    s.event f = s.afterEvent z := (State.event_running running f).trans (congrArg s.afterEvent effect)

/-- Settles O17: each timer's rule, where its row is in the custody that the timer belongs to. -/
theorem rowTimerExpiries : Obligations.RowTimerExpiries := by
  intro r s running between settled
  refine ⟨fun runs custody => ?_, fun runs held => ?_, fun runs custody => ?_, fun runs custody => ?_, ?_⟩
  · exact congrArg Host.Outcome.next (State.event_effect running (if_pos ⟨custody, runs⟩))
  · exact congrArg Host.Outcome.next (State.event_effect running (if_pos ⟨held, runs⟩))
  · exact congrArg Host.Outcome.next (State.event_effect running (if_pos ⟨custody, runs⟩))
  · exact congrArg Host.Outcome.next (State.event_effect running (if_pos ⟨custody, runs⟩))
  · exact congrArg Host.Outcome.next ((State.event_running running _).trans (State.afterEvent_same between))

/-! ### Occupancy follows the robot's place (R29) -/

namespace Yard

variable {y : Yard} {k : Nat}

theorem dock_setDock_ne (y : Yard) {d i : Nat} (h : i ≠ d) (f : Dock → Dock) : (y.setDock d f).dock i = y.dock i := by
  simp [dock, List.getD_eq_getElem?_getD, Ne.symm h]

/-! #### What a robot leaves -/

theorem garage_vacate {r : Nat} (h : (y.robot k).place = .garage r) : ((y.vacate k).row r).garageOccupant = none := by
  simp only [vacate, h]
  by_cases there : r < y.rows.length
  · rw [row_setRow_same y there]
  · simp [row, List.getD_eq_getElem?_getD, there, freshRow]

theorem dock_vacate {d : Nat} (h : (y.robot k).place = .dock d) : ((y.vacate k).dock d).occupant = none := by
  simp only [vacate, h]
  by_cases there : d < y.docks.length
  · rw [dock_setDock_same y there]
  · simp [dock, List.getD_eq_getElem?_getD, there, freshDock]

theorem load_vacate {c : Nat} (h : (y.robot k).place = .aboard c) : ((y.vacate k).carriage c).load = none := by
  simp only [vacate, h]
  by_cases there : c < y.carriages.length
  · rw [carriage_setCarriage_same y there]
  · simp [carriage, List.getD_eq_getElem?_getD, there, freshCarriage]

theorem row_vacate_ne {r : Nat} (h : (y.robot k).place ≠ .garage r) : (y.vacate k).row r = y.row r := by
  unfold vacate
  split
  case h_2 q place => exact row_setRow_ne y (by rintro rfl; exact h place) _
  all_goals rfl

theorem dock_vacate_ne {d : Nat} (h : (y.robot k).place ≠ .dock d) : (y.vacate k).dock d = y.dock d := by
  unfold vacate
  split
  case h_1 q place => exact dock_setDock_ne y (by rintro rfl; exact h place) _
  all_goals rfl

theorem carriage_vacate_ne {c : Nat} (h : (y.robot k).place ≠ .aboard c) : (y.vacate k).carriage c = y.carriage c := by
  unfold vacate
  split
  case h_3 q place => exact carriage_setCarriage_ne y (by rintro rfl; exact h place) _
  all_goals rfl

theorem vacate_lengths (y : Yard) (k : Nat) : (y.vacate k).rows.length = y.rows.length ∧
    (y.vacate k).docks.length = y.docks.length ∧ (y.vacate k).carriages.length = y.carriages.length := by
  unfold vacate
  split <;> simp [setDock, setRow, setCarriage]

/-! #### What it takes -/

theorem row_occupy_ne {pl : Place} {r : Nat} (h : pl ≠ .garage r) : (y.occupy k pl).row r = y.row r := by
  unfold occupy
  split
  case h_2 q => exact row_setRow_ne y (by rintro rfl; exact h rfl) _
  all_goals rfl

theorem dock_occupy_ne {pl : Place} {d : Nat} (h : pl ≠ .dock d) : (y.occupy k pl).dock d = y.dock d := by
  unfold occupy
  split
  case h_1 q => exact dock_setDock_ne y (by rintro rfl; exact h rfl) _
  all_goals rfl

theorem carriage_occupy_ne {pl : Place} {c : Nat} (h : pl ≠ .aboard c) : (y.occupy k pl).carriage c = y.carriage c := by
  unfold occupy
  split
  case h_3 q => exact carriage_setCarriage_ne y (by rintro rfl; exact h rfl) _
  all_goals rfl

/-! #### The move -/

theorem robot_moveRobot (h : k < y.robots.length) (pl : Place) :
    (y.moveRobot k pl).robot k = { y.robot k with place := pl } := by
  have same : ((y.vacate k).occupy k pl).robots = y.robots := by rw [Keeps.occupy_robots, Keeps.vacate_robots]
  rw [moveRobot, robot_setRobot_same _ (by rw [same]; exact h)]
  exact congrArg (fun l : List Robot => { l.getD k (freshRobot false 0 none) with place := pl }) same

theorem robot_moveRobot_ne {j : Nat} (h : j ≠ k) (pl : Place) : (y.moveRobot k pl).robot j = y.robot j := by
  rw [moveRobot, robot_setRobot_ne _ h]
  exact congrArg (List.getD · j (freshRobot false 0 none)) (by rw [Keeps.occupy_robots, Keeps.vacate_robots])

theorem row_moveRobot_ne {pl : Place} {r : Nat} (old : (y.robot k).place ≠ .garage r) (new : pl ≠ .garage r) :
    (y.moveRobot k pl).row r = y.row r := (row_occupy_ne new).trans (row_vacate_ne old)

/-- A robot that goes to a garage is its occupant, and nothing else of the row changes. -/
theorem row_moveRobot_garage {r : Nat} (h : r < y.rows.length) :
    (y.moveRobot k (.garage r)).row r = { y.row r with garageOccupant := some k } := by
  have taken : (y.moveRobot k (.garage r)).row r = { (y.vacate k).row r with garageOccupant := some k } :=
    row_setRow_same (y.vacate k) (by rw [(vacate_lengths y k).1]; exact h) _
  rw [taken]
  by_cases old : (y.robot k).place = .garage r
  · have left : y.vacate k = y.setRow r fun w => { w with garageOccupant := none } := by simp only [vacate, old]
    rw [left, row_setRow_same y h]
  · rw [row_vacate_ne old]

end Yard

theorem Yard.moveRobot_settings (y : Yard) (k : Nat) (pl : Place) : (y.moveRobot k pl).settings = y.settings := by
  cases pl <;> simp only [moveRobot, occupy, vacate] <;> split <;> rfl

theorem Yard.moveRobot_storm (y : Yard) (k : Nat) (pl : Place) : (y.moveRobot k pl).storm = y.storm := by
  cases pl <;> simp only [moveRobot, occupy, vacate] <;> split <;> rfl

/-- Settles O20: the place left loses its occupant, the place taken gets the robot, and every other one stands. -/
theorem occupancyMoves : Obligations.OccupancyMoves := by
  intro y k pl slot old z
  obtain ⟨rows, docks, carriages⟩ := y.vacate_lengths k
  refine ⟨⟨y.robot_moveRobot slot pl, fun j other => y.robot_moveRobot_ne other pl⟩, fun r new there => ?_, fun d new there => ?_,
    fun c new there => ?_, fun r left new => ?_, fun d left new => ?_, fun c left new => ?_,
    fun r left new => Yard.row_moveRobot_ne left new, fun d left new => ?_, fun c left new => ?_⟩
  · subst new
    rw [show z.row r = _ from Yard.row_moveRobot_garage there]
  · subst new
    exact congrArg Dock.occupant (Yard.dock_setDock_same (y.vacate k) (by rwa [docks]) _)
  · subst new
    exact congrArg Carriage.load (Yard.carriage_setCarriage_same (y.vacate k) (by rwa [carriages]) _)
  · exact (congrArg Row.garageOccupant (Yard.row_occupy_ne new)).trans (Yard.garage_vacate left)
  · exact (congrArg Dock.occupant (Yard.dock_occupy_ne new)).trans (Yard.dock_vacate left)
  · exact (congrArg Carriage.load (Yard.carriage_occupy_ne new)).trans (Yard.load_vacate left)
  · exact (Yard.dock_occupy_ne new).trans (Yard.dock_vacate_ne left)
  · exact (Yard.carriage_occupy_ne new).trans (Yard.carriage_vacate_ne left)

/-! ### Listeners in a storm -/

/-- What every act of a free order keeps, the free order keeps. -/
theorem Yard.inFreeOrder_induction {P : Yard → Prop} {act : Nat → Yard → Yard} {items : List Nat}
    (draw : ∀ z n, P z → P { z with freeCount := n }) (acts : ∀ i ∈ items, ∀ z, P z → P (act i z)) {y : Yard} (before : P y) :
    P (y.inFreeOrder items act) := by
  obtain ⟨order, draws, perm, same⟩ := y.inFreeOrder_spec items act
  rw [same]
  exact List.foldlRecOn (motive := P) order _ (draw _ _ before) fun z kept i mem => acts i (perm.mem_iff.1 mem) z kept

namespace Yard

/-- The rows, the robots and the round list are those of `o`. -/
def sameTables (o y : Yard) : Prop := y.rows = o.rows ∧ y.robots = o.robots ∧ y.rounds.list = o.rounds.list

/-- The tables are those of `o` at an edge that no listener turns into a change of them: in a storm, or a fall. -/
def edgeKeeps (o : Yard) (e : Edge) (y : Yard) : Prop := (y.mild = false ∨ e = .fall) ∧ o.sameTables y

variable {o y : Yard}

theorem state_of_storm (storm : y.mild = false) : y.storm.state ≠ .calm ∧ y.storm.state ≠ .warned := by
  simp only [mild, Bool.or_eq_false_iff, beq_eq_false_iff_ne] at storm
  exact storm

theorem makeSweep_sameTables (storm : y.mild = false) (h : o.sameTables y) : o.sameTables y.makeSweep.1 := by
  have missed : y.roundsTaken = false := by simp [roundsTaken, (state_of_storm storm).1]
  rw [makeSweep, if_neg (Bool.eq_false_iff.1 missed)]
  exact h

theorem watchFalls_sameTables (h : o.sameTables y) : o.sameTables y.watchFalls := by
  unfold watchFalls
  split <;> exact h

theorem listenerActs_edgeKeeps {e : Edge} {i : Nat} (acts : e.actsOn i = true) (h : o.edgeKeeps e y) :
    o.edgeKeeps e (y.listenerActs (fun _ y => y) (fun y => y) e i) := by
  obtain ⟨safe, same⟩ := h
  unfold listenerActs
  split
  case h_1 =>
    split
    case isTrue fall => exact ⟨.inr fall, watchFalls_sameTables same⟩
    case isFalse other =>
      have rises : y.watchRises = y := if_neg (state_of_storm (safe.resolve_right other)).1
      rw [rises]
      exact ⟨safe, same⟩
  case h_3 =>
    have storm : y.mild = false := safe.resolve_right (by rintro rfl; simp [Edge.actsOn] at acts)
    exact ⟨.inl (Keeps.makeSweep y |>.stormLasts storm), makeSweep_sameTables storm same⟩
  all_goals exact ⟨safe, same⟩

theorem handStorm_edgeKeeps {e : Edge} (ls : List Nat) (h : o.edgeKeeps e y) : o.edgeKeeps e (y.handStorm e ls) := by
  have stretched : o.edgeKeeps e (if e = .pulse then y.stretch ls else y) := by
    split <;> exact h
  have assigned {z : Yard} (kept : o.edgeKeeps e z) : o.edgeKeeps e (if e = .fall ∧ ls.contains 2 then z.giveAssign else z) := by
    split <;> exact kept
  unfold handStorm handWith
  simp only [ite_self]
  refine inFreeOrder_induction (P := o.edgeKeeps e) (fun _ _ kept => kept) (fun i mem z kept => ?_) (assigned stretched)
  have acts : e.actsOn i = true := by
    have := (List.mem_filter.1 mem).2
    simp only [Bool.and_eq_true] at this
    exact this.1
  exact listenerActs_edgeKeeps acts kept

/-- A source that follows in a storm, or that does not rise, leaves the tables as they are. -/
theorem followWith_sameTables {src : Nat} {z : Yard}
    (h : z.mild = false ∨ (z.sourceLevel src = true → y.sourceLevel src = true)) (same : o.sameTables z) :
    o.sameTables (followWith handStorm src y z) := by
  unfold followWith
  split
  case isTrue => exact same
  case isFalse changes =>
    refine (handStorm_edgeKeeps _ ⟨?_, same⟩).2
    obtain storm | noRise := h
    · exact .inl storm
    · exact .inr (if_neg fun high => changes ((noRise high).trans high.symm))

theorem exposedFollows_sameTables {z : Yard} (h : z.mild = false ∨ (z.anyExposed = true → y.anyExposed = true))
    (same : o.sameTables z) : o.sameTables (y.exposedFollows z) := followWith_sameTables h same

theorem sameTables_refl (y : Yard) : y.sameTables y := ⟨rfl, rfl, rfl⟩

end Yard

/-! ### Passes and homecomings (R11, R12, R40, R96, R97) -/

namespace Yard

variable {y : Yard} {k r : Nat}

theorem holdsOpen_iff : y.holdsOpen r k = true ↔
    y.settings.rowPolicy = .hold ∧ 0 < y.settings.holdLimit ∧ y.barred r = false ∧ (y.robot k).fault = false := by
  simp [holdsOpen, and_assoc]

theorem holderArrives_of_holder (holder : (y.row r).holder = some k) : y.holderArrives r k =
    match (y.row r).custody with
    | .open =>
      if y.mild then
        if y.holdsOpen r k then y.setRow r fun w => { w with timer := some y.settings.holdLimit } else y.settleRow r
      else y.stowRow r
    | .exposed => y.exposedFollows (y.stowRow r)
    | _ => y := if_pos holder

theorem holderArrives_of_kept (holder : (y.row r).holder = some k) (custody : (y.row r).custody = .open) (mild : y.mild = true)
    (kept : y.holdsOpen r k = true) :
    y.holderArrives r k = y.setRow r fun w => { w with timer := some y.settings.holdLimit } := by
  rw [holderArrives_of_holder holder, custody]
  exact (if_pos mild).trans (if_pos kept)

theorem holderArrives_of_closed (holder : (y.row r).holder = some k) (custody : (y.row r).custody = .open)
    (mild : y.mild = true) (closed : y.holdsOpen r k = false) : y.holderArrives r k = y.settleRow r := by
  rw [holderArrives_of_holder holder, custody]
  exact (if_pos mild).trans (if_neg (Bool.eq_false_iff.1 closed))

theorem holderArrives_of_storm (holder : (y.row r).holder = some k) (custody : (y.row r).custody = .open)
    (storm : y.mild = false) : y.holderArrives r k = y.stowRow r := by
  rw [holderArrives_of_holder holder, custody]
  exact if_neg (Bool.eq_false_iff.1 storm)

theorem holderArrives_of_exposed (holder : (y.row r).holder = some k) (custody : (y.row r).custody = .exposed) :
    y.holderArrives r k = y.exposedFollows (y.stowRow r) := by
  rw [holderArrives_of_holder holder, custody]

/-- In a storm the row of an arriving holder goes to STOW_PENDING, exposed or not; the rows are else as they were. -/
theorem holderArrives_rows_of_storm (holder : (y.row r).holder = some k)
    (custody : (y.row r).custody = .open ∨ (y.row r).custody = .exposed) (storm : y.mild = false) :
    (y.holderArrives r k).rows = (y.stowRow r).rows := by
  obtain opened | exposed := custody
  · rw [holderArrives_of_storm holder opened storm]
  · rw [holderArrives_of_exposed holder exposed]
    exact (exposedFollows_sameTables (z := y.stowRow r) (.inl storm) (sameTables_refl _)).1

/-- In a storm a holder that arrives at a row of any custody leaves the other rows as they are, and so it does in any state at an OPEN one. -/
theorem row_holderArrives_ne (h : (y.row r).custody = .open ∨ y.mild = false) {q : Nat} (other : q ≠ r) :
    (y.holderArrives r k).row q = y.row q := by
  have stowed : (y.stowRow r).row q = y.row q := row_stowRow_ne other
  by_cases holder : (y.row r).holder = some k
  · rw [holderArrives_of_holder holder]
    split
    case h_1 =>
      split_ifs
      · exact row_setRow_ne y other _
      · exact row_settleRow_ne other
      · exact stowed
    case h_2 exposed =>
      have storm : y.mild = false := h.resolve_left (by simp [exposed])
      exact (congrArg (List.getD · q (freshRow 0)) (exposedFollows_sameTables (z := y.stowRow r) (.inl storm)
        (sameTables_refl _)).1).trans stowed
    case h_3 => rfl
  · rw [holderArrives, if_neg holder]

theorem judgeTablesClear_of_mild (mild : y.mild = true) : y.judgeTablesClear = y := by
  refine if_neg fun ⟨storm, _⟩ => ?_
  simp [Yard.mild, storm] at mild

/-- The yard as a Pass Done leaves it, by the follow-up decision (R96, R97). -/
theorem passDone_eq {finished listed : Yard}
    (ends : finished = (y.setPassTimer k none).countRounds fun n => { n with passesDone := bump n.passesDone })
    (removed : (finished.entryOfRobot k = none ∧ listed = finished) ∨
      ∃ e, finished.entryOfRobot k = some e ∧ listed = finished.removeEntry e.row) (kind : PassKind) (measured : Nat) :
    y.passDone r k kind measured =
      (match kind with | .survey => listed.followUp r measured | .clean => listed).giveAssign := by
  subst ends
  obtain ⟨none, rfl⟩ | ⟨e, some, rfl⟩ := removed
  · cases kind <;> simp only [passDone, none]
  · cases kind <;> simp only [passDone, some]

theorem followUp_of_clean {measured : Nat} (h : ¬(y.settings.dirtyLimit ≤ min measured 1000 ∧ y.storm.state = .calm ∧
    y.barred r = false ∧ y.entryOf r = none)) : y.followUp r measured = y :=
  if_neg (by rwa [Option.isNone_iff_eq_none])

theorem followUp_of_dirty {measured : Nat} (h : y.settings.dirtyLimit ≤ min measured 1000 ∧ y.storm.state = .calm ∧
    y.barred r = false ∧ y.entryOf r = none) :
    y.followUp r measured = (y.insertHead ⟨r, .clean, .followup, none, .waiting⟩).1 :=
  if_pos (by rwa [Option.isNone_iff_eq_none])

end Yard

/-! ### A robot that comes home -/

namespace Yard

variable {y : Yard} {k r : Nat}

/-- The yard where robot `k` has ended its order and stands in the garage of row `r` (R40, steps 1 and 2). -/
def homecomer (y : Yard) (k r : Nat) : Yard :=
  (y.setRobot k fun b => { b with order := none, task := .idle }).moveRobot k (.garage r)

theorem homecomer_settings : (y.homecomer k r).settings = y.settings := moveRobot_settings _ _ _

theorem homecomer_mild : (y.homecomer k r).mild = y.mild :=
  congrArg (fun st : Storm => st.state == .calm || st.state == .warned) (moveRobot_storm _ k (.garage r))

theorem homecomer_rows : (y.homecomer k r).rows.length = y.rows.length := by
  have occupied (z : Yard) : (z.occupy k (.garage r)).rows.length = z.rows.length := by simp [occupy]
  exact (occupied _).trans (vacate_lengths _ k).1

theorem row_homecomer (h : r < y.rows.length) : (y.homecomer k r).row r = { y.row r with garageOccupant := some k } :=
  row_moveRobot_garage h

/-- Under the policy CLOSE a holder that comes home gives its row up to SETTLE. -/
theorem robotHome_settles (inside : r < y.rows.length) (mild : y.mild = true) (close : y.settings.rowPolicy = .close)
    (custody : (y.row r).custody = .open) (holder : (y.row r).holder = some k) :
    y.robotHome k r none = (y.homecomer k r).settleRow r := by
  have closed : (y.homecomer k r).holdsOpen r k = false := by
    simp [holdsOpen, homecomer_settings, close]
  have arrives : (y.homecomer k r).holderArrives r k = (y.homecomer k r).settleRow r := by
    refine holderArrives_of_closed ?_ ?_ (homecomer_mild.trans mild) closed
    all_goals rw [row_homecomer inside]; assumption
  have stillMild : ((y.homecomer k r).settleRow r).mild = true := (homecomer_mild (y := y) (k := k) (r := r)).trans mild
  exact (congrArg judgeTablesClear arrives).trans (judgeTablesClear_of_mild stillMild)

end Yard

/-- Settles O19: the result of a pass, the homecoming of a robot without and with one, and the arrival of a holder. -/
theorem passesAndHomecomings : Obligations.PassesAndHomecomings := by
  refine ⟨fun y k r measured inside => ⟨y.row_setRow_same inside _, y.row_setRow_same inside _, ?others, ?home⟩,
    fun y k r measured => ?done,
    fun y k r inside holder => ?arrives⟩
  case others =>
    intro kind q other
    cases kind <;> exact y.row_setRow_ne other _
  case home =>
    intro slot mild close custody holder z
    have robot : (y.homecomer k r).robot k = { y.robot k with order := none, task := .idle, place := .garage r } := by
      rw [Yard.homecomer, Yard.robot_moveRobot (by simpa using slot), Yard.robot_setRobot_same y slot]
    have settles : z = (y.homecomer k r).settleRow r := Yard.robotHome_settles inside mild close custody holder
    have settled : z.row r = { y.row r with
        garageOccupant := some k, custody := .settle, holder := none, timer := some y.settings.settleTime } := by
      rw [settles, Yard.row_settleRow (by rwa [Yard.homecomer_rows]), Yard.row_homecomer inside, Yard.homecomer_settings]
    have same : z.robot k = (y.homecomer k r).robot k := by
      rw [settles]
      rfl
    rw [settled, same, robot]
    exact ⟨⟨rfl, rfl, rfl⟩, rfl, rfl, rfl, rfl, rfl, rfl⟩
  case done =>
    refine ⟨rfl, fun kind listed removed => ?_⟩
    intro dirty
    have done : y.robotHome k r (some (kind, measured)) = _ :=
      congrArg Yard.judgeTablesClear (Yard.passDone_eq rfl removed kind measured)
    rw [done]
    refine ⟨fun clean => ?_, fun survey isDirty => ?_⟩
    · cases kind
      case clean => rfl
      case survey =>
        rw [Yard.followUp_of_clean (clean.resolve_left PassKind.noConfusion)]
    · subst survey
      rw [Yard.followUp_of_dirty isDirty]
  case arrives =>
    intro w z kept
    refine ⟨fun opened mild holds => ?_, fun opened mild closed => ?_, fun custody storm => ?_,
      fun custody q other => Yard.row_holderArrives_ne custody other⟩
    · rw [show z = _ from Yard.holderArrives_of_kept holder opened mild (Yard.holdsOpen_iff.2 holds), Yard.row_setRow_same y inside]
    · rw [show z = _ from Yard.holderArrives_of_closed holder opened mild (Bool.eq_false_iff.2 (closed ∘ Yard.holdsOpen_iff.1)),
        Yard.row_settleRow inside]
    · exact (congrArg (List.getD · r (freshRow 0)) (Yard.holderArrives_rows_of_storm holder custody storm)).trans
        (Yard.row_stowRow inside)

end Sys2Proof.Machine

/-! SUPPORT. The Round Scheduler: candidates of builds and sweeps (R81, R85, R87), its requests and its timer (R83, R86 to
R89), and the head of the list (R80, R81). -/

namespace Sys2Proof.Machine

/-! ### Candidates (R81, R85, R87) -/

namespace Yard

variable {y : Yard} {g r limit : Nat} {survey : Bool}

theorem listable_iff : y.listable r = true ↔
    ((y.row r).custody = .track ∨ (y.row r).custody = .settle) ∧ y.barred r = false ∧ y.entryOf r = none := by
  simp [listable, and_assoc]

theorem due_iff : y.due limit r = true ↔ (y.row r).soiling = none ∨ ∃ v, (y.row r).soiling = some v ∧
    (limit ≤ v ∨ y.settings.cleanInterval * 60 ≤ (y.row r).age) := by
  cases h : (y.row r).soiling <;> simp [due, h]

theorem mem_buildCandidates : r ∈ y.buildCandidates g survey ↔ r < y.rows.length ∧ r % y.settings.groups = g ∧
    y.listable r = true ∧ (survey = true ∨ y.due y.settings.dirtyLimit r = true) := by
  simp [buildCandidates, rowList, and_assoc]

theorem mem_sweepCandidates : r ∈ y.sweepCandidates ↔
    r < y.rows.length ∧ y.listable r = true ∧ y.due y.settings.sweepLimit r = true := by
  simp [sweepCandidates, rowList]

theorem buildKind_of_some {v : Nat} (h : (y.row r).soiling = some v) :
    y.buildKind survey r = if survey = true ∧ v < y.settings.dirtyLimit then .survey else .clean := by
  simp [buildKind, h]

theorem build_of_taken (h : y.roundsTaken = true) : y.build g =
    let survey := (y.surveyDecision g).1
    let counted := { y with rounds := { y.rounds with buildCounts := y.rounds.buildCounts.set g (y.surveyDecision g).2 } }
    let done := (counted.countRounds fun n => { n with buildsTaken := bump n.buildsTaken }).appendCandidates .build
      (y.buildKind survey) (y.buildCandidates g survey)
    (done.1, some done.2) :=
  if_pos h

theorem makeSweep_of_taken (h : y.roundsTaken = true) : y.makeSweep =
    ((y.appendCandidates .sweep y.sweepKind y.sweepCandidates).1,
      some (y.appendCandidates .sweep y.sweepKind y.sweepCandidates).2) :=
  if_pos h

theorem build_of_missed (h : y.roundsTaken = false) : y.build g = (y.missRound, none) := if_neg (Bool.eq_false_iff.1 h)

theorem makeSweep_of_missed (h : y.roundsTaken = false) : y.makeSweep = (y.missRound, none) :=
  if_neg (Bool.eq_false_iff.1 h)

theorem roundsTaken_of_ready (calm : y.storm.state = .calm) (ready : y.startUp = .ready) : y.roundsTaken = true := by
  simp [roundsTaken, calm, ready]

theorem roundsTaken_of_storm (storm : y.storm.state ≠ .calm) : y.roundsTaken = false := by
  simp [roundsTaken, storm]

/-- The list after a taken build: the counting changes neither the rank nor the room. -/
theorem build_list (h : y.roundsTaken = true) : (y.build g).1.rounds.list = y.rounds.list ++
    ((y.ranked (y.buildCandidates g (y.surveyDecision g).1)).take (16 - y.rounds.list.length)).map
      fun q => ⟨q, y.buildKind (y.surveyDecision g).1 q, .build, none, .waiting⟩ := by
  rw [build_of_taken h]
  refine (appendCandidates_list _ _ _ _).trans ?_
  exact congrArg (fun l : List Nat => y.rounds.list ++ (l.take (16 - y.rounds.list.length)).map fun q =>
    (⟨q, y.buildKind (y.surveyDecision g).1 q, .build, none, .waiting⟩ : Entry)) (ranked_rows (by rfl) _)

end Yard

/-- Settles O36: candidates, kinds, and the entries that a build or a sweep appends. -/
theorem buildCandidates : Obligations.BuildCandidates := by
  intro y g r survey free old
  refine ⟨?build, ?sweep, fun unknown => ?unknown, fun v known => ⟨Yard.buildKind_of_some known, ?clean⟩, fun taken => ?lists⟩
  case build => rw [Yard.mem_buildCandidates, Yard.listable_iff, Yard.due_iff]
  case sweep => rw [Yard.mem_sweepCandidates, Yard.listable_iff, Yard.due_iff]
  case unknown => simp [Yard.buildKind, Yard.sweepKind, unknown]
  case clean => simp [Yard.sweepKind, known]
  case lists =>
    refine ⟨fun decision => ?_, ?_⟩
    · subst decision
      exact Yard.build_list taken
    · rw [Yard.makeSweep_of_taken taken]
      exact Yard.appendCandidates_list _ _ _ _

/-! ### The head of the list (R80, R81) -/

namespace Yard

variable {y : Yard} {own : Entry}

theorem insertHead_of_room (room : y.rounds.list.length < 16) : y.insertHead own = (y.putHead own, true) := if_pos room

theorem insertHead_of_full (full : 16 ≤ y.rounds.list.length) {front back : List Entry} {x : Entry}
    (list : y.rounds.list = front ++ x :: back) (waiting : x.stage = .waiting) (last : ∀ e ∈ back, e.stage ≠ .waiting) :
    y.insertHead own =
      (((y.removeEntry x.row).countRounds fun n => { n with rowsSkipped := bump n.rowsSkipped }).putHead own, true) := by
  rw [insertHead, if_neg (Nat.not_lt.2 full), find?_reverse list (by simp [waiting]) (by simpa using last)]

theorem insertHead_of_busy (full : 16 ≤ y.rounds.list.length) (busy : ∀ e ∈ y.rounds.list, e.stage ≠ .waiting) :
    y.insertHead own = (y.countRounds fun n => { n with insertsDropped := bump n.insertsDropped }, false) := by
  rw [insertHead, if_neg (Nat.not_lt.2 full), List.find?_eq_none.2 (by simpa using busy)]

/-- Removal clears the link of the entry's robot, and nothing else of it. -/
theorem robot_removeEntry {r k : Nat} {e : Entry} (entry : y.entryOf r = some e) (robot : e.robot = some k)
    (slot : k < y.robots.length) : (y.removeEntry r).robot k = { y.robot k with roundLink := none } := by
  simp only [removeEntry, entry, robot, unlink]
  exact robot_setRobot_same { y with rounds := { y.rounds with list := y.rounds.list.filter fun x => x.row != r } } slot _

end Yard

/-! ### Requests and the timer (R83, R86 to R89) -/

namespace Yard

variable {y : Yard} {body : List Byte} {kind : PassKind}

/-- Plant Pass on a row that exists, by the storm state, the row's barring and its entry (R88). -/
theorem takePlantPass_of_row (kindIs : passKindOf (byteAt body 1) = some kind) (row : byteAt body 0 < y.rows.length) :
    y.takePlantPass body =
      if y.storm.state = .parked then (y, .plain .ignored)
      else if y.storm.state ≠ .calm then (y, .refuse .state)
      else if y.barred (byteAt body 0) then (y, .refuse .barred)
      else match y.entryOf (byteAt body 0) with
        | some e => if e.stage ≠ .waiting then (y, .refuse .state) else ((y.promoteEntry e kind).giveAssign, .ok [])
        | none =>
          let put := y.insertHead ⟨byteAt body 0, kind, .plant, none, .waiting⟩
          (put.1, if put.2 then .ok [] else .plain .full) := by
  simp only [takePlantPass, kindIs]
  exact if_neg (Nat.not_le.2 row)

theorem takePlantPass_of_range (h : passKindOf (byteAt body 1) = none ∨ y.rows.length ≤ byteAt body 0) :
    y.takePlantPass body = (y, .refuse .range) := by
  unfold takePlantPass
  dsimp only
  split
  case h_1 => rfl
  case h_2 kind known =>
    obtain none | outside := h
    · simp [none] at known
    · exact if_pos outside

theorem takePlantPass_of_calm (kindIs : passKindOf (byteAt body 1) = some kind) (row : byteAt body 0 < y.rows.length)
    (calm : y.storm.state = .calm) (free : y.barred (byteAt body 0) = false) :
    y.takePlantPass body = match y.entryOf (byteAt body 0) with
      | some e => if e.stage ≠ .waiting then (y, .refuse .state) else ((y.promoteEntry e kind).giveAssign, .ok [])
      | none =>
        let put := y.insertHead ⟨byteAt body 0, kind, .plant, none, .waiting⟩
        (put.1, if put.2 then .ok [] else .plain .full) :=
  (takePlantPass_of_row kindIs row).trans ((if_neg (by simp [calm])).trans
    ((if_neg (not_not_intro calm)).trans (if_neg (Bool.eq_false_iff.1 free))))

theorem takeCancelEntry_of_row {e : Entry} (row : byteAt body 0 < y.rows.length) (entry : y.entryOf (byteAt body 0) = some e) :
    y.takeCancelEntry body = if e.stage ≠ .waiting then (y, .refuse .state) else (y.removeEntry (byteAt body 0), .ok []) := by
  simp only [takeCancelEntry, entry]
  exact if_neg (Nat.not_le.2 row)

theorem takeCancelEntry_of_range (h : y.rows.length ≤ byteAt body 0 ∨ y.entryOf (byteAt body 0) = none) :
    y.takeCancelEntry body = (y, .refuse .range) := by
  unfold takeCancelEntry
  by_cases outside : y.rows.length ≤ byteAt body 0
  · exact if_pos outside
  · simp only [h.resolve_left outside, ite_self]

end Yard

/-- Settles O37: each request by the checks of its rule, the timer's three steps, and the head of the list. -/
theorem roundEvents : Obligations.RoundEvents := by
  refine ⟨fun p body s between => ?requests, fun y g => ?timer, fun y own r => ?list⟩
  case timer =>
    refine ⟨fun added skipped source taken => ?_, fun source missed => ?_, fun source => ?_⟩
    · simp only [Yard.timerBuild, source, taken, Yard.roundDueDetail]
    · simp only [Yard.timerBuild, source, missed, Yard.roundDueDetail]
    · simp only [Yard.timerBuild, source]
  case list =>
    intro skip head
    refine ⟨Yard.insertHead_of_room, fun full => ⟨fun front x back list waiting last =>
      Yard.insertHead_of_full full list waiting last, Yard.insertHead_of_busy full⟩, ?_, fun e k => Yard.robot_removeEntry⟩
    rw [Yard.removeEntry_list]
    exact List.filter_congr fun x _ => by simp [bne, BEq.beq]
  case requests =>
    intro a missed
    refine ⟨fun taken group calm ready => ?build, fun taken group storm => ?buildMissed, fun taken outside => ?buildRange,
      fun taken calm ready => ?sweep, fun taken storm => ?sweepMissed,
      fun kind taken kindIs row calm free new room => ?pass, fun kind taken kindIs row calm free new full => ?passFull,
      fun kind e taken kindIs row calm free entry => ?promote, fun taken outside => ?passRange,
      fun kind taken kindIs row => ?passStorm, fun taken outside => ?cancelRange, fun e taken row entry => ?cancel,
      fun running runs => ?expires⟩
    case build =>
      have rounds := Yard.roundsTaken_of_ready calm ready
      refine ⟨_, _, congrArg Prod.snd (Yard.build_of_taken rounds), exec_onYard (k := .roundBuild) taken rfl ?_⟩
      refine (if_neg (Nat.not_le.2 group)).trans ?_
      rw [show byteAt body 0 = a from rfl, Yard.build_of_taken rounds]
      rfl
    case buildMissed =>
      refine exec_onYard_quiet (k := .roundBuild) taken rfl ((if_neg (Nat.not_le.2 group)).trans ?_) between
      rw [Yard.build_of_missed (Yard.roundsTaken_of_storm storm)]
      rfl
    case buildRange => exact exec_onYard_same (k := .roundBuild) taken rfl between (if_pos outside)
    case sweep =>
      have rounds := Yard.roundsTaken_of_ready calm ready
      refine ⟨_, _, congrArg Prod.snd (Yard.makeSweep_of_taken rounds), exec_onYard (k := .sweep) taken rfl ?_⟩
      rw [Yard.takeSweep, Yard.makeSweep_of_taken rounds]
      rfl
    case sweepMissed =>
      refine exec_onYard_quiet (k := .sweep) taken rfl ?_ between
      rw [Yard.takeSweep, Yard.makeSweep_of_missed (Yard.roundsTaken_of_storm storm)]
      rfl
    case pass =>
      intro listed
      refine exec_onYard (k := .plantPass) taken rfl ((Yard.takePlantPass_of_calm kindIs row calm free).trans ?_)
      rw [show s.yard.entryOf (byteAt body 0) = none from new]
      dsimp only
      rw [Yard.insertHead_of_room room]
      rfl
    case passFull =>
      intro own
      refine ⟨fun front x back list waiting last => ?_, fun busy => ?_⟩
      · intro roomy listed
        refine exec_onYard (k := .plantPass) taken rfl ((Yard.takePlantPass_of_calm kindIs row calm free).trans ?_)
        rw [show s.yard.entryOf (byteAt body 0) = none from new]
        dsimp only
        rw [Yard.insertHead_of_full full list waiting last]
        rfl
      · refine exec_onYard_quiet (k := .plantPass) taken rfl ((Yard.takePlantPass_of_calm kindIs row calm free).trans ?_) between
        rw [show s.yard.entryOf (byteAt body 0) = none from new]
        dsimp only
        rw [Yard.insertHead_of_busy full busy]
        rfl
    case promote =>
      have judged := Yard.takePlantPass_of_calm kindIs row calm free
      rw [show s.yard.entryOf (byteAt body 0) = some e from entry] at judged
      exact ⟨fun waiting => exec_onYard (k := .plantPass) taken rfl (judged.trans (if_neg (not_not_intro waiting))),
        fun busy => exec_onYard_same (k := .plantPass) taken rfl between (judged.trans (if_pos busy))⟩
    case passRange => exact exec_onYard_same (k := .plantPass) taken rfl between (Yard.takePlantPass_of_range outside)
    case passStorm =>
      have judged := Yard.takePlantPass_of_row kindIs row
      refine ⟨fun parked => ?_, fun storm => ?_, fun calm barred => ?_⟩
      · exact exec_onYard_same (k := .plantPass) taken rfl between (judged.trans (if_pos parked))
      · have notParked : s.yard.storm.state ≠ .parked := by obtain h | h | h := storm <;> simp [h]
        have notCalm : s.yard.storm.state ≠ .calm := by obtain h | h | h := storm <;> simp [h]
        exact exec_onYard_same (k := .plantPass) taken rfl between
          (judged.trans ((if_neg notParked).trans (if_pos notCalm)))
      · refine exec_onYard_same (k := .plantPass) taken rfl between (judged.trans ?_)
        rw [calm]
        exact if_pos barred
    case cancelRange => exact exec_onYard_same (k := .cancelEntry) taken rfl between (Yard.takeCancelEntry_of_range outside)
    case cancel =>
      have judged := Yard.takeCancelEntry_of_row row entry
      exact ⟨fun waiting => exec_onYard (k := .cancelEntry) taken rfl (judged.trans (if_neg (not_not_intro waiting))),
        fun busy => exec_onYard_same (k := .cancelEntry) taken rfl between (judged.trans (if_pos busy))⟩
    case expires =>
      intro g due told
      exact congrArg Host.Outcome.next (State.event_effect running (if_pos runs))

end Sys2Proof.Machine

/-! SUPPORT. The claim of a row (R8), the end of an event and the walk of the list (R90), availability (R31), the judging of an
entry (R79, R91 to R93) and recharge sends (R100). -/

namespace Sys2Proof.Machine

/-! ### Availability and need of charge (R31, R100) -/

theorem Robot.available_iff (b : Robot) : b.available = true ↔
    (b.enrolled = true ∧ b.silent = false ∧ b.fault = false) ∧ (b.order = none ∧ b.task = .idle ∧ b.roundLink = none) ∧
      (((∃ r, b.place = .garage r) ∧ b.chargeOverMin = true) ∨ ((∃ d, b.place = .dock d) ∧ b.chargeOverReady = true)) := by
  cases h : b.place <;> simp [Robot.available, h, and_assoc]

namespace Yard

variable {y : Yard} {k r : Nat}

theorem needsCharge_iff : y.needsCharge k = true ↔
    ((y.robot k).enrolled = true ∧ (y.robot k).silent = false ∧ (y.robot k).fault = false) ∧
      ((y.robot k).order = none ∧ (y.robot k).task = .idle ∧ (y.robot k).roundLink = none) ∧
      (∃ q, (y.robot k).place = .garage q) ∧ (y.robot k).chargeOverMin = false := by
  cases h : (y.robot k).place <;> simp [needsCharge, h, and_assoc]

/-- A change of a robot's record gives an assignment event where it makes the robot available (R31). -/
theorem setRobot_assign_iff (slot : k < y.robots.length) (f : Robot → Robot) : (y.setRobot k f).assign = true ↔
    y.assign = true ∨ (y.available k = false ∧ (y.setRobot k f).available k = true) := by
  rw [setRobot_assign, makesAvailable_eq y slot, available, available, robot_setRobot_same y slot]
  simp

/-! ### Claims (R8) -/

theorem heldOpenBy_iff : y.heldOpenBy r k = true ↔ y.heldOpen r = true ∧ (y.row r).holder = some k := by
  simp [heldOpenBy]

theorem custody_of_heldOpenBy (h : y.heldOpenBy r k = true) : (y.row r).custody = .open :=
  custody_of_heldOpen (heldOpenBy_iff.1 h).1

theorem ite_some_eq_none_iff {c : Prop} [Decidable c] {a : Reply} {b : Option Reply} :
    (if c then some a else b) = none ↔ ¬c ∧ b = none := by
  by_cases h : c <;> simp [h]

theorem claimRefusal_eq_none_iff : y.claimRefusal r k = none ↔ y.storm.state = .calm ∧ y.barred r = false ∧
    ((y.row r).custody = .track ∨ y.heldOpenBy r k = true) ∧ (y.row r).garageOccupant = some k := by
  have held : y.heldOpenBy r k = true → (y.row r).custody = .open := custody_of_heldOpenBy
  simp only [claimRefusal, ite_some_eq_none_iff]
  cases custody : (y.row r).custody <;> cases state : y.storm.state <;> simp_all

/-- A claim is answered IGNORED or is refused for a reason; no answer of it carries data. -/
theorem claimRefusal_some {why : Reply} (h : y.claimRefusal r k = some why) :
    why = .plain .ignored ∨ ∃ reason, why = .refuse reason := by
  unfold claimRefusal at h
  dsimp only at h
  split_ifs at h <;> cases h
  · exact .inl rfl
  all_goals exact .inr ⟨_, rfl⟩

theorem takeClaim_of_track (h : (y.row r).custody = .track) : y.takeClaim r k = y.setRow r fun w =>
    { w with custody := .flattening, holder := some k, timer := some y.settings.flattenLimit } := if_pos h

theorem takeClaim_of_held (h : y.heldOpenBy r k = true) :
    y.takeClaim r k = y.setRow r fun w => { w with timer := none } :=
  if_neg (by simp [custody_of_heldOpenBy h])

/-! ### A CLAIMING entry (R93) -/

theorem claimEntry_of_unassigned {e : Entry} {why : Reply} (refused : y.claimRefusal e.row k = some why)
    (h : why = .refuse .place ∨ why = .refuse .barred) : y.claimEntry e k = y.unassign e.row := by
  obtain rfl | rfl := h <;> simp only [claimEntry, refused, Reply.refuse]

theorem claimEntry_of_kept {e : Entry} {why : Reply} (refused : y.claimRefusal e.row k = some why)
    (place : why ≠ .refuse .place) (barred : why ≠ .refuse .barred) : y.claimEntry e k = y := by
  simp only [claimEntry, refused]
  obtain rfl | ⟨reason, rfl⟩ := claimRefusal_some refused
  · rfl
  · cases reason
    case place => exact absurd rfl place
    case barred => exact absurd rfl barred
    all_goals rfl

theorem claimEntry_of_track {e : Entry} (taken : y.claimRefusal e.row k = none) (track : (y.row e.row).custody = .track) :
    y.claimEntry e k = (y.takeClaim e.row k).setEntry e.row fun x => { x with stage := .flattening } := by
  simp only [claimEntry, taken]
  exact if_pos track

theorem claimEntry_of_held {e : Entry} (taken : y.claimRefusal e.row k = none) (held : y.heldOpenBy e.row k = true) :
    y.claimEntry e k =
      ((y.takeClaim e.row k).givePass k e.row e.kind).setEntry e.row fun x => { x with stage := .passing } := by
  simp only [claimEntry, taken]
  exact if_neg (by simp [custody_of_heldOpenBy held])

/-- A CLAIMING entry is given up: its robot is not in the row's garage, or failed or silent, or another robot holds the row. -/
def claimFails (y : Yard) (r k : Nat) : Prop :=
  (y.robot k).place ≠ .garage r ∨ (y.robot k).fault = true ∨ (y.robot k).silent = true ∨
    ∃ j, (y.row r).holder = some j ∧ j ≠ k

theorem claimFails_iff : y.claimFails r k ↔ (y.robot k).place ≠ .garage r ∨ (y.robot k).fault = true ∨
    (y.robot k).silent = true ∨ ((y.row r).holder.isSome = true ∧ (y.row r).holder ≠ some k) := by
  unfold claimFails
  cases h : (y.row r).holder <;> simp

theorem judgeClaiming_of_fails {e : Entry} (h : y.claimFails e.row k) : y.judgeClaiming e k = y.unassign e.row :=
  if_pos (claimFails_iff.1 h)

theorem judgeClaiming_of_passes {e : Entry} (h : ¬y.claimFails e.row k) : y.judgeClaiming e k =
    if (y.row e.row).custody = .track ∨ y.heldOpenBy e.row k = true then y.claimEntry e k else y :=
  if_neg (h ∘ claimFails_iff.2)

/-! ### Assignment (R79, R91, R92) -/

theorem entryOf_setEntry {x : Entry} {f : Entry → Entry} (entry : y.entryOf r = some x) (row : ∀ e, (f e).row = e.row) :
    (y.setEntry r f).entryOf r = some (f x) := by
  have found : x.row = r := by simpa using List.find?_some entry
  have same : ((fun e : Entry => e.row == r) ∘ fun e : Entry => if e.row = r then f e else e) = fun e => e.row == r := by
    funext e
    simp only [Function.comp]
    split
    · rw [row]
    · rfl
  change (y.rounds.list.map fun e => if e.row = r then f e else e).find? (fun e => e.row == r) = some (f x)
  unfold entryOf at entry
  rw [List.find?_map, same, entry]
  simp [found]

theorem assignEntry_of_entry {x : Entry} (entry : y.entryOf r = some x) (stage : Stage) : y.assignEntry r k stage =
    (y.setEntry r fun e => { e with robot := some k, stage := stage }).setRobot k fun b => { b with roundLink := some r } :=
  if_pos (by simp [entry])

theorem takeable_iff : y.takeable r = true ↔
    ((y.row r).custody = .track ∨ (y.row r).custody = .settle ∨
      (y.heldOpen r = true ∧ ∃ j, (y.row r).holder = some j ∧ y.available j = true)) ∧
    (y.row r).garageReserved = none ∧ ∀ j, (y.row r).garageOccupant = some j → y.available j = true := by
  cases holder : (y.row r).holder <;> cases occupant : (y.row r).garageOccupant <;>
    simp [takeable, holder, occupant, or_assoc, and_assoc]

theorem chooseRobot_of_occupant (h : (y.row r).garageOccupant = some k) : y.chooseRobot r = some k := by
  simp only [chooseRobot, h]

theorem robotDistance_some {p d : Nat} : y.robotDistance p k = some d ↔
    y.available k = true ∧ ∃ q, y.placePosition (y.robot k).place = some q ∧ railDistance p q = d := by
  unfold robotDistance
  split
  case isTrue h => simp [h]
  case isFalse h => simp [h]

theorem chooseRobot_of_empty (h : (y.row r).garageOccupant = none) : y.chooseRobot r = some k ↔
    k < y.robots.length ∧ y.available k = true ∧ ∃ p, y.placePosition (y.robot k).place = some p ∧
      ∀ j q, j < y.robots.length → y.available j = true → y.placePosition (y.robot j).place = some q →
        railDistance r p < railDistance r q ∨ (railDistance r p = railDistance r q ∧ k ≤ j) := by
  simp only [chooseRobot, h, robotList]
  rw [nearest_range_some]
  refine and_congr Iff.rfl ⟨fun ⟨d, far, least⟩ => ?_, fun ⟨available, p, at', least⟩ => ?_⟩
  · obtain ⟨available, p, at', rfl⟩ := robotDistance_some.1 far
    exact ⟨available, p, at', fun j q slot free place => least j _ slot (robotDistance_some.2 ⟨free, q, place, rfl⟩)⟩
  · refine ⟨railDistance r p, robotDistance_some.2 ⟨available, p, at', rfl⟩, fun j d slot far => ?_⟩
    obtain ⟨free, q, place, rfl⟩ := robotDistance_some.1 far
    exact least j q slot free place

/-! ### A WAITING entry (R91, R92) -/

section Waiting

variable {pass : Yard → Yard} {full : Bool} {e : Entry}

theorem judgeWaiting_of_unchosen (h : y.takeable e.row = false ∨ y.chooseRobot e.row = none) :
    y.judgeWaiting pass full e = (y, full) := by
  unfold judgeWaiting
  by_cases takeable : y.takeable e.row = true
  · rw [if_pos takeable, h.resolve_left (by simp [takeable])]
  · exact if_neg takeable

/-- A takeable entry with a chosen robot, by where the robot stands and what its request is answered. -/
theorem judgeWaiting_of_chosen (takeable : y.takeable e.row = true) (chosen : y.chooseRobot e.row = some k) :
    y.judgeWaiting pass full e =
      if (y.robot k).place = .garage e.row then ((y.assignEntry e.row k .claiming).judgeClaiming e k, full)
      else if full || y.rail.holdoff then (y, full)
      else
        let asked := y.requestTransfer pass .round .round k (.garage e.row) (some e.row)
        match asked.2.status with
        | .accepted => (asked.1.assignEntry e.row k .moving, full)
        | .full => (asked.1, true)
        | _ => (asked.1, full) := by
  refine (if_pos takeable).trans ?_
  rw [chosen] <;> rfl

/-- The entry as its request's answer leaves it (R92). -/
theorem judgeWaiting_of_asked (takeable : y.takeable e.row = true) (chosen : y.chooseRobot e.row = some k)
    (away : (y.robot k).place ≠ .garage e.row) (low : y.rail.holdoff = false) :
    y.judgeWaiting pass false e =
      let asked := y.requestTransfer pass .round .round k (.garage e.row) (some e.row)
      match asked.2.status with
      | .accepted => (asked.1.assignEntry e.row k .moving, false)
      | .full => (asked.1, true)
      | _ => (asked.1, false) :=
  (judgeWaiting_of_chosen takeable chosen).trans ((if_neg away).trans (if_neg (by simp [low])))

end Waiting

/-! ### Recharge sends (R100) -/

section Recharge

variable {pass : Yard → Yard} {rest : List Nat}

theorem rechargeWalk_cons : y.rechargeWalk pass (k :: rest) =
    if (y.rechargeRobot pass k).2 then (y.rechargeRobot pass k).1 else (y.rechargeRobot pass k).1.rechargeWalk pass rest :=
  rfl

theorem rechargeWalk_of_continues {z : Yard} (h : y.rechargeRobot pass k = (z, false)) :
    y.rechargeWalk pass (k :: rest) = z.rechargeWalk pass rest := by
  rw [rechargeWalk_cons, h]
  exact if_neg Bool.false_ne_true

theorem rechargeWalk_of_ends {z : Yard} (h : y.rechargeRobot pass k = (z, true)) : y.rechargeWalk pass (k :: rest) = z := by
  rw [rechargeWalk_cons, h]
  exact if_pos rfl

theorem dockDistance_some {p d n : Nat} : y.dockDistance p d = some n ↔
    y.dockFree d = true ∧ railDistance p (y.dockPosition d) = n := by
  unfold dockDistance
  split
  case isTrue h => simp [h]
  case isFalse h => simp [h]

theorem rechargeRobot_of_charged (h : y.needsCharge k = false) : y.rechargeRobot pass k = (y, false) :=
  if_neg (Bool.eq_false_iff.1 h)

theorem rechargeRobot_of_needs (needs : y.needsCharge k = true) (place : (y.robot k).place = .garage r) :
    y.rechargeRobot pass k = match nearest (y.dockDistance r) y.dockList with
      | none => (y, false)
      | some d =>
        let asked := y.requestTransfer pass .round .recharge k (.dock d) none
        match asked.2.status with
        | .accepted => (asked.1.countRounds fun n => { n with rechargesSent := bump n.rechargesSent }, false)
        | .full => (asked.1, true)
        | _ => (asked.1, false) := by
  refine (if_pos needs).trans ?_
  rw [place]
  rfl

theorem nearestDock_none {p : Nat} (h : ∀ d, d < y.settings.docks → y.dockFree d = false) :
    nearest (y.dockDistance p) y.dockList = none :=
  (nearest_range_none _ _).2 fun d there => if_neg (Bool.eq_false_iff.1 (h d there))

theorem nearestDock_some {p d : Nat} (there : d < y.settings.docks) (free : y.dockFree d = true)
    (least : ∀ i, i < y.settings.docks → y.dockFree i = true →
      railDistance p (y.dockPosition d) < railDistance p (y.dockPosition i) ∨
      (railDistance p (y.dockPosition d) = railDistance p (y.dockPosition i) ∧ d ≤ i)) :
    nearest (y.dockDistance p) y.dockList = some d := by
  refine (nearest_range_some _ _ _).2 ⟨there, _, dockDistance_some.2 ⟨free, rfl⟩, fun i n inside far => ?_⟩
  obtain ⟨freeToo, rfl⟩ := dockDistance_some.1 far
  exact least i inside freeToo

end Recharge

end Yard

/-- Settles O18: the checks of a claim, the end of an event, the walk, availability, the judging of a WAITING and of a CLAIMING
entry, and the recharge walk. -/
theorem claimChecks : Obligations.ClaimChecks := by
  refine ⟨fun y r k => ⟨Yard.claimRefusal_eq_none_iff, Yard.takeClaim_of_track, Yard.takeClaim_of_held⟩,
    fun y => ⟨Yard.finish_same, fun assigns => if_pos assigns⟩,
    fun y n full judged => ⟨fun all => Yard.walkList_done _ all _ _,
      fun front e back list before fresh => Yard.walkList_next _ list before fresh _ _⟩,
    fun y k f slot => ⟨Robot.available_iff _, Yard.setRobot_assign_iff slot f⟩,
    fun y full e => ?entry, fun y e k => ?claiming, fun y k rest => ?recharge⟩
  case entry =>
    intro judge r w away
    refine ⟨Yard.takeable_iff, fun k occupant => Yard.chooseRobot_of_occupant occupant,
      fun empty k => Yard.chooseRobot_of_empty empty, fun waiting => ?waiting, fun k claiming robot => ?assigned,
      fun notWaiting notClaiming => ?other⟩
    case waiting =>
      have judged : judge = y.judgeWaiting Yard.arbiterPass full e := by
        simp only [judge, Yard.judgeEntry, waiting]
      refine ⟨fun unchosen => judged.trans (Yard.judgeWaiting_of_unchosen unchosen), fun k takeable chosen => ?_⟩
      have byPlace := Yard.judgeWaiting_of_chosen (pass := Yard.arbiterPass) (full := full) takeable chosen
      refine ⟨fun home => judged.trans (byPlace.trans (if_pos home)),
        fun away high => judged.trans (byPlace.trans ((if_neg away).trans (if_pos (by simpa using high)))),
        fun away fresh low => ?_⟩
      intro asked
      subst fresh
      have answered := judged.trans (Yard.judgeWaiting_of_asked takeable chosen away low)
      refine ⟨fun accepted => ?_, fun full => ?_, fun notAccepted notFull => ?_⟩
      · rw [answered]
        dsimp only
        rw [show (Yard.requestTransfer Yard.arbiterPass y _ _ _ _ _).2.status = _ from accepted]
      · rw [answered]
        dsimp only
        rw [show (Yard.requestTransfer Yard.arbiterPass y _ _ _ _ _).2.status = _ from full]
      · rw [answered]
        dsimp only
        split
        case h_1 accepted => exact absurd accepted notAccepted
        case h_2 full => exact absurd full notFull
        case h_3 => rfl
    case assigned => simp only [judge, Yard.judgeEntry, claiming, robot]
    case other =>
      simp only [judge, Yard.judgeEntry]
      split
      case h_1 waiting => exact absurd waiting notWaiting
      case h_2 claiming _ => exact absurd claiming notClaiming
      case h_3 => rfl
  case claiming =>
    intro r fails claims
    refine ⟨fun stage x entry slot => ?_, Yard.judgeClaiming_of_fails, fun passes none => ?_, fun passes track taken => ?_,
      fun passes held taken => ?_, fun passes claims why refused => ⟨fun given => ?_, fun place barred => ?_⟩⟩
    · rw [Yard.assignEntry_of_entry entry]
      exact ⟨Yard.entryOf_setEntry (f := fun e => { e with robot := some k, stage := stage }) entry fun _ => rfl,
        Yard.robot_setRobot_same _ slot _⟩
    · exact (Yard.judgeClaiming_of_passes passes).trans (if_neg none)
    · exact (Yard.judgeClaiming_of_passes passes).trans ((if_pos (.inl track)).trans (Yard.claimEntry_of_track taken track))
    · exact (Yard.judgeClaiming_of_passes passes).trans ((if_pos (.inr held)).trans (Yard.claimEntry_of_held taken held))
    · exact (Yard.judgeClaiming_of_passes passes).trans
        ((if_pos claims).trans (Yard.claimEntry_of_unassigned refused given))
    · exact (Yard.judgeClaiming_of_passes passes).trans
        ((if_pos claims).trans (Yard.claimEntry_of_kept refused place barred))
  case recharge =>
    intro b next
    refine ⟨fun off => if_neg ?_, fun mild low => if_pos ?_, rfl, Yard.needsCharge_iff,
      fun charged => Yard.rechargeWalk_of_continues (Yard.rechargeRobot_of_charged charged), fun r needs place => ?_⟩
    · obtain storm | high := off
      · simp [storm]
      · simp [high]
    · simp [mild, low]
    · intro away
      have sends := Yard.rechargeRobot_of_needs (pass := Yard.arbiterPass) needs place
      refine ⟨fun none => Yard.rechargeWalk_of_continues (sends.trans ?_), fun d there free least => ?_⟩
      · rw [Yard.nearestDock_none none]
      · intro asked sent
        rw [Yard.nearestDock_some there free least] at sends
        refine ⟨fun accepted => Yard.rechargeWalk_of_continues (sends.trans ?_),
          fun full => Yard.rechargeWalk_of_ends (sends.trans ?_),
          fun notAccepted notFull => Yard.rechargeWalk_of_continues (sends.trans ?_)⟩
        · dsimp only
          rw [show (Yard.requestTransfer Yard.arbiterPass y _ _ _ _ _).2.status = _ from accepted]
          rfl
        · dsimp only
          rw [show (Yard.requestTransfer Yard.arbiterPass y _ _ _ _ _).2.status = _ from full]
        · dsimp only
          split
          case h_1 accepted => exact absurd accepted notAccepted
          case h_2 full => exact absurd full notFull
          case h_3 => rfl

end Sys2Proof.Machine

/-! SUPPORT. A robot's record after the operations on it, orders and serials (R35), PASS orders given and ended (R94, R98), the
fleet's reports (R37, R42, R43) and the robot timers (R44, R99). -/

namespace Sys2Proof.Machine

namespace Yard

variable {y : Yard} {k r : Nat}

/-! ### A robot's record after a change -/

/-- A change of a robot keeps what it does not write. -/
theorem robot_setRobot_keeps {α : Type} {g : Robot → α} {f : Robot → Robot} (keeps : ∀ b, g (f b) = g b) (y : Yard) (k j : Nat) :
    g ((y.setRobot k f).robot j) = g (y.robot j) := by
  by_cases h : j = k
  · subst h
    by_cases there : j < y.robots.length
    · rw [robot_setRobot_same y there, keeps]
    · rw [robot_absent there, robot_absent (by simpa using there)]
  · rw [robot_setRobot_ne y h]

/-- A report of a robot keeps everything of it but its silence (R37, R44). -/
theorem robot_touchRobot_keeps {α : Type} {g : Robot → α}
    (keeps : ∀ (b : Robot) (t : Option Nat), g { b with silent := false, silenceTimer := t } = g b) (y : Yard) (k j : Nat) :
    g ((y.touchRobot k).robot j) = g (y.robot j) :=
  robot_setRobot_keeps (f := fun b => { b with silent := false, silenceTimer := some y.settings.robotSilence })
    (fun b => keeps b _) y k j

/-- Removal of an entry keeps everything of a robot but its link. -/
theorem robot_removeEntry_keeps {α : Type} {g : Robot → α} (keeps : ∀ b : Robot, g { b with roundLink := none } = g b)
    (y : Yard) (r j : Nat) : g ((y.removeEntry r).robot j) = g (y.robot j) := by
  unfold removeEntry unlink
  split
  · rfl
  · split
    · exact robot_setRobot_keeps keeps _ _ j
    · rfl

theorem removeEntry_robots_length (y : Yard) (r : Nat) : (y.removeEntry r).robots.length = y.robots.length := by
  unfold removeEntry unlink
  split
  · rfl
  · split <;> simp

theorem removeEntry_passTimers (y : Yard) (r : Nat) : (y.removeEntry r).rounds.passTimers = y.rounds.passTimers := by
  unfold removeEntry
  split
  · rfl
  · simp [unlink_rounds]

theorem removeEntry_counters (y : Yard) (r : Nat) : (y.removeEntry r).rounds.counters = y.rounds.counters := by
  unfold removeEntry
  split
  · rfl
  · simp [unlink_rounds]

/-- A change that leaves the robot unavailable gives no assignment event. -/
theorem setRobot_of_unavailable (slot : k < y.robots.length) {f : Robot → Robot}
    (unavailable : (f (y.robot k)).available = false) :
    y.setRobot k f = { y with robots := y.robots.set k (f (y.robot k)) } := by
  rw [setRobot_eq y slot, unavailable]
  simp

theorem robot_set_same (slot : k < y.robots.length) (b : Robot) : robot { y with robots := y.robots.set k b } k = b := by
  simp [robot, List.getD_eq_getElem?_getD, slot]

/-! ### Orders and serials (R35) -/

theorem robot_orderRobot (slot : k < y.robots.length) (o : RobotOrder) : (y.orderRobot k o).robot k =
    { y.robot k with
      order := some ⟨o, ((y.robot k).lastSerial + 1) % 256⟩
      lastSerial := ((y.robot k).lastSerial + 1) % 256 } :=
  robot_setRobot_same y slot _

theorem carriage_orderCarriage {c : Nat} (there : c < y.carriages.length) (o : CarriageOrder) :
    (y.orderCarriage c o).carriage c =
      { y.carriage c with
        order := some ⟨o, ((y.carriage c).lastSerial + 1) % 256⟩
        lastSerial := ((y.carriage c).lastSerial + 1) % 256 } :=
  carriage_setCarriage_same y there _

/-- A PASS order that ends without result keeps everything of a robot but its link. -/
theorem robot_passEnds_keeps {α : Type} {g : Robot → α} (keeps : ∀ b : Robot, g { b with roundLink := none } = g b)
    (y : Yard) (k j : Nat) : g ((y.passEnds k).robot j) = g (y.robot j) := by
  unfold passEnds
  dsimp only
  split
  · exact robot_removeEntry_keeps keeps _ _ j
  · rfl

theorem passEnds_robots_length (y : Yard) (k : Nat) : (y.passEnds k).robots.length = y.robots.length := by
  unfold passEnds
  dsimp only
  split
  · exact removeEntry_robots_length _ _
  · rfl

theorem passEnds_passTimers (y : Yard) (k : Nat) : (y.passEnds k).rounds.passTimers = y.rounds.passTimers.set k none := by
  unfold passEnds
  dsimp only
  split
  · exact removeEntry_passTimers _ _
  · rfl

theorem passEnds_passesAborted (y : Yard) (k : Nat) :
    (y.passEnds k).rounds.counters.passesAborted = bump y.rounds.counters.passesAborted := by
  unfold passEnds
  dsimp only
  split
  · exact congrArg RoundCounters.passesAborted (removeEntry_counters _ _)
  · rfl

/-- The yard where robot `k` has been given TO_GARAGE of row `r`. -/
def orderHome (y : Yard) (k r : Nat) : Yard :=
  (y.orderRobot k (.toGarage r)).setRobot k fun b => { b with task := .toGarage }

theorem robot_orderHome (slot : k < y.robots.length) : (y.orderHome k r).robot k =
    { y.robot k with
      order := some ⟨.toGarage r, ((y.robot k).lastSerial + 1) % 256⟩
      lastSerial := ((y.robot k).lastSerial + 1) % 256
      task := .toGarage } := by
  rw [orderHome, robot_setRobot_same _ (by simpa [orderRobot] using slot), robot_orderRobot slot]

theorem sendHome_of_home {q serial : Nat} (h : (y.robot k).order = some ⟨.toGarage q, serial⟩) : y.sendHome k r = y := by
  simp only [sendHome, h]

theorem sendHome_of_pass {q serial : Nat} {kind : PassKind} (h : (y.robot k).order = some ⟨.pass q kind, serial⟩) :
    y.sendHome k r = (y.passEnds k).orderHome k r := by
  simp only [sendHome, h]
  rfl

/-! ### A PASS is given (R94) -/

/-- The record of a robot that has been given PASS on row `r`. -/
def passing (b : Robot) (r : Nat) (kind : PassKind) : Robot :=
  { b with
    order := some ⟨.pass r kind, (b.lastSerial + 1) % 256⟩
    lastSerial := (b.lastSerial + 1) % 256
    task := .pass r kind
    place := .midrow r }

/-- The yard where robot `k` has its PASS order and task, and stands where it stood. -/
def orderPass (y : Yard) (k r : Nat) (kind : PassKind) : Yard :=
  (y.orderRobot k (.pass r kind)).setRobot k fun b => { b with task := .pass r kind }

theorem orderPass_eq (slot : k < y.robots.length) (kind : PassKind) : y.orderPass k r kind = { y with
    robots := y.robots.set k { passing (y.robot k) r kind with place := (y.robot k).place } } := by
  have ordered : y.orderRobot k (.pass r kind) = { y with robots := y.robots.set k { y.robot k with
      order := some ⟨.pass r kind, ((y.robot k).lastSerial + 1) % 256⟩
      lastSerial := ((y.robot k).lastSerial + 1) % 256 } } :=
    setRobot_of_unavailable slot (Robot.available_of_order (Option.some_ne_none _))
  rw [orderPass, ordered, setRobot_of_unavailable (by simpa using slot)
    (Robot.available_of_order (by rw [robot_set_same slot]; exact Option.some_ne_none _)), robot_set_same slot, List.set_set]
  rfl

theorem givePass_eq (y : Yard) (k r : Nat) (kind : PassKind) : y.givePass k r kind =
    ((y.orderPass k r kind).moveRobot k (.midrow r)).setPassTimer k (some y.settings.passLimit) := rfl

theorem robot_givePass (slot : k < y.robots.length) (kind : PassKind) :
    (y.givePass k r kind).robot k = passing (y.robot k) r kind := by
  have moved : ((y.orderPass k r kind).moveRobot k (.midrow r)).robot k =
      { (y.orderPass k r kind).robot k with place := .midrow r } :=
    robot_moveRobot (by simpa [orderPass, orderRobot] using slot) _
  refine Eq.trans (b := ((y.orderPass k r kind).moveRobot k (.midrow r)).robot k) rfl (moved.trans ?_)
  rw [orderPass_eq slot, robot_set_same slot]
  rfl

theorem robot_givePass_ne {j : Nat} (h : j ≠ k) (kind : PassKind) : (y.givePass k r kind).robot j = y.robot j := by
  refine Eq.trans (b := ((y.orderPass k r kind).moveRobot k (.midrow r)).robot j) rfl ?_
  rw [robot_moveRobot_ne h, orderPass, robot_setRobot_ne _ h, orderRobot, robot_setRobot_ne _ h]

theorem vacate_rounds (y : Yard) (k : Nat) : (y.vacate k).rounds = y.rounds := by
  unfold vacate
  split <;> rfl

theorem givePass_rounds (y : Yard) (k r : Nat) (kind : PassKind) : (y.givePass k r kind).rounds =
    { y.rounds with passTimers := y.rounds.passTimers.set k (some y.settings.passLimit) } := by
  have rounds : ((y.orderPass k r kind).moveRobot k (.midrow r)).rounds = y.rounds := vacate_rounds _ k
  rw [givePass_eq, setPassTimer, rounds]

/-- A robot that leaves a garage for the table changes the garage, its own record and its pass timer. -/
theorem givePass_of_garage (slot : k < y.robots.length) {q : Nat} (place : (y.robot k).place = .garage q) (kind : PassKind) :
    y.givePass k r kind = { y with
      robots := y.robots.set k (passing (y.robot k) r kind)
      rows := y.rows.modify q fun w => { w with garageOccupant := none }
      rounds := { y.rounds with passTimers := y.rounds.passTimers.set k (some y.settings.passLimit) } } := by
  have ordered := orderPass_eq (r := r) slot kind
  have standing : ((y.orderPass k r kind).robot k).place = .garage q := by
    rw [ordered, robot_set_same slot]
    exact place
  have left : (y.orderPass k r kind).vacate k = (y.orderPass k r kind).setRow q fun w => { w with garageOccupant := none } := by
    simp only [vacate, standing]
  have moved : (y.orderPass k r kind).moveRobot k (.midrow r) = ((y.orderPass k r kind).setRow q fun w =>
      { w with garageOccupant := none }).setRobot k fun b => { b with place := .midrow r } := by
    rw [← left]
    rfl
  obtain ⟨freed, freedIs⟩ : ∃ freed, freed = (y.orderPass k r kind).setRow q fun w => { w with garageOccupant := none } :=
    ⟨_, rfl⟩
  have robot : freed.robot k = { passing (y.robot k) r kind with place := (y.robot k).place } := by
    rw [freedIs, ordered]
    exact robot_set_same slot _
  have slotFreed : k < freed.robots.length := by
    rw [freedIs, ordered]
    simpa [setRow] using slot
  have taken := setRobot_of_unavailable (f := fun b => { b with place := .midrow r }) slotFreed
    (Robot.available_of_order (by rw [robot]; exact Option.some_ne_none _))
  rw [givePass_eq, moved, ← freedIs, taken, robot, freedIs, ordered]
  simp only [setRow, setPassTimer, List.set_set]
  rfl

end Yard

/-- Settles O21: an order takes the next serial; a PASS superseded ends without result, a TO_GARAGE in force stands. -/
theorem ordersAndSerials : Obligations.OrdersAndSerials := by
  intro y n
  refine ⟨fun o slot => ?_, fun o there => ?_, fun r q kind serial slot timer pass => ?_, fun r q serial home =>
    Yard.sendHome_of_home home, fun r kind slot => ?_⟩
  · rw [Yard.robot_orderRobot slot]
    exact ⟨rfl, rfl, fun j other => y.robot_setRobot_ne other _⟩
  · rw [Yard.carriage_orderCarriage there]
    exact ⟨rfl, rfl, fun j other => y.carriage_setCarriage_ne other _⟩
  · intro z
    have sent : z = (y.passEnds n).orderHome n r := Yard.sendHome_of_pass pass
    have robot : z.robot n = _ := (congrArg (Yard.robot · n) sent).trans
      (Yard.robot_orderHome (by rwa [Yard.passEnds_robots_length]))
    rw [robot, y.robot_passEnds_keeps (g := Robot.lastSerial) fun _ => rfl]
    refine ⟨rfl, rfl, y.robot_passEnds_keeps (g := Robot.place) (fun _ => rfl) n n, ?_, ?_⟩
    · rw [sent]
      refine (congrArg (List.getD · n none) (y.passEnds_passTimers n)).trans ?_
      simp [List.getD_eq_getElem?_getD, timer]
    · rw [sent]
      exact y.passEnds_passesAborted n
  · intro z serial given timed
    exact ⟨⟨Yard.robot_givePass slot kind, fun j other => Yard.robot_givePass_ne other kind, y.givePass_rounds n r kind⟩,
      fun q place => Yard.givePass_of_garage slot place kind⟩

/-! ### Carriage Position and Robot Fault (R42, R43) -/

namespace Yard

variable {y : Yard} {c p : Nat}

theorem keepsOrder_iff : y.keepsOrder c p = true ↔ ∀ i q, i < y.settings.carriages → (y.carriage i).position = some q →
    (i < c → q < p) ∧ (c < i → p < q) := by
  simp only [keepsOrder, carriageList, List.all_eq_true, List.mem_range]
  refine forall_congr' fun i => ?_
  cases at' : (y.carriage i).position with
  | none => simp
  | some q =>
    simp only [Bool.and_eq_true, Bool.or_eq_true, decide_eq_true_eq, Option.some.injEq]
    constructor
    · rintro kept _ there rfl
      obtain ⟨lower, higher⟩ := kept there
      exact ⟨fun h => by omega, fun h => by omega⟩
    · intro kept there
      obtain ⟨lower, higher⟩ := kept q there rfl
      exact ⟨by omega, by omega⟩

theorem inOthersSegment_iff : y.inOthersSegment c p = true ↔
    ∃ v, y.rail.segments.getD (p / 8) none = some v ∧ v.carriage ≠ c := by
  unfold inOthersSegment reservation segmentOf
  cases y.rail.segments.getD (p / 8) none <;> simp

theorem inOwnSegment_iff : y.inOwnSegment c p = true ↔
    ∃ v, y.rail.segments.getD (p / 8) none = some v ∧ v.carriage = c := by
  unfold inOwnSegment reservation segmentOf
  cases y.rail.segments.getD (p / 8) none <;> simp

theorem positionRefused_iff : y.positionRefused c p = true ↔
    (∃ o, (y.carriage c).order = some o ∧ o.kind ≠ .stay) ∨ (y.carriage c).fault = true ∨
      y.keepsOrder c p = false ∨ y.inOthersSegment c p = true := by
  have ordered : (match (y.carriage c).order with
      | some ⟨.stay, _⟩ | none => false
      | some _ => true) = true ↔ ∃ o, (y.carriage c).order = some o ∧ o.kind ≠ .stay := by
    cases order : (y.carriage c).order with
    | none => simp
    | some o =>
      obtain ⟨kind, serial⟩ := o
      cases kind <;> simp
  unfold positionRefused
  simp only [Bool.or_eq_true, Bool.not_eq_true', or_assoc]
  exact or_congr ordered Iff.rfl

end Yard

/-- Settles O24: Carriage Position by its checks and the event of rest, Robot Fault by the robot's order. -/
theorem fleetReportsTaken : Obligations.FleetReportsTaken := by
  refine ⟨fun p body s => ?_, fun y c p => ⟨Yard.positionRefused_iff, Yard.keepsOrder_iff, Yard.inOthersSegment_iff⟩⟩
  intro n x
  refine ⟨fun taken there row passes => ?position, fun taken between => ?positionRefused, fun taken unknown between => ?unknown,
    fun taken enrolled => ?fault⟩
  case position =>
    intro placed rests
    have effect : s.yard.takeCarriagePosition body =
        (if (s.yard.carriage n).order.isSome = true ∨ (s.yard.carriage n).position.isNone = true then placed.arbiterPass
          else placed, .ok []) :=
      (if_neg (by simp [Yard.carriageExists, show byteAt body 0 < _ from there, show byteAt body 1 < _ from row])).trans
        (if_neg (Bool.eq_false_iff.1 passes))
    have same : rests ↔ (s.yard.carriage n).order.isSome = true ∨ (s.yard.carriage n).position.isNone = true := by
      rw [Option.isNone_iff_eq_none]
    refine ⟨fun yes => exec_onYard (k := .carriagePosition) taken rfl (effect.trans (by rw [if_pos (same.1 yes)])),
      fun no => exec_onYard (k := .carriagePosition) taken rfl (effect.trans (by rw [if_neg (no ∘ same.2)]))⟩
  case positionRefused =>
    intro turned
    refine ⟨fun outside => exec_onYard_refuses (k := .carriagePosition) taken rfl between (if_pos ?_),
      fun there row refused => exec_onYard_refuses (k := .carriagePosition) taken rfl between
        ((if_neg ?_).trans (if_pos refused))⟩
    · simpa [Yard.carriageExists] using outside
    · simp [Yard.carriageExists, show byteAt body 0 < _ from there, show byteAt body 1 < _ from row]
  case unknown =>
    exact exec_onYard_refuses (k := .robotFault) taken rfl between (if_pos (by simp [show s.yard.enrolled (byteAt body 0) = false from unknown]))
  case fault =>
    intro heard told
    have order : (told.robot n).order = (s.yard.robot n).order :=
      (Yard.robot_setRobot_keeps (g := Robot.order) (f := fun b => { b with fault := true }) (fun _ => rfl) _ n n).trans
        (Yard.robot_touchRobot_keeps (g := Robot.order) (fun _ _ => rfl) _ n n)
    have place : (heard.robot n).place = (s.yard.robot n).place :=
      (Yard.robot_setRobot_keeps (g := Robot.place) (f := fun b => { b with fault := true }) (fun _ => rfl) _ n n).trans
        (Yard.robot_touchRobot_keeps (g := Robot.place) (fun _ _ => rfl) _ n n)
    have effect : s.yard.takeRobotFault body = match (told.robot n).order with
        | some ⟨.pass r _, _⟩ => (told.sendHome n r, .ok [])
        | _ => (told.giveUpRow n, .ok []) := by
      refine (if_neg (by simp [show s.yard.enrolled (byteAt body 0) = true from enrolled])).trans ?_
      simp only [told, ← place]
      rfl
    rw [order] at effect
    refine ⟨fun r kind serial pass => exec_onYard (k := .robotFault) taken rfl (effect.trans (by rw [pass])),
      fun noPass => exec_onYard (k := .robotFault) taken rfl (effect.trans ?_)⟩
    split
    case h_1 r kind serial pass => exact absurd pass (noPass r kind serial)
    case h_2 => rfl

/-! ### The robot timers (R44, R99) -/

/-- A silent robot is not available (R31). -/
theorem Robot.available_of_silent {b : Robot} (h : b.silent = true) : b.available = false := by
  simp [available, h]

/-- Settles O26: the silence of a robot is noted without an assignment event; a pass timer's expiry faults the robot and sends it home. -/
theorem robotTimerExpiries : Obligations.RobotTimerExpiries := by
  intro k s running between
  refine ⟨fun enrolled runs => ?_, fun r kind serial runs pass => ?_⟩
  · intro silent place
    have quiet : silent.assign = false := by
      rw [show silent = _ from Yard.setRobot_of_unavailable (Yard.enrolled_lt enrolled) (Robot.available_of_silent rfl)]
      exact between
    refine congrArg Host.Outcome.next ((State.event_effect running (if_pos ⟨enrolled, runs⟩)).trans ?_)
    exact State.afterEvent_same quiet
  · intro told
    refine congrArg Host.Outcome.next (State.event_effect running ?_)
    obtain ⟨limit, timer⟩ := Option.isSome_iff_exists.1 runs
    simp only [Yard.passExpires, timer, pass]
    rfl

end Sys2Proof.Machine

/-! SUPPORT. What a Robot Status is made of (R24, R32, R38, R95): the charge of a report, the places that are free to be taken, and
what becomes of the row and the entry that a robot leaves. -/

namespace Sys2Proof.Machine

/-! ### Tasks and charge (R32) -/

theorem Robot.restTask_cases (b : Robot) :
    (∀ d, b.place = .dock d → b.chargeOverReady = true → b.restTask = .idle) ∧
    (∀ d, b.place = .dock d → b.chargeOverReady = false → b.restTask = .charging) ∧
    ((∀ d, b.place ≠ .dock d) → b.restTask = .idle) := by
  refine ⟨fun d dock ready => ?_, fun d dock below => ?_, fun other => ?_⟩
  · simp [restTask, dock, ready]
  · simp [restTask, dock, below]
  · unfold restTask
    split
    case h_1 d dock => exact absurd dock (other d)
    case h_2 => rfl

/-- A robot with a task is not available (R31). -/
theorem Robot.available_of_task {b : Robot} (h : b.task ≠ .idle) : b.available = false := by
  simp [available, h]

/-- An idle robot that takes its resting task is available as it was: a robot below the limit is not available before or after. -/
theorem Robot.available_restTask {b : Robot} (idle : b.task = .idle) :
    Robot.available { b with task := b.restTask } = b.available := by
  cases place : b.place with
  | dock d => cases ready : b.chargeOverReady <;> simp [available, restTask, place, ready, idle]
  | _ => simp [available, restTask, place, idle]

namespace Yard

variable {y : Yard} {k charge : Nat}

/-- A robot's record with a charge, compared with the limits in force (R32). -/
def withCharge (y : Yard) (charge : Nat) (b : Robot) : Robot :=
  { b with
    charge := charge
    chargeOverMin := decide (y.settings.chargeMin ≤ charge)
    chargeOverReady := decide (y.settings.chargeReady ≤ charge) }

theorem writeCharge_eq (y : Yard) (k charge : Nat) : y.writeCharge k charge =
    match ((y.setRobot k (y.withCharge charge)).robot k).task with
    | .idle | .charging => (y.setRobot k (y.withCharge charge)).restRobot k
    | _ => y.setRobot k (y.withCharge charge) := rfl

/-- The charge is written to the robot's record, whose task may follow; nothing else changes but the mark of an assignment. -/
theorem writeCharge_robots (y : Yard) (k charge : Nat) : y.writeCharge k charge =
    { y with robots := (y.writeCharge k charge).robots, assign := (y.writeCharge k charge).assign } := by
  rw [writeCharge_eq]
  split <;> rfl

theorem robot_writeCharge_resting (slot : k < y.robots.length)
    (resting : (y.robot k).task = .idle ∨ (y.robot k).task = .charging) :
    (y.writeCharge k charge).robot k =
      { y.withCharge charge (y.robot k) with task := (y.withCharge charge (y.robot k)).restTask } := by
  have charged : (y.setRobot k (y.withCharge charge)).robot k = y.withCharge charge (y.robot k) := robot_setRobot_same y slot _
  have rested : ((y.setRobot k (y.withCharge charge)).restRobot k).robot k = _ :=
    robot_setRobot_same _ (by simpa using slot) _
  rw [charged] at rested
  rw [writeCharge_eq, charged, show (y.withCharge charge (y.robot k)).task = (y.robot k).task from rfl]
  obtain task | task := resting <;> rw [task] <;> exact rested

theorem robot_writeCharge_busy (slot : k < y.robots.length) (idle : (y.robot k).task ≠ .idle)
    (charging : (y.robot k).task ≠ .charging) :
    (y.writeCharge k charge).robot k = y.withCharge charge (y.robot k) := by
  have charged : (y.setRobot k (y.withCharge charge)).robot k = y.withCharge charge (y.robot k) := robot_setRobot_same y slot _
  rw [writeCharge_eq, charged, show (y.withCharge charge (y.robot k)).task = (y.robot k).task from rfl]
  split
  case h_1 task => exact absurd task idle
  case h_2 task => exact absurd task charging
  case h_3 => exact charged

theorem robot_writeCharge_ne {j : Nat} (h : j ≠ k) : (y.writeCharge k charge).robot j = y.robot j := by
  rw [writeCharge_eq]
  split
  case h_3 => exact robot_setRobot_ne y h _
  all_goals exact (robot_setRobot_ne _ h _).trans (robot_setRobot_ne y h _)

/-- The charge keeps the place, the order and the link of a robot. -/
theorem robot_writeCharge_keeps {α : Type} {g : Robot → α} (charged : ∀ b : Robot, g (y.withCharge charge b) = g b)
    (tasked : ∀ (b : Robot) (t : RobotTask), g { b with task := t } = g b) (j : Nat) :
    g ((y.writeCharge k charge).robot j) = g (y.robot j) := by
  rw [writeCharge_eq]
  have first : g ((y.setRobot k (y.withCharge charge)).robot j) = g (y.robot j) := robot_setRobot_keeps charged y k j
  split
  case h_3 => exact first
  all_goals exact (robot_setRobot_keeps (f := fun b => { b with task := b.restTask }) (fun b => tasked b _) _ k j).trans first

/-- The assignment event compares the robot before the report with the robot after its task is written. -/
theorem writeCharge_assign (slot : k < y.robots.length) : (y.writeCharge k charge).assign = true ↔
    y.assign = true ∨ (y.available k = false ∧ (y.writeCharge k charge).available k = true) := by
  have charged : (y.setRobot k (y.withCharge charge)).robot k = y.withCharge charge (y.robot k) := robot_setRobot_same y slot _
  have slotToo : k < (y.setRobot k (y.withCharge charge)).robots.length := by simpa using slot
  have first := setRobot_assign_iff slot (y.withCharge charge)
  have second := setRobot_assign_iff slotToo fun b => { b with task := b.restTask }
  rw [writeCharge_eq, charged, show (y.withCharge charge (y.robot k)).task = (y.robot k).task from rfl]
  split
  case h_1 task =>
    have same : ((y.setRobot k (y.withCharge charge)).restRobot k).available k =
        (y.setRobot k (y.withCharge charge)).available k := by
      rw [restRobot, available, robot_setRobot_same _ slotToo, charged, available, charged]
      exact Robot.available_restTask task
    rw [restRobot, second, first, ← restRobot, same]
    simp
  case h_2 task =>
    have busy : y.available k = false := Robot.available_of_task (by simp [task])
    have stillBusy : (y.setRobot k (y.withCharge charge)).available k = false := by
      rw [available, charged]
      exact Robot.available_of_task (by simp [withCharge, task])
    rw [restRobot, second, first, stillBusy, busy]
    simp
  case h_3 => exact first

/-! ### Places (R29, R38) -/

section Places

variable {r d c : Nat}

theorem placeTaken_dock_iff : y.placeTaken k (.dock d) = true ↔ (y.dock d).occupant = none ∧ (y.dock d).reservedFor = none := by
  simp [placeTaken, dockFree]

theorem placeTaken_garage_iff : y.placeTaken k (.garage r) = true ↔ (y.row r).garageOccupant = none ∧
    (y.row r).garageReserved = none ∧ ((y.row r).holder = none ∨ (y.row r).holder = some k) := by
  simp [placeTaken, and_assoc]

theorem placeTaken_aboard_iff : y.placeTaken k (.aboard c) = true ↔
    (y.carriage c).load = none ∧ (y.carriage c).task = none ∧ (y.carriage c).fault = false := by
  simp [placeTaken, and_assoc]

theorem placeTaken_midrow_iff : y.placeTaken k (.midrow r) = true ↔ ∃ custody, y.adoptionCustody r k = some custody :=
  Option.isSome_iff_exists

/-- Another robot holds the row (R24). -/
theorem adoptionCustody_eq (y : Yard) (r k : Nat) : y.adoptionCustody r k =
    if (y.row r).holder ≠ some k ∧
        ((y.row r).custody = .flattening ∨ (y.row r).custody = .open ∨ (y.row r).custody = .exposed) then none
    else some (if y.storm.state = .stowing ∨ y.storm.state = .parked then .exposed else .open) := by
  unfold adoptionCustody
  cases (y.row r).custody <;> by_cases holder : (y.row r).holder = some k <;>
    by_cases storm : y.storm.state = .stowing ∨ y.storm.state = .parked <;> simp [holder, storm]

theorem adoptionCustody_eq_none_iff : y.adoptionCustody r k = none ↔ (y.row r).holder ≠ some k ∧
    ((y.row r).custody = .flattening ∨ (y.row r).custody = .open ∨ (y.row r).custody = .exposed) := by
  rw [adoptionCustody_eq]
  split
  case isTrue held => exact ⟨fun _ => held, fun _ => rfl⟩
  case isFalse free => exact ⟨nofun, fun held => absurd held free⟩

theorem adoptionCustody_some {custody : Custody} (h : y.adoptionCustody r k = some custody) :
    custody = if y.storm.state = .stowing ∨ y.storm.state = .parked then .exposed else .open := by
  rw [adoptionCustody_eq] at h
  split at h
  case isTrue => cases h
  case isFalse => exact (Option.some.inj h).symm

end Places

/-! ### What unassignment keeps (R80) -/

section Unassignment

theorem unassign_rows (y : Yard) (r : Nat) : (y.unassign r).rows = y.rows := by
  unfold unassign unlink
  split
  · rfl
  · split <;> rfl

/-- Unassignment keeps everything of a robot but its link. -/
theorem robot_unassign_keeps {α : Type} {g : Robot → α} (keeps : ∀ b : Robot, g { b with roundLink := none } = g b)
    (y : Yard) (r j : Nat) : g ((y.unassign r).robot j) = g (y.robot j) := by
  unfold unassign unlink
  split
  · rfl
  · split
    · exact robot_setRobot_keeps keeps _ _ j
    · rfl

theorem claimUnassigned_rows (y : Yard) (r : Nat) : (y.claimUnassigned r).rows = y.rows := by
  unfold claimUnassigned
  split
  · split
    · exact unassign_rows _ _
    · rfl
  · rfl

theorem robot_claimUnassigned_keeps {α : Type} {g : Robot → α} (keeps : ∀ b : Robot, g { b with roundLink := none } = g b)
    (y : Yard) (r j : Nat) : g ((y.claimUnassigned r).robot j) = g (y.robot j) := by
  unfold claimUnassigned
  split
  · split
    · exact robot_unassign_keeps keeps _ _ j
    · rfl
  · rfl

end Unassignment

/-! ### The row that a robot leaves (R14, R38) -/

section Leaving

variable {q r : Nat} {keep : Option Nat}

theorem giveUpRow_of_none (h : y.rowHeldBy k = none) : y.giveUpRow k = y := by
  simp only [giveUpRow, h]

theorem giveUpRow_of_held (h : y.rowHeldBy k = some q) : y.giveUpRow k =
    if y.heldOpen q then y.settleRow q
    else if (y.row q).custody = .flattening then (y.settleRow q).claimUnassigned q else y := by
  simp only [giveUpRow, h]

theorem leaveRow_of_kept (h : y.rowHeldBy k = some q) : y.leaveRow k (some q) = y := if_pos ⟨by simp [h], h⟩

theorem leaveRow_of_left (h : y.rowHeldBy k = some q) (left : keep ≠ some q) : y.leaveRow k keep = y.giveUpRow k :=
  if_neg fun ⟨_, same⟩ => left (same.symm.trans h)

theorem leaveRow_of_none (h : y.rowHeldBy k = none) : y.leaveRow k keep = y := by
  rw [leaveRow, if_neg (by simp [h]), giveUpRow_of_none h]

/-- A robot leaves no row, or it gives up a row that it does not keep. -/
theorem leaveRow_cases (y : Yard) (k : Nat) (keep : Option Nat) : y.leaveRow k keep = y ∨
    ∃ q, keep ≠ some q ∧
      (y.leaveRow k keep = y.settleRow q ∨ y.leaveRow k keep = (y.settleRow q).claimUnassigned q) := by
  cases held : y.rowHeldBy k with
  | none => exact .inl (leaveRow_of_none held)
  | some q =>
    by_cases kept : keep = some q
    · subst kept
      exact .inl (leaveRow_of_kept held)
    · rw [leaveRow_of_left held kept, giveUpRow_of_held held]
      split_ifs
      · exact .inr ⟨q, kept, .inl rfl⟩
      · exact .inr ⟨q, kept, .inr rfl⟩
      · exact .inl rfl

theorem row_leaveRow_kept (y : Yard) (k r : Nat) : (y.leaveRow k (some r)).row r = y.row r := by
  obtain same | ⟨q, other, settled | unassigned⟩ := y.leaveRow_cases k (some r)
  · rw [same]
  · rw [settled]
    exact row_settleRow_ne (by rintro rfl; exact other rfl)
  · rw [unassigned]
    refine (congrArg (List.getD · r (freshRow 0)) (claimUnassigned_rows _ _)).trans ?_
    exact row_settleRow_ne (by rintro rfl; exact other rfl)

theorem robot_leaveRow_keeps {α : Type} {g : Robot → α} (keeps : ∀ b : Robot, g { b with roundLink := none } = g b)
    (y : Yard) (k : Nat) (keep : Option Nat) (j : Nat) : g ((y.leaveRow k keep).robot j) = g (y.robot j) := by
  obtain same | ⟨q, -, settled | unassigned⟩ := y.leaveRow_cases k keep
  · rw [same]
  · rw [settled]
    rfl
  · rw [unassigned]
    exact robot_claimUnassigned_keeps keeps _ _ j

/-- A row given up by the robot that holds it open or claims it goes to SETTLE. -/
theorem row_giveUpRow (held : y.rowHeldBy k = some q) (claimed : y.heldOpen q = true ∨ (y.row q).custody = .flattening) :
    (y.giveUpRow k).row q =
      { y.row q with custody := .settle, holder := none, timer := some y.settings.settleTime } := by
  have there : q < y.rows.length := by
    have := List.mem_of_find?_eq_some held
    simpa [rowList] using this
  rw [giveUpRow_of_held held]
  split_ifs with opened flat
  · exact row_settleRow there
  · exact (congrArg (List.getD · q (freshRow 0)) (claimUnassigned_rows _ _)).trans (row_settleRow there)
  · exact absurd claimed (not_or.2 ⟨opened, flat⟩)

/-! ### The entry that a robot leaves (R95) -/

variable {e : Entry}

/-- The entry has been unassigned, and robot `k` has no link (R80). -/
def freed (y : Yard) (k : Nat) (e : Entry) : Prop := y.entryOf e.row = some e.free ∧ (y.robot k).roundLink = none

theorem freed_unassign (distinct : y.listDistinct) (entry : y.entryOfRobot k = some e) : (y.unassign e.row).freed k e :=
  ⟨entryOf_unassign_same (entryOf_of_robot distinct entry),
    unassign_unlinks (entryOf_of_robot distinct entry) (entryOfRobot_robot entry)⟩

/-- An entry that is still the robot's is none that has been unassigned. -/
theorem freed_row_ne (distinct : y.listDistinct) (h : y.freed k e) {x : Entry} (entry : y.entryOfRobot k = some x) :
    x.row ≠ e.row := by
  intro same
  have own := entryOf_of_robot distinct entry
  rw [same, h.1] at own
  have robot := entryOfRobot_robot entry
  rw [← Option.some.inj own] at robot
  cases robot

theorem freed_unassign_ne (h : y.freed k e) {q : Nat} (other : e.row ≠ q) : (y.unassign q).freed k e :=
  ⟨(y.entryOf_unassign_ne other).trans h.1, unassign_unlinked h.2 q⟩

/-- A robot that leaves its row leaves its entry as it is, or its entry for another row than the one kept is unassigned. -/
theorem leaveRow_entry (distinct : y.listDistinct) (entry : y.entryOfRobot k = some e) (keep : Option Nat) :
    (y.leaveRow k keep).entryOfRobot k = some e ∨ ((y.leaveRow k keep).freed k e ∧ keep ≠ some e.row) := by
  obtain same | ⟨q, other, settled | unassigned⟩ := y.leaveRow_cases k keep
  · exact .inl (by rw [same]; exact entry)
  · exact .inl (by rw [settled]; exact entry)
  · rw [unassigned]
    unfold claimUnassigned
    split
    · split
      · by_cases own : e.row = q
        · subst own
          exact .inr ⟨freed_unassign (y := y.settleRow e.row) distinct entry, other⟩
        · exact .inl (entryOfRobot_unassign_ne (y := y.settleRow q) entry own)
      · exact .inl entry
    · exact .inl entry

/-- After a robot's entry is unassigned, the entry that it had is free, even where the row it left had freed it before. -/
theorem unassignRobot_freed (distinct : y.listDistinct) (h : y.entryOfRobot k = some e ∨ y.freed k e) :
    (y.unassignRobot k).freed k e := by
  unfold unassignRobot
  obtain entry | free := h
  · simp only [entry]
    exact freed_unassign distinct entry
  · split
    case h_1 x other => exact freed_unassign_ne free (freed_row_ne distinct free other).symm
    case h_2 => exact free

theorem leaveEntry_own (entry : y.entryOfRobot k = some e) : y.leaveEntry k e.row = y := by
  simp [leaveEntry, entry]

theorem leaveEntry_none (none : y.entryOfRobot k = none) (r : Nat) : y.leaveEntry k r = y := by
  simp only [leaveEntry, none]

theorem leaveEntry_freed (distinct : y.listDistinct) (h : y.entryOfRobot k = some e ∨ y.freed k e) (other : e.row ≠ r) :
    (y.leaveEntry k r).freed k e := by
  unfold leaveEntry
  obtain entry | free := h
  · simp only [entry, other, if_false]
    exact freed_unassign distinct entry
  · split
    case h_1 x found =>
      split
      · exact free
      · exact freed_unassign_ne free (freed_row_ne distinct free found).symm
    case h_2 => exact free

theorem leaveEntry_rows (y : Yard) (k r : Nat) : (y.leaveEntry k r).rows = y.rows := by
  unfold leaveEntry
  split
  · split
    · rfl
    · exact unassign_rows _ _
  · rfl

theorem robot_leaveEntry_keeps {α : Type} {g : Robot → α} (keeps : ∀ b : Robot, g { b with roundLink := none } = g b)
    (y : Yard) (k r j : Nat) : g ((y.leaveEntry k r).robot j) = g (y.robot j) := by
  unfold leaveEntry
  split
  · split
    · rfl
    · exact robot_unassign_keeps keeps _ _ j
  · rfl

theorem unassignRobot_rows (y : Yard) (k : Nat) : (y.unassignRobot k).rows = y.rows := by
  unfold unassignRobot
  split
  · exact unassign_rows _ _
  · rfl

theorem robot_unassignRobot_keeps {α : Type} {g : Robot → α} (keeps : ∀ b : Robot, g { b with roundLink := none } = g b)
    (y : Yard) (k j : Nat) : g ((y.unassignRobot k).robot j) = g (y.robot j) := by
  unfold unassignRobot
  split
  · exact robot_unassign_keeps keeps _ _ j
  · rfl

end Leaving

end Yard

end Sys2Proof.Machine

/-! SUPPORT. Robot Status (R24, R38): a robot that is put at a place, a robot that is adopted on a row's table, and the judging of a
report. -/

namespace Sys2Proof.Machine

theorem Keeps.robots_length {y z : Yard} (h : Keeps y z) : z.robots.length = y.robots.length := by
  simpa using congrArg List.length h.enrolled

theorem Robot.restTask_congr {a b : Robot} (place : a.place = b.place) (ready : a.chargeOverReady = b.chargeOverReady) :
    a.restTask = b.restTask := by
  unfold Robot.restTask
  rw [place, ready]

namespace Yard

variable {y : Yard} {k r : Nat} {pl : Place} {e : Entry}

/-! ### A move keeps the list and the custody of rows -/

theorem moveRobot_rounds (y : Yard) (k : Nat) (pl : Place) : (y.moveRobot k pl).rounds = y.rounds := by
  cases pl <;> exact vacate_rounds y k

/-- A move keeps everything of a row but its garage's occupant. -/
theorem row_moveRobot_keeps {α : Type} {g : Row → α} (keeps : ∀ (w : Row) (o : Option Nat), g { w with garageOccupant := o } = g w)
    (y : Yard) (k : Nat) (pl : Place) (r : Nat) : g ((y.moveRobot k pl).row r) = g (y.row r) := by
  have vacated : g ((y.vacate k).row r) = g (y.row r) := by
    unfold vacate
    split
    case h_2 q _ => exact row_setRow_keeps (f := fun w => { w with garageOccupant := none }) (fun w => keeps w _) y q r
    all_goals rfl
  have occupied : g (((y.vacate k).occupy k pl).row r) = g ((y.vacate k).row r) := by
    unfold occupy
    split
    case h_2 q => exact row_setRow_keeps (f := fun w => { w with garageOccupant := some k }) (fun w => keeps w _) _ q r
    all_goals rfl
  exact occupied.trans vacated

/-- A move keeps everything of a robot but its place. -/
theorem robot_moveRobot_keeps {α : Type} {g : Robot → α} (keeps : ∀ (b : Robot) (pl : Place), g { b with place := pl } = g b)
    (y : Yard) (k : Nat) (pl : Place) (j : Nat) : g ((y.moveRobot k pl).robot j) = g (y.robot j) := by
  refine (robot_setRobot_keeps (f := fun b => { b with place := pl }) (fun b => keeps b _) _ k j).trans ?_
  exact congrArg (fun l : List Robot => g (l.getD j (freshRobot false 0 none)))
    (by rw [Keeps.occupy_robots, Keeps.vacate_robots])

theorem freed_of_same {z : Yard} (h : y.freed k e) (list : z.rounds.list = y.rounds.list)
    (link : (z.robot k).roundLink = (y.robot k).roundLink) : z.freed k e :=
  ⟨(congrArg (List.find? fun x : Entry => x.row == e.row) list).trans h.1, link.trans h.2⟩

/-! ### A robot that is put at a place (R38) -/

/-- The yard where robot `k` has left its row and its entry for a place that is no table. -/
def leftFor (y : Yard) (k : Nat) (pl : Place) : Yard := (y.leaveRow k (keptRow pl)).unassignRobot k

theorem putRobot_eq (y : Yard) (k : Nat) (pl : Place) : y.putRobot k pl = ((y.leftFor k pl).moveRobot k pl).restRobot k := rfl

theorem robot_leftFor_keeps {α : Type} {g : Robot → α} (keeps : ∀ b : Robot, g { b with roundLink := none } = g b)
    (y : Yard) (k : Nat) (pl : Place) (j : Nat) : g ((y.leftFor k pl).robot j) = g (y.robot j) :=
  (robot_unassignRobot_keeps keeps _ k j).trans (robot_leaveRow_keeps keeps y k _ j)

theorem leftFor_slot (slot : k < y.robots.length) (pl : Place) : k < (y.leftFor k pl).robots.length := by
  rwa [show (y.leftFor k pl).robots.length = _ from
    Keeps.robots_length ((Keeps.leaveRow y k (keptRow pl)).trans (Keeps.unassignRobot _ k))]

theorem robot_putRobot (slot : k < y.robots.length) (pl : Place) : (y.putRobot k pl).robot k =
    { (y.leftFor k pl).robot k with
      place := pl
      task := Robot.restTask { (y.leftFor k pl).robot k with place := pl } } := by
  have there := leftFor_slot slot pl
  have moved := robot_moveRobot there pl
  rw [putRobot_eq, restRobot, robot_setRobot_same _ (by rwa [Keeps.robots_length (Keeps.moveRobot _ k pl)]), moved]

theorem restTask_putRobot (slot : k < y.robots.length) (pl : Place) :
    ((y.putRobot k pl).robot k).task = Robot.restTask { y.robot k with place := pl } := by
  rw [robot_putRobot slot]
  exact Robot.restTask_congr rfl (robot_leftFor_keeps (g := Robot.chargeOverReady) (fun _ => rfl) y k pl k)

theorem putRobot_list (y : Yard) (k : Nat) (pl : Place) : (y.putRobot k pl).rounds.list = (y.leftFor k pl).rounds.list :=
  congrArg Rounds.list (moveRobot_rounds _ k pl)

theorem putRobot_freed (slot : k < y.robots.length) (distinct : y.listDistinct) (entry : y.entryOfRobot k = some e) :
    (y.putRobot k pl).freed k e := by
  have left : (y.leftFor k pl).freed k e := unassignRobot_freed ((Keeps.leaveRow y k _).listDistinct distinct)
    ((leaveRow_entry distinct entry (keptRow pl)).imp id And.left)
  refine freed_of_same left (putRobot_list y k pl) ?_
  rw [robot_putRobot slot]

theorem row_putRobot_keeps {α : Type} {g : Row → α} (keeps : ∀ (w : Row) (o : Option Nat), g { w with garageOccupant := o } = g w)
    (y : Yard) (k : Nat) (pl : Place) (r : Nat) : g ((y.putRobot k pl).row r) = g ((y.leaveRow k (keptRow pl)).row r) := by
  refine (row_moveRobot_keeps keeps (y.leftFor k pl) k pl r).trans ?_
  exact congrArg (fun l : List Row => g (l.getD r (freshRow 0))) (unassignRobot_rows _ k)

theorem keptRow_of_notTable {q : Nat} (notTable : ∀ r, pl ≠ .midrow r) (elsewhere : pl ≠ .garage q) : keptRow pl ≠ some q := by
  unfold keptRow
  split
  case h_1 r => exact fun same => elsewhere (by rw [Option.some.inj same])
  case h_2 r => exact absurd rfl (notTable r)
  case h_3 => exact nofun

theorem takeMove_of_notTable (notTable : ∀ r, pl ≠ .midrow r) : y.takeMove k pl = y.putRobot k pl := by
  unfold takeMove
  split
  case h_1 r => exact absurd rfl (notTable r)
  case h_2 => rfl

/-! ### A robot that is adopted (R24) -/

theorem takeMove_of_table {custody : Custody} (h : y.adoptionCustody r k = some custody) :
    y.takeMove k (.midrow r) = y.adopt r k custody := by
  simp only [takeMove, h]

/-- The yard where robot `k` has left its row and its entry for the table of row `r` (R24, step 1). -/
def leftForTable (y : Yard) (k r : Nat) : Yard := (y.leaveRow k (some r)).leaveEntry k r

/-- The yard where row `r` has its custody and holder, and robot `k` stands on its table (R24, steps 1 and 2). -/
def seated (y : Yard) (k r : Nat) (custody : Custody) : Yard :=
  (y.setRow r fun w => { w with custody := custody, holder := some k, timer := none, unconfirmed := false }).moveRobot k (.midrow r)

/-- The yard where the exposure of an adoption is counted and followed. -/
def exposing (y : Yard) (k r : Nat) (custody : Custody) : Yard :=
  y.exposedFollows (if custody = .exposed then
    (y.seated k r custody).countStorm fun n => { n with rowsExposed := bump n.rowsExposed } else y.seated k r custody)

/-- The yard of an adoption before its notice: the claim is ended and the robot has its order home (R24, steps 3 and 4). -/
def adopted (y : Yard) (k r : Nat) (custody : Custody) : Yard :=
  (((y.leftForTable k r).exposing k r custody).endOwnClaim k r).orderHome k r

theorem adopt_eq (y : Yard) (r k : Nat) (custody : Custody) : y.adopt r k custody =
    ((y.adopted k r custody).notify .plant .rowAdopted (r, 0, 0) (k * 256 + custody.code)).judgeAllStowed := rfl

theorem robot_leftForTable_keeps {α : Type} {g : Robot → α} (keeps : ∀ b : Robot, g { b with roundLink := none } = g b)
    (y : Yard) (k r j : Nat) : g ((y.leftForTable k r).robot j) = g (y.robot j) :=
  (robot_leaveEntry_keeps keeps _ k r j).trans (robot_leaveRow_keeps keeps y k _ j)

theorem row_leftForTable (y : Yard) (k r : Nat) : (y.leftForTable k r).row r = y.row r :=
  (congrArg (List.getD · r (freshRow 0)) (leaveEntry_rows _ k r)).trans (row_leaveRow_kept y k r)

theorem leftForTable_keeps (y : Yard) (k r : Nat) : Keeps y (y.leftForTable k r) :=
  (Keeps.leaveRow y k (some r)).trans (Keeps.leaveEntry _ k r)

/-- Row `r` of the seated yard, but for its garage's occupant. -/
theorem row_seated {α : Type} {g : Row → α} (keeps : ∀ (w : Row) (o : Option Nat), g { w with garageOccupant := o } = g w)
    (there : r < y.rows.length) (custody : Custody) : g ((y.seated k r custody).row r) =
      g { y.row r with custody := custody, holder := some k, timer := none, unconfirmed := false } := by
  rw [seated, row_moveRobot_keeps keeps, row_setRow_same y there]

theorem custody_seated_ne {q : Nat} (h : q ≠ r) (custody : Custody) :
    ((y.seated k r custody).row q).custody = (y.row q).custody := by
  rw [seated, row_moveRobot_keeps (g := Row.custody) fun _ _ => rfl, row_setRow_ne y h]

theorem robot_seated (slot : k < y.robots.length) (custody : Custody) :
    (y.seated k r custody).robot k = { y.robot k with place := .midrow r } :=
  robot_moveRobot (by simpa using slot) _

theorem anyExposed_iff : y.anyExposed = true ↔ ∃ q, (y.row q).custody = .exposed := by
  simp only [anyExposed, List.any_eq_true, beq_iff_eq]
  constructor
  · rintro ⟨w, mem, exposed⟩
    obtain ⟨q, there, rfl⟩ := List.mem_iff_getElem.1 mem
    exact ⟨q, by simpa [row, List.getD_eq_getElem?_getD, there] using exposed⟩
  · rintro ⟨q, exposed⟩
    by_cases there : q < y.rows.length
    · refine ⟨y.rows[q], List.getElem_mem there, ?_⟩
      simpa [row, List.getD_eq_getElem?_getD, there] using exposed
    · simp [row, List.getD_eq_getElem?_getD, there, freshRow] at exposed

/-- A row that goes to OPEN is no rise of the exposure. -/
theorem anyExposed_seated_open (there : r < y.rows.length) (h : (y.seated k r .open).anyExposed = true) :
    y.anyExposed = true := by
  obtain ⟨q, exposed⟩ := anyExposed_iff.1 h
  by_cases own : q = r
  · subst own
    rw [row_seated (g := Row.custody) (fun _ _ => rfl) there] at exposed
    cases exposed
  · rw [custody_seated_ne own] at exposed
    exact anyExposed_iff.2 ⟨q, exposed⟩

/-- A row that goes from another custody than EXPOSED to OPEN leaves the exposure as it is. -/
theorem exposing_open (there : r < y.rows.length) (custody : (y.row r).custody ≠ .exposed) :
    y.exposing k r .open = y.seated k r .open := by
  have same : y.anyExposed = (y.seated k r .open).anyExposed := by
    refine Bool.eq_iff_iff.2 ⟨fun exposed => ?_, anyExposed_seated_open there⟩
    obtain ⟨q, at'⟩ := anyExposed_iff.1 exposed
    have other : q ≠ r := by rintro rfl; exact custody at'
    exact anyExposed_iff.2 ⟨q, (custody_seated_ne other _).trans at'⟩
  exact if_pos same

/-- The exposure leaves the tables as the robot's seat made them: it can rise in a storm alone. -/
theorem exposing_sameTables (there : r < y.rows.length) {custody : Custody}
    (h : custody = .open ∨ y.mild = false) : (y.seated k r custody).sameTables (y.exposing k r custody) := by
  refine exposedFollows_sameTables (z := if custody = .exposed then (y.seated k r custody).countStorm fun n =>
    { n with rowsExposed := bump n.rowsExposed } else y.seated k r custody) ?_ ?_
  · obtain rfl | storm := h
    · exact .inr (anyExposed_seated_open there)
    · have seatedStorm : (y.seated k r custody).mild = false :=
        (congrArg (fun st : Storm => st.state == .calm || st.state == .warned) (moveRobot_storm _ k (.midrow r))).trans storm
      left
      split <;> exact seatedStorm
  · split <;> exact sameTables_refl _

/-! #### The end of an adoption -/

theorem judgeAllStowed_sameTables (y : Yard) : y.sameTables y.judgeAllStowed := by
  unfold judgeAllStowed
  split
  · exact followWith_sameTables (z := y.changeStorm .parked .allStowed none) (.inl rfl) (sameTables_refl y)
  · exact sameTables_refl y

theorem judgeAllStowed_of_open (there : r < y.rows.length) (custody : (y.row r).custody = .open) :
    y.judgeAllStowed = y := by
  refine if_neg fun ⟨_, stowed⟩ => ?_
  have mem : y.row r ∈ y.rows := by
    simp [row, List.getD_eq_getElem?_getD, there]
  have both := y.allStowed_iff.1 stowed _ mem
  simp [custody] at both

/-- A notice and the judgment of the stowing leave the tables. -/
theorem notify_judgeAllStowed_sameTables (y : Yard) (p : Port) (kind : NoticeKind) (subject : Nat × Nat × Nat) (detail : Nat) :
    y.sameTables (y.notify p kind subject detail).judgeAllStowed :=
  judgeAllStowed_sameTables (y.notify p kind subject detail)

/-- A notice, and the judgment of the stowing where a row is OPEN, give no assignment event. -/
theorem notify_judgeAllStowed_assign (there : r < y.rows.length) (custody : (y.row r).custody = .open) (p : Port)
    (kind : NoticeKind) (subject : Nat × Nat × Nat) (detail : Nat) :
    (y.notify p kind subject detail).judgeAllStowed.assign = y.assign := by
  rw [judgeAllStowed_of_open (y := y.notify p kind subject detail) there custody]
  rfl

theorem orderHome_rows (y : Yard) (k r : Nat) : (y.orderHome k r).rows = y.rows := rfl

theorem endOwnClaim_own (entry : y.entryOfRobot k = some e) : y.endOwnClaim k e.row = y.removeEntry e.row := by
  simp [endOwnClaim, entry]

theorem endOwnClaim_cases (y : Yard) (k r : Nat) : y.endOwnClaim k r = y ∨ y.endOwnClaim k r = y.removeEntry r := by
  unfold endOwnClaim
  split
  · split
    · exact .inr rfl
    · exact .inl rfl
  · exact .inl rfl

theorem endOwnClaim_rows (y : Yard) (k r : Nat) : (y.endOwnClaim k r).rows = y.rows := by
  obtain same | removed := y.endOwnClaim_cases k r
  · rw [same]
  · rw [removed, removeEntry_rows]

theorem robot_endOwnClaim_keeps {α : Type} {g : Robot → α} (keeps : ∀ b : Robot, g { b with roundLink := none } = g b)
    (y : Yard) (k r j : Nat) : g ((y.endOwnClaim k r).robot j) = g (y.robot j) := by
  obtain same | removed := y.endOwnClaim_cases k r
  · rw [same]
  · rw [removed, robot_removeEntry_keeps keeps]

theorem endOwnClaim_freed (h : y.freed k e) (other : e.row ≠ r) : (y.endOwnClaim k r).freed k e := by
  obtain same | removed := y.endOwnClaim_cases k r
  · rwa [same]
  · rw [removed]
    exact ⟨(entryOf_removeEntry_ne y other).trans h.1, removeEntry_unlinked h.2 r⟩

theorem adopt_sameTables (y : Yard) (k r : Nat) (custody : Custody) :
    (y.adopted k r custody).sameTables (y.adopt r k custody) := by
  rw [adopt_eq]
  exact notify_judgeAllStowed_sameTables _ _ _ _ _

/-- An adoption gives EXPOSED only in a storm, and OPEN in any state (R24). -/
def custodyFits (y : Yard) (custody : Custody) : Prop := custody = .open ∨ y.mild = false

theorem custodyFits_of_adoption {custody : Custody} (h : y.adoptionCustody r k = some custody) : y.custodyFits custody := by
  rw [adoptionCustody_some h]
  unfold custodyFits
  split
  case isTrue storm =>
    right
    obtain state | state := storm <;> simp [mild, state]
  case isFalse => exact .inl rfl

section Adoption

variable {custody : Custody}

theorem leftForTable_there (there : r < y.rows.length) : r < (y.leftForTable k r).rows.length := by
  rwa [(leftForTable_keeps y k r).rows]

theorem leftForTable_slot (slot : k < y.robots.length) : k < (y.leftForTable k r).robots.length := by
  rwa [Keeps.robots_length (leftForTable_keeps y k r)]

theorem exposing_leftForTable (fits : y.custodyFits custody) (there : r < y.rows.length) :
    ((y.leftForTable k r).seated k r custody).sameTables ((y.leftForTable k r).exposing k r custody) :=
  exposing_sameTables (leftForTable_there there) (fits.imp id (leftForTable_keeps y k r).stormLasts)

/-- The row of an adoption, but for its garage's occupant. -/
theorem row_adopt {α : Type} {g : Row → α} (keeps : ∀ (w : Row) (o : Option Nat), g { w with garageOccupant := o } = g w)
    (fits : y.custodyFits custody) (there : r < y.rows.length) : g ((y.adopt r k custody).row r) =
      g { y.row r with custody := custody, holder := some k, timer := none, unconfirmed := false } := by
  have rows : (y.adopt r k custody).rows = ((y.leftForTable k r).seated k r custody).rows :=
    calc (y.adopt r k custody).rows = (y.adopted k r custody).rows := (adopt_sameTables y k r custody).1
      _ = ((y.leftForTable k r).exposing k r custody).rows := endOwnClaim_rows _ k r
      _ = ((y.leftForTable k r).seated k r custody).rows := (exposing_leftForTable fits there).1
  refine (congrArg (fun l : List Row => g (l.getD r (freshRow 0))) rows).trans ?_
  refine (row_seated keeps (leftForTable_there there) custody).trans ?_
  rw [row_leftForTable]

/-- The robot of an adoption before its order, but for its link. -/
theorem robot_exposing {α : Type} {g : Robot → α} (keeps : ∀ b : Robot, g { b with roundLink := none } = g b)
    (fits : y.custodyFits custody) (there : r < y.rows.length) :
    g ((((y.leftForTable k r).exposing k r custody).endOwnClaim k r).robot k) =
      g (((y.leftForTable k r).seated k r custody).robot k) := by
  refine (robot_endOwnClaim_keeps keeps _ k r k).trans ?_
  exact congrArg (fun l : List Robot => g (l.getD k (freshRobot false 0 none))) (exposing_leftForTable fits there).2.1

theorem exposing_slot (slot : k < y.robots.length) (fits : y.custodyFits custody) (there : r < y.rows.length) :
    k < (((y.leftForTable k r).exposing k r custody).endOwnClaim k r).robots.length := by
  have tables := (exposing_leftForTable (k := k) fits there).2.1
  rw [Keeps.robots_length (Keeps.endOwnClaim _ k r), tables, seated,
    Keeps.robots_length (Keeps.moveRobot _ k _)]
  exact leftForTable_slot slot

theorem robot_adopt (slot : k < y.robots.length) (fits : y.custodyFits custody) (there : r < y.rows.length) :
    ((y.adopt r k custody).robot k).place = .midrow r ∧ ((y.adopt r k custody).robot k).task = .toGarage ∧
    ((y.adopt r k custody).robot k).order = some ⟨.toGarage r, ((y.robot k).lastSerial + 1) % 256⟩ := by
  have same : (y.adopt r k custody).robot k = (y.adopted k r custody).robot k :=
    congrArg (List.getD · k (freshRobot false 0 none)) (adopt_sameTables y k r custody).2.1
  have seat := robot_seated (y := y.leftForTable k r) (r := r) (leftForTable_slot slot) custody
  have place : ((((y.leftForTable k r).exposing k r custody).endOwnClaim k r).robot k).place = .midrow r := by
    rw [robot_exposing (g := Robot.place) (fun _ => rfl) fits there, seat]
  have serial : ((((y.leftForTable k r).exposing k r custody).endOwnClaim k r).robot k).lastSerial = (y.robot k).lastSerial := by
    rw [robot_exposing (g := Robot.lastSerial) (fun _ => rfl) fits there, seat]
    exact robot_leftForTable_keeps (g := Robot.lastSerial) (fun _ => rfl) y k r k
  rw [same, adopted, robot_orderHome (exposing_slot slot fits there), place, serial]
  exact ⟨rfl, rfl, rfl⟩

/-- What an adoption leaves of the robot's entry. -/
theorem adopt_entry (slot : k < y.robots.length) (there : r < y.rows.length) (fits : y.custodyFits custody)
    (distinct : y.listDistinct) (entry : y.entryOfRobot k = some e) :
    ((y.adopt r k custody).robot k).roundLink = none ∧ (e.row = r → (y.adopt r k custody).entryOf r = none) ∧
      (e.row ≠ r → (y.adopt r k custody).entryOf e.row = some e.free) := by
  obtain ⟨-, -, list⟩ := adopt_sameTables y k r custody
  have robotSame : (y.adopt r k custody).robot k = (y.adopted k r custody).robot k :=
    congrArg (List.getD · k (freshRobot false 0 none)) (adopt_sameTables y k r custody).2.1
  have entrySame (q : Nat) : (y.adopt r k custody).entryOf q =
      (((y.leftForTable k r).exposing k r custody).endOwnClaim k r).entryOf q :=
    congrArg (List.find? fun x : Entry => x.row == q) list
  have link : ((y.adopt r k custody).robot k).roundLink =
      ((((y.leftForTable k r).exposing k r custody).endOwnClaim k r).robot k).roundLink := by
    rw [robotSame, adopted, robot_orderHome (exposing_slot slot fits there)]
  have exposed := exposing_leftForTable (k := k) fits there
  have listSame : ((y.leftForTable k r).exposing k r custody).rounds.list = (y.leftForTable k r).rounds.list :=
    exposed.2.2.trans (congrArg Rounds.list (moveRobot_rounds _ k _))
  have linkSame : (((y.leftForTable k r).exposing k r custody).robot k).roundLink = ((y.leftForTable k r).robot k).roundLink := by
    have seat := congrArg Robot.roundLink (robot_seated (y := y.leftForTable k r) (r := r) (leftForTable_slot slot) custody)
    exact (congrArg (fun l : List Robot => (l.getD k (freshRobot false 0 none)).roundLink) exposed.2.1).trans seat
  have leftDistinct : (y.leftForTable k r).listDistinct := (leftForTable_keeps y k r).listDistinct distinct
  have afterRow := leaveRow_entry distinct entry (some r)
  have rowDistinct : (y.leaveRow k (some r)).listDistinct := (Keeps.leaveRow y k _).listDistinct distinct
  by_cases own : e.row = r
  · subst own
    have still : (y.leaveRow k (some e.row)).entryOfRobot k = some e := afterRow.resolve_right fun h => h.2 rfl
    have left : (y.leftForTable k e.row).entryOfRobot k = some e := by rwa [leftForTable, leaveEntry_own still]
    have found : ((y.leftForTable k e.row).exposing k e.row custody).entryOfRobot k = some e :=
      (congrArg (List.find? fun x : Entry => x.robot == some k) listSame).trans left
    have at' : ((y.leftForTable k e.row).exposing k e.row custody).entryOf e.row = some e :=
      (congrArg (List.find? fun x : Entry => x.row == e.row) listSame).trans (entryOf_of_robot leftDistinct left)
    rw [link, entrySame, endOwnClaim_own found]
    exact ⟨removeEntry_unlinks at' (entryOfRobot_robot found), fun _ => entryOf_removeEntry_same _ _, fun h => absurd rfl h⟩
  · have free : (y.leftForTable k r).freed k e := leaveEntry_freed rowDistinct (afterRow.imp id And.left) own
    have ended := endOwnClaim_freed (freed_of_same free listSame linkSame) own
    exact ⟨link.trans ended.2, fun h => absurd h own, fun _ => (entrySame e.row).trans ended.1⟩

theorem orderRobot_assign (slot : k < y.robots.length) (o : RobotOrder) : (y.orderRobot k o).assign = y.assign := by
  rw [orderRobot, setRobot_of_unavailable slot (Robot.available_of_order (Option.some_ne_none _))]

theorem orderHome_assign (slot : k < y.robots.length) (r : Nat) : (y.orderHome k r).assign = y.assign := by
  have slotToo : k < (y.orderRobot k (.toGarage r)).robots.length := by simpa [orderRobot] using slot
  have busy : Robot.available { (y.orderRobot k (.toGarage r)).robot k with task := .toGarage } = false :=
    Robot.available_of_task nofun
  rw [orderHome, setRobot_of_unavailable slotToo busy]
  exact orderRobot_assign slot _

theorem moveRobot_assign_table (y : Yard) (k r : Nat) : (y.moveRobot k (.midrow r)).assign = y.assign := by
  have vacated : (y.vacate k).assign = y.assign := by
    unfold vacate
    split <;> rfl
  rw [moveRobot, setRobot_assign, makesAvailable_onTable (r := r) rfl, Bool.or_false]
  exact vacated

theorem seated_assign (y : Yard) (k r : Nat) (custody : Custody) : (y.seated k r custody).assign = y.assign :=
  moveRobot_assign_table _ k r

/-- A robot that is adopted on the row that it holds, with no entry for another row, gives no assignment event. -/
theorem adopt_assign (slot : k < y.robots.length) (there : r < y.rows.length) (notExposed : (y.row r).custody ≠ .exposed)
    (distinct : y.listDistinct) (held : y.rowHeldBy k = some r) (own : ∀ e, y.entryOfRobot k = some e → e.row = r) :
    (y.adopt r k .open).assign = y.assign := by
  have stays : y.leftForTable k r = y := by
    rw [leftForTable, leaveRow_of_kept held]
    cases entry : y.entryOfRobot k with
    | none => exact leaveEntry_none entry r
    | some e =>
      rw [← own e entry]
      exact leaveEntry_own entry
  have exposed : (y.leftForTable k r).exposing k r .open = y.seated k r .open := by rw [stays, exposing_open there notExposed]
  have ended : ((y.seated k r .open).endOwnClaim k r).assign = y.assign := by
    rw [← seated_assign y k r .open]
    have list : (y.seated k r .open).rounds.list = y.rounds.list := congrArg Rounds.list (moveRobot_rounds _ k _)
    cases entry : y.entryOfRobot k with
    | none =>
      have none' : (y.seated k r .open).entryOfRobot k = none :=
        (congrArg (List.find? fun x : Entry => x.robot == some k) list).trans entry
      simp only [endOwnClaim, none']
    | some e =>
      have found : (y.seated k r .open).entryOfRobot k = some e :=
        (congrArg (List.find? fun x : Entry => x.robot == some k) list).trans entry
      have at' : (y.seated k r .open).entryOf e.row = some e :=
        (congrArg (List.find? fun x : Entry => x.row == e.row) list).trans (entryOf_of_robot distinct entry)
      have row := own e entry
      subst row
      rw [endOwnClaim_own found]
      exact removeEntry_assign_onTable (q := e.row) at' (entryOfRobot_robot found) (by rw [robot_seated slot])
  have rows : (y.adopted k r .open).rows = (y.seated k r .open).rows :=
    (endOwnClaim_rows _ k r).trans (congrArg Yard.rows exposed)
  have opened : ((y.adopted k r .open).row r).custody = .open :=
    (congrArg (fun l : List Row => (l.getD r (freshRow 0)).custody) rows).trans
      (row_seated (g := Row.custody) (fun _ _ => rfl) there .open)
  have thereToo : r < (y.adopted k r .open).rows.length := by
    rw [rows, seated, (Keeps.moveRobot _ k (.midrow r)).rows]
    simpa using there
  rw [adopt_eq, notify_judgeAllStowed_assign thereToo opened, adopted,
    orderHome_assign (exposing_slot slot (.inl rfl) there), exposed]
  exact ended

end Adoption

/-! ### A report is judged (R38) -/

section Judging

variable {place : Option Place}

theorem judgePlace_of_unknown (h : place = none) : y.judgePlace k place = y.refuseReport .range := by
  subst h
  rfl

theorem judgePlace_of_absent (h : place = some pl) (absent : y.placeExists pl = false) :
    y.judgePlace k place = y.refuseReport .range := by
  subst h
  exact if_pos (by simp [absent])

theorem judgePlace_of_same (h : place = some pl) (there : y.placeExists pl = true) (same : pl = (y.robot k).place) :
    y.judgePlace k place = (y, .ok []) := by
  subst h
  exact (if_neg (by simp [there])).trans (if_pos same)

theorem judgePlace_of_other (h : place = some pl) (there : y.placeExists pl = true) (other : pl ≠ (y.robot k).place) :
    y.judgePlace k place =
      if (y.robot k).order.isSome || (y.transferOfRobot k).isSome then y.refuseReport .place
      else if !y.placeTaken k pl then y.refuseReport (placeReason pl)
      else (y.afterMove (y.robot k).place (y.takeMove k pl), .ok []) := by
  subst h
  exact (if_neg (by simp [there])).trans (if_neg other)

theorem judgePlace_of_busy (h : place = some pl) (there : y.placeExists pl = true) (other : pl ≠ (y.robot k).place)
    (busy : (y.robot k).order.isSome = true ∨ (y.transferOfRobot k).isSome = true) :
    y.judgePlace k place = y.refuseReport .place := by
  rw [judgePlace_of_other h there other, if_pos (by simpa using busy)]

theorem judgePlace_of_taken (h : place = some pl) (there : y.placeExists pl = true) (other : pl ≠ (y.robot k).place)
    (order : (y.robot k).order = none) (transfer : y.transferOfRobot k = none) (taken : y.placeTaken k pl = true) :
    y.judgePlace k place = (y.afterMove (y.robot k).place (y.takeMove k pl), .ok []) := by
  rw [judgePlace_of_other h there other, if_neg (by simp [order, transfer]), if_neg (by simp [taken])]

theorem judgePlace_of_occupied (h : place = some pl) (there : y.placeExists pl = true) (other : pl ≠ (y.robot k).place)
    (order : (y.robot k).order = none) (transfer : y.transferOfRobot k = none) (occupied : y.placeTaken k pl = false) :
    y.judgePlace k place = y.refuseReport (placeReason pl) := by
  rw [judgePlace_of_other h there other, if_neg (by simp [order, transfer]), if_pos (by simp [occupied])]

theorem takeRobotStatus_of_charge {body : List Byte} (enrolled : y.enrolled (byteAt body 0) = true) (charge : byteAt body 3 ≤ 100) :
    y.takeRobotStatus body = ((y.touchRobot (byteAt body 0)).takeCharge (byteAt body 0) (byteAt body 3)).judgePlace
      (byteAt body 0) (placeOf (byteAt body 1) (byteAt body 2)) :=
  (if_neg (by simp [enrolled])).trans (if_neg (Nat.not_lt.2 charge))

theorem takeCharge_touchRobot (y : Yard) (k charge : Nat) : (y.touchRobot k).takeCharge k charge =
    if charge < y.settings.chargeMin ∧ y.settings.chargeMin ≤ (y.robot k).charge then
      ((y.touchRobot k).writeCharge k charge).robotLow k
    else (y.touchRobot k).writeCharge k charge := by
  have charge' : ((y.touchRobot k).robot k).charge = (y.robot k).charge :=
    robot_touchRobot_keeps (g := Robot.charge) (fun _ _ => rfl) y k k
  rw [takeCharge, charge']
  rfl

theorem robotLow_of_garage (h : ((y.pulse 14).robot k).place = .garage r) :
    y.robotLow k = (y.pulse 14).rechargeTry arbiterPass := by
  simp only [robotLow, h]

theorem robotLow_of_elsewhere (h : ∀ r, ((y.pulse 14).robot k).place ≠ .garage r) : y.robotLow k = y.pulse 14 := by
  unfold robotLow
  dsimp only
  split
  case h_1 r garage => exact absurd garage (h r)
  case h_2 => rfl

theorem placeExists_iff (r d c : Nat) : y.placeExists .unknown = true ∧
    (y.placeExists (.dock d) = true ↔ d < y.settings.docks) ∧ (y.placeExists (.garage r) = true ↔ r < y.rows.length) ∧
    (y.placeExists (.midrow r) = true ↔ r < y.rows.length) ∧
    (y.placeExists (.aboard c) = true ↔ c < y.settings.carriages) := by
  simp [placeExists]

theorem writeCharge_rest (y : Yard) (k charge : Nat) :
    { y.writeCharge k charge with robots := y.robots, assign := y.assign } = y := by
  rw [writeCharge_robots]

/-- What the charge of a report leaves: everything but the robot's record. -/
theorem charged_same (y : Yard) (k charge : Nat) :
    ((y.touchRobot k).writeCharge k charge).rows = y.rows ∧ ((y.touchRobot k).writeCharge k charge).settings = y.settings ∧
      ((y.touchRobot k).writeCharge k charge).rail = y.rail ∧
      ((y.touchRobot k).writeCharge k charge).refusedReports = y.refusedReports := by
  rw [writeCharge_robots]
  exact ⟨rfl, rfl, rfl, rfl⟩

theorem robot_charged_keeps {α : Type} {g : Robot → α} (heard : ∀ (b : Robot) (t : Option Nat), g { b with silent := false, silenceTimer := t } = g b)
    (charged : ∀ (z : Yard) (charge : Nat) (b : Robot), g (z.withCharge charge b) = g b)
    (tasked : ∀ (b : Robot) (t : RobotTask), g { b with task := t } = g b) (y : Yard) (k charge : Nat) :
    g (((y.touchRobot k).writeCharge k charge).robot k) = g (y.robot k) :=
  (robot_writeCharge_keeps (charged _ _) tasked k).trans (robot_touchRobot_keeps heard y k k)

theorem placeExists_congr {y z : Yard} (rows : z.rows = y.rows) (settings : z.settings = y.settings) (pl : Place) :
    z.placeExists pl = y.placeExists pl := by
  unfold placeExists
  rw [rows, settings]

end Judging

end Yard

/-- Settles O22: a report by its checks in their order, the adoption and the other places that are taken, and the charge. -/
theorem robotStatusTaken : Obligations.RobotStatusTaken := by
  refine ⟨fun p body s taken between => ?report, fun y k => ⟨fun r => Yard.robotLow_of_garage, Yard.robotLow_of_elsewhere⟩,
    fun y k r custody adopts slot there => ?adoption, fun y k r d c => ⟨Yard.placeTaken_dock_iff, Yard.placeTaken_garage_iff,
      Yard.placeTaken_aboard_iff, Yard.placeTaken_midrow_iff, rfl, Yard.adoptionCustody_eq_none_iff,
      Yard.placeExists_iff r d c⟩,
    fun y k pl slot notTable => ?put, Robot.restTask_cases, fun y k charge slot => ?charge⟩
  case charge =>
    exact ⟨Yard.robot_writeCharge_resting slot, Yard.robot_writeCharge_busy slot, fun j => Yard.robot_writeCharge_ne,
      y.writeCharge_rest k charge, Yard.writeCharge_assign slot⟩
  case adoption =>
    have fits := Yard.custodyFits_of_adoption adopts
    rw [Yard.takeMove_of_table adopts]
    obtain ⟨place, task, order⟩ := Yard.robot_adopt slot fits there
    refine ⟨Yard.adoptionCustody_some adopts, ⟨?_, ?_, ?_, ?_, ?_, ?_, ?_⟩, place, task, order,
      fun opened notExposed distinct => ⟨fun e => Yard.adopt_entry slot there fits distinct, fun held own => ?_⟩⟩
    · exact Yard.row_adopt (g := Row.custody) (fun _ _ => rfl) fits there
    · exact Yard.row_adopt (g := Row.holder) (fun _ _ => rfl) fits there
    · exact Yard.row_adopt (g := Row.timer) (fun _ _ => rfl) fits there
    · exact Yard.row_adopt (g := Row.unconfirmed) (fun _ _ => rfl) fits there
    · exact Yard.row_adopt (g := Row.reported) (fun _ _ => rfl) fits there
    · exact Yard.row_adopt (g := Row.age) (fun _ _ => rfl) fits there
    · exact Yard.row_adopt (g := Row.soiling) (fun _ _ => rfl) fits there
    · subst opened
      exact Yard.adopt_assign slot there notExposed distinct held own
  case put =>
    rw [Yard.takeMove_of_notTable notTable]
    refine ⟨by rw [Yard.robot_putRobot slot], Yard.restTask_putRobot slot pl, fun q held elsewhere claimed => ?_,
      fun distinct e entry => (Yard.putRobot_freed slot distinct entry).symm⟩
    have given := Yard.row_giveUpRow held claimed
    rw [← Yard.leaveRow_of_left held (Yard.keptRow_of_notTable notTable elsewhere)] at given
    refine ⟨(Yard.row_putRobot_keeps (g := Row.custody) (fun _ _ => rfl) y k pl q).trans ?_,
      (Yard.row_putRobot_keeps (g := Row.holder) (fun _ _ => rfl) y k pl q).trans ?_,
      (Yard.row_putRobot_keeps (g := Row.timer) (fun _ _ => rfl) y k pl q).trans ?_⟩
    all_goals rw [given]
  case report =>
    intro k charge b heard charged falls quiet
    have judged {told : Yard} (enrolled : s.yard.enrolled k = true) (fits : charge ≤ 100)
        (telling : (if falls then charged.robotLow k else charged) = told) :
        s.yard.takeRobotStatus body = told.judgePlace k (placeOf (byteAt body 1) (byteAt body 2)) :=
      (Yard.takeRobotStatus_of_charge enrolled fits).trans
        (congrArg (Yard.judgePlace · k _) ((s.yard.takeCharge_touchRobot k charge).trans telling))
    have refuses {told : Yard} {why : Reason} (effect : s.yard.takeRobotStatus body = told.refuseReport why) :
        exec (.robotStatus p body) s =
          .next ((s.afterEvent { told with refusedReports := bump told.refusedReports }).answered p 0x20 (.refuse why)) :=
      exec_onYard (k := .robotStatus) taken rfl effect
    have takes {z : Yard} (effect : s.yard.takeRobotStatus body = (z, .ok [])) :
        exec (.robotStatus p body) s = .next ((s.afterEvent z).answered p 0x20 (.ok [])) :=
      exec_onYard (k := .robotStatus) taken rfl effect
    obtain ⟨rows, settings, rail, reports⟩ := s.yard.charged_same k charge
    have exists' (pl : Place) : charged.placeExists pl = s.yard.placeExists pl := Yard.placeExists_congr rows settings pl
    have place : (charged.robot k).place = b.place :=
      Yard.robot_charged_keeps (g := Robot.place) (fun _ _ => rfl) (fun _ _ _ => rfl) (fun _ _ => rfl) s.yard k charge
    have order : (charged.robot k).order = b.order :=
      Yard.robot_charged_keeps (g := Robot.order) (fun _ _ => rfl) (fun _ _ _ => rfl) (fun _ _ => rfl) s.yard k charge
    have transfer : charged.transferOfRobot k = s.yard.transferOfRobot k :=
      congrArg (fun rail : Rail => rail.queue.find? fun t : Transfer => t.robot == k) rail
    refine ⟨fun ⟨enrolled, fits, high⟩ names there => ?_, fun enrolled fits low => ?_, fun enrolled fits => ?_,
      fun pl ⟨enrolled, fits, high⟩ names other there => ?_, fun enrolled excess => ?_, fun unknown => ?_⟩
    · exact takes ((judged enrolled fits (if_neg high)).trans
        (Yard.judgePlace_of_same names ((exists' _).trans there) place.symm))
    · intro told names there
      exact takes ((judged enrolled fits (if_pos low)).trans (Yard.judgePlace_of_same names there rfl))
    · intro told turned
      have toldJudged := judged (told := told) enrolled fits rfl
      refine ⟨fun none => refuses (toldJudged.trans (Yard.judgePlace_of_unknown none)), fun pl names =>
        ⟨fun absent => refuses (toldJudged.trans (Yard.judgePlace_of_absent names absent)), fun there other =>
          ⟨fun busy => refuses (toldJudged.trans (Yard.judgePlace_of_busy names there other busy)), fun order transfer =>
            ⟨fun free => takes (toldJudged.trans (Yard.judgePlace_of_taken names there other order transfer free)),
              fun occupied => ?_⟩⟩⟩⟩
      have refused := refuses (toldJudged.trans (Yard.judgePlace_of_occupied names there other order transfer occupied))
      cases pl <;> exact refused
    · have thereToo := (exists' pl).trans there
      have otherToo : pl ≠ (charged.robot k).place := by rwa [place]
      have effect := judged enrolled fits (if_neg high)
      refine ⟨fun busy => ?_, fun noOrder noTransfer => ⟨fun free => ?_, fun occupied => ?_⟩⟩
      · refine (refuses (effect.trans (Yard.judgePlace_of_busy names thereToo otherToo ?_))).trans ?_
        · rwa [order, transfer]
        · rw [show charged.refusedReports = s.yard.refusedReports from reports]
      · refine (takes (effect.trans (Yard.judgePlace_of_taken names thereToo otherToo (order.trans noOrder)
          (transfer.trans noTransfer) free))).trans ?_
        rw [place]
      · refine (refuses (effect.trans (Yard.judgePlace_of_occupied names thereToo otherToo (order.trans noOrder)
          (transfer.trans noTransfer) occupied))).trans ?_
        rw [show charged.refusedReports = s.yard.refusedReports from reports]
    · exact refuses ((if_neg (by simp [show s.yard.enrolled (byteAt body 0) = true from enrolled])).trans (if_pos excess))
    · exact exec_onYard_refuses (k := .robotStatus) taken rfl between
        (if_pos (by simp [show s.yard.enrolled (byteAt body 0) = false from unknown]))

end Sys2Proof.Machine

/-! SUPPORT. Order Done (R39 to R41, R66 to R71): a completion by its serial, its outcome and the order in force, and what a
completion or a failure of a carriage does to its task. -/

namespace Sys2Proof.Machine

namespace Yard

variable {y : Yard} {k c serial outcome data : Nat}

/-- The outcome and its data are in range (R39, step 2). -/
def outcomeFits (y : Yard) (outcome data : Nat) : Prop := outcome ≤ 4 ∧ (outcome = 2 → data < y.rows.length)

theorem outcomeFits_iff : y.outcomeFits outcome data ↔ ¬(4 < outcome ∨ (outcome = 2 ∧ y.rows.length ≤ data)) := by
  unfold outcomeFits
  omega

theorem outcomeFits_of_ne {outcome data : Nat} (low : outcome ≤ 4) (other : outcome ≠ 2) : y.outcomeFits outcome data :=
  ⟨low, fun h => absurd h other⟩

/-! ### A robot's completion (R39, R40) -/

theorem robotOutcome_of_range {o : RobotOrder} (h : ¬y.outcomeFits outcome data) :
    y.robotOutcome k o outcome data = y.refuseReport .range := if_pos (not_not.1 (h ∘ outcomeFits_iff.2))

theorem robotOutcome_of_fits {o : RobotOrder} (h : y.outcomeFits outcome data) : y.robotOutcome k o outcome data =
    match (generalizing := false) o, outcome with
    | .pass r kind, 0 => y.robotCompletes k r (some (kind, data))
    | .toGarage r, 1 => y.robotCompletes k r none
    | _, _ => y.refuseReport .order := if_neg (outcomeFits_iff.1 h)

theorem robotOutcome_of_home {r : Nat} : y.robotOutcome k (.toGarage r) 1 data = y.robotCompletes k r none :=
  robotOutcome_of_fits (outcomeFits_of_ne (by omega) (by omega))

theorem robotOutcome_of_pass {r : Nat} {kind : PassKind} :
    y.robotOutcome k (.pass r kind) 0 data = y.robotCompletes k r (some (kind, data)) :=
  robotOutcome_of_fits (outcomeFits_of_ne (by omega) (by omega))

theorem robotOutcome_of_notHome {r : Nat} (h : y.outcomeFits outcome data) (other : outcome ≠ 1) :
    y.robotOutcome k (.toGarage r) outcome data = y.refuseReport .order := by
  rw [robotOutcome_of_fits h]
  split
  case h_1 pass => cases pass
  case h_2 => exact absurd rfl other
  case h_3 => rfl

theorem robotOutcome_of_notPass {r : Nat} {kind : PassKind} (h : y.outcomeFits outcome data) (other : outcome ≠ 0) :
    y.robotOutcome k (.pass r kind) outcome data = y.refuseReport .order := by
  rw [robotOutcome_of_fits h]
  split
  case h_1 => exact absurd rfl other
  case h_2 home => cases home
  case h_3 => rfl

theorem robotCompletes_of_free {r : Nat} {result : Option (PassKind × Nat)} (reserved : (y.row r).garageReserved = none)
    (occupant : (y.row r).garageOccupant = none ∨ (y.row r).garageOccupant = some k) :
    y.robotCompletes k r result = (y.robotHome k r result, .ok []) := by
  refine if_neg ?_
  obtain empty | own := occupant
  · simp [reserved, empty]
  · simp [reserved, own]

theorem robotCompletes_of_taken {r : Nat} {result : Option (PassKind × Nat)} (taken : (y.row r).garageReserved.isSome = true ∨
    (∃ j, (y.row r).garageOccupant = some j ∧ j ≠ k)) : y.robotCompletes k r result = y.refuseReport .place := by
  refine if_pos ?_
  obtain reserved | ⟨j, occupant, other⟩ := taken
  · exact .inr reserved
  · exact .inl (by simp [occupant, other])

theorem robotDone_of_order {o : RobotOrder} (enrolled : y.enrolled k = true) (order : (y.robot k).order = some ⟨o, serial⟩) :
    y.robotDone k serial outcome data = (y.touchRobot k).robotOutcome k o outcome data := by
  have same : ((y.touchRobot k).robot k).order = some ⟨o, serial⟩ :=
    (robot_touchRobot_keeps (g := Robot.order) (fun _ _ => rfl) y k k).trans order
  refine (if_neg (by simp [enrolled])).trans ?_
  simp only [same, if_true]

theorem robotDone_of_stale (enrolled : y.enrolled k = true) (stale : ∀ o, (y.robot k).order = some o → o.serial ≠ serial) :
    y.robotDone k serial outcome data = (y.touchRobot k).staleReport := by
  have same : ((y.touchRobot k).robot k).order = (y.robot k).order :=
    robot_touchRobot_keeps (g := Robot.order) (fun _ _ => rfl) y k k
  refine (if_neg (by simp [enrolled])).trans ?_
  dsimp only
  rw [same]
  split
  case h_1 o order => exact if_neg (stale o order)
  case h_2 => rfl

/-! ### A carriage's completion (R39, R41) -/

theorem carriageOutcome_of_range {o : CarriageOrder} (h : ¬y.outcomeFits outcome data) :
    y.carriageOutcome c o outcome data = y.refuseReport .range := if_pos (not_not.1 (h ∘ outcomeFits_iff.2))

/-- The outcome with which an order of a carriage is completed (R39). -/
def completing : CarriageOrder → Nat
  | .goto _ | .stay => 2
  | .board _ => 3
  | .alight _ _ => 4

theorem carriageOutcome_of_goto {x : Nat} (there : data < y.rows.length) : y.carriageOutcome c (.goto x) 2 data =
    if data = x then ((y.endCarriageOrder c (some x)).carriageCompleted c, .ok []) else y.refuseArrival c :=
  if_neg (outcomeFits_iff.1 ⟨by omega, fun _ => there⟩)

theorem carriageOutcome_of_stay (there : data < y.rows.length) : y.carriageOutcome c .stay 2 data =
    if y.keepsOrder c data && !y.inOthersSegment c data then ((y.endCarriageOrder c (some data)).arbiterPass, .ok [])
    else y.refuseArrival c :=
  if_neg (outcomeFits_iff.1 ⟨by omega, fun _ => there⟩)

theorem carriageOutcome_of_board {j : Nat} : y.carriageOutcome c (.board j) 3 data =
    (((y.endCarriageOrder c none).moveRobot j (.aboard c)).carriageCompleted c, .ok []) :=
  if_neg (outcomeFits_iff.1 (outcomeFits_of_ne (by omega) (by omega)))

theorem carriageOutcome_of_alight {j : Nat} {pl : Place} : y.carriageOutcome c (.alight j pl) 4 data =
    ((((y.endCarriageOrder c none).moveRobot j pl).carriageCompleted c).judgeTablesClear, .ok []) :=
  if_neg (outcomeFits_iff.1 (outcomeFits_of_ne (by omega) (by omega)))

theorem carriageOutcome_of_other {o : CarriageOrder} (h : y.outcomeFits outcome data) (other : outcome ≠ completing o) :
    y.carriageOutcome c o outcome data = y.refuseReport .order := by
  refine (if_neg (outcomeFits_iff.1 h)).trans ?_
  split
  case h_5 => rfl
  all_goals exact absurd rfl other

theorem carriageDone_of_order {o : CarriageOrder} (there : c < y.settings.carriages)
    (order : (y.carriage c).order = some ⟨o, serial⟩) :
    y.carriageDone c serial outcome data = y.carriageOutcome c o outcome data := by
  refine (if_neg (by simp [carriageExists, there])).trans ?_
  simp only [order, if_true]

theorem carriageDone_of_stale (there : c < y.settings.carriages)
    (stale : ∀ o, (y.carriage c).order = some o → o.serial ≠ serial) :
    y.carriageDone c serial outcome data = y.staleReport := by
  refine (if_neg (by simp [carriageExists, there])).trans ?_
  split
  case h_1 o order => exact if_neg (stale o order)
  case h_2 => rfl

/-! ### What a completion and a failure do (R66 to R71) -/

section Carriage

variable {tag : Nat} {t : Transfer}

/-- The phase of a completed order decides (R67 to R70). -/
theorem carriageCompleted_of_transfer (task : (y.carriage c).task = some (.transfer tag)) (transfer : y.transferOf tag = some t) :
    y.carriageCompleted c = match t.phase with
      | .fetch => y.startPhase tag c .board (.board t.robot)
      | .board => y.carryOn t c
      | .carry => y.startPhase tag c .alight (.alight t.robot t.destination)
      | .alight => y.completeTransfer t c
      | .waiting => y := by
  simp only [carriageCompleted, task, transfer] <;> rfl

theorem carriageCompleted_of_nudge (task : (y.carriage c).task = some .nudge) : y.carriageCompleted c = y.completeNudge c := by
  simp only [carriageCompleted, task]

theorem carriageCompleted_of_none (task : (y.carriage c).task = none) : y.carriageCompleted c = y.arbiterPass := by
  simp only [carriageCompleted, task]

theorem failCarriage_of_transfer {result : TransferResult} (task : (y.carriage c).task = some (.transfer tag))
    (transfer : ((y.carriageFaults c).keepSegmentsFaulted c).transferOf tag = some t) : y.failCarriage c result =
      (closeTransfer t result ((y.carriageFaults c).keepSegmentsFaulted c)).judgeHoldoff hand := by
  simp only [failCarriage, task, transfer]

theorem failCarriage_of_nudge {result : TransferResult} (task : (y.carriage c).task = some .nudge) : y.failCarriage c result =
    (((y.carriageFaults c).keepSegmentsFaulted c).setNudge c none).judgeHoldoff hand := by
  simp only [failCarriage, task]

theorem failCarriage_of_none {result : TransferResult} (task : (y.carriage c).task = none) :
    y.failCarriage c result = (y.carriageFaults c).keepSegmentsFaulted c := by
  simp only [failCarriage, task]

/-- The tag that an entry was found by is its own. -/
theorem tag_of_transferOf (h : y.transferOf tag = some t) : t.tag = tag := by
  simpa using List.find?_some h

end Carriage

end Yard

/-- Settles O23: the robots' and the carriages' completions by the checks of R39, and a completion's or a failure's effect by the
carriage's task. -/
theorem orderDoneTaken : Obligations.OrderDoneTaken := by
  refine ⟨fun p body s taken between => ?reports, fun y c => ?carriage⟩
  case carriage =>
    intro phase freed fault
    refine ⟨fun tag t task transfer => ?_, fun nudge => ⟨Yard.carriageCompleted_of_nudge nudge,
      fun result => Yard.failCarriage_of_nudge nudge⟩, fun idle => ⟨Yard.carriageCompleted_of_none idle,
      fun result => Yard.failCarriage_of_none idle⟩⟩
    intro there
    have own := Yard.tag_of_transferOf transfer
    have completes := Yard.carriageCompleted_of_transfer task transfer
    refine ⟨fun fetch => ?_, fun board stands => ?_, fun board stands => ?_, fun carry => ?_, fun alight => ?_,
      fun result failed => Yard.failCarriage_of_transfer task failed⟩
    · rw [completes, fetch]
      rfl
    · rw [completes, board]
      refine (if_pos stands).trans ?_
      rw [own]
      rfl
    · rw [completes, board]
      refine (if_neg stands).trans ?_
      rw [own]
      rfl
    · rw [completes, carry]
      rfl
    · rw [completes, alight]
      rfl
  case reports =>
    intro k serial outcome data heard ended bounds
    have takes {z : Yard} {reply : Reply} (effect : s.yard.takeOrderDone body = (z, reply)) :
        exec (.orderDone p body) s = .next ((s.afterEvent z).answered p 0x21 reply) :=
      exec_onYard (k := .orderDone) taken rfl effect
    refine ⟨fun robot enrolled => ?_, fun low high there => ?_, fun unknown => ?_⟩
    · intro refused
      have done {o : RobotOrder} (order : (s.yard.robot k).order = some ⟨o, serial⟩) :
          s.yard.takeOrderDone body = heard.robotOutcome k o outcome data :=
        (if_pos robot).trans (Yard.robotDone_of_order enrolled order)
      refine ⟨fun r reserved occupant => ⟨fun home reached => ?_, fun kind pass passed => ?_⟩,
        fun r taken' => ⟨fun home reached => ?_, fun kind pass passed => ?_⟩,
        fun r home fits other => takes ((done home).trans (Yard.robotOutcome_of_notHome fits other)),
        fun r kind pass fits other => takes ((done pass).trans (Yard.robotOutcome_of_notPass fits other)),
        fun o order outside => takes ((done order).trans (Yard.robotOutcome_of_range outside)),
        fun stale => takes ((if_pos robot).trans (Yard.robotDone_of_stale enrolled stale))⟩
      · refine takes ((done home).trans ?_)
        rw [show outcome = 1 from reached, Yard.robotOutcome_of_home]
        exact Yard.robotCompletes_of_free reserved occupant
      · refine takes ((done pass).trans ?_)
        rw [show outcome = 0 from passed, Yard.robotOutcome_of_pass]
        exact Yard.robotCompletes_of_free reserved occupant
      · refine takes ((done home).trans ?_)
        rw [show outcome = 1 from reached, Yard.robotOutcome_of_home]
        exact Yard.robotCompletes_of_taken taken'
      · refine takes ((done pass).trans ?_)
        rw [show outcome = 0 from passed, Yard.robotOutcome_of_pass]
        exact Yard.robotCompletes_of_taken taken'
    · intro c refused failed turned
      have done {o : CarriageOrder} (order : (s.yard.carriage c).order = some ⟨o, serial⟩) :
          s.yard.takeOrderDone body = s.yard.carriageOutcome c o outcome data :=
        (if_neg (Nat.not_lt.2 low)).trans ((if_pos high).trans (Yard.carriageDone_of_order there order))
      have refuses {why : Reason} (effect : s.yard.takeOrderDone body = s.yard.refuseReport why) :
          exec (.orderDone p body) s = .next (refused why) := exec_onYard_refuses (k := .orderDone) taken rfl between effect
      refine ⟨fun x order arrived row => ?_, fun j order boarded => ?_, fun j pl order alighted => ?_,
        fun order arrived row => ?_, fun o order => ⟨fun outside => refuses ((done order).trans (Yard.carriageOutcome_of_range outside)),
          fun fits other => refuses ((done order).trans (Yard.carriageOutcome_of_other fits ?_))⟩, fun stale => ?_⟩
      · have effect := (done order).trans ((congrArg (Yard.carriageOutcome s.yard c _ · data) arrived).trans
          (Yard.carriageOutcome_of_goto row))
        exact ⟨fun same => takes (effect.trans (if_pos same)), fun other => takes (effect.trans (if_neg other))⟩
      · exact takes ((done order).trans ((congrArg (Yard.carriageOutcome s.yard c _ · data) boarded).trans
          Yard.carriageOutcome_of_board))
      · exact takes ((done order).trans ((congrArg (Yard.carriageOutcome s.yard c _ · data) alighted).trans
          Yard.carriageOutcome_of_alight))
      · have effect := (done order).trans ((congrArg (Yard.carriageOutcome s.yard c _ · data) arrived).trans
          (Yard.carriageOutcome_of_stay row))
        refine ⟨fun kept free => takes (effect.trans (if_pos (by simp [kept, free]))),
          fun wrong => takes (effect.trans (if_neg ?_))⟩
        obtain wrong | wrong := wrong <;> simp [wrong]
      · cases o <;> exact other
      · exact exec_onYard_quiet (k := .orderDone) taken rfl
          ((if_neg (Nat.not_lt.2 low)).trans ((if_pos high).trans (Yard.carriageDone_of_stale there stale))) between
    · refine exec_onYard_refuses (k := .orderDone) taken rfl between ?_
      obtain ⟨robot, unknown⟩ | ⟨low, absent⟩ | high := unknown
      · exact (if_pos robot).trans (if_pos (by simp [show s.yard.enrolled (byteAt body 0) = false from unknown]))
      · refine (if_neg (Nat.not_lt.2 low)).trans ?_
        by_cases high : k ≤ 14
        · refine (if_pos high).trans (if_pos ?_)
          simpa [Yard.carriageExists] using absent
        · exact if_neg high
      · exact (if_neg (by omega)).trans (if_neg (Nat.not_le.2 high))

end Sys2Proof.Machine

/-! SUPPORT. The plant's requests on the fleet (R45 to R47): enrolment, the write-off of a robot step by step, and the clearing of
a carriage. -/

namespace Sys2Proof.Machine

namespace Yard

variable {y : Yard} {k c p : Nat}

/-! ### Enrolment (R45) -/

/-- A change after which no robot is available gives no assignment event. -/
theorem setRobot_assign_of_unavailable {f : Robot → Robot} (h : ∀ b, (f b).available = false) (y : Yard) (k : Nat) :
    (y.setRobot k f).assign = y.assign := by
  rw [setRobot_assign, makesAvailable]
  cases y.robots[k]? <;> simp [h]

theorem vacate_assign (y : Yard) (k : Nat) : (y.vacate k).assign = y.assign := by
  unfold vacate
  split <;> rfl

theorem freshRobot_unavailable (enrolled : Bool) (serial : Nat) (timer : Option Nat) :
    (freshRobot enrolled serial timer).available = false := by
  simp [Robot.available, freshRobot]

/-- The enrolment of the slots after a slot's record has been written. -/
theorem enrolled_setRobot {f : Robot → Robot} {v : Bool} (h : ∀ b, (f b).enrolled = v) (y : Yard) (k : Nat) :
    (y.setRobot k f).robots.map (·.enrolled) = (y.robots.map (·.enrolled)).set k v := by
  rw [setRobot_robots]
  refine List.ext_getElem? fun j => ?_
  simp only [List.getElem?_map, List.getElem?_modify, List.getElem?_set, List.length_map]
  by_cases own : k = j
  · subst own
    by_cases there : k < y.robots.length
    · simp [there, h]
    · simp [there]
  · cases y.robots[j]? <;> simp [own]

/-! ### The write-off of a robot (R46) -/

theorem writeOffRow_of_none (h : y.rowHeldBy k = none) : y.writeOffRow k = y := by
  simp only [writeOffRow, h]

theorem writeOffRow_of_held {r : Nat} (h : y.rowHeldBy k = some r) : y.writeOffRow k =
    (y.exposedFollows (if y.mild then y.settleRow r else y.stowRow r)).claimUnassigned r := by
  simp only [writeOffRow, h]

theorem claimUnassigned_of_other {r : Nat} (h : ∀ e, y.entryOf r = some e → e.stage ≠ .flattening) :
    y.claimUnassigned r = y := by
  unfold claimUnassigned
  split
  case h_1 e entry => exact if_neg (h e entry)
  case h_2 => rfl

theorem claimUnassigned_of_flattening {r : Nat} {e : Entry} (entry : y.entryOf r = some e) (flat : e.stage = .flattening) :
    y.claimUnassigned r = y.unassign r := by
  simp only [claimUnassigned, entry, flat, if_true]

theorem takeWriteOffRobot_of_taken {body : List Byte} (enrolled : y.enrolled (byteAt body 0) = true)
    (waiting : ∀ t, y.transferOfRobot (byteAt body 0) = some t → t.phase = .waiting) :
    y.takeWriteOffRobot body = (y.writeOff (byteAt body 0), .ok []) := by
  refine (if_neg (by simp [enrolled])).trans (if_neg ?_)
  cases transfer : y.transferOfRobot (byteAt body 0) with
  | none => simp
  | some t => simp [waiting t transfer]

theorem takeWriteOffRobot_of_busy {body : List Byte} {t : Transfer} (enrolled : y.enrolled (byteAt body 0) = true)
    (transfer : y.transferOfRobot (byteAt body 0) = some t) (busy : t.phase ≠ .waiting) :
    y.takeWriteOffRobot body = (y, .refuse .robotBusy) :=
  (if_neg (by simp [enrolled])).trans (if_pos (by simp [transfer, busy]))

/-- The yard where robot `k` has left its row, its work and its transfer (R46, steps 1 to 3). -/
def workedOff (y : Yard) (k : Nat) : Yard := ((y.writeOffRow k).writeOffWork k).writeOffTransfer k

/-- The yard where the slot of robot `k` is empty, whose place is vacated (R46, steps 4 to 6). -/
def slotEmptied (y : Yard) (k : Nat) : Yard := (y.vacate k).setRobot k fun b => freshRobot false b.lastSerial none

theorem writeOff_eq (y : Yard) (k : Nat) : y.writeOff k =
    (passAfter ((y.workedOff k).leavesCarriageIdle k) y ((y.workedOff k).slotEmptied k)).judgeTablesClear := rfl

theorem leavesCarriageIdle_iff : y.leavesCarriageIdle k = true ↔
    ∃ c, (y.robot k).place = .aboard c ∧ y.carriageRests c = true := by
  unfold leavesCarriageIdle
  cases (y.robot k).place <;> simp

theorem passAfter_of_cause {caused : Bool} {z : Yard} (h : caused = true ∨ (y.seen 4 = true ∧ z.seen 4 = false)) :
    passAfter caused y z = z.arbiterPass := if_pos (by simpa using h)

theorem passAfter_of_none {caused : Bool} {z : Yard} (h : ¬(caused = true ∨ (y.seen 4 = true ∧ z.seen 4 = false))) :
    passAfter caused y z = z := if_neg (by simpa using h)

/-- A robot's transfer is still WAITING after its row and its work are written off: those leave the rail as it was. -/
theorem waiting_after_work (waiting : ∀ t, y.transferOfRobot k = some t → t.phase = .waiting) :
    ∀ t, ((y.writeOffRow k).writeOffWork k).transferOfRobot k = some t → t.phase = .waiting := by
  intro t found
  have work := (RailSame.writeOff y k).transferOfRobot k
  rw [found] at work
  obtain ⟨u, first, same⟩ := Option.map_eq_some_iff.1 work.symm
  have phase : u.phase = t.phase := congrArg (fun w => w.2.2.2.1) same
  exact phase.symm.trans (waiting u first)

theorem workedOff_keeps (waiting : ∀ t, y.transferOfRobot k = some t → t.phase = .waiting) : Keeps y (y.workedOff k) :=
  (Keeps.writeOffRow y k).trans ((Keeps.writeOffWork _ k).trans (Keeps.writeOffTransfer _ k (waiting_after_work waiting)))

/-- After a write-off, and the end of its event, the slot is empty and every other one is as it was. -/
theorem writeOff_enrolled (waiting : ∀ t, y.transferOfRobot k = some t → t.phase = .waiting) :
    (y.writeOff k).finish.robots.map (·.enrolled) = (y.robots.map (·.enrolled)).set k false := by
  have rest : Keeps ((y.workedOff k).slotEmptied k) (y.writeOff k).finish := by
    rw [writeOff_eq]
    exact (Keeps.passAfter _ _ (Keeps.refl _)).trans ((Keeps.judgeTablesClear _).trans (Keeps.finish _))
  have before := (workedOff_keeps waiting).trans (Keeps.vacate (y.workedOff k) k)
  rw [rest.enrolled, slotEmptied, enrolled_setRobot (v := false) fun _ => rfl, before.enrolled]

/-! ### The clearing of a carriage (R47) -/

theorem segmentsOf_isEmpty : (y.segmentsOf c).isEmpty = true ↔
    ¬∃ i, ∃ v, y.rail.segments.getD i none = some v ∧ v.carriage = c := by
  rw [List.isEmpty_iff, segmentsOf, List.filter_eq_nil_iff]
  constructor
  · rintro free ⟨i, v, held, own⟩
    have there : i < y.rail.segments.length := by
      by_contra outside
      simp [List.getD_eq_getElem?_getD, outside] at held
    exact free i (List.mem_range.2 there) ((Option.any_eq_true _ _).2 ⟨v, held, beq_iff_eq.2 own⟩)
  · intro free i _ held
    obtain ⟨v, at', own⟩ := (Option.any_eq_true _ _).1 held
    exact free ⟨i, v, at', beq_iff_eq.1 own⟩

theorem clearRefused_of_holder (h : ∃ i, ∃ v, y.rail.segments.getD i none = some v ∧ v.carriage = c) :
    y.clearRefused c p = true ↔ y.keepsOrder c p = false ∨ ¬∃ v, y.rail.segments.getD (p / 8) none = some v ∧ v.carriage = c := by
  have holds : ¬(y.segmentsOf c).isEmpty = true := fun empty => segmentsOf_isEmpty.1 empty h
  rw [clearRefused, if_neg holds, ← inOwnSegment_iff]
  simp

theorem clearRefused_of_none (h : ¬∃ i, ∃ v, y.rail.segments.getD i none = some v ∧ v.carriage = c) :
    y.clearRefused c p = true ↔ y.keepsOrder c p = false ∨ y.inOthersSegment c p = true := by
  rw [clearRefused, if_pos (segmentsOf_isEmpty.2 h)]
  simp

end Yard

/-- Settles O25: each request by the checks of its rule, and the write-off as the chain of its steps. -/
theorem fleetRequestsTaken : Obligations.FleetRequestsTaken := by
  refine ⟨fun p body s between => ?requests, fun y c p => ⟨Yard.clearRefused_of_holder, Yard.clearRefused_of_none⟩, fun y k => ?row⟩
  case row =>
    refine ⟨Yard.writeOffRow_of_none, fun r held => ?_⟩
    intro freed told
    have off : y.writeOffRow k = told.claimUnassigned r := Yard.writeOffRow_of_held held
    exact ⟨fun other => off.trans (Yard.claimUnassigned_of_other other),
      fun e entry flat => off.trans (Yard.claimUnassigned_of_flattening entry flat)⟩
  case requests =>
    intro n x
    refine ⟨fun taken slot free => ?enroll, fun taken enrolled => ?clear, fun taken enrolled waiting => ?kept,
      fun taken enrolled waiting => ?steps, fun taken => ?writeOffRefused, fun taken there fault row passes => ?carriage,
      fun taken => ?carriageRefused, fun taken => ?enrollRefused, fun taken unknown => ?clearRefused⟩
    case enroll =>
      have freed : s.yard.enrolled (byteAt body 0) = false := free
      refine exec_onYard_quiet (k := .enrollRobot) taken rfl ((if_neg (Nat.not_lt.2 slot)).trans (if_neg (by simp [freed]))) ?_
      have unavailable (b : Robot) := Yard.freshRobot_unavailable true b.lastSerial (some s.yard.settings.robotSilence)
      exact (Yard.setRobot_assign_of_unavailable unavailable _ n).trans ((s.yard.vacate_assign n).trans between)
    case clear =>
      exact exec_onYard (k := .clearRobot) taken rfl (if_neg (by simp [show s.yard.enrolled (byteAt body 0) = true from enrolled]))
    case kept =>
      exact ⟨_, exec_onYard (k := .writeOffRobot) taken rfl (Yard.takeWriteOffRobot_of_taken enrolled waiting),
        Yard.writeOff_enrolled waiting, rfl, rfl, rfl, rfl⟩
    case steps =>
      intro rowless passless workless left gone passes
      have effect := Yard.takeWriteOffRobot_of_taken enrolled waiting
      have leftIs : s.yard.workedOff n = left := rfl
      have goneIs : (s.yard.workedOff n).slotEmptied n = gone := by rw [leftIs]; rfl
      have cause : passes ↔ (s.yard.workedOff n).leavesCarriageIdle n = true ∨ (s.yard.seen 4 = true ∧ gone.seen 4 = false) := by
        rw [Yard.leavesCarriageIdle_iff, leftIs]
      rw [Yard.writeOff_eq, show byteAt body 0 = n from rfl, goneIs] at effect
      refine ⟨fun yes => exec_onYard (k := .writeOffRobot) taken rfl (effect.trans ?_),
        fun no => exec_onYard (k := .writeOffRobot) taken rfl (effect.trans ?_)⟩
      · rw [Yard.passAfter_of_cause (cause.1 yes)]
      · rw [Yard.passAfter_of_none (no ∘ cause.2)]
    case writeOffRefused =>
      exact ⟨fun unknown => exec_onYard_same (k := .writeOffRobot) taken rfl between
          (if_pos (by simp [show s.yard.enrolled (byteAt body 0) = false from unknown])),
        fun t enrolled transfer busy => exec_onYard_same (k := .writeOffRobot) taken rfl between
          (Yard.takeWriteOffRobot_of_busy enrolled transfer busy)⟩
    case carriage =>
      intro cleared
      have faulted : (s.yard.carriage (byteAt body 0)).fault = true := fault
      refine exec_onYard (k := .clearCarriage) taken rfl ((if_neg ?_).trans ((if_neg (by simp [faulted])).trans
        ((if_neg (Nat.not_le.2 row)).trans (if_neg (Bool.eq_false_iff.1 passes)))))
      simp [Yard.carriageExists, show byteAt body 0 < s.yard.settings.carriages from there]
    case carriageRefused =>
      intro turned
      have faulty (fault : (s.yard.carriage n).fault = true) : ¬(s.yard.carriage n).fault = false := by simp [fault]
      have existing (there : n < s.yard.settings.carriages) : ¬(!s.yard.carriageExists n) = true := by
        simp [Yard.carriageExists, there]
      refine ⟨fun absent => exec_onYard_same (k := .clearCarriage) taken rfl between (if_pos ?_),
        fun there sound => exec_onYard_same (k := .clearCarriage) taken rfl between ((if_neg (existing there)).trans (if_pos sound)),
        fun there fault => ⟨fun outside => exec_onYard_same (k := .clearCarriage) taken rfl between
            ((if_neg (existing there)).trans ((if_neg (faulty fault)).trans (if_pos outside))),
          fun row refused => exec_onYard_same (k := .clearCarriage) taken rfl between ((if_neg (existing there)).trans
            ((if_neg (faulty fault)).trans ((if_neg (Nat.not_le.2 row)).trans (if_pos refused))))⟩⟩
      simpa [Yard.carriageExists] using absent
    case enrollRefused =>
      exact ⟨fun outside => exec_onYard_same (k := .enrollRobot) taken rfl between (if_pos outside),
        fun slot enrolled => exec_onYard_same (k := .enrollRobot) taken rfl between
          ((if_neg (Nat.not_lt.2 slot)).trans (if_pos enrolled))⟩
    case clearRefused =>
      exact exec_onYard_same (k := .clearRobot) taken rfl between
        (if_pos (by simp [show s.yard.enrolled (byteAt body 0) = false from unknown]))

end Sys2Proof.Machine

/-! SUPPORT. The Transfer Engine's requests and timers (R51, R53 to R56, R66, R71, R73): fresh tags, acceptance, the end of a
transfer, the fault of a carriage, and the reservations of a span (R58). -/

namespace Sys2Proof.Machine

namespace Yard

variable {y : Yard} {k c : Nat} {t : Transfer}

/-! ### Fresh tags (R51) -/

theorem freshTag_lt (y : Yard) (fuel : Nat) {n : Nat} (small : n < 256) : y.freshTag fuel n < 256 := by
  induction fuel generalizing n with
  | zero => exact small
  | succ fuel ih =>
    unfold freshTag
    split
    · exact ih (Nat.mod_lt _ (by decide))
    · exact small

theorem tag_ne_of_transferOf_none {n : Nat} (h : y.transferOf n = none) : ∀ t ∈ y.rail.queue, t.tag ≠ n := by
  intro t mem
  simpa using List.find?_eq_none.1 h t mem

/-! ### Requests (R53, R55) -/

theorem requestTransfer_of_acceptance {pass : Yard → Yard} {origin : TransferOrigin} {purpose : Purpose} {d : Place}
    {link : Option Nat} (h : y.transferRefusal origin k d = none) : y.requestTransfer pass origin purpose k d link =
      (pass (judgeHoldoff handQuiet (y.appendTransfer origin purpose k d link (y.freshTag 256 y.rail.tagCounter))),
        ⟨.accepted, .none, [byte (y.freshTag 256 y.rail.tagCounter)]⟩) := by
  simp only [requestTransfer, h]

theorem takeTransfer_of_destination {p : Port} {body : List Byte} {d : Place} (slot : byteAt body 0 ≤ 11)
    (names : placeOf (byteAt body 1) (byteAt body 2) = some d) (kind : (∃ r, d = .garage r) ∨ ∃ n, d = .dock n) :
    y.takeTransfer p body = y.requestTransfer arbiterPass (portOrigin p) .move (byteAt body 0) d none := by
  refine (if_neg (Nat.not_lt.2 slot)).trans ?_
  obtain ⟨r, rfl⟩ | ⟨n, rfl⟩ := kind <;> simp only [names]

theorem takeTransfer_of_range {p : Port} {body : List Byte} (h : 11 < byteAt body 0 ∨
    ((∀ r, placeOf (byteAt body 1) (byteAt body 2) ≠ some (.garage r)) ∧
      ∀ n, placeOf (byteAt body 1) (byteAt body 2) ≠ some (.dock n))) : y.takeTransfer p body = (y, .refuse .range) := by
  unfold takeTransfer
  by_cases high : 11 < byteAt body 0
  · exact if_pos high
  · refine (if_neg high).trans ?_
    obtain ⟨noGarage, noDock⟩ := h.resolve_left high
    split
    case h_1 r names => exact absurd names (noGarage r)
    case h_2 n names => exact absurd names (noDock n)
    case h_3 => rfl

/-! ### The end of a transfer (R56) -/

theorem unassign_boxes (y : Yard) (r : Nat) : (y.unassign r).boxes = y.boxes := by
  unfold unassign unlink
  split
  · rfl
  · split <;> rfl

theorem linkedEnd_rows (y : Yard) (link : Option Nat) (result : TransferResult) : (y.linkedEnd link result).rows = y.rows := by
  unfold linkedEnd
  split
  · rfl
  · split
    · rfl
    · exact unassign_rows _ _

theorem unassign_docks (y : Yard) (r : Nat) : (y.unassign r).docks = y.docks := by
  unfold unassign unlink
  split
  · rfl
  · split <;> rfl

theorem linkedEnd_docks (y : Yard) (link : Option Nat) (result : TransferResult) : (y.linkedEnd link result).docks = y.docks := by
  unfold linkedEnd
  split
  · rfl
  · split
    · rfl
    · exact unassign_docks _ _

theorem linkedEnd_boxes (y : Yard) (link : Option Nat) (result : TransferResult) : (y.linkedEnd link result).boxes = y.boxes := by
  unfold linkedEnd
  split
  · rfl
  · split
    · rfl
    · exact unassign_boxes _ _

theorem robot_linkedEnd_keeps {α : Type} {g : Robot → α} (keeps : ∀ b : Robot, g { b with roundLink := none } = g b)
    (y : Yard) (link : Option Nat) (result : TransferResult) (j : Nat) :
    g ((y.linkedEnd link result).robot j) = g (y.robot j) := by
  unfold linkedEnd
  split
  · rfl
  · split
    · rfl
    · exact robot_unassign_keeps keeps _ _ j

theorem linkedEnd_of_notDone {r : Nat} {result : TransferResult} (h : result ≠ .done) :
    y.linkedEnd (some r) result = y.unassign r := by
  cases result
  case done => exact absurd rfl h
  all_goals rfl

/-- The yard of an end before it is passed to the Round Scheduler. -/
def ended (t : Transfer) (result : TransferResult) (y : Yard) : Yard :=
  let freed := y.reservePlace t.destination none
  (({ freed with rail := { freed.rail with queue := freed.rail.queue.filter fun x => x.tag != t.tag } }).restRobot
    t.robot).notify (endPort t.origin) .transferEnd (t.tag, t.robot, 0) result.code

theorem closeTransfer_eq (t : Transfer) (result : TransferResult) (y : Yard) :
    closeTransfer t result y = ((ended t result y).linkedEnd t.roundLink result).giveAssign := rfl

theorem garage_reservePlace (y : Yard) (r : Nat) : ((y.reservePlace (.garage r) none).row r).garageReserved = none := by
  by_cases there : r < y.rows.length
  · exact congrArg Row.garageReserved (row_setRow_same y there _)
  · simp [reservePlace, row, List.getD_eq_getElem?_getD, there, freshRow]

theorem dock_reservePlace (y : Yard) (d : Nat) : ((y.reservePlace (.dock d) none).dock d).reservedFor = none := by
  by_cases there : d < y.docks.length
  · exact congrArg Dock.reservedFor (dock_setDock_same y there _)
  · simp [reservePlace, dock, List.getD_eq_getElem?_getD, there, freshDock]

/-- Reserving a place changes a row or a dock alone. -/
theorem reservePlace_same (y : Yard) (pl : Place) (tag : Option Nat) : (y.reservePlace pl tag).rounds = y.rounds ∧
    (y.reservePlace pl tag).robots = y.robots ∧ (y.reservePlace pl tag).boxes = y.boxes ∧
    (y.reservePlace pl tag).stamp = y.stamp := by
  cases pl <;> exact ⟨rfl, rfl, rfl, rfl⟩

theorem ended_rounds (t : Transfer) (result : TransferResult) (y : Yard) : (ended t result y).rounds = y.rounds :=
  (y.reservePlace_same t.destination none).1

theorem ended_task {result : TransferResult} (slot : t.robot < y.robots.length) :
    ((ended t result y).robot t.robot).task = (y.robot t.robot).restTask := by
  obtain ⟨-, robots, -⟩ := y.reservePlace_same t.destination none
  have slotToo : t.robot < (y.reservePlace t.destination none).robots.length := by rwa [robots]
  refine (congrArg Robot.task (robot_setRobot_same { y.reservePlace t.destination none with rail :=
    { (y.reservePlace t.destination none).rail with queue :=
      (y.reservePlace t.destination none).rail.queue.filter fun x => x.tag != t.tag } } slotToo _)).trans ?_
  exact congrArg (fun l : List Robot => (l.getD t.robot (freshRobot false 0 none)).restTask) robots

theorem ended_boxes (t : Transfer) (result : TransferResult) (y : Yard) : (ended t result y).boxes =
    y.boxes.set (endPort t.origin)
      ((y.boxes.get (endPort t.origin)).give ⟨.transferEnd, (t.tag, t.robot, 0), result.code, y.stamp⟩) := by
  obtain ⟨-, -, boxes, stamp⟩ := y.reservePlace_same t.destination none
  rw [← boxes, ← stamp]
  rfl

theorem endPort_eq (origin : TransferOrigin) : endPort origin = if origin = .fleet then .fleet else .plant := by
  cases origin <;> rfl

/-! ### Timers (R66, R71) -/

theorem phaseExpires_of_timer {tag n : Nat} (transfer : y.transferOf tag = some t) (timer : t.phaseTimer = some n)
    (carriage : t.carriage = some c) : y.phaseExpires tag = y.failCarriage c .failedTimeout := by
  simp only [phaseExpires, transfer, timer, carriage]

/-! ### Reservations (R58) -/

theorem reservation_reserveSpan {s : Nat} (there : s < y.rail.segments.length) (sp : Span) (c : Nat) (cause : Cause) :
    (y.reserveSpan sp c cause).reservation s =
      if sp.first ≤ s ∧ s ≤ sp.last then some ⟨c, cause⟩ else y.reservation s := by
  simp [reservation, reserveSpan, List.getD_eq_getElem?_getD, there, Span.has]

theorem reservation_setReservations {s : Nat} (there : s < y.rail.segments.length) (c : Nat) (v : Option Reservation) :
    (y.setReservations c v).reservation s = if (y.reservation s).any (·.carriage == c) then v else y.reservation s := by
  simp [reservation, setReservations, List.getD_eq_getElem?_getD, there]

/-- A change of the reservations of carriage `c` writes its segments. -/
theorem reservation_setReservations_own {s : Nat} (there : s < y.rail.segments.length) {x : Cause}
    (own : y.reservation s = some ⟨c, x⟩) (v : Option Reservation) : (y.setReservations c v).reservation s = v := by
  rw [reservation_setReservations there, own]
  simp

theorem reservation_setReservations_other {s : Nat} (there : s < y.rail.segments.length)
    (other : ∀ x, y.reservation s ≠ some ⟨c, x⟩) (v : Option Reservation) :
    (y.setReservations c v).reservation s = y.reservation s := by
  rw [reservation_setReservations there]
  refine if_neg fun own => ?_
  obtain ⟨⟨i, x⟩, held, same⟩ := (Option.any_eq_true _ _).1 own
  obtain rfl : i = c := by simpa using same
  exact other x held

end Yard

/-- Settles O29: a queue that fits its bound holds fewer tags than there are, so the search ends at a free one. -/
theorem freshTagFree : Obligations.FreshTagFree := by
  intro y n fits small
  have room : y.rail.queue.length < 255 := lt_of_le_of_lt fits (by decide)
  exact ⟨y.freshTag_lt 256 small, Yard.tag_ne_of_transferOf_none (Keeps.freshTag_free y room n)⟩

/-- Settles O28: a request by its destination and the checks of R54, and what an acceptance appends. -/
theorem transferTaken : Obligations.TransferTaken := by
  refine ⟨fun p body s taken between => ?taken, fun p body s taken between => ?range,
    fun y origin purpose k d link accepted => Yard.requestTransfer_of_acceptance accepted⟩
  case taken =>
    intro k origin tag d names kind slot
    have asks := Yard.takeTransfer_of_destination (y := s.yard) (p := p) slot names kind
    refine ⟨fun accepted => exec_onYard (k := .transfer) taken rfl (asks.trans (Yard.requestTransfer_of_acceptance accepted)),
      fun reply refused => exec_onYard_same (k := .transfer) taken rfl between (asks.trans ?_)⟩
    exact Yard.requestTransfer_of_refusal refused _ _ _
  case range =>
    intro place outside
    exact exec_onYard_same (k := .transfer) taken rfl between (Yard.takeTransfer_of_range outside)

/-- Settles O30: a cancellation by its owner and phase, and what the end of a transfer leaves. -/
theorem cancelTransferTaken : Obligations.CancelTransferTaken := by
  refine ⟨fun p body s taken between => ?taken, fun y t result => ?ends⟩
  case taken =>
    intro tag
    refine ⟨fun unknown => exec_onYard_same (k := .cancelTransfer) taken rfl between ?_, fun t found => ?_⟩
    · simp only [Yard.takeCancelTransfer, show s.yard.transferOf (byteAt body 0) = none from unknown]
    · have judged : s.yard.takeCancelTransfer p body =
          if t.origin = .round ∨ t.origin ≠ Yard.portOrigin p then (s.yard, .refuse .notOwner)
          else if t.phase ≠ .waiting then (s.yard, .refuse .state)
          else (Yard.judgeHoldoff Yard.hand (Yard.closeTransfer t .cancelled s.yard), .ok []) := by
        simp only [Yard.takeCancelTransfer, show s.yard.transferOf (byteAt body 0) = some t from found]
      refine ⟨fun foreign => exec_onYard_same (k := .cancelTransfer) taken rfl between (judged.trans (if_pos foreign)),
        fun notRound own begun => exec_onYard_same (k := .cancelTransfer) taken rfl between
          (judged.trans ((if_neg (not_or.2 ⟨notRound, not_not_intro own⟩)).trans (if_pos begun))),
        fun notRound own waiting => exec_onYard (k := .cancelTransfer) taken rfl
          (judged.trans ((if_neg (not_or.2 ⟨notRound, not_not_intro own⟩)).trans (if_neg (not_not_intro waiting))))⟩
  case ends =>
    intro z told
    refine ⟨fun r garage => ?_, fun d dock => ?_, closeTransfer_tags t result y, fun slot => ?_, ?_, rfl, fun unlinked => ?_,
      fun r e link entry => ⟨fun done => ?_, fun notDone => ?_⟩⟩
    · refine (congrArg (fun l : List Row => (l.getD r (freshRow 0)).garageReserved) (Yard.linkedEnd_rows _ _ result)).trans ?_
      refine Eq.trans ?_ (y.garage_reservePlace r)
      rw [← garage]
      rfl
    · refine (congrArg (fun l : List Dock => (l.getD d freshDock).reservedFor) (Yard.linkedEnd_docks _ _ result)).trans ?_
      refine Eq.trans ?_ (y.dock_reservePlace d)
      rw [← dock]
      rfl
    · exact (Yard.robot_linkedEnd_keeps (g := Robot.task) (fun _ => rfl) _ _ result t.robot).trans (Yard.ended_task slot)
    · have port : told = Yard.endPort t.origin := (Yard.endPort_eq t.origin).symm
      rw [port]
      exact (Yard.linkedEnd_boxes _ _ result).trans (Yard.ended_boxes t result y)
    · refine Eq.trans ?_ (Yard.ended_rounds t result y)
      simp only [z, Yard.closeTransfer_eq, unlinked]
      rfl
    · have ended : (Yard.ended t result y).entryOf r = some e :=
        (congrArg (fun rounds : Rounds => rounds.list.find? fun x : Entry => x.row == r) (Yard.ended_rounds t result y)).trans entry
      subst done
      simp only [z, Yard.closeTransfer_eq, link]
      exact Yard.entryOf_setEntry (f := fun e => { e with stage := .claiming }) ended fun _ => rfl
    · have ended : (Yard.ended t result y).entryOf r = some e :=
        (congrArg (fun rounds : Rounds => rounds.list.find? fun x : Entry => x.row == r) (Yard.ended_rounds t result y)).trans entry
      simp only [z, Yard.closeTransfer_eq, link, Yard.linkedEnd_of_notDone notDone]
      exact Yard.entryOf_unassign_same ended

/-- Settles O31: either timer fails its carriage, whose fault is a record and two notices. -/
theorem railTimerExpiries : Obligations.RailTimerExpiries := by
  refine ⟨fun s running => ⟨fun tag n c t transfer timer carriage task => ?_, fun c runs task => ?_⟩, fun y c there =>
    ⟨y.carriage_setCarriage_same there _, fun i other => y.carriage_setCarriage_ne other _, rfl, rfl, rfl⟩⟩
  · exact congrArg Host.Outcome.next (State.event_effect running
      ((Yard.phaseExpires_of_timer transfer timer carriage).trans (Yard.failCarriage_of_transfer task transfer)))
  · exact congrArg Host.Outcome.next (State.event_effect running ((if_pos runs).trans (Yard.failCarriage_of_nudge task)))

/-- Settles O32: a span is written whole, and a release or a fault writes the carriage's own segments. -/
theorem spanReserved : Obligations.SpanReserved := fun _ sp c _ cause there =>
  ⟨Yard.reservation_reserveSpan there sp c cause,
    fun ⟨_, own⟩ => ⟨Yard.reservation_setReservations_own there own _, Yard.reservation_setReservations_own there own _⟩,
    fun other => ⟨Yard.reservation_setReservations_other there other _, Yard.reservation_setReservations_other there other _⟩⟩

end Sys2Proof.Machine

/-! SUPPORT. The rail arbiter (R59 to R65) and hold-off (R74): the pass, the choice of a carriage, the judging of an entry, grants
and nudges. -/

namespace Sys2Proof.Machine

namespace Yard

variable {y : Yard} {t : Transfer} {c i : Nat} {sp : Span} {held : List Span}

/-! ### The pass and its walk (R62) -/

theorem allPositionsKnown_iff : y.allPositionsKnown = true ↔
    ∀ c, c < y.settings.carriages → (y.carriage c).position.isSome = true := by
  simp [allPositionsKnown, carriageList]

theorem arbiterPass_of_off (h : y.seen 4 = true ∨ (∃ c, c < y.settings.carriages ∧ (y.carriage c).position = none) ∨
    y.mild = false) : y.arbiterPass = y := by
  refine if_neg ?_
  obtain high | ⟨c, there, unknown⟩ | storm := h
  · simp [high]
  · have some_unknown : y.allPositionsKnown = false := by
      refine Bool.eq_false_iff.2 fun known => ?_
      simpa [unknown] using allPositionsKnown_iff.1 known c there
    simp [some_unknown]
  · simp [storm]

theorem arbiterPass_of_on (low : y.seen 4 = false) (known : ∀ c, c < y.settings.carriages → (y.carriage c).position.isSome = true)
    (mild : y.mild = true) : y.arbiterPass = y.walkTransfers [] (y.rail.queue.map (·.tag)) :=
  if_pos (by simp [low, allPositionsKnown_iff.2 known, mild])

theorem walkTransfers_of_unknown {tag : Nat} (h : y.transferOf tag = none) (rest : List Nat) :
    y.walkTransfers held (tag :: rest) = y.walkTransfers held rest := by
  simp only [walkTransfers, h]

theorem walkTransfers_of_begun {tag : Nat} (h : y.transferOf tag = some t) (begun : t.phase ≠ .waiting) (rest : List Nat) :
    y.walkTransfers held (tag :: rest) = y.walkTransfers held rest := by
  simp only [walkTransfers, h, begun, if_false]

theorem walkTransfers_of_waiting {tag : Nat} (h : y.transferOf tag = some t) (waiting : t.phase = .waiting) (rest : List Nat) :
    y.walkTransfers held (tag :: rest) = (y.judgeTransfer held t).1.walkTransfers (y.judgeTransfer held t).2 rest := by
  simp only [walkTransfers, h, waiting, if_true]

/-! ### The choice of a carriage (R61) -/

/-- No fault and no order: where a carriage of the way stands (R61). -/
def stands (y : Yard) (c : Nat) : Prop := (y.carriage c).fault = false ∧ (y.carriage c).order = none

theorem chooseCarriage_of_aboard (h : t.source = .aboard c) : y.chooseCarriage t =
    if (y.carriage c).restful && (y.carriage c).task.isNone && (y.carriage c).position.isSome then some c else none := by
  simp only [chooseCarriage, h]

theorem aboard_chosen_iff :
    ((y.carriage c).restful && (y.carriage c).task.isNone && (y.carriage c).position.isSome) = true ↔
      y.stands c ∧ (y.carriage c).task = none ∧ (y.carriage c).position.isSome = true := by
  simp [Carriage.restful_iff, stands, and_assoc]

theorem chooseCarriage_of_place {p : Nat} (elsewhere : ∀ c, t.source ≠ .aboard c) (place : y.placePosition t.source = some p) :
    y.chooseCarriage t = nearest (y.candidateDistance p) y.carriageList := by
  unfold chooseCarriage
  split
  case h_1 c aboard => exact absurd aboard (elsewhere c)
  case h_2 => simp only [place]

theorem barsWay_iff {q p : Nat} : y.barsWay q p i = true ↔ ∃ x, (y.carriage i).position = some x ∧
    min q p < x ∧ x < max q p ∧ ¬(y.stands i ∧ (y.carriage i).load = none) := by
  unfold barsWay
  cases (y.carriage i).position with
  | none => simp
  | some x =>
    have rests : (!(y.carriage i).restful || (y.carriage i).load.isSome) = true ↔
        ¬(y.stands i ∧ (y.carriage i).load = none) := by
      rw [Bool.or_eq_true, Bool.not_eq_true', ← Bool.not_eq_true, Carriage.restful_iff, ← Option.ne_none_iff_isSome]
      exact not_and_or.symm
    simp only [Bool.and_eq_true, decide_eq_true_eq, rests, Option.some.injEq, exists_eq_left', and_assoc]

theorem candidateDistance_some {p d : Nat} : y.candidateDistance p c = some d ↔
    ∃ q, (y.carriage c).position = some q ∧ (y.carriage c).free = true ∧
      (∀ i x, i < y.settings.carriages → (y.carriage i).position = some x → min q p < x → x < max q p →
        y.stands i ∧ (y.carriage i).load = none) ∧ railDistance q p = d := by
  have way (q : Nat) : (!(y.carriageList.any (y.barsWay q p))) = true ↔ ∀ i x, i < y.settings.carriages →
      (y.carriage i).position = some x → min q p < x → x < max q p → y.stands i ∧ (y.carriage i).load = none := by
    simp only [Bool.not_eq_true', List.any_eq_false, carriageList, List.mem_range, barsWay_iff]
    exact ⟨fun clear i x there at' low high => by_contra fun stays => clear i there ⟨x, at', low, high, stays⟩,
      fun clear i there ⟨x, at', low, high, stays⟩ => stays (clear i x there at' low high)⟩
  unfold candidateDistance
  cases (y.carriage c).position with
  | none => simp
  | some q =>
    simp only [Option.some.injEq, exists_eq_left', ← way q]
    cases free : (y.carriage c).free <;> cases bars : y.carriageList.any (y.barsWay q p) <;> simp

theorem candidateSpan_of_nowhere (h : y.placePosition t.source = none) (chosen : Option Nat) : y.candidateSpan t chosen = none := by
  simp only [candidateSpan, h]

theorem candidateSpan_of_place {p : Nat} (h : y.placePosition t.source = some p) :
    y.candidateSpan t none = some (spanOver p [y.destinationPosition t]) := by
  simp only [candidateSpan, h]

theorem candidateSpan_of_chosen {p q : Nat} (h : y.placePosition t.source = some p) (at' : (y.carriage c).position = some q) :
    y.candidateSpan t (some c) = some (spanOver q [p, y.destinationPosition t]) := by
  simp only [candidateSpan, h, at']

/-! ### An entry is judged (R59, R62 to R64) -/

theorem heldBefore_iff : held.any sp.meets = true ↔ ∃ h ∈ held, sp.first ≤ h.last ∧ h.first ≤ sp.last := by
  simp [Span.meets]

theorem judgeTransfer_of_nowhere (chosen : y.chooseCarriage t = none) (span : y.candidateSpan t none = none) :
    y.judgeTransfer held t = (y, held) := by
  simp only [judgeTransfer, chosen, span]

theorem judgeTransfer_of_unchosen (chosen : y.chooseCarriage t = none) (span : y.candidateSpan t none = some sp) :
    y.judgeTransfer held t = (y, sp :: held) := by
  simp only [judgeTransfer, chosen, span]

theorem judgeTransfer_of_chosen (chosen : y.chooseCarriage t = some c) (span : y.candidateSpan t (some c) = some sp) :
    y.judgeTransfer held t =
      if held.any sp.meets then (y, sp :: held)
      else if y.spanFree sp && (y.othersInside sp c).isEmpty && !y.seen 4 then (y.grant t c sp, held)
      else (y.blockedNudge c sp, sp :: held) := by
  simp only [judgeTransfer, chosen, span]

theorem blockedNudge_of_off (h : y.spanFree sp = false ∨ y.seen 4 = true) : y.blockedNudge c sp = y :=
  if_neg (by obtain h | h := h <;> simp [h])

theorem blockedNudge_of_stuck (h : ∃ i, i ∈ y.othersInside sp c ∧ ¬(y.carriage i).free = true) : y.blockedNudge c sp = y := by
  obtain ⟨i, within, stuck⟩ := h
  refine if_neg fun all => ?_
  simp only [Bool.and_eq_true, List.all_eq_true] at all
  exact stuck (all.2 i within)

theorem blockedNudge_of_movable (free : y.spanFree sp = true) (low : y.seen 4 = false)
    (all : ∀ i ∈ y.othersInside sp c, (y.carriage i).free = true) :
    y.blockedNudge c sp = y.nudgeFirst sp c (y.othersInside sp c) :=
  if_pos (by simpa [free, low] using all)

theorem othersInside_sorted (y : Yard) (sp : Span) (c : Nat) : (y.othersInside sp c).Pairwise (· < ·) :=
  List.pairwise_lt_range.filter _

/-! ### Grants (R63) -/

/-- A place that is not aboard a carriage has its position from the settings. -/
theorem placePosition_congr {y z : Yard} (settings : z.settings = y.settings) {pl : Place} (h : ∀ c, pl ≠ .aboard c) :
    z.placePosition pl = y.placePosition pl := by
  cases pl
  case aboard c => exact absurd rfl (h c)
  case dock d => exact congrArg (fun st : Settings => some (st.dockPos.getD d 0)) settings
  all_goals rfl

/-- The yard of a grant before its first phase: the entry, the span and the carriage's task are written (R63). -/
def grantTaken (y : Yard) (t : Transfer) (c : Nat) (sp : Span) : Yard :=
  ((y.setTransfer t.tag fun x => { x with carriage := some c, span := some sp }).reserveSpan sp c
    (.transfer t.tag)).setCarriage c fun w => { w with task := some (.transfer t.tag) }

theorem grant_eq (y : Yard) (t : Transfer) (c : Nat) (sp : Span) :
    y.grant t c sp = ((y.grantTaken t c sp).firstPhase t c).judgeHoldoff handQuiet := rfl

/-- A change of a carriage keeps what it does not write. -/
theorem carriage_setCarriage_keeps {α : Type} {g : Carriage → α} {f : Carriage → Carriage} (keeps : ∀ w, g (f w) = g w)
    (y : Yard) (c i : Nat) : g ((y.setCarriage c f).carriage i) = g (y.carriage i) := by
  by_cases own : i = c
  · subst own
    by_cases there : i < y.carriages.length
    · rw [carriage_setCarriage_same y there, keeps]
    · simp [carriage, List.getD_eq_getElem?_getD, there]
  · rw [carriage_setCarriage_ne y own]

theorem position_grantTaken (y : Yard) (t : Transfer) (c : Nat) (sp : Span) :
    ((y.grantTaken t c sp).carriage c).position = (y.carriage c).position :=
  carriage_setCarriage_keeps (g := Carriage.position) (f := fun w => { w with task := some (.transfer t.tag) }) (fun _ => rfl) _ c c

theorem destinationPosition_grantTaken (h : ∀ d, t.destination ≠ .aboard d) :
    (y.grantTaken t c sp).destinationPosition t = y.destinationPosition t :=
  congrArg (Option.getD · 0) (placePosition_congr (y := y) (z := y.grantTaken t c sp) rfl h)

theorem firstPhase_of_aboard {a : Nat} (h : t.source = .aboard a) : y.firstPhase t c = y.carryOn t c := by
  simp only [firstPhase, h]

theorem firstPhase_of_place {p : Nat} (elsewhere : ∀ a, t.source ≠ .aboard a) (place : y.placePosition t.source = some p) :
    y.firstPhase t c =
      if (y.carriage c).position = some p then y.startPhase t.tag c .board (.board t.robot)
      else y.startPhase t.tag c .fetch (.goto p) := by
  unfold firstPhase
  split
  case h_1 a aboard => exact absurd aboard (elsewhere a)
  case h_2 => simp only [place, Option.getD_some]

/-! ### Nudges (R64, R65) -/

theorem nudgeTarget_eq (y : Yard) (sp : Span) (c i : Nat) : y.nudgeTarget sp c i =
    if (if i < c then 0 < sp.first else 8 * (sp.last + 1) < y.rows.length) then
      some (if i < c then 8 * sp.first - 1 else 8 * (sp.last + 1))
    else none := by
  unfold nudgeTarget
  by_cases low : i < c
  · by_cases zero : sp.first = 0 <;> simp [low, zero]
  · simp [low]

theorem othersInside_empty_iff : (y.othersInside sp i).isEmpty = true ↔
    ∀ j x, j < y.settings.carriages → j ≠ i → (y.carriage j).position = some x →
      ¬(sp.first ≤ x / 8 ∧ x / 8 ≤ sp.last) := by
  rw [List.isEmpty_iff, List.eq_nil_iff_forall_not_mem]
  simp only [mem_othersInside]
  exact ⟨fun none j x there other at' within => none j ⟨there, other, x, at', within⟩,
    fun none j ⟨there, other, x, at', within⟩ => none j x there other at' within⟩

/-- The move of a carriage passes its checks (R65). -/
def nudgePasses (y : Yard) (sp : Span) (c i p : Nat) : Prop :=
  let target := if i < c then 8 * sp.first - 1 else 8 * (sp.last + 1)
  let path := spanOver p [target]
  (if i < c then 0 < sp.first else 8 * (sp.last + 1) < y.rows.length) ∧
    y.keepsOrder i target = true ∧ y.spanFree path = true ∧ (y.othersInside path i).isEmpty = true

theorem nudgeMove_of_passes {p : Nat} (at' : (y.carriage i).position = some p) (passes : y.nudgePasses sp c i p) :
    y.nudgeMove sp c i = some (if i < c then 8 * sp.first - 1 else 8 * (sp.last + 1),
      spanOver p [if i < c then 8 * sp.first - 1 else 8 * (sp.last + 1)]) := by
  obtain ⟨bound, order, free, alone⟩ := passes
  have target := (y.nudgeTarget_eq sp c i).trans (if_pos bound)
  simp only [nudgeMove, at', target, order, free, alone, Bool.and_self, if_true]

theorem nudgeMove_of_fails {p : Nat} (at' : (y.carriage i).position = some p) (fails : ¬y.nudgePasses sp c i p) :
    y.nudgeMove sp c i = none := by
  by_cases bound : if i < c then 0 < sp.first else 8 * (sp.last + 1) < y.rows.length
  · have target := (y.nudgeTarget_eq sp c i).trans (if_pos bound)
    simp only [nudgeMove, at', target]
    refine if_neg fun checks => fails ⟨bound, ?_⟩
    simpa [and_assoc] using checks
  · have target := (y.nudgeTarget_eq sp c i).trans (if_neg bound)
    simp only [nudgeMove, at', target]

theorem nudgeFirst_of_passes {p : Nat} (at' : (y.carriage i).position = some p) (passes : y.nudgePasses sp c i p)
    (rest : List Nat) : y.nudgeFirst sp c (i :: rest) =
      y.orderNudge i (if i < c then 8 * sp.first - 1 else 8 * (sp.last + 1))
        (spanOver p [if i < c then 8 * sp.first - 1 else 8 * (sp.last + 1)]) := by
  simp only [nudgeFirst, nudgeMove_of_passes at' passes]

theorem nudgeFirst_of_fails {p : Nat} (at' : (y.carriage i).position = some p) (fails : ¬y.nudgePasses sp c i p)
    (rest : List Nat) : y.nudgeFirst sp c (i :: rest) = y.nudgeFirst sp c rest := by
  simp only [nudgeFirst, nudgeMove_of_fails at' fails]

end Yard

/-- Settles O33: the pass and its walk, the carriage chosen, each judgment of an entry, the first phase of a grant, the first move
that passes, and the hold-off level. -/
theorem arbiterHolds : Obligations.ArbiterHolds := by
  refine ⟨fun y => ⟨Yard.arbiterPass_of_off, Yard.arbiterPass_of_on⟩,
    fun y held tag rest => ⟨rfl, fun unknown => Yard.walkTransfers_of_unknown unknown rest, fun t found =>
      ⟨fun begun => Yard.walkTransfers_of_begun found begun rest, fun waiting => Yard.walkTransfers_of_waiting found waiting rest⟩⟩,
    fun y t => ?choice, fun y held t => ?judged, fun y t c sp => ?grants, fun y sp c i rest => ⟨rfl, fun p at' => ?nudge⟩,
    fun y hand => ?holdoff⟩
  case choice =>
    intro stands free there
    refine ⟨fun c aboard => ?_, fun p elsewhere place => ?_, Yard.candidateSpan_of_nowhere, fun p place =>
      ⟨Yard.candidateSpan_of_place place, fun c q at' => Yard.candidateSpan_of_chosen place at'⟩⟩
    · rw [Yard.chooseCarriage_of_aboard aboard]
      exact ⟨fun rests => if_pos (Yard.aboard_chosen_iff.2 rests), fun busy => if_neg (busy ∘ Yard.aboard_chosen_iff.1)⟩
    · intro away chosen c
      have candidate (c d : Nat) : c < y.settings.carriages ∧ y.candidateDistance p c = some d ↔
          ∃ q, chosen c q ∧ away q = d := by
        rw [Yard.candidateDistance_some]
        exact ⟨fun ⟨inside, q, at', idle, way, far⟩ => ⟨q, ⟨inside, at', (Carriage.free_iff _).1 idle, way⟩, far⟩,
          fun ⟨q, ⟨inside, at', idle, way⟩, far⟩ => ⟨inside, q, at', (Carriage.free_iff _).2 idle, way, far⟩⟩
      rw [Yard.chooseCarriage_of_place elsewhere place, Yard.carriageList, nearest_range_some]
      constructor
      · rintro ⟨inside, d, far, least⟩
        obtain ⟨q, picked, rfl⟩ := (candidate c d).1 ⟨inside, far⟩
        refine ⟨q, picked, fun j x other => ?_⟩
        obtain ⟨insideToo, farToo⟩ := (candidate j _).2 ⟨x, other, rfl⟩
        exact least j _ insideToo farToo
      · rintro ⟨q, picked, least⟩
        obtain ⟨inside, far⟩ := (candidate c _).2 ⟨q, picked, rfl⟩
        refine ⟨inside, away q, far, fun j e insideToo farToo => ?_⟩
        obtain ⟨x, other, rfl⟩ := (candidate j e).1 ⟨insideToo, farToo⟩
        exact least j x other
  case judged =>
    refine ⟨Yard.judgeTransfer_of_nowhere, fun sp => Yard.judgeTransfer_of_unchosen, fun c sp chosen span => ?_⟩
    intro behind clear within movable
    have judged := Yard.judgeTransfer_of_chosen (held := held) chosen span
    have free : y.spanFree sp = true ↔ clear := y.spanFree_iff sp
    have inWay (i : Nat) : i ∈ y.othersInside sp c ↔ within i := y.mem_othersInside sp c i
    have moves (i : Nat) : (y.carriage i).free = true ↔ movable i := Carriage.free_iff _
    have empty : (y.othersInside sp c).isEmpty = true ↔ ∀ i, ¬within i := by
      rw [List.isEmpty_iff, List.eq_nil_iff_forall_not_mem]
      exact forall_congr' fun i => not_congr (inWay i)
    refine ⟨fun before => judged.trans (if_pos (Yard.heldBefore_iff.2 before)), fun first off => ?_,
      fun first spanClear low => ⟨fun alone => ?_, fun ⟨i, blocks, stuck⟩ => ?_, fun ⟨i, blocks⟩ all => ?_⟩⟩
    · have off' : y.spanFree sp = false ∨ y.seen 4 = true := off.imp (fun taken => Bool.eq_false_iff.2 (taken ∘ free.1)) id
      refine judged.trans ((if_neg (first ∘ Yard.heldBefore_iff.1)).trans ((if_neg ?_).trans ?_))
      · obtain h | h := off' <;> simp [h]
      · rw [Yard.blockedNudge_of_off off']
    · refine judged.trans ((if_neg (first ∘ Yard.heldBefore_iff.1)).trans (if_pos ?_))
      simp only [free.2 spanClear, empty.2 alone, low, Bool.not_false, Bool.and_self]
    · have notAlone : ¬(y.othersInside sp c).isEmpty = true := fun h => empty.1 h i blocks
      refine judged.trans ((if_neg (first ∘ Yard.heldBefore_iff.1)).trans ((if_neg (by simp [notAlone])).trans ?_))
      rw [Yard.blockedNudge_of_stuck ⟨i, (inWay i).2 blocks, stuck ∘ (moves i).1⟩]
    · have notAlone : ¬(y.othersInside sp c).isEmpty = true := fun h => empty.1 h i blocks
      refine ⟨_, y.othersInside_sorted sp c, inWay, judged.trans ((if_neg (first ∘ Yard.heldBefore_iff.1)).trans
        ((if_neg (by simp [notAlone])).trans ?_))⟩
      rw [Yard.blockedNudge_of_movable (free.2 spanClear) low fun i mem => (moves i).2 (all i ((inWay i).1 mem))]
  case grants =>
    intro taken begun at_ there fixed
    have position : (taken.carriage c).position = at_ := y.position_grantTaken t c sp
    have destination : taken.destinationPosition t = there := Yard.destinationPosition_grantTaken fixed
    have granted {z : Yard} (phase : taken.firstPhase t c = z) : y.grant t c sp = z.judgeHoldoff Yard.handQuiet :=
      congrArg (Yard.judgeHoldoff Yard.handQuiet) phase
    refine ⟨fun a aboard stands => ?_, fun a aboard stands => ?_, fun p elsewhere place => ⟨fun stands => ?_, fun stands => ?_⟩⟩
    · refine granted ((Yard.firstPhase_of_aboard aboard).trans (if_pos ?_))
      rw [position, destination]
      exact stands
    · refine granted ((Yard.firstPhase_of_aboard aboard).trans ((if_neg ?_).trans ?_))
      · rw [position, destination]
        exact stands
      · rw [destination]
        rfl
    · have placed : taken.placePosition t.source = some p := (Yard.placePosition_congr (y := y) (z := taken) rfl elsewhere).trans place
      exact granted ((Yard.firstPhase_of_place elsewhere placed).trans (if_pos (position.trans stands)))
    · have placed : taken.placePosition t.source = some p := (Yard.placePosition_congr (y := y) (z := taken) rfl elsewhere).trans place
      refine granted ((Yard.firstPhase_of_place elsewhere placed).trans (if_neg ?_))
      rw [position]
      exact stands
  case nudge =>
    intro target path passes
    have same : passes ↔ y.nudgePasses sp c i p := by
      have bound : (if i < c then 0 < sp.first else target < y.rows.length) ↔
          (if i < c then 0 < sp.first else 8 * (sp.last + 1) < y.rows.length) := by
        by_cases low : i < c
        · simp only [low, if_true]
        · simp only [target, low, if_false]
      unfold Yard.nudgePasses
      exact and_congr bound (and_congr Yard.keepsOrder_iff.symm
        (and_congr (Yard.spanFree_iff y path).symm Yard.othersInside_empty_iff.symm))
    exact ⟨fun yes => Yard.nudgeFirst_of_passes at' (same.1 yes) rest, fun no => Yard.nudgeFirst_of_fails at' (no ∘ same.2) rest⟩
  case holdoff =>
    intro level changed told
    exact ⟨fun same => if_pos same, fun changes => if_neg changes⟩

end Sys2Proof.Machine

/-! SUPPORT. The Alert Matrix (R105 to R114): sources, lanes and listeners, what an edge does at one listener and at several, the
requests that move a lane or a listener, and the alarm inputs. -/

namespace Sys2Proof.Machine

/-! ### Alarm inputs (R106, R111) -/

namespace Filter

variable {f : Filter} {x : Bool}

theorem take_of_same (h : x = f.level) : f.take x = ⟨f.level, x, false⟩ := if_pos h

theorem take_of_first (h : x ≠ f.level) (first : f.started = false) : f.take x = ⟨f.level, x, true⟩ :=
  (if_neg h).trans (if_neg (Bool.eq_false_iff.1 first))

theorem take_of_second (h : x ≠ f.level) (second : f.started = true) : f.take x = ⟨x, x, false⟩ :=
  (if_neg h).trans (if_pos second)

end Filter

/-- Two things in a free order are taken one way or the other. -/
theorem Yard.inFreeOrder_pair (y : Yard) (a b : Nat) (act : Nat → Yard → Yard) : ∃ draws,
    y.inFreeOrder [a, b] act = act b (act a { y with freeCount := draws }) ∨
      y.inFreeOrder [a, b] act = act a (act b { y with freeCount := draws }) := by
  obtain ⟨order, draws, perm, same⟩ := y.inFreeOrder_spec [a, b] act
  refine ⟨draws, ?_⟩
  obtain ordered | reversed := List.perm_pair.1 perm
  · exact .inl (by rw [same, ordered]; rfl)
  · exact .inr (by rw [same, reversed]; rfl)

/-- Settles O39: the filter's three cases, and a sample by which of the two levels it changes. -/
theorem alertTime : Obligations.AlertTime := by
  refine ⟨fun f x => ⟨Filter.take_of_same, Filter.take_of_first, Filter.take_of_second⟩, fun s running between => ?_⟩
  intro w d
  refine ⟨fun a b => ?_, ?_, ?_⟩
  · intro fw fd stand take
    have sampled {z : Yard} (effect : s.yard.sampleInputs a b = z) :
        exec (.alarmInputSample a b) s = .next (s.afterEvent z) :=
      congrArg Host.Outcome.next (State.event_effect running effect)
    have changes : s.yard.sampleInputs a b = stand.inFreeOrder
        ((if fw.level = w.level then [] else [1]) ++ if fd.level = d.level then [] else [2]) (Yard.lineTakes fw fd) := rfl
    refine ⟨fun sameW sameD => ?_, fun newW sameD => ?_, fun sameW newD => ?_, fun newW newD => ?_⟩
    · rw [if_pos sameW, if_pos sameD] at changes
      exact (sampled changes).trans (congrArg Host.Outcome.next (State.afterEvent_same between))
    · rw [if_neg newW, if_pos sameD] at changes
      exact sampled changes
    · rw [if_pos sameW, if_neg newD] at changes
      exact sampled changes
    · rw [if_neg newW, if_neg newD] at changes
      obtain ⟨draws, order | order⟩ := stand.inFreeOrder_pair 1 2 (Yard.lineTakes fw fd)
      · exact ⟨draws, .inl (sampled (changes.trans order))⟩
      · exact ⟨draws, .inr (sampled (changes.trans order))⟩
  · exact congrArg Host.Outcome.next ((State.event_running running _).trans (State.afterEvent_same between))
  · exact congrArg Host.Outcome.next ((State.event_running running _).trans (State.afterEvent_same between))

namespace Yard

variable {y z : Yard} {e : Edge} {i : Nat}

/-! ### Sources, lanes and listeners (R105, R107, R109, R111) -/

theorem sourceLevel_parked : y.sourceLevel 11 = true ↔ y.storm.state = .parked := beq_iff_eq

theorem sourceLevel_exposed : y.sourceLevel 13 = true ↔ ∃ w ∈ y.rows, w.custody = .exposed := by
  simp [sourceLevel, anyExposed]

theorem sourceLevel_other {n : Nat} (h : n ≠ 1 ∧ n ≠ 2 ∧ n ≠ 7 ∧ n ≠ 10 ∧ n ≠ 11 ∧ n ≠ 13) : y.sourceLevel n = false := by
  unfold sourceLevel
  split
  case h_7 => rfl
  all_goals omega

theorem seen_of_none (h : y.alerts.listeners.getD i 0 = 0) : y.seen i = false := by
  simp only [seen, selection, h]

theorem seen_of_lane {l : Nat} (h : y.alerts.listeners.getD i 0 = l + 1) : y.seen i = y.laneLevel l := by
  simp only [seen, selection, h]

section Following

variable {src : Nat} {hand : Edge → List Nat → Yard → Yard}

theorem followWith_of_same (h : y.sourceLevel src = z.sourceLevel src) : followWith hand src y z = z := if_pos h

theorem followWith_of_rise (low : y.sourceLevel src = false) (high : z.sourceLevel src = true) :
    followWith hand src y z = hand .rise (z.listenersOfSource src) z := by
  rw [followWith, if_neg (by simp [low, high]), if_pos high]

theorem followWith_of_fall (high : y.sourceLevel src = true) (low : z.sourceLevel src = false) :
    followWith hand src y z = hand .fall (z.listenersOfSource src) z := by
  rw [followWith, if_neg (by simp [low, high]), if_neg (Bool.eq_false_iff.1 low)]

end Following

/-! ### An edge at one listener (R109) -/

/-- At a listener that does not act in a free order, an edge stretches an output line or gives an assignment event. -/
theorem hand_idle (h : e.actsOn i = false) (y : Yard) : hand e [i] y =
    if e = .fall ∧ i = 2 then (if e = .pulse then y.stretch [i] else y).giveAssign
    else if e = .pulse then y.stretch [i] else y := by
  have last : ¬(e = .fall ∧ [i].contains 4 = true ∧ y.freezeLast = true) := by
    rintro ⟨rfl, four, -⟩
    obtain rfl : 4 = i := by simpa using four
    simp [Edge.actsOn] at h
  have two : (e = .fall ∧ [i].contains 2 = true) ↔ (e = .fall ∧ i = 2) := by simp [eq_comm]
  unfold hand handWith
  simp only [if_neg last, List.filter, h, Bool.false_and, two]
  rfl

theorem hand_idle_of_quiet (h : e.actsOn i = false) (five : i ≠ 5) (six : i ≠ 6) (two : ¬(e = .fall ∧ i = 2)) :
    hand e [i] y = y := by
  rw [hand_idle h, if_neg two, stretch_none y five six, ite_self]

theorem hand_watch_rise (y : Yard) : hand .rise [0] y = y.watchRises := hand_one (i := 0) rfl y

theorem hand_watch_fall (y : Yard) : hand .fall [0] y = y.watchFalls := hand_one (i := 0) rfl y

theorem hand_suspend (e : Edge) (y : Yard) : hand e [2] y = if e = .fall then y.giveAssign else y := by
  rw [hand_idle (by cases e <;> rfl), stretch_none y (by decide) (by decide), ite_self]
  simp

theorem hand_freeze (e : Edge) (y : Yard) : hand e [4] y = if e = .fall then y.arbiterPass else y := by
  by_cases fall : e = .fall
  · subst fall
    exact hand_one rfl y
  · rw [if_neg fall]
    have idle : e.actsOn 4 = false := by
      cases e
      case fall => exact absurd rfl fall
      all_goals rfl
    exact hand_idle_of_quiet idle (by decide) (by decide) (by simp)

theorem hand_outA (e : Edge) (y : Yard) : hand e [5] y =
    if e = .pulse then { y with alerts := { y.alerts with stretchA := true } } else y := by
  rw [hand_idle (by cases e <;> rfl), if_neg (by simp)]
  simp [stretch]

theorem hand_outB (e : Edge) (y : Yard) : hand e [6] y =
    if e = .pulse then { y with alerts := { y.alerts with stretchB := true } } else y := by
  rw [hand_idle (by cases e <;> rfl), if_neg (by simp)]
  simp [stretch]

/-- A rise, a pulse or a test edge acts on the edge listeners. -/
theorem actsOn_edge (h : e = .rise ∨ e = .pulse ∨ e = .test) (listener : i = 1 ∨ i = 3 ∨ i = 7 ∨ i = 8 ∨ i = 9) :
    e.actsOn i = true := by
  obtain rfl | rfl | rfl := h <;> obtain rfl | rfl | rfl | rfl | rfl := listener <;> rfl

theorem hand_stow (h : e = .rise ∨ e = .pulse ∨ e = .test) (y : Yard) :
    hand e [1] y = y.stowEdge ⟨y.laneOf 1, e == .test⟩ := hand_one (actsOn_edge h (by decide)) y

theorem hand_sweep (h : e = .rise ∨ e = .pulse ∨ e = .test) (y : Yard) : hand e [3] y = y.makeSweep.1 :=
  hand_one (actsOn_edge h (by decide)) y

theorem hand_note (h : e = .rise ∨ e = .pulse ∨ e = .test) (y : Yard) :
    hand e [7] y = y.noteAlert .plant (y.laneOf 7) (e == .test) ∧
    hand e [8] y = y.noteAlert .tracker (y.laneOf 8) (e == .test) ∧
    hand e [9] y = y.noteAlert .fleet (y.laneOf 9) (e == .test) :=
  ⟨hand_one (actsOn_edge h (by decide)) y, hand_one (actsOn_edge h (by decide)) y, hand_one (actsOn_edge h (by decide)) y⟩

theorem hand_fall_of_edgeListener (listener : i = 1 ∨ i = 3 ∨ 7 ≤ i) : hand .fall [i] y = y := by
  have idle : Edge.fall.actsOn i = false := by
    simp only [Edge.actsOn, Bool.or_eq_false_iff, beq_eq_false_iff_ne]
    omega
  exact hand_idle_of_quiet idle (by omega) (by omega) (by omega)

/-! ### An edge at several listeners -/

/-- The listeners that act in a free order each do what they do alone. -/
theorem hand_order (e : Edge) (listeners : List Nat) (y : Yard) :
    let stretched := if e = .pulse then y.stretch listeners else y
    let given := if e = .fall ∧ 2 ∈ listeners then stretched.giveAssign else stretched
    ∃ (order : List Nat) (draws : Nat), order.Perm (listeners.filter fun i => e.actsOn i && !(i == 4 && y.freezeLast)) ∧
      let acted := order.foldl (fun z i => hand e [i] z) { given with freeCount := draws }
      hand e listeners y = if e = .fall ∧ 4 ∈ listeners ∧ y.freezeLast = true then acted.arbiterPass else acted := by
  intro stretched given
  obtain ⟨order, draws, perm, drawn⟩ := given.inFreeOrder_spec
    (listeners.filter fun i => e.actsOn i && !(i == 4 && y.freezeLast)) (listenerActs stowEdge arbiterPass e)
  refine ⟨order, draws, perm, ?_⟩
  have acts (i : Nat) (mem : i ∈ order) : e.actsOn i = true := by
    have both := (List.mem_filter.1 (perm.mem_iff.1 mem)).2
    rw [Bool.and_eq_true] at both
    exact both.1
  have one : order.foldl (fun z i => listenerActs stowEdge arbiterPass e i z) { given with freeCount := draws } =
      order.foldl (fun z i => hand e [i] z) { given with freeCount := draws } :=
    List.foldl_ext _ _ _ fun z i mem => (hand_one (acts i mem) z).symm
  intro acted
  have handed : hand e listeners y = if e = .fall ∧ listeners.contains 4 = true ∧ y.freezeLast = true then
      ((if e = .fall ∧ listeners.contains 2 = true then stretched.giveAssign else stretched).inFreeOrder
        (listeners.filter fun i => e.actsOn i && !(i == 4 && y.freezeLast)) (listenerActs stowEdge arbiterPass e)).arbiterPass
    else (if e = .fall ∧ listeners.contains 2 = true then stretched.giveAssign else stretched).inFreeOrder
        (listeners.filter fun i => e.actsOn i && !(i == 4 && y.freezeLast)) (listenerActs stowEdge arbiterPass e) := rfl
  simp only [List.contains_iff_mem] at handed
  rw [handed, show (if e = .fall ∧ 2 ∈ listeners then stretched.giveAssign else stretched) = given from rfl, drawn, one]

/-! ### The change to WARNED (R19, R95) -/

theorem endFlatten_of_flattening {r : Nat} (h : (y.row r).custody = .flattening) : endFlatten r y =
    (y.settleRow r).setEntry r fun e => if e.stage = .flattening then { e with stage := .claiming } else e := if_pos h

/-! ### Requests (R108, R110, R113) -/

theorem takeSetLane_of_range {body : List Byte} (h : 7 < byteAt body 0 ∨ 17 < byteAt body 1 ∨
    (4 ≤ byteAt body 0 ∧ 1 ≤ byteAt body 1 ∧ byteAt body 1 ≤ 7)) : y.takeSetLane body = (y, .refuse .range) := by
  by_cases outside : 7 < byteAt body 0 ∨ 17 < byteAt body 1
  · exact if_pos outside
  · exact (if_neg outside).trans (if_pos (by omega))

theorem takeSetLane_of_fits {body : List Byte} (lane : byteAt body 0 ≤ 7) (source : byteAt body 1 ≤ 17)
    (kind : byteAt body 0 ≤ 3 ∨ byteAt body 1 = 0 ∨ 8 ≤ byteAt body 1) : y.takeSetLane body =
      let wired := { y with alerts := { y.alerts with lanes := y.alerts.lanes.set (byteAt body 0) (byteAt body 1) } }
      (if y.laneLevel (byteAt body 0) = wired.laneLevel (byteAt body 0) then wired
        else hand (if wired.laneLevel (byteAt body 0) then .rise else .fall) (wired.listenersOf (byteAt body 0)) wired, .ok []) :=
  (if_neg (by omega)).trans (if_neg (by omega))

/-- A newly selected watch hands the edge that its change of level is (R110). -/
theorem judgeWatch_eq (y : Yard) : y.judgeWatch = hand (if y.seen 0 then .rise else .fall) [0] y := by
  unfold judgeWatch
  cases y.seen 0
  · exact (hand_watch_fall y).symm
  · exact (hand_watch_rise y).symm

theorem selectionActs_of_edge (listener : i = 1 ∨ i = 3 ∨ i = 7 ∨ i = 8 ∨ i = 9) : y.selectionActs i z = z := by
  obtain rfl | rfl | rfl | rfl | rfl := listener <;> rfl

theorem takeSetListener_of_change {body : List Byte} (listener : byteAt body 0 ≤ 9) (lane : byteAt body 1 ≤ 8)
    (other : y.selection (byteAt body 0) ≠ byteAt body 1) : y.takeSetListener body = (y.selectionActs (byteAt body 0)
      { y with alerts := { y.alerts with listeners := y.alerts.listeners.set (byteAt body 0) (byteAt body 1) } }, .ok []) :=
  (if_neg (by omega)).trans (if_neg other)

end Yard

/-- Settles O38: the requests by their ranges and the levels they change, an edge at one listener and at several, and the levels. -/
theorem alertRequests : Obligations.AlertRequests := by
  refine ⟨fun p body s between => ?requests, fun y e => ?one, fun y e listeners => Yard.hand_order e listeners y,
    fun y r there => ?flatten, fun y z src hand => ?levels⟩
  case flatten =>
    refine ⟨fun other => if_neg other, fun flat => ?_⟩
    rw [Yard.endFlatten_of_flattening flat]
    refine ⟨Yard.row_settleRow there, fun q other => Yard.row_settleRow_ne other, fun e entry => ?_⟩
    refine Yard.entryOf_setEntry (y := y.settleRow r)
      (f := fun e => if e.stage = .flattening then { e with stage := .claiming } else e) entry fun e => ?_
    split <;> rfl
  case levels =>
    intro carrying
    refine ⟨rfl, Yard.followWith_of_same, Yard.followWith_of_rise, Yard.followWith_of_fall,
      ⟨rfl, rfl, rfl, rfl, Yard.sourceLevel_parked, Yard.sourceLevel_exposed, fun n => Yard.sourceLevel_other⟩, fun l => rfl,
      fun i => ⟨Yard.seen_of_none, fun l => Yard.seen_of_lane⟩, Bool.or_eq_true _ _ |>.to_iff, Bool.or_eq_true _ _ |>.to_iff⟩
  case one =>
    intro edge test note
    refine ⟨fun rise => ?_, fun fall => ?_, fun quiet => ?_, fun sharp => Yard.hand_stow sharp y, Yard.hand_suspend e y,
      fun sharp => Yard.hand_sweep sharp y, Yard.hand_freeze e y, Yard.hand_outA e y, Yard.hand_outB e y,
      fun sharp => Yard.hand_note sharp y, fun fall i listener => ?_⟩
    · subst rise
      exact Yard.hand_watch_rise y
    · subst fall
      exact Yard.hand_watch_fall y
    · obtain rfl | rfl := quiet <;> exact Yard.hand_idle_of_quiet rfl (by decide) (by decide) (by decide)
    · subst fall
      exact Yard.hand_fall_of_edgeListener listener
  case requests =>
    intro a b wired chosen
    refine ⟨fun taken => ?raise, fun taken lane source kind => ?setLane, fun taken outside => ?setLaneRange,
      fun taken listener lane same => ?setSame, fun taken listener lane other => ?setOther, fun taken outside => ?setRange,
      fun taken lane => ?test, fun taken outside => ?testRange⟩
    case raise =>
      refine exec_onYard (k := .raiseAlert) taken rfl ?_
      cases p <;> rfl
    case setLane =>
      have effect := Yard.takeSetLane_of_fits (y := s.yard) lane source kind
      refine ⟨fun same => exec_onYard_quiet (k := .setLane) taken rfl (effect.trans ?_) between,
        fun low high => exec_onYard (k := .setLane) taken rfl (effect.trans ?_),
        fun high low => exec_onYard (k := .setLane) taken rfl (effect.trans ?_)⟩
      · exact congrArg (·, Reply.ok []) (if_pos same)
      · refine congrArg (·, Reply.ok []) ((if_neg ?_).trans ?_)
        · exact fun same => Bool.false_ne_true (low.symm.trans (same.trans high))
        · rw [if_pos high]
      · refine congrArg (·, Reply.ok []) ((if_neg ?_).trans ?_)
        · exact fun same => Bool.false_ne_true (low.symm.trans (same.symm.trans high))
        · rw [if_neg (Bool.eq_false_iff.1 low)]
    case setLaneRange => exact exec_onYard_same (k := .setLane) taken rfl between (Yard.takeSetLane_of_range outside)
    case setSame =>
      have inRange : ¬(9 < byteAt body 0 ∨ 8 < byteAt body 1) := not_or.2 ⟨Nat.not_lt.2 listener, Nat.not_lt.2 lane⟩
      exact exec_onYard_same (k := .setListener) taken rfl between ((if_neg inRange).trans (if_pos same))
    case setOther =>
      have effect := Yard.takeSetListener_of_change (y := s.yard) listener lane other
      have acts {z : Yard} (does : s.yard.selectionActs a chosen = z) : s.yard.takeSetListener body = (z, .ok []) :=
        effect.trans (congrArg (·, Reply.ok []) does)
      have selected {n : Nat} (h : a = n) : s.yard.selectionActs a chosen = s.yard.selectionActs n chosen :=
        congrArg (Yard.selectionActs s.yard · chosen) h
      refine ⟨fun edge => exec_onYard_quiet (k := .setListener) taken rfl (acts (Yard.selectionActs_of_edge edge)) between,
        fun watch => exec_onYard (k := .setListener) taken rfl (acts ((selected watch).trans ?_)),
        fun suspend => exec_onYard (k := .setListener) taken rfl (acts ((selected suspend).trans ?_)),
        fun freeze => exec_onYard (k := .setListener) taken rfl (acts ((selected freeze).trans ?_)),
        fun outA => exec_onYard_quiet (k := .setListener) taken rfl (acts (selected outA)) between,
        fun outB => exec_onYard_quiet (k := .setListener) taken rfl (acts (selected outB)) between⟩
      · rw [← Yard.judgeWatch_eq]
        rfl
      · exact if_congr (by simp) rfl rfl
      · exact if_congr (by simp) rfl rfl
    case setRange => exact exec_onYard_same (k := .setListener) taken rfl between (if_pos outside)
    case test => exact exec_onYard (k := .testPulse) taken rfl (if_neg (Nat.not_lt.2 lane))
    case testRange => exact exec_onYard_same (k := .testPulse) taken rfl between (if_pos outside)

end Sys2Proof.Machine

/-! SUPPORT. Fleet Restart (R200, R28, R50, R78, R104): the steps of its walk over the rows, the list, the rail and the robots. -/

namespace Sys2Proof.Machine

/-- What an outcome keeps of a state: a yard that keeps the configuration, with no assignment due, and an answer. -/
theorem answered_keeps {s : State} {z : Yard} {outcome : Host.Outcome State Fault Refusal} {p : Port} {kind : Byte}
    {reply : Reply} (kept : Keeps s.yard z)
    (is : outcome = .next ((s.withYard { z with assign := false }).answered p kind reply)) :
    ∃ t, outcome = .next t ∧ t.links = (s.answered p kind reply).links ∧ t.met = s.met ∧ t.accounts = s.accounts ∧
      t.loader = s.loader ∧ t.yard.settings = s.yard.settings ∧ t.yard.fences = s.yard.fences ∧
      t.yard.alerts.lanes = s.yard.alerts.lanes ∧ t.yard.alerts.listeners = s.yard.alerts.listeners ∧
      t.yard.stamp = s.yard.stamp ∧ t.yard.robots.map (·.enrolled) = s.yard.robots.map (·.enrolled) :=
  ⟨_, is, rfl, rfl, rfl, rfl, kept.settings, kept.fences, kept.lanes, kept.listeners, kept.stamp, kept.enrolled⟩

namespace Yard

variable {y : Yard} {n r : Nat}

/-! ### The rows and the list (R28, R104) -/

/-- What is left of the list where the rows of the entries are removed in turn. -/
theorem removeEntries_mem (l : List Entry) (y : Yard) :
    ∀ x ∈ (l.foldl (fun z (e : Entry) => z.removeEntry e.row) y).rounds.list,
      x ∈ y.rounds.list ∧ ∀ e ∈ l, x.row ≠ e.row := by
  induction l generalizing y with
  | nil => exact fun x mem => ⟨mem, fun _ none => absurd none List.not_mem_nil⟩
  | cons e l ih =>
    intro x mem
    obtain ⟨left, others⟩ := ih (y.removeEntry e.row) x mem
    rw [removeEntry_list, List.mem_filter, bne_iff_ne] at left
    exact ⟨left.1, List.forall_mem_cons.2 ⟨left.2, others⟩⟩

theorem emptyList_list (y : Yard) : y.emptyList.rounds.list = [] := by
  refine List.eq_nil_iff_forall_not_mem.2 fun x mem => ?_
  obtain ⟨old, removed⟩ := removeEntries_mem y.rounds.list y x mem
  exact removed x old rfl

/-! ### The rail (R50, R78) -/

theorem restartCarriage_of_order (h : (y.carriage n).order.isSome = true) : restartCarriage n y =
    (y.orderCarriage n .stay).setCarriage n fun w => { w with task := none } := by
  rw [restartCarriage, if_pos h]

theorem restartCarriage_of_none (h : (y.carriage n).order = none) :
    restartCarriage n y = y.setCarriage n fun w => { w with task := none } := by
  rw [restartCarriage, if_neg (by simp [h])]

theorem carriage_restartCarriage_ne {c : Nat} (h : c ≠ n) : (restartCarriage n y).carriage c = y.carriage c := by
  unfold restartCarriage
  split
  · exact (carriage_setCarriage_ne _ h _).trans (carriage_setCarriage_ne y h _)
  · exact carriage_setCarriage_ne y h _

theorem reservation_restartRail {seg : Nat} {v : Reservation} :
    y.restartRail.reservation seg = some v ↔ y.reservation seg = some v ∧ v.cause = .fault := by
  have filtered : y.restartRail.reservation seg = (y.reservation seg).filter fun x => x.cause == .fault := by
    simp only [reservation, restartRail, List.getD_eq_getElem?_getD, List.getElem?_map]
    cases y.rail.segments[seg]? <;> rfl
  rw [filtered, Option.filter_eq_some_iff, beq_iff_eq]

/-! ### The answer (R50) -/

/-- The three counts of the answer, with any test that finds the enrolled robots in a pass. -/
theorem restartCounts_eq {test : Robot → Bool} (same : ∀ b, (b.enrolled && Robot.onPass b) = test b) : y.restartCounts =
    [byte y.rail.queue.length, byte ((List.range y.settings.carriages).countP fun c => (y.carriage c).order.isSome),
      byte (y.robots.countP test)] := by
  rw [← funext same]
  rfl

/-! ### The robots (R50) -/

/-- The yard where robot `k` has its order or its task of a Fleet Restart. -/
def restartWork (k : Nat) (y : Yard) : Yard :=
  match (y.robot k).place with
  | .midrow r => if (y.robot k).order.isSome then y.sendHome k r else y
  | _ => if y.enrolled k then y.restRobot k else y

theorem restartRobot_eq (k : Nat) (y : Yard) :
    restartRobot k y = (restartWork k y).setRobot k fun b => { b with roundLink := none } := rfl

theorem restartWork_keeps (k : Nat) (y : Yard) : Keeps y (restartWork k y) := by
  unfold restartWork
  split
  · split
    · exact Keeps.sendHome _ _ _
    · exact Keeps.refl _
  · split
    · exact Keeps.restRobot _ _
    · exact Keeps.refl _

theorem restartWork_of_table (place : (y.robot n).place = .midrow r) (order : (y.robot n).order.isSome = true) :
    restartWork n y = y.sendHome n r := by
  simp only [restartWork, place, order, if_true]

theorem restartWork_of_elsewhere (place : ∀ r, (y.robot n).place ≠ .midrow r) (enrolled : y.enrolled n = true) :
    restartWork n y = y.restRobot n := by
  unfold restartWork
  split
  case h_1 r table => exact absurd table (place r)
  case h_2 => exact if_pos enrolled

theorem restartRobot_rounds (k : Nat) (y : Yard) : (restartRobot k y).rounds = (restartWork k y).rounds := rfl

theorem robot_restartRobot (slot : n < y.robots.length) :
    (restartRobot n y).robot n = { (restartWork n y).robot n with roundLink := none } := by
  rw [restartRobot_eq, robot_setRobot_same _ (by rwa [Keeps.robots_length (restartWork_keeps n y)])]

theorem place_sendHome (slot : n < y.robots.length) (r : Nat) : ((y.sendHome n r).robot n).place = (y.robot n).place := by
  have slotToo : n < (y.passEnds n).robots.length := by rwa [passEnds_robots_length]
  cases order : (y.robot n).order with
  | none =>
    have given : y.sendHome n r = y.orderHome n r := by
      simp only [sendHome, order]
      rfl
    rw [given, robot_orderHome slot]
  | some o =>
    obtain ⟨kind, serial⟩ := o
    cases kind with
    | toGarage q => rw [sendHome_of_home order]
    | pass q kind =>
      rw [sendHome_of_pass order, robot_orderHome slotToo]
      exact robot_passEnds_keeps (g := Robot.place) (fun _ => rfl) y n n

theorem place_restartWork (slot : n < y.robots.length) : ((restartWork n y).robot n).place = (y.robot n).place := by
  unfold restartWork
  split
  · split
    · exact place_sendHome slot _
    · rfl
  · split
    · exact robot_setRobot_keeps (g := Robot.place) (f := fun b => { b with task := b.restTask }) (fun _ => rfl) y n n
    · rfl

/-- A robot superseded in its pass goes home: its order, its task and the count (R35, R98). -/
theorem sendHome_facts {q serial : Nat} {kind : PassKind} (slot : n < y.robots.length)
    (pass : (y.robot n).order = some ⟨.pass q kind, serial⟩) (r : Nat) :
    ((y.sendHome n r).robot n).order = some ⟨.toGarage r, ((y.robot n).lastSerial + 1) % 256⟩ ∧
      ((y.sendHome n r).robot n).task = .toGarage ∧
      (y.sendHome n r).rounds.counters.passesAborted = bump y.rounds.counters.passesAborted := by
  rw [sendHome_of_pass pass, robot_orderHome (by rwa [passEnds_robots_length]),
    robot_passEnds_keeps (g := Robot.lastSerial) fun _ => rfl]
  exact ⟨rfl, rfl, passEnds_passesAborted y n⟩

end Yard

/-- Settles O55: the restart as the chain of its steps, refused in a storm, and what each step does. -/
theorem fleetRestartTaken : Obligations.FleetRestartTaken := by
  refine ⟨fun p body s taken => ⟨fun storm => ?refused, fun mild => ?restarts⟩, fun y n => ?steps⟩
  case refused => exact exec_takes (k := .fleetRestart) taken (if_neg (Bool.eq_false_iff.1 storm))
  case restarts =>
    intro y counts rowsDone queueDone railDone
    have answer : s.yard.restartCounts = counts := Yard.restartCounts_eq fun _ => rfl
    clear_value counts
    have exec_is : exec (.fleetRestart p body) s =
        .next ((s.withYard { y.restartFleet with assign := false }).answered p 0x84 (.ok counts)) :=
      exec_takes (k := .fleetRestart) taken ((if_pos mild).trans (by rw [answer]; rfl))
    exact ⟨exec_is, answered_keeps (Keeps.restartFleet y) exec_is⟩
  case steps =>
    refine ⟨fun there => ⟨fun claimed => ?_, Yard.settleClaimed_of_unclaimed, fun q => Yard.row_settleClaimed_ne⟩,
      y.emptyList_list, fun there => ⟨fun o order => ?_, fun none => ?_, fun c => Yard.carriage_restartCarriage_ne⟩, rfl,
      ⟨rfl, rfl⟩, fun seg v => Yard.reservation_restartRail, fun slot => ?_⟩
    · rw [Yard.settleClaimed_of_claimed claimed, Yard.row_settleRow there]
    · rw [Yard.restartCarriage_of_order (by simp [order]),
        Yard.carriage_setCarriage_same _ (by simpa [Yard.orderCarriage] using there),
        Yard.carriage_orderCarriage there]
    · rw [Yard.restartCarriage_of_none none, Yard.carriage_setCarriage_same y there]
    · intro z
      have robot : z.robot n = _ := Yard.robot_restartRobot slot
      rw [robot]
      refine ⟨rfl, Yard.place_restartWork slot, fun r q kind serial place pass => ?_, fun r q serial place home => ?_,
        fun elsewhere enrolled => ?_⟩
      · have work : Yard.restartWork n y = y.sendHome n r := Yard.restartWork_of_table place (by simp [pass])
        obtain ⟨order, task, aborted⟩ := Yard.sendHome_facts slot pass r
        rw [← work] at order task aborted
        exact ⟨order, task, aborted⟩
      · have work : Yard.restartWork n y = y :=
          (Yard.restartWork_of_table place (by simp [home])).trans (Yard.sendHome_of_home home)
        exact ⟨congrArg (fun z : Yard => (z.robot n).order) work,
          (Yard.restartRobot_rounds n y).trans (congrArg Yard.rounds work)⟩
      · have work := Yard.restartWork_of_elsewhere elsewhere enrolled
        have rounds : (Yard.restartWork n y).rounds = y.rounds := by rw [work]; rfl
        refine ⟨?_, (Yard.restartRobot_rounds n y).trans rounds⟩
        exact (congrArg (fun z : Yard => (z.robot n).task) work).trans
          (congrArg Robot.task (y.robot_setRobot_same slot fun b => { b with task := b.restTask }))

end Sys2Proof.Machine
